-- ==== Sys2Proof/Word.lean ====
section
/-! DEFINITION. The machine words of the S8 and the numbers of its fixed places: channels, slots, edit buffers and
profiles (R1, R22, R86, R156). -/

namespace Sys2Proof

/-- One byte of a frame, of a link message or of a stored configuration. -/
abbrev Byte := BitVec 8

/-- A 16-bit quantity: a tag, a check value, an edition. -/
abbrev Half := BitVec 16

/-- A 32-bit quantity: a capture number, a raw count, a frame value. -/
abbrev Word := BitVec 32

/-- A channel number, 0 to 7 (R1). -/
abbrev ChannelNo := Fin 8

/-- A slot number, 0 to 15 (R22). -/
abbrev SlotNo := Fin 16

/-- An edit buffer number, 0 to 3 (R86). -/
abbrev BufferNo := Fin 4

/-- A profile number, 0 to 3 (R156). -/
abbrev ProfileNo := Fin 4

end Sys2Proof
end

