-- ==== Sys2Proof/Machine/Crc.lean ====
section
/-! DEFINITION. Bytes and check sequences: the byte order of multi-byte values, the CRC-16 of R128 and R148, and the
CRC-8 of R119. -/

namespace Sys2Proof.Machine

/-- A 16-bit value as two bytes, most significant first (R23, R128, 10.8). -/
def halfBytes (h : Half) : List Byte := [h.extractLsb' 8 8, h.extractLsb' 0 8]

/-- A 32-bit value as four bytes, most significant first (R23, R128, 10.8). -/
def wordBytes (w : Word) : List Byte :=
  [w.extractLsb' 24 8, w.extractLsb' 16 8, w.extractLsb' 8 8, w.extractLsb' 0 8]

/-- Two bytes, most significant first, as a 16-bit value (10.8). -/
def halfOf (hi lo : Byte) : Half := hi ++ lo

/-- Four bytes, most significant first, as a 32-bit value (10.8). -/
def wordOf (b3 b2 b1 b0 : Byte) : Word := (b3 ++ b2) ++ (b1 ++ b0)

/-- One bit time of the CRC-16 register: polynomial x^16 + x^12 + x^5 + 1, no reflection (R128). -/
def crc16Bit (r : Half) : Half := if r.msb then (r <<< 1) ^^^ 0x1021 else r <<< 1

/-- One byte into the CRC-16 register, most significant bit first (R128). -/
def crc16Byte (r : Half) (b : Byte) : Half :=
  Nat.repeat crc16Bit 8 (r ^^^ (b.setWidth 16 <<< 8))

/-- The CRC-16 of R128: seed 0xFFFF, no final inversion. -/
def crc16 (bytes : List Byte) : Half := bytes.foldl crc16Byte 0xFFFF

/-- One bit time of the CRC-8 register: polynomial x^8 + x^2 + x + 1 (R119). -/
def crc8Bit (r : Byte) : Byte := if r.msb then (r <<< 1) ^^^ 0x07 else r <<< 1

/-- One byte into the CRC-8 register, most significant bit first (R119). -/
def crc8Byte (r b : Byte) : Byte :=
  Nat.repeat crc8Bit 8 (r ^^^ b)

/-- The CRC-8 of R119: seed 0x00, no final inversion. -/
def crc8 (bytes : List Byte) : Byte := bytes.foldl crc8Byte 0x00

end Sys2Proof.Machine
end

