-- ==== Sys2Proof/Syntax.lean ====
section
/-! DEFINITION. The commands of the S8, one constructor per row of spec/opcode_table.json: the requests of the
supervisory port (R148 to R155, with the frame fields of 10.7 that each one uses), the other frames, the inputs of the
board, and the steps the part takes by itself (file 95). -/

namespace Sys2Proof

/-- A step of the S8. A request stands for the rise of chip select that takes its 20-byte frame; `seq` is the frame's
sequence byte, `tag`, `index`, `item`, `a`, `b`, `c` its fields (10.8). -/
inductive Instr where
  /-- NO_OP. The No-op request (code 0x01); with any code outside the catalogue, the frame of R152 order 1. -/
  | noOp (code seq : Byte)
  | lookupRecord (seq : Byte) (tag : Half) (index : Byte)
  | readSnapshot (seq item : Byte)
  | lookupChannel (seq index : Byte)
  | queryGroup (seq : Byte) (tag : Half) (a : Word)
  | writeField (seq : Byte) (tag : Half) (item : Byte) (a : Word)
  | commit (seq : Byte) (tag : Half)
  | beginGroup (seq : Byte)
  | commitGroup (seq : Byte)
  | abortGroup (seq : Byte)
  | form (seq : Byte) (tag : Half) (index : Byte)
  | release (seq : Byte) (tag : Half) (index : Byte)
  | retire (seq : Byte) (tag : Half) (index : Byte)
  | releaseGroup (seq : Byte) (tag : Half) (a : Word)
  | writeChannel (seq index item : Byte) (a : Word)
  | setEngine (seq : Byte) (a b c : Word)
  | offsetTest (seq : Byte) (tag : Half) (index : Byte) (a : Word)
  | checkTest (seq : Byte) (tag : Half) (index : Byte)
  | readFaults (seq index : Byte)
  | clearFaults (seq index item : Byte) (a : Word)
  | clearSummary (seq index : Byte)
  | setMasks (seq : Byte) (a b : Word)
  | saveProfile (seq index item : Byte)
  | eraseProfile (seq index : Byte)
  | loadProfile (seq index : Byte)
  | storeStatus (seq : Byte)
  | reset (seq : Byte)
  /-- FRAME_DISCARDED. A frame of `wholeBytes` whole bytes and perhaps a part byte, not 20 whole bytes. -/
  | frameDiscarded (wholeBytes : Nat) (partByte : Bool)
  /-- FRAME_REJECTED. A 20-byte frame that fails its CRC; its bytes 0 and 1. -/
  | frameRejected (code seq : Byte)
  | overlappedFrame
  | resetLine
  | powerOn
  | startupLoad
  | ready
  /-- QUADRATURE_EDGE. The two phases of one encoder input at a sample that differs from the sample before it. -/
  | quadratureEdge (channel : ChannelNo) (phaseA phaseB : Bool)
  | capture
  | computation
  | collectDeadlineExpiry
  | editApplication
  | groupApplication
  | portSnapshot
  | saveSnapshot
  | profileInstall
  /-- SAVE_END. `agrees`: every item read back agrees with the copy. -/
  | saveEnd (agrees : Bool)
  | eraseEnd
  | loadInvalidEnd
  | checkStepTimer
  | checkStep
  | stopAsserted
  | stopDeasserted
  | correctionSent
  /-- DRIVE_STATUS. The four bytes of the reply, byte 0 first. -/
  | driveStatus (byte0 byte1 byte2 byte3 : Byte)
  | brokenReply
  | replyWindowExpiry
  | gapEnd
  | driveStatusEvent
  | replyStart
  | chipSelectFall
  | endOfReset
  deriving DecidableEq, Repr

end Sys2Proof
end

