-- ==== Sys2Proof/WellFormed.lean ====
section
/-! DEFINITION. Which commands stand for something that can happen at the part's connections. -/

namespace Sys2Proof

/-- The request codes of the catalogue (10.7). -/
def requestCodes : List Byte :=
  [0x01, 0x02, 0x03, 0x04, 0x05, 0x10, 0x11, 0x12, 0x13, 0x14, 0x20, 0x21, 0x22, 0x23, 0x30, 0x31, 0x40, 0x41,
   0x50, 0x51, 0x52, 0x53, 0x60, 0x61, 0x62, 0x63, 0x70]

/-- A command is well formed when its operands can occur: a No-op carries its own code or one outside the catalogue
(R152), and a discarded frame is not 20 whole bytes (R148). -/
def Instr.wellFormed : Instr → Bool
  | .noOp code _ => code == 0x01 || !requestCodes.contains code
  | .frameDiscarded wholeBytes partByte => wholeBytes != 20 || partByte
  | _ => true

end Sys2Proof
end

