-- ==== Sys2Proof/Decode.lean ====
section
/-! DEFINITION. From bits to commands. The rows of the opcode table give no bits, so `decodeTableWord` spells no
command. The bits the handbook does give are those of the supervisory frame (R148, R152, 10.7, 10.8): `decodeFrame`
reads the bytes clocked in during one frame, and `encodeFrame` builds the frame of a request. -/

namespace Sys2Proof

open Sys2Proof.Machine (halfBytes wordBytes halfOf wordOf crc16)

/-- No row of spec/opcode_table.json gives bits. -/
def decodeTableWord (_nbits _w : Nat) : Option Instr := none

/-- The request of a taken frame, from its fields (10.7). A code outside the catalogue gives the frame that R152
answers at order 1. -/
def requestOf (code seq : Byte) (tag : Half) (index item : Byte) (a b c : Word) : Instr :=
  match code.toNat with
  | 0x02 => .lookupRecord seq tag index
  | 0x03 => .readSnapshot seq item
  | 0x04 => .lookupChannel seq index
  | 0x05 => .queryGroup seq tag a
  | 0x10 => .writeField seq tag item a
  | 0x11 => .commit seq tag
  | 0x12 => .beginGroup seq
  | 0x13 => .commitGroup seq
  | 0x14 => .abortGroup seq
  | 0x20 => .form seq tag index
  | 0x21 => .release seq tag index
  | 0x22 => .retire seq tag index
  | 0x23 => .releaseGroup seq tag a
  | 0x30 => .writeChannel seq index item a
  | 0x31 => .setEngine seq a b c
  | 0x40 => .offsetTest seq tag index a
  | 0x41 => .checkTest seq tag index
  | 0x50 => .readFaults seq index
  | 0x51 => .clearFaults seq index item a
  | 0x52 => .clearSummary seq index
  | 0x53 => .setMasks seq a b
  | 0x60 => .saveProfile seq index item
  | 0x61 => .eraseProfile seq index
  | 0x62 => .loadProfile seq index
  | 0x63 => .storeStatus seq
  | 0x70 => .reset seq
  | _ => .noOp code seq

/-- What the bytes of one frame are at the rise of chip select, when the frame is not overlapped (R148): a request,
a frame with a bad CRC, or a frame of another length. -/
def decodeFrame (bytes : List Byte) (partByte : Bool) : Instr :=
  match bytes, partByte with
  | [b0, b1, b2, b3, b4, b5, b6, b7, b8, b9, b10, b11, b12, b13, b14, b15, b16, b17, b18, b19], false =>
    if crc16 [b0, b1, b2, b3, b4, b5, b6, b7, b8, b9, b10, b11, b12, b13, b14, b15, b16, b17] = halfOf b18 b19 then
      requestOf b0 b1 (halfOf b2 b3) b4 b5 (wordOf b6 b7 b8 b9) (wordOf b10 b11 b12 b13) (wordOf b14 b15 b16 b17)
    else .frameRejected b0 b1
  | bs, part => .frameDiscarded bs.length part

/-- A request frame (10.8): the eighteen bytes and their CRC-16. -/
def requestFrame (code seq : Byte) (tag : Half) (index item : Byte) (a b c : Word) : List Byte :=
  let body := [code, seq] ++ halfBytes tag ++ [index, item] ++ wordBytes a ++ wordBytes b ++ wordBytes c
  body ++ halfBytes (crc16 body)

/-- The frame that sends a request, with 0 in the bytes the request does not use; none for a step that is no
request. -/
def encodeFrame : Instr → Option (List Byte)
  | .noOp code seq => some (requestFrame code seq 0 0 0 0 0 0)
  | .lookupRecord seq tag index => some (requestFrame 0x02 seq tag index 0 0 0 0)
  | .readSnapshot seq item => some (requestFrame 0x03 seq 0 0 item 0 0 0)
  | .lookupChannel seq index => some (requestFrame 0x04 seq 0 index 0 0 0 0)
  | .queryGroup seq tag a => some (requestFrame 0x05 seq tag 0 0 a 0 0)
  | .writeField seq tag item a => some (requestFrame 0x10 seq tag 0 item a 0 0)
  | .commit seq tag => some (requestFrame 0x11 seq tag 0 0 0 0 0)
  | .beginGroup seq => some (requestFrame 0x12 seq 0 0 0 0 0 0)
  | .commitGroup seq => some (requestFrame 0x13 seq 0 0 0 0 0 0)
  | .abortGroup seq => some (requestFrame 0x14 seq 0 0 0 0 0 0)
  | .form seq tag index => some (requestFrame 0x20 seq tag index 0 0 0 0)
  | .release seq tag index => some (requestFrame 0x21 seq tag index 0 0 0 0)
  | .retire seq tag index => some (requestFrame 0x22 seq tag index 0 0 0 0)
  | .releaseGroup seq tag a => some (requestFrame 0x23 seq tag 0 0 a 0 0)
  | .writeChannel seq index item a => some (requestFrame 0x30 seq 0 index item a 0 0)
  | .setEngine seq a b c => some (requestFrame 0x31 seq 0 0 0 a b c)
  | .offsetTest seq tag index a => some (requestFrame 0x40 seq tag index 0 a 0 0)
  | .checkTest seq tag index => some (requestFrame 0x41 seq tag index 0 0 0 0)
  | .readFaults seq index => some (requestFrame 0x50 seq 0 index 0 0 0 0)
  | .clearFaults seq index item a => some (requestFrame 0x51 seq 0 index item a 0 0)
  | .clearSummary seq index => some (requestFrame 0x52 seq 0 index 0 0 0 0)
  | .setMasks seq a b => some (requestFrame 0x53 seq 0 0 0 a b 0)
  | .saveProfile seq index item => some (requestFrame 0x60 seq 0 index item 0 0 0)
  | .eraseProfile seq index => some (requestFrame 0x61 seq 0 index 0 0 0 0)
  | .loadProfile seq index => some (requestFrame 0x62 seq 0 index 0 0 0 0)
  | .storeStatus seq => some (requestFrame 0x63 seq 0 0 0 0 0 0)
  | .reset seq => some (requestFrame 0x70 seq 0 0 0 0 0 0)
  | .frameDiscarded _ _ | .frameRejected _ _ | .overlappedFrame | .resetLine | .powerOn | .startupLoad | .ready
  | .quadratureEdge _ _ _ | .capture | .computation | .collectDeadlineExpiry | .editApplication | .groupApplication
  | .portSnapshot | .saveSnapshot | .profileInstall | .saveEnd _ | .eraseEnd | .loadInvalidEnd | .checkStepTimer
  | .checkStep | .stopAsserted | .stopDeasserted | .correctionSent | .driveStatus _ _ _ _ | .brokenReply
  | .replyWindowExpiry | .gapEnd | .driveStatusEvent | .replyStart | .chipSelectFall | .endOfReset => none

end Sys2Proof
end

