-- ==== Sys2Proof/Config.lean ====
section
/-! DEFINITION. The free values: what the handbook leaves open and the model does not choose. Each is a constant
with no body, so nothing can be proved of its value. Those whose first argument is an occasion are applied to the
plain counter `freeIndex` of State, which every use advances. -/

namespace Sys2Proof

/-- Which bits of a profile's memory stand at one where the handbook says only that it is partly erased, partly
programmed or not verified (R159, R161); first argument the occasion, second the position in the profile. Assumption 10. -/
opaque Config.freeBits : Nat → Nat → Word

/-- How many falls of chip select the port leaves unheard after a Reset request before it receives again: R155 says
only that it does within 10 µs. The argument is the occasion. Assumption 11. -/
opaque Config.deafFalls : Nat → Nat

/-- What the data output of the port carries where the handbook gives it no bit: in a frame whose fall the port did not
hear, and after the last bit of a reply frame; none where it is not driven (R148, R149, R155). First argument the
occasion, second the bit time in the frame. Assumption 32. -/
opaque Config.strayOutput : Nat → Nat → Option Bool

/-- The channel entry addressed by a stored channel number above 7, which only a silent change of a record's
configuration can leave in it (Chapter 8); the handbook does not say which. Assumption 12. -/
opaque Config.strayChannel : Byte → ChannelNo

/-- Whether a stored direction sense other than 0x00 and 0x01, which only a silent change can leave, counts in
reverse. Assumption 12. -/
opaque Config.strayDirection : Byte → Bool

/-- The per-count travel of R3 when the stored counts per revolution are 0, which only a silent change can leave;
the argument is the stored circumference. Assumption 12. -/
opaque Config.strayTravel : Word → Int

end Sys2Proof
end

