-- ==== Sys2Proof/Machine/Types.lean ====
section
/-! DEFINITION. The kinds of data the S8 holds, with the handbook's names. Configuration fields stand in their stored
widths (R23, R128), so that a configuration that has changed on its own (Chapter 8) is data like any other. -/

namespace Sys2Proof.Machine

/-! ### Channels -/

/-- The capture periods (R9). -/
inductive CapturePeriod where
  | p250 | p500 | p1000 | p2000
  deriving DecidableEq, Repr

/-- Why a channel is LOST, in the order of R2. -/
inductive LostReason where
  | noReply | driveDown | capture | check
  deriving DecidableEq, Repr

/-- Channel states (R2, 1.8); the reason is present only while LOST. -/
inductive ChannelState where
  | off | waiting | running | stale
  | lost (reason : LostReason)
  deriving DecidableEq, Repr

/-- Drive states (7.4). -/
inductive DriveState where
  | ready | torqueLimit | tripped | disabled
  deriving DecidableEq, Repr

/-- The configuration fields of a channel (R1). -/
inductive ChannelField where
  | enabled | counts | circumference | direction | ceiling | standstill | overspeed
  deriving DecidableEq, Repr

/-- A channel configuration in the stored widths of R128. -/
structure ChannelConfig where
  enabled : Byte
  counts : Word
  circumference : Word
  direction : Byte
  ceiling : Half
  standstill : Half
  overspeed : Word
  deriving DecidableEq, Repr

/-- A channel entry: configuration (R1) and derived and live fields (R2). -/
structure Channel where
  cfg : ChannelConfig
  travelPerCount : Int
  state : ChannelState
  seedPending : Bool
  latched : Word
  travel : Int
  speed : Int
  suspectRun : Nat
  goodRun : Nat
  missRun : Nat
  standstillRun : Nat
  standstill : Bool
  lastDrive : Option DriveState
  coupled : Bool
  limited : Bool
  posted : Int
  check : Half
  lastCapture : Word
  deriving DecidableEq, Repr

/-- One encoder input: its counter, its illegal-transition indication and its phases at the last sample (R8). -/
structure Encoder where
  count : Word
  illegal : Bool
  phaseA : Bool
  phaseB : Bool
  deriving DecidableEq, Repr

/-- The capture timer (R9): stopped, or running with the period its next expiry closes. -/
inductive CaptureTimer where
  | stopped
  | running (period : CapturePeriod)
  deriving DecidableEq, Repr

/-- A capture set (R10). -/
structure CaptureSet where
  number : Word
  counts : Vector Word 8
  illegal : Vector Bool 8
  deriving DecidableEq, Repr

/-! ### Coupling records -/

/-- The configuration fields of a record, ids 1 to 15 (R23). -/
inductive RecordField where
  | tag | leader | follower | ratio | stiffness | damping | filterShift | limit | share | slipWindow | breakWindow
  | slipCount | band | timeout | ramp
  deriving DecidableEq, Repr

/-- A record configuration in the stored widths of R23. -/
structure RecordConfig where
  tag : Half
  leader : Byte
  follower : Byte
  ratio : Word
  stiffness : Half
  damping : Half
  filterShift : Byte
  limit : Half
  share : Byte
  slipWindow : Word
  breakWindow : Word
  slipCount : Byte
  band : Half
  timeout : Half
  ramp : Half
  deriving DecidableEq, Repr

/-- Break reasons in the order of R25. -/
inductive BreakReason where
  | slipLimit | channelLost | stop | check
  deriving DecidableEq, Repr

/-- The ramp fields of a RELEASING record: start value τ0 and step j (R25). -/
structure Ramp where
  start : Int
  step : Nat
  deriving DecidableEq, Repr

/-- Record states (R62); the break reason is present while BROKEN, the ramp fields while RELEASING (R26). -/
inductive RecordState where
  | idle | forming | held | slipping
  | releasing (ramp : Ramp)
  | broken (reason : BreakReason)
  deriving DecidableEq, Repr

/-- A coupling record: configuration (R23) and live fields (R25). -/
structure Record where
  cfg : RecordConfig
  state : RecordState
  error : Int
  rate : Int
  run : Nat
  elapsed : Nat
  correction : Int
  limited : Bool
  pendingOffset : Option Int
  edition : Half
  check : Half
  checkFailed : Bool
  deriving DecidableEq, Repr

/-! ### Completions -/

/-- Outcomes of a Form (R106, R109). -/
inductive FormOutcome where
  | formed | formTimeout | cancelled
  | broken (reason : BreakReason)
  deriving DecidableEq, Repr

/-- Outcomes of a Release (R106, R109). -/
inductive ReleaseOutcome where
  | released | releaseCut
  deriving DecidableEq, Repr

/-- What a READY entry carries beside its outcome: outcome capture number and collect deadline (R110, R113). -/
structure Collect where
  capture : Word
  deadline : Option Word
  deriving DecidableEq, Repr

/-- A completion entry: kind, status and, when READY, the outcome (R106). -/
inductive Completion where
  | waitingForm
  | waitingRelease
  | readyForm (outcome : FormOutcome) (collect : Collect)
  | readyRelease (outcome : ReleaseOutcome) (collect : Collect)
  deriving DecidableEq, Repr

/-! ### Table accesses and events -/

/-- The accesses to the Coupling Table (R34). A computation carries the capture number of its set; `expiry` is the end
of a computation access at which entries fall due (R114). -/
inductive Access where
  | computation (capture : Word)
  | expiry (capture : Word)
  | edit (buffer : BufferNo)
  | group
  | install
  | saveSnapshot
  | portSnapshot
  | checkStep
  deriving DecidableEq, Repr

/-- Events at the Channel Table or the Coupling Table that can have to wait for an access to end (R34, R38, R121). -/
inductive TableEvent where
  /-- The request in service is judged at its table. -/
  | request
  | captureSet (set : CaptureSet)
  | driveStatus
  | stopAsserted
  | stopDeasserted
  deriving DecidableEq, Repr

/-- The event is the application of a capture set. -/
def TableEvent.isCaptureSet : TableEvent → Bool
  | .captureSet _ => true
  | .request | .driveStatus | .stopAsserted | .stopDeasserted => false

/-- The table access arbiter (R34). -/
structure Arbiter where
  inService : Option Access
  waiting : List Access
  deferred : List TableEvent
  deriving DecidableEq, Repr

/-! ### Engine, edits -/

/-- The Synchronisation Engine: settings (R84), STOP as it has taken it (R80, R81), last computation served (R37). -/
structure Engine where
  period : CapturePeriod
  collectWindow : Half
  missLimit : Nat
  stopTaken : Bool
  lastComputed : Option Word
  deriving DecidableEq, Repr

/-- The target of an open buffer with its base copy (R86); the base copy of a NEW edit is the defaults of R23. -/
inductive EditTarget where
  | new
  | existing (slot : SlotNo) (base : RecordConfig)
  deriving DecidableEq, Repr

/-- An OPEN edit buffer (R86); `written` holds the written values at the place of their field, absent where the
field is not in the written-field set. -/
structure EditBuffer where
  tag : Half
  target : EditTarget
  written : Vector (Option Word) 15
  deriving DecidableEq, Repr

/-- The Edit Unit (R86); a FREE buffer is absent. -/
structure EditUnit where
  buffers : Vector (Option EditBuffer) 4
  groupMode : Bool
  deriving DecidableEq, Repr

/-- Reasons for rejecting an edit (R94). -/
inductive EditReason where
  | incomplete | inconsistent | duplicate | full | state
  deriving DecidableEq, Repr

/-- Edit outcomes of a reply (R92). -/
inductive EditOutcome where
  | untouched
  | applied
  | rejected (reason : EditReason)
  deriving DecidableEq, Repr

/-! ### Drive link -/

/-- A Correction message (R119). -/
structure Correction where
  channel : ChannelNo
  capture : Byte
  torque : Int
  coupled : Bool
  deriving DecidableEq, Repr

/-- The judgement of an exchange (R121). -/
inductive DriveResult where
  | good (state : DriveState)
  | miss
  deriving DecidableEq, Repr

/-- The phases of an exchange (R120); `judged` holds the result until the Channel Table has taken it (R121), `gap`
the gap's length in µs. -/
inductive ExchangePhase where
  | sending | awaiting | receiving
  | judged (result : DriveResult)
  | gap (micros : Nat)
  deriving DecidableEq, Repr

/-- A round in progress (R116, R118): the channels served before the current one, the message and phase of the
current exchange, and the channels still to come. -/
structure Round where
  earlier : List ChannelNo
  message : Correction
  phase : ExchangePhase
  remaining : List ChannelNo
  deriving DecidableEq, Repr

/-- The exchange counts of a channel (R125). -/
structure ExchangeCounts where
  replies : Word
  misses : Word
  skips : Word
  deriving DecidableEq, Repr

/-- The Drive Link Controller (R116); no round means the round state IDLE. -/
structure Link where
  slots : Vector Int 8
  roundCapture : Word
  round : Option Round
  counts : Vector ExchangeCounts 8
  deriving DecidableEq, Repr

/-! ### Integrity, faults -/

/-- The scan position (R129). -/
inductive ScanPosition where
  | channel (c : ChannelNo)
  | slot (i : SlotNo)
  deriving DecidableEq, Repr

/-- The Integrity Checker (R129). -/
structure Checker where
  timerRunning : Bool
  scan : ScanPosition
  pendingTest : Option SlotNo
  deriving DecidableEq, Repr

/-- Causes of a CHECK flag (R139). -/
inductive CheckCause where
  | mismatch | test
  deriving DecidableEq, Repr

/-- The 94 detail flags by kind and place of their kind (R139). -/
inductive Flag where
  | capture (c : ChannelNo)
  | overspeed (c : ChannelNo)
  | lost (c : ChannelNo)
  | driveLimit (c : ChannelNo)
  | channelCheck (c : ChannelNo)
  | slip (i : SlotNo)
  | broke (i : SlotNo)
  | couplingCheck (i : SlotNo)
  | portFrame
  | linkOverrun
  | discard
  | editReject
  | store
  | stop
  deriving DecidableEq, Repr

/-- Flag groups in the order of R152. -/
inductive FlagGroup where
  | channel | coupling | service
  deriving DecidableEq, Repr

/-- The last-reject record (R143). -/
structure LastReject where
  reason : EditReason
  tag : Half
  deriving DecidableEq, Repr

/-- The Fault Unit (R139 to R143). A CHECK flag is set exactly when its cause is present. Bit i of `kindMasks` masks
the kind at position i of the table of R139; bit g of `summaries` and `lineMasks` belongs to group g. -/
structure FaultUnit where
  capture : Vector Bool 8
  overspeed : Vector Bool 8
  lost : Vector Bool 8
  driveLimit : Vector Bool 8
  channelCheck : Vector (Option CheckCause) 8
  slip : Vector Bool 16
  broke : Vector Bool 16
  couplingCheck : Vector (Option CheckCause) 16
  portFrame : Bool
  linkOverrun : Bool
  discard : Bool
  editReject : Bool
  store : Bool
  stop : Bool
  kindMasks : BitVec 14
  summaries : BitVec 3
  lineMasks : BitVec 3
  line : Bool
  lastReject : Option LastReject
  deriving DecidableEq, Repr

/-! ### Supervisory port -/

/-- Result codes (10.8). -/
inductive ResultCode where
  | done | pending | accepted | starting | busy | state | unknown | range | duplicate | incomplete | inconsistent
  | full | noBuffer | noEdit | editOpen | groupOpen | noGroup | conflict | channel | check | stopped | uncollected
  | queueFull | moving | stillSet | frameRejected
  deriving DecidableEq, Repr

/-- The body of a reply (R149). -/
structure Reply where
  code : Byte
  seq : Byte
  result : ResultCode
  edit : EditOutcome
  a : Word
  b : Word
  c : Half
  deriving DecidableEq, Repr

/-- How a request names a record: by tag, or by tag 0 with a slot number (R30, R31). -/
inductive RecordName where
  | byTag (tag : Half)
  | bySlot (index : Byte)
  deriving DecidableEq, Repr

/-- The requests judged as one event at the Coupling Table or the Channel Table (R4, R38, R84, R153). -/
inductive TableRequest where
  | form (name : RecordName)
  | release (name : RecordName)
  | retire (name : RecordName)
  | releaseGroup (tag mask : Half)
  | offsetTest (name : RecordName) (offset : Word)
  | checkTest (name : RecordName)
  | setEngine (a b c : Word)
  | writeChannel (index item : Byte) (a : Word)
  | lookupChannel (index : Byte)
  deriving DecidableEq, Repr

/-- The requests whose service can outlast the step that takes them (R150). -/
inductive PortRequest where
  | table (request : TableRequest)
  | lookupRecord (name : RecordName)
  | queryGroup (tag mask : Half)
  | writeField (tag : Half) (field : RecordField) (value : Word)
  | commit (tag : Half)
  | commitGroup
  deriving DecidableEq, Repr

/-- Where the service of a request stands: edits being closed, with the buffers still to close after the one whose
application is outstanding (R90, R91); waiting to be judged at its table (R38); or its own access outstanding. -/
inductive ServicePhase where
  | closing (buffers : List BufferNo)
  | judging
  | access
  deriving DecidableEq, Repr

/-- The request in service (R150), with the edit outcome gathered so far (R92). -/
structure Service where
  code : Byte
  seq : Byte
  request : PortRequest
  phase : ServicePhase
  edit : EditOutcome
  deriving DecidableEq, Repr

/-- Chip select, and what its fall has settled about the frame (R150, R155). -/
inductive ChipSelect where
  | high
  | low (overlapped : Bool)
  | lowUnheard
  deriving DecidableEq, Repr

/-- The snapshot buffer (R153): the fields as reported (R27), by id, and the changed-since indication. -/
inductive Snapshot where
  | empty
  | record (slot : SlotNo) (capture : Word) (fields : List (Option Int)) (changed : Bool)
  | channel (c : ChannelNo) (fields : List (Option Int)) (changed : Bool)
  deriving DecidableEq, Repr

/-- The Supervisory Port. `deafFalls`: the falls of chip select after a Reset request that the port will still not
hear; at 0 it receives (R155). `output`: the reply frame of the last fall of chip select that it heard (R149). -/
structure Port where
  chipSelect : ChipSelect
  deafFalls : Nat
  reply : Reply
  output : List Byte
  service : Option Service
  snapshot : Snapshot
  deriving DecidableEq, Repr

/-! ### Profile store, start-up -/

/-- A profile (R156); a mark is true when programmed. The CRC and the saved configurations stand in their widths, so
that the erased state is all ones. -/
structure Profile where
  validMark : Bool
  autoLoad : Bool
  recordCount : Byte
  channels : Vector ChannelConfig 8
  records : Vector RecordConfig 16
  crc : Half
  deriving DecidableEq, Repr

/-- The operation of the Profile Store (R157 to R160, R162). A save holds its copy from the save snapshot on; a load
holds whether the profile was judged valid; `startupLoading` is the load of R162. -/
inductive StoreOp where
  | idle
  | erasing (p : ProfileNo)
  | saving (p : ProfileNo) (autoLoad : Bool) (copy : Option Profile)
  | loading (p : ProfileNo) (valid : Bool)
  | startupLoading
  deriving DecidableEq, Repr

/-- Last results of the store, in the order of R157. -/
inductive StoreResult where
  | noResult | ok | notBlank | verifyFail | invalid | interrupted
  deriving DecidableEq, Repr

/-- Start-up load results, in the order of R157. -/
inductive StartupLoad where
  | noLoad | done | invalid
  deriving DecidableEq, Repr

/-- The Profile Store (R156, R157). -/
structure Store where
  profiles : Vector Profile 4
  journal : Bool
  op : StoreOp
  lastResult : StoreResult
  startupLoad : StartupLoad
  deriving DecidableEq, Repr

/-- The steps of start-up (R162): reset values taken, profile 0 being installed, load settled, READY. -/
inductive Startup where
  | begun | loading | settled | ready
  deriving DecidableEq, Repr

end Sys2Proof.Machine
end

