-- ==== Sys2Proof/Machine/Operands.lean ====
section
/-! DEFINITION. The operand forms: rounding, field ids, ranges and widths, configurations as bytes, record names,
and the codes by which values travel in replies. -/

namespace Sys2Proof.Machine

/-! ### Arithmetic -/

/-- Round to nearest of a / b, halves away from zero (R41). -/
def roundDiv (a : Int) (b : Nat) : Int :=
  if 0 ≤ a then (2 * a + b) / (2 * b) else -((2 * -a + b) / (2 * b))

/-- Clamp to −limit … +limit. -/
def clampTo (limit x : Int) : Int := if x < -limit then -limit else if limit < x then limit else x

/-- The capture period in µs (R9). -/
def CapturePeriod.micros : CapturePeriod → Nat
  | .p250 => 250
  | .p500 => 500
  | .p1000 => 1000
  | .p2000 => 2000

/-- The period a Set Engine names, if it is one (R84). -/
def CapturePeriod.ofMicros (w : Word) : Option CapturePeriod :=
  if w = 250 then some .p250 else if w = 500 then some .p500 else if w = 1000 then some .p1000
  else if w = 2000 then some .p2000 else none

/-- A rate in travel units per capture as reported in mm/s: rounded, and saturated to ±100,000 (R15, R27). -/
def rateInMmPerS (p : CapturePeriod) (r : Int) : Int := clampTo 100000 (roundDiv (r * 1000) (65536 * p.micros))

/-- A value in travel units in whole µm (R27, R40). -/
def inMicrometres (x : Int) : Int := roundDiv x 65536

/-! ### Channel configurations -/

/-- The channel field with an id of R1. -/
def ChannelField.ofId (id : Byte) : Option ChannelField :=
  match id.toNat with
  | 1 => some .enabled
  | 2 => some .counts
  | 3 => some .circumference
  | 4 => some .direction
  | 5 => some .ceiling
  | 6 => some .standstill
  | 7 => some .overspeed
  | _ => none

/-- The channel fields in id order. -/
def ChannelField.all : List ChannelField :=
  [.enabled, .counts, .circumference, .direction, .ceiling, .standstill, .overspeed]

/-- The ranges of R1; the yes/no field and the enumerated field by their encodings (R128, R152). -/
def ChannelField.inRange (f : ChannelField) (w : Word) : Bool :=
  match f with
  | .enabled => w.toNat ≤ 1
  | .counts => 1024 ≤ w.toNat && w.toNat ≤ 65536
  | .circumference => 1000000 ≤ w.toNat && w.toNat ≤ 8000000
  | .direction => w.toNat ≤ 1
  | .ceiling => w.toNat ≤ 32767
  | .standstill => w.toNat ≤ 1000
  | .overspeed => 1000 ≤ w.toNat && w.toNat ≤ 70000

/-- A configuration field as a 32-bit value. -/
def ChannelConfig.field (cfg : ChannelConfig) : ChannelField → Word
  | .enabled => cfg.enabled.setWidth 32
  | .counts => cfg.counts
  | .circumference => cfg.circumference
  | .direction => cfg.direction.setWidth 32
  | .ceiling => cfg.ceiling.setWidth 32
  | .standstill => cfg.standstill.setWidth 32
  | .overspeed => cfg.overspeed

/-- Store a value in a configuration field, in its stored width. -/
def ChannelConfig.setField (cfg : ChannelConfig) (f : ChannelField) (w : Word) : ChannelConfig :=
  match f with
  | .enabled => { cfg with enabled := w.setWidth 8 }
  | .counts => { cfg with counts := w }
  | .circumference => { cfg with circumference := w }
  | .direction => { cfg with direction := w.setWidth 8 }
  | .ceiling => { cfg with ceiling := w.setWidth 16 }
  | .standstill => { cfg with standstill := w.setWidth 16 }
  | .overspeed => { cfg with overspeed := w }

/-- Fields 1 to 7 in id order as the eighteen bytes of R128. -/
def ChannelConfig.bytes (cfg : ChannelConfig) : List Byte :=
  [cfg.enabled] ++ wordBytes cfg.counts ++ wordBytes cfg.circumference ++ [cfg.direction] ++ halfBytes cfg.ceiling
    ++ halfBytes cfg.standstill ++ wordBytes cfg.overspeed

/-- The check value of a channel configuration (R128). -/
def ChannelConfig.checkValue (cfg : ChannelConfig) : Half := crc16 cfg.bytes

/-- Every field in its range (R160). -/
def ChannelConfig.inRange (cfg : ChannelConfig) : Bool := ChannelField.all.all fun f => f.inRange (cfg.field f)

/-- The reset configuration of R1. -/
def ChannelConfig.reset : ChannelConfig where
  enabled := 0
  counts := 4096
  circumference := 4000000
  direction := 0
  ceiling := 1000
  standstill := 20
  overspeed := 60000

/-- The per-count travel q of R3. The counts are 0 only after a silent change (assumption 12). -/
def ChannelConfig.travelPerCount (cfg : ChannelConfig) : Int :=
  if cfg.counts = 0 then Config.strayTravel cfg.circumference
  else roundDiv (cfg.circumference.toNat * 65536) cfg.counts.toNat

/-- Whether the direction sense is REVERSE (R12; assumption 12 for a byte that is no encoding). -/
def ChannelConfig.reverse (cfg : ChannelConfig) : Bool :=
  if cfg.direction = 0 then false else if cfg.direction = 1 then true else Config.strayDirection cfg.direction

/-- A channel entry with the derived and live fields at their values at reset and install (R2). -/
def Channel.initial (cfg : ChannelConfig) (state : ChannelState) : Channel where
  cfg := cfg
  travelPerCount := cfg.travelPerCount
  state := state
  seedPending := true
  latched := 0
  travel := 0
  speed := 0
  suspectRun := 0
  goodRun := 0
  missRun := 0
  standstillRun := 0
  standstill := false
  lastDrive := none
  coupled := false
  limited := false
  posted := 0
  check := cfg.checkValue
  lastCapture := 0

/-- The entry of a channel whose configuration an install has just written: WAITING when enabled, OFF otherwise
(R2, R160). -/
def Channel.installed (cfg : ChannelConfig) : Channel :=
  Channel.initial cfg (if cfg.enabled = 1 then .waiting else .off)

/-- A channel that active couplings may use and that takes its sum: RUNNING or STALE (1.8). -/
def ChannelState.isUp : ChannelState → Bool
  | .running | .stale => true
  | .off | .waiting | .lost _ => false

/-- LOST, for whatever reason. -/
def ChannelState.isLost : ChannelState → Bool
  | .lost _ => true
  | .off | .waiting | .running | .stale => false

/-! ### Record configurations -/

/-- The record field with an id of R23. -/
def RecordField.ofId (id : Byte) : Option RecordField :=
  match id.toNat with
  | 1 => some .tag
  | 2 => some .leader
  | 3 => some .follower
  | 4 => some .ratio
  | 5 => some .stiffness
  | 6 => some .damping
  | 7 => some .filterShift
  | 8 => some .limit
  | 9 => some .share
  | 10 => some .slipWindow
  | 11 => some .breakWindow
  | 12 => some .slipCount
  | 13 => some .band
  | 14 => some .timeout
  | 15 => some .ramp
  | _ => none

/-- The record fields in id order. -/
def RecordField.all : List RecordField :=
  [.tag, .leader, .follower, .ratio, .stiffness, .damping, .filterShift, .limit, .share, .slipWindow, .breakWindow,
   .slipCount, .band, .timeout, .ramp]

/-- The place of a field in a written-field set: its id less 1. -/
def RecordField.place : RecordField → Fin 15
  | .tag => 0
  | .leader => 1
  | .follower => 2
  | .ratio => 3
  | .stiffness => 4
  | .damping => 5
  | .filterShift => 6
  | .limit => 7
  | .share => 8
  | .slipWindow => 9
  | .breakWindow => 10
  | .slipCount => 11
  | .band => 12
  | .timeout => 13
  | .ramp => 14

/-- The ranges of R23, each field's own alone; the ratio offset is two's complement. -/
def RecordField.inRange (f : RecordField) (w : Word) : Bool :=
  match f with
  | .tag => 1 ≤ w.toNat && w.toNat ≤ 65535
  | .leader => w.toNat ≤ 7
  | .follower => w.toNat ≤ 7
  | .ratio => -50000 ≤ w.toInt && w.toInt ≤ 50000
  | .stiffness => w.toNat ≤ 65535
  | .damping => w.toNat ≤ 65535
  | .filterShift => w.toNat ≤ 7
  | .limit => w.toNat ≤ 32767
  | .share => w.toNat ≤ 8
  | .slipWindow => 100 ≤ w.toNat && w.toNat ≤ 500000
  | .breakWindow => 100 ≤ w.toNat && w.toNat ≤ 1000000
  | .slipCount => 1 ≤ w.toNat && w.toNat ≤ 32
  | .band => 1 ≤ w.toNat && w.toNat ≤ 2000
  | .timeout => 16 ≤ w.toNat && w.toNat ≤ 65535
  | .ramp => 1 ≤ w.toNat && w.toNat ≤ 4096

/-- A configuration field as a 32-bit value. -/
def RecordConfig.field (cfg : RecordConfig) : RecordField → Word
  | .tag => cfg.tag.setWidth 32
  | .leader => cfg.leader.setWidth 32
  | .follower => cfg.follower.setWidth 32
  | .ratio => cfg.ratio
  | .stiffness => cfg.stiffness.setWidth 32
  | .damping => cfg.damping.setWidth 32
  | .filterShift => cfg.filterShift.setWidth 32
  | .limit => cfg.limit.setWidth 32
  | .share => cfg.share.setWidth 32
  | .slipWindow => cfg.slipWindow
  | .breakWindow => cfg.breakWindow
  | .slipCount => cfg.slipCount.setWidth 32
  | .band => cfg.band.setWidth 32
  | .timeout => cfg.timeout.setWidth 32
  | .ramp => cfg.ramp.setWidth 32

/-- Store a value in a configuration field, in its stored width. -/
def RecordConfig.setField (cfg : RecordConfig) (f : RecordField) (w : Word) : RecordConfig :=
  match f with
  | .tag => { cfg with tag := w.setWidth 16 }
  | .leader => { cfg with leader := w.setWidth 8 }
  | .follower => { cfg with follower := w.setWidth 8 }
  | .ratio => { cfg with ratio := w }
  | .stiffness => { cfg with stiffness := w.setWidth 16 }
  | .damping => { cfg with damping := w.setWidth 16 }
  | .filterShift => { cfg with filterShift := w.setWidth 8 }
  | .limit => { cfg with limit := w.setWidth 16 }
  | .share => { cfg with share := w.setWidth 8 }
  | .slipWindow => { cfg with slipWindow := w }
  | .breakWindow => { cfg with breakWindow := w }
  | .slipCount => { cfg with slipCount := w.setWidth 8 }
  | .band => { cfg with band := w.setWidth 16 }
  | .timeout => { cfg with timeout := w.setWidth 16 }
  | .ramp => { cfg with ramp := w.setWidth 16 }

/-- Fields 1 to 15 in id order as the 31 bytes of R23. -/
def RecordConfig.bytes (cfg : RecordConfig) : List Byte :=
  halfBytes cfg.tag ++ [cfg.leader, cfg.follower] ++ wordBytes cfg.ratio ++ halfBytes cfg.stiffness
    ++ halfBytes cfg.damping ++ [cfg.filterShift] ++ halfBytes cfg.limit ++ [cfg.share] ++ wordBytes cfg.slipWindow
    ++ wordBytes cfg.breakWindow ++ [cfg.slipCount] ++ halfBytes cfg.band ++ halfBytes cfg.timeout
    ++ halfBytes cfg.ramp

/-- The check value of a record configuration (R128). -/
def RecordConfig.checkValue (cfg : RecordConfig) : Half := crc16 cfg.bytes

/-- Every field in its range, the follower not the leader, the break window not below the slip window (R160). -/
def RecordConfig.inRange (cfg : RecordConfig) : Bool :=
  (RecordField.all.all fun f => f.inRange (cfg.field f)) && cfg.follower != cfg.leader
    && cfg.slipWindow.toNat ≤ cfg.breakWindow.toNat

/-- The defaults of R23 with a tag. Leader and follower have no default; no edit that leaves either unwritten is
applied (R94), and the 0 in their places is never read. -/
def RecordConfig.defaults (tag : Half) : RecordConfig where
  tag := tag
  leader := 0
  follower := 0
  ratio := 0
  stiffness := 320
  damping := 16
  filterShift := 2
  limit := 500
  share := 0
  slipWindow := 5000
  breakWindow := 50000
  slipCount := 8
  band := 20
  timeout := 10000
  ramp := 200

/-- The channel a stored channel number names (assumption 12 for a number above 7). -/
def channelNamed (b : Byte) : ChannelNo := if h : b.toNat < 8 then ⟨b.toNat, h⟩ else Config.strayChannel b

/-- The leader channel of a record (R23). -/
def RecordConfig.leaderNo (cfg : RecordConfig) : ChannelNo := channelNamed cfg.leader

/-- The follower channel of a record (R23). -/
def RecordConfig.followerNo (cfg : RecordConfig) : ChannelNo := channelNamed cfg.follower

/-- A record as a NEW edit or an install places it: IDLE with the initial live fields of R25. -/
def Record.fresh (cfg : RecordConfig) : Record where
  cfg := cfg
  state := .idle
  error := 0
  rate := 0
  run := 0
  elapsed := 0
  correction := 0
  limited := false
  pendingOffset := none
  edition := 0
  check := cfg.checkValue
  checkFailed := false

/-- FORMING, HELD, SLIPPING or RELEASING (R62). -/
def RecordState.isActive : RecordState → Bool
  | .forming | .held | .slipping | .releasing _ => true
  | .idle | .broken _ => false

/-- The record names a channel as its leader or its follower. -/
def Record.names (r : Record) (c : ChannelNo) : Bool := r.cfg.leaderNo == c || r.cfg.followerNo == c

/-! ### Names, groups -/

/-- A frame's tag field and index byte as the name of a record (R31). -/
def RecordName.ofFrame (tag : Half) (index : Byte) : RecordName := if tag = 0 then .bySlot index else .byTag tag

/-- A tag matches tag T under mask M (R32). -/
def tagMatches (tag mask t : Half) : Bool := t &&& mask == tag &&& mask

/-! ### Codes in replies (10.8) -/

/-- The result codes. -/
def ResultCode.byte : ResultCode → Byte
  | .done => 0x00
  | .pending => 0x01
  | .accepted => 0x02
  | .starting => 0x10
  | .busy => 0x11
  | .state => 0x12
  | .unknown => 0x13
  | .range => 0x14
  | .duplicate => 0x15
  | .incomplete => 0x16
  | .inconsistent => 0x17
  | .full => 0x18
  | .noBuffer => 0x19
  | .noEdit => 0x1A
  | .editOpen => 0x1B
  | .groupOpen => 0x1C
  | .noGroup => 0x1D
  | .conflict => 0x1E
  | .channel => 0x1F
  | .check => 0x20
  | .stopped => 0x21
  | .uncollected => 0x22
  | .queueFull => 0x23
  | .moving => 0x24
  | .stillSet => 0x25
  | .frameRejected => 0x26

/-- The result code of a rejection (R93). -/
def EditReason.result : EditReason → ResultCode
  | .incomplete => .incomplete
  | .inconsistent => .inconsistent
  | .duplicate => .duplicate
  | .full => .full
  | .state => .state

/-- The edit outcome byte. -/
def EditOutcome.byte : EditOutcome → Byte
  | .untouched => 0x00
  | .applied => 0x01
  | .rejected r => r.result.byte

/-- The edit outcome of a request after one more closed edit: the first rejection stays (R92). -/
def EditOutcome.also (old new : EditOutcome) : EditOutcome :=
  match old with
  | .rejected r => .rejected r
  | .untouched | .applied => new

/-- A break reason's position in the list of R25. -/
def BreakReason.code : BreakReason → Nat
  | .slipLimit => 0
  | .channelLost => 1
  | .stop => 2
  | .check => 3

/-- Outcomes of a Form in value A. -/
def FormOutcome.code : FormOutcome → Nat
  | .formed => 1
  | .formTimeout => 2
  | .cancelled => 3
  | .broken _ => 4

/-- Outcomes of a Release in value A. -/
def ReleaseOutcome.code : ReleaseOutcome → Nat
  | .released => 5
  | .releaseCut => 6

/-- Record states by position (R152). -/
def RecordState.code : RecordState → Nat
  | .idle => 0
  | .forming => 1
  | .held => 2
  | .slipping => 3
  | .releasing _ => 4
  | .broken _ => 5

/-- Channel states by position (R2, R152). -/
def ChannelState.code : ChannelState → Nat
  | .off => 0
  | .waiting => 1
  | .running => 2
  | .stale => 3
  | .lost _ => 4

/-- Reasons of LOST by position (R2, R152). -/
def LostReason.code : LostReason → Nat
  | .noReply => 0
  | .driveDown => 1
  | .capture => 2
  | .check => 3

/-- Drive states by the codes of the Drive Status message (R119, R152). -/
def DriveState.code : DriveState → Nat
  | .ready => 1
  | .torqueLimit => 2
  | .tripped => 3
  | .disabled => 4

/-- The drive state of a code of the Drive Status message (R121). -/
def DriveState.ofByte (b : Byte) : Option DriveState :=
  match b.toNat with
  | 1 => some .ready
  | 2 => some .torqueLimit
  | 3 => some .tripped
  | 4 => some .disabled
  | _ => none

/-- Store results by position (R157). -/
def StoreResult.code : StoreResult → Nat
  | .noResult => 0
  | .ok => 1
  | .notBlank => 2
  | .verifyFail => 3
  | .invalid => 4
  | .interrupted => 5

/-- Start-up load results by position (R157). -/
def StartupLoad.code : StartupLoad → Nat
  | .noLoad => 0
  | .done => 1
  | .invalid => 2

/-- Store states by position (R157). -/
def StoreOp.code : StoreOp → Nat
  | .idle => 0
  | .erasing _ => 1
  | .saving _ _ _ => 2
  | .loading _ _ => 3
  | .startupLoading => 3

/-- A presence indication as a number. -/
def flagNat (b : Bool) : Int := if b then 1 else 0

/-- Pack indications into a value, the first in bit 0 (10.8). -/
def packBits : List Bool → Nat
  | [] => 0
  | b :: rest => (if b then 1 else 0) + 2 * packBits rest

end Sys2Proof.Machine
end

