-- ==== Sys2Proof/Machine/State.lean ====
section
/-! DEFINITION. The state of the S8, its reset, and the reasons a step can stop. -/

namespace Sys2Proof.Machine

/-- Everything the handbook gives the part (INVENTORY.md lists each field with its rule), the occasion counter of the
free values, and the queue of commands. -/
structure State where
  channels : Vector Channel 8
  encoders : Vector Encoder 8
  captureTimer : CaptureTimer
  captureNumber : Word
  slots : Vector (Option Record) 16
  arbiter : Arbiter
  engine : Engine
  edit : EditUnit
  completions : Vector (Option Completion) 16
  link : Link
  checker : Checker
  faults : FaultUnit
  port : Port
  store : Store
  startup : Startup
  resetHeld : Bool
  stopLine : Bool
  freeIndex : Nat
  pending : List Instr
  deriving DecidableEq, Repr

/-- Stops of the model. The handbook gives no event that stops the part. -/
inductive Fault where
  /-- Raised by EDIT_APPLICATION and GROUP_APPLICATION when an open buffer's target slot is VACANT, which R88 says
  cannot be. Safe: no run reaches it, and the handbook gives such an edit no effect. -/
  | danglingEdit (slot : SlotNo)
  deriving DecidableEq, Repr

/-- Refusals of the model. -/
inductive Refusal where
  /-- Raised only by `exec`, for a command that has no meaning yet; none is left. Safe. -/
  | notModelled (mnemonic : String)
  deriving DecidableEq, Repr

/-- The erased state of a channel configuration: all ones (R156). -/
def ChannelConfig.erased : ChannelConfig where
  enabled := 0xFF
  counts := 0xFFFFFFFF
  circumference := 0xFFFFFFFF
  direction := 0xFF
  ceiling := 0xFFFF
  standstill := 0xFFFF
  overspeed := 0xFFFFFFFF

/-- The erased state of a record configuration: all ones (R156). -/
def RecordConfig.erased : RecordConfig where
  tag := 0xFFFF
  leader := 0xFF
  follower := 0xFF
  ratio := 0xFFFFFFFF
  stiffness := 0xFFFF
  damping := 0xFFFF
  filterShift := 0xFF
  limit := 0xFFFF
  share := 0xFF
  slipWindow := 0xFFFFFFFF
  breakWindow := 0xFFFFFFFF
  slipCount := 0xFF
  band := 0xFFFF
  timeout := 0xFFFF
  ramp := 0xFFFF

/-- The blank profile: every bit one, no mark programmed (R156). -/
def Profile.blank : Profile where
  validMark := false
  autoLoad := false
  recordCount := 0xFF
  channels := Vector.replicate 8 ChannelConfig.erased
  records := Vector.replicate 16 RecordConfig.erased
  crc := 0xFFFF

/-- The Fault Unit at reset (R147). -/
def FaultUnit.reset : FaultUnit where
  capture := Vector.replicate 8 false
  overspeed := Vector.replicate 8 false
  lost := Vector.replicate 8 false
  driveLimit := Vector.replicate 8 false
  channelCheck := Vector.replicate 8 none
  slip := Vector.replicate 16 false
  broke := Vector.replicate 16 false
  couplingCheck := Vector.replicate 16 none
  portFrame := false
  linkOverrun := false
  discard := false
  editReject := false
  store := false
  stop := false
  kindMasks := 0
  summaries := 0
  lineMasks := 0
  line := false
  lastReject := none

/-- The start-up reply (R149). -/
def Reply.startUp : Reply where
  code := 0
  seq := 0
  result := .starting
  edit := .untouched
  a := 0
  b := 0
  c := 0

/-- The part right after a power-on with new profile memory: every block at its reset values (R162 step 1), start-up
about to run. The values the handbook does not give are those of assumption 9: encoder phases low, STOP not asserted,
RESET released, chip select high, nothing shifted out yet, profile memory blank, journal clear, last result and
start-up load result NONE. -/
def State.reset : State where
  channels := Vector.replicate 8 (Channel.initial ChannelConfig.reset .off)
  encoders := Vector.replicate 8 { count := 0, illegal := false, phaseA := false, phaseB := false }
  captureTimer := .stopped
  captureNumber := 0
  slots := Vector.replicate 16 none
  arbiter := { inService := none, waiting := [], deferred := [] }
  engine := { period := .p500, collectWindow := 4000, missLimit := 3, stopTaken := false, lastComputed := none }
  edit := { buffers := Vector.replicate 4 none, groupMode := false }
  completions := Vector.replicate 16 none
  link :=
    { slots := Vector.replicate 8 0, roundCapture := 0, round := none,
      counts := Vector.replicate 8 { replies := 0, misses := 0, skips := 0 } }
  checker := { timerRunning := false, scan := .channel 0, pendingTest := none }
  faults := FaultUnit.reset
  port :=
    { chipSelect := .high, deafFalls := 0, reply := Reply.startUp, output := [], service := none,
      snapshot := .empty }
  store :=
    { profiles := Vector.replicate 4 Profile.blank, journal := false, op := .idle, lastResult := .noResult,
      startupLoad := .noLoad }
  startup := .begun
  resetHeld := false
  stopLine := false
  freeIndex := 0
  pending := []

end Sys2Proof.Machine
end

