-- ==== Sys2Proof/Machine/Flags.lean ====
section
/-! DEFINITION. The Fault Unit's flags: their kinds and groups, setting one, clearing one, the summaries, the masks and
the FAULT line (R139 to R146). -/

namespace Sys2Proof.Machine

/-- The kind of a flag, by its position in the table of R139. -/
def Flag.kind : Flag → Fin 14
  | .capture _ => 0
  | .overspeed _ => 1
  | .lost _ => 2
  | .driveLimit _ => 3
  | .channelCheck _ => 4
  | .slip _ => 5
  | .broke _ => 6
  | .couplingCheck _ => 7
  | .portFrame => 8
  | .linkOverrun => 9
  | .discard => 10
  | .editReject => 11
  | .store => 12
  | .stop => 13

/-- The group of a flag (R139). -/
def Flag.group : Flag → FlagGroup
  | .capture _ | .overspeed _ | .lost _ | .driveLimit _ | .channelCheck _ => .channel
  | .slip _ | .broke _ | .couplingCheck _ => .coupling
  | .portFrame | .linkOverrun | .discard | .editReject | .store | .stop => .service

/-- Groups are CHANNEL 0, COUPLING 1, SERVICE 2 (R152). -/
def FlagGroup.index : FlagGroup → Fin 3
  | .channel => 0
  | .coupling => 1
  | .service => 2

/-- The group of a request's index byte. -/
def FlagGroup.ofByte (b : Byte) : Option FlagGroup :=
  match b.toNat with
  | 0 => some .channel
  | 1 => some .coupling
  | 2 => some .service
  | _ => none

/-- The flags of one kind of a group in instance order; the kinds are numbered within their group (R152). None for a
kind the group does not have. -/
def FlagGroup.instances (g : FlagGroup) (kind : Byte) : Option (List Flag) :=
  match g, kind.toNat with
  | .channel, 0 => some ((List.finRange 8).map .capture)
  | .channel, 1 => some ((List.finRange 8).map .overspeed)
  | .channel, 2 => some ((List.finRange 8).map .lost)
  | .channel, 3 => some ((List.finRange 8).map .driveLimit)
  | .channel, 4 => some ((List.finRange 8).map .channelCheck)
  | .coupling, 0 => some ((List.finRange 16).map .slip)
  | .coupling, 1 => some ((List.finRange 16).map .broke)
  | .coupling, 2 => some ((List.finRange 16).map .couplingCheck)
  | .service, 0 => some [.portFrame]
  | .service, 1 => some [.linkOverrun]
  | .service, 2 => some [.discard]
  | .service, 3 => some [.editReject]
  | .service, 4 => some [.store]
  | .service, 5 => some [.stop]
  | _, _ => none

/-- All the flags of a group. -/
def FlagGroup.flags : FlagGroup → List Flag
  | .channel =>
    (List.finRange 8).map .capture ++ (List.finRange 8).map .overspeed ++ (List.finRange 8).map .lost
      ++ (List.finRange 8).map .driveLimit ++ (List.finRange 8).map .channelCheck
  | .coupling =>
    (List.finRange 16).map .slip ++ (List.finRange 16).map .broke ++ (List.finRange 16).map .couplingCheck
  | .service => [.portFrame, .linkOverrun, .discard, .editReject, .store, .stop]

/-- Whether a flag is set (R139). -/
def FaultUnit.isSet (f : FaultUnit) : Flag → Bool
  | .capture c => f.capture[c]
  | .overspeed c => f.overspeed[c]
  | .lost c => f.lost[c]
  | .driveLimit c => f.driveLimit[c]
  | .channelCheck c => f.channelCheck[c].isSome
  | .slip i => f.slip[i]
  | .broke i => f.broke[i]
  | .couplingCheck i => f.couplingCheck[i].isSome
  | .portFrame => f.portFrame
  | .linkOverrun => f.linkOverrun
  | .discard => f.discard
  | .editReject => f.editReject
  | .store => f.store
  | .stop => f.stop

/-- The cause a CHECK flag takes when it is set: MISMATCH is never replaced by TEST (R139). -/
def causeAfter (old : Option CheckCause) (new : CheckCause) : CheckCause :=
  match old, new with
  | some .mismatch, .test => .mismatch
  | _, new => new

/-- Set a flag; the cause matters to a CHECK flag alone. -/
def FaultUnit.setFlag (f : FaultUnit) (fl : Flag) (cause : CheckCause) : FaultUnit :=
  match fl with
  | .capture c => { f with capture := f.capture.set c true }
  | .overspeed c => { f with overspeed := f.overspeed.set c true }
  | .lost c => { f with lost := f.lost.set c true }
  | .driveLimit c => { f with driveLimit := f.driveLimit.set c true }
  | .channelCheck c => { f with channelCheck := f.channelCheck.set c (some (causeAfter f.channelCheck[c] cause)) }
  | .slip i => { f with slip := f.slip.set i true }
  | .broke i => { f with broke := f.broke.set i true }
  | .couplingCheck i => { f with couplingCheck := f.couplingCheck.set i (some (causeAfter f.couplingCheck[i] cause)) }
  | .portFrame => { f with portFrame := true }
  | .linkOverrun => { f with linkOverrun := true }
  | .discard => { f with discard := true }
  | .editReject => { f with editReject := true }
  | .store => { f with store := true }
  | .stop => { f with stop := true }

/-- Clear a flag, and with a CHECK flag its cause (R144). -/
def FaultUnit.clearFlag (f : FaultUnit) (fl : Flag) : FaultUnit :=
  match fl with
  | .capture c => { f with capture := f.capture.set c false }
  | .overspeed c => { f with overspeed := f.overspeed.set c false }
  | .lost c => { f with lost := f.lost.set c false }
  | .driveLimit c => { f with driveLimit := f.driveLimit.set c false }
  | .channelCheck c => { f with channelCheck := f.channelCheck.set c none }
  | .slip i => { f with slip := f.slip.set i false }
  | .broke i => { f with broke := f.broke.set i false }
  | .couplingCheck i => { f with couplingCheck := f.couplingCheck.set i none }
  | .portFrame => { f with portFrame := false }
  | .linkOverrun => { f with linkOverrun := false }
  | .discard => { f with discard := false }
  | .editReject => { f with editReject := false }
  | .store => { f with store := false }
  | .stop => { f with stop := false }

/-- Whether a flag's kind is masked (R141). -/
def FaultUnit.masked (f : FaultUnit) (fl : Flag) : Bool := f.kindMasks.getLsbD fl.kind

/-- The level the FAULT line must have: some summary set that is not line-masked (R142). -/
def FaultUnit.lineLevel (f : FaultUnit) : Bool := f.summaries &&& ~~~f.lineMasks != 0

/-- Judge the FAULT line afresh (R142). -/
def FaultUnit.driveLine (f : FaultUnit) : FaultUnit := { f with line := f.lineLevel }

/-- The bit of a group in the summaries and line masks. -/
def FlagGroup.bit (g : FlagGroup) : BitVec 3 := 1#3 <<< g.index.val

/-- Set a group's summary, and with it the line (R141, R142). -/
def FaultUnit.raiseSummary (f : FaultUnit) (g : FlagGroup) : FaultUnit :=
  { f with summaries := f.summaries ||| g.bit }.driveLine

/-- Clear a group's summary, and with it the line (R142, R145). -/
def FaultUnit.dropSummary (f : FaultUnit) (g : FlagGroup) : FaultUnit :=
  { f with summaries := f.summaries &&& ~~~g.bit }.driveLine

/-- A group's summary flag. -/
def FaultUnit.summary (f : FaultUnit) (g : FlagGroup) : Bool := f.summaries.getLsbD g.index

/-- A group's line mask. -/
def FaultUnit.lineMask (f : FaultUnit) (g : FlagGroup) : Bool := f.lineMasks.getLsbD g.index

/-- A report to the Fault Unit: the flag is set and, when its kind is unmasked, its group's summary (R139, R141). -/
def FaultUnit.report (f : FaultUnit) (fl : Flag) (cause : CheckCause) : FaultUnit :=
  if f.masked fl then f.setFlag fl cause else (f.setFlag fl cause).raiseSummary fl.group

/-- Some detail flag of the group is set and its kind unmasked (R145). -/
def FaultUnit.unmaskedSet (f : FaultUnit) (g : FlagGroup) : Bool := g.flags.any fun fl => f.isSet fl && !f.masked fl

/-- Set a group's summary if one of its set flags has a kind the old masks masked and the new ones do not (R146). -/
def FaultUnit.unmaskRaise (f : FaultUnit) (old : BitVec 14) (g : FlagGroup) : FaultUnit :=
  if g.flags.any (fun fl => f.isSet fl && old.getLsbD fl.kind && !f.masked fl) then f.raiseSummary g else f

/-- An accepted Set Masks (R146). -/
def FaultUnit.setMasks (f : FaultUnit) (kinds : BitVec 14) (lines : BitVec 3) : FaultUnit :=
  let g := { f with kindMasks := kinds, lineMasks := lines }
  (((g.unmaskRaise f.kindMasks .channel).unmaskRaise f.kindMasks .coupling).unmaskRaise f.kindMasks
    .service).driveLine

/-- The condition of a flag, judged against the state of the block that owns it (R140); an event kind has none. -/
def State.conditionHolds (s : State) : Flag → Bool
  | .lost c => s.channels[c].state.isLost
  | .driveLimit c => s.channels[c].lastDrive == some .torqueLimit
  | .overspeed c => s.channels[c].cfg.overspeed.toNat < s.channels[c].speed.natAbs
  | .slip i => match s.slots[i] with
    | some r => r.state == .slipping
    | none => false
  | .broke i => match s.slots[i] with
    | some r => match r.state with
      | .broken _ => true
      | .idle | .forming | .held | .slipping | .releasing _ => false
    | none => false
  | .couplingCheck i => match s.slots[i] with
    | some r => r.checkFailed
    | none => false
  | .stop => s.stopLine
  | .capture _ | .channelCheck _ | .portFrame | .linkOverrun | .discard | .editReject | .store => false

/-- A block reports the event of a flag (R139). -/
def State.report (s : State) (fl : Flag) (cause : CheckCause := .mismatch) : State :=
  { s with faults := s.faults.report fl cause }

end Sys2Proof.Machine
end

