-- ==== Sys2Proof/Machine/Ops.lean ====
section
/-! DEFINITION. The shared operations over the state: records and the directory, coupled indications, completion
entries, transitions out of the active states, channel loss and STOP, the arbiter, the drive link's exchanges and
posts, the port's replies, and the snapshot buffer's changed-since indication. -/

namespace Sys2Proof.Machine

/-! ### Records, channels, the directory -/

/-- Put a record into a slot. -/
def State.setRecord (s : State) (i : SlotNo) (r : Record) : State := { s with slots := s.slots.set i (some r) }

/-- Replace a channel entry. -/
def State.setChannel (s : State) (c : ChannelNo) (ch : Channel) : State := { s with channels := s.channels.set c ch }

/-- The tag directory: one pair of tag and slot for each non-vacant slot (R28). -/
def State.directory (s : State) : List (Half × SlotNo) :=
  (List.finRange 16).filterMap fun i => s.slots[i].map fun r => (r.cfg.tag, i)

/-- The slot the directory gives for a tag (R30). -/
def State.findTag (s : State) (tag : Half) : Option SlotNo := (s.directory.find? fun p => p.1 == tag).map (·.2)

/-- Resolution of a record name (R30, R31): the record found with its slot, or the refusal. -/
def State.resolve (s : State) (name : RecordName) : Except ResultCode (SlotNo × Record) :=
  match name with
  | .byTag tag =>
    match s.findTag tag with
    | some i => match s.slots[i] with
      | some r => .ok (i, r)
      | none => .error .unknown
    | none => .error .unknown
  | .bySlot index =>
    if h : index.toNat < 16 then
      match s.slots[(⟨index.toNat, h⟩ : SlotNo)] with
      | some r => .ok (⟨index.toNat, h⟩, r)
      | none => .error .unknown
    else .error .range

/-- The record in a slot matches a group (R32); a VACANT slot never does. -/
def State.inGroup (s : State) (tag mask : Half) (i : SlotNo) : Bool :=
  match s.slots[i] with
  | some r => tagMatches tag mask r.cfg.tag
  | none => false

/-- The group match result, in ascending slot order (R32). -/
def State.groupMatch (s : State) (tag mask : Half) : List SlotNo := (List.finRange 16).filter (s.inGroup tag mask)

/-- The record in a slot is active (R62). -/
def State.activeAt (s : State) (i : SlotNo) : Bool :=
  match s.slots[i] with
  | some r => r.state.isActive
  | none => false

/-- Some record is active (R84, R160). -/
def State.anyActive (s : State) : Bool := (List.finRange 16).any s.activeAt

/-- Some active record names the channel (R63). -/
def State.coupledNow (s : State) (c : ChannelNo) : Bool :=
  (List.finRange 16).any fun i => match s.slots[i] with
    | some r => r.state.isActive && r.names c
    | none => false

/-- Bring the coupled indications up to date (R63). -/
def State.recouple (s : State) : State :=
  { s with channels := Vector.ofFn fun c => { s.channels[c] with coupled := s.coupledNow c } }

/-! ### Completion entries -/

/-- The number of entries in the completion map (R106). -/
def State.entryCount (s : State) : Nat := s.completions.toList.countP Option.isSome

/-- The map holds eight entries (R106). -/
def State.mapFull (s : State) : Bool := 8 ≤ s.entryCount

/-- A READY entry (R106). -/
def Completion.isReady : Completion → Bool
  | .readyForm _ _ | .readyRelease _ _ => true
  | .waitingForm | .waitingRelease => false

/-- The READY count of the status word (R106, R151). -/
def State.readyCount (s : State) : Nat :=
  s.completions.toList.countP fun o => match o with
    | some e => e.isReady
    | none => false

/-- Put an entry into the map, or remove it. -/
def State.setEntry (s : State) (i : SlotNo) (e : Option Completion) : State :=
  { s with completions := s.completions.set i e }

/-- What an outcome at a capture number carries (R110, R113). -/
def State.collectAt (s : State) (capture : Word) : Collect where
  capture := capture
  deadline := if s.engine.collectWindow = 0 then none else some (capture + s.engine.collectWindow.setWidth 32)

/-- Give the outcome of a Form to the slot's WAITING FORM entry, if it holds one (R109). -/
def State.giveForm (s : State) (i : SlotNo) (o : FormOutcome) (capture : Word) : State :=
  match s.completions[i] with
  | some .waitingForm => s.setEntry i (some (.readyForm o (s.collectAt capture)))
  | some .waitingRelease | some (.readyForm _ _) | some (.readyRelease _ _) | none => s

/-- Give the outcome of a Release to the slot's WAITING RELEASE entry, if it holds one (R109). -/
def State.giveRelease (s : State) (i : SlotNo) (o : ReleaseOutcome) (capture : Word) : State :=
  match s.completions[i] with
  | some .waitingRelease => s.setEntry i (some (.readyRelease o (s.collectAt capture)))
  | some .waitingForm | some (.readyForm _ _) | some (.readyRelease _ _) | none => s

/-- The capture number of an event outside a computation: the last computation served, or 0 (R37, R69, R110). -/
def State.lastCapture (s : State) : Word := s.engine.lastComputed.getD 0

/-! ### Leaving the active states -/

/-- A record put into a state outside the active ones, with the run count 0 and no pending test offset (R62, R63). -/
def Record.leave (r : Record) (state : RecordState) : Record :=
  { r with state := state, run := 0, pendingOffset := none }

/-- Entry to BROKEN with its BREAK event (R64). -/
def State.breakAt (s : State) (i : SlotNo) (r : Record) (reason : BreakReason) : State :=
  (s.setRecord i (r.leave (.broken reason))).report (.broke i)

/-- A channel loss, STOP or check mismatch takes an active record: the forming and held ones break, a ramp is cut to
IDLE, but breaks on a check mismatch; the others stay as they are (R79, R80, R82). The coupled indications are brought
up to date by the caller, in the same event. -/
def State.cutAt (s : State) (i : SlotNo) (reason : BreakReason) : State :=
  match s.slots[i] with
  | some r => match r.state with
    | .forming => (s.breakAt i r reason).giveForm i (.broken reason) s.lastCapture
    | .held | .slipping => s.breakAt i r reason
    | .releasing _ =>
      if reason = .check then (s.breakAt i r reason).giveRelease i .releaseCut s.lastCapture
      else (s.setRecord i (r.leave .idle)).giveRelease i .releaseCut s.lastCapture
    | .idle | .broken _ => s
  | none => s

/-- Cut every record that names a channel (R79). -/
def State.cutNaming (s : State) (c : ChannelNo) (i : SlotNo) : State :=
  match s.slots[i] with
  | some r => if r.names c then s.cutAt i .channelLost else s
  | none => s

/-- A zero write of one channel's slot and posted correction (R79, R124). -/
def State.zeroWrite (s : State) (c : ChannelNo) : State :=
  { s with
    link := { s.link with slots := s.link.slots.set c 0 }
    channels := s.channels.set c { s.channels[c] with posted := 0 } }

/-- The channel-lost notice and all the engine does with it, in the event of the channel's entry to LOST, with the
LOST flag (R21, R79). -/
def State.channelLost (s : State) (c : ChannelNo) : State :=
  ((((List.finRange 16).foldl (fun t i => t.cutNaming c i) s).recouple).zeroWrite c).report (.lost c)

/-- The engine takes the assertion of STOP (R80). -/
def State.takeStop (s : State) : State :=
  let cut := (List.finRange 16).foldl (fun t i => t.cutAt i .stop) s
  let zeroed : State :=
    { cut with
      engine := { cut.engine with stopTaken := true }
      channels := Vector.ofFn fun c => { cut.channels[c] with coupled := false, posted := 0 }
      link := { cut.link with slots := Vector.replicate 8 0 } }
  zeroed.report .stop

/-- The engine takes the deassertion of STOP (R81). -/
def State.takeStopRelease (s : State) : State := { s with engine := { s.engine with stopTaken := false } }

/-! ### Steps of a channel entry -/

/-- What an event does to a channel entry, and the flags it reports; `lost` marks an entry to LOST that sends the
channel-lost notice (R21). -/
structure ChannelStep where
  entry : Channel
  suspect : Bool := false
  overspeed : Bool := false
  driveLimit : Bool := false
  lost : Bool := false
  deriving DecidableEq, Repr

/-- Report a flag when its event came about. -/
def State.reportIf (s : State) (happened : Bool) (fl : Flag) : State := if happened then s.report fl else s

/-- A channel event taken at the Channel Table, with its flags and its notice, whole (R21, R139). -/
def State.takeChannelStep (s : State) (c : ChannelNo) (st : ChannelStep) : State :=
  let t := (((s.setChannel c st.entry).reportIf st.suspect (.capture c)).reportIf st.overspeed (.overspeed c)).reportIf
    st.driveLimit (.driveLimit c)
  if st.lost then t.channelLost c else t

/-! ### The arbiter -/

/-- The order in which waiting accesses are served (R35). -/
def Access.rank : Access → Nat
  | .computation _ | .expiry _ => 0
  | .edit _ | .group => 1
  | .install => 2
  | .saveSnapshot => 3
  | .portSnapshot => 4
  | .checkStep => 5

/-- Accesses that read or write Channel Table entries (R34). -/
def Access.touchesChannels : Access → Bool
  | .computation _ | .expiry _ | .install | .saveSnapshot | .checkStep => true
  | .edit _ | .group | .portSnapshot => false

/-- Request an access: served at once when none is in service and none waits, otherwise it waits (R34). -/
def State.request (s : State) (a : Access) : State :=
  if s.arbiter.inService = none ∧ s.arbiter.waiting = [] then
    { s with arbiter := { s.arbiter with inService := some a } }
  else { s with arbiter := { s.arbiter with waiting := s.arbiter.waiting ++ [a] } }

/-- The waiting access served next: the first in the order of R35, the earlier request first within one kind. -/
def nextAccess (waiting : List Access) : Option Access :=
  (List.range 6).findSome? fun k => waiting.find? fun a => a.rank == k

/-- The table becomes free and the arbiter serves the next waiting access, if any (R35). -/
def State.serveNext (s : State) : State :=
  match nextAccess s.arbiter.waiting with
  | some a => { s with arbiter := { s.arbiter with inService := some a, waiting := s.arbiter.waiting.erase a } }
  | none => { s with arbiter := { s.arbiter with inService := none } }

/-- A check step is waiting or in service (R129). -/
def Arbiter.checkStepOutstanding (a : Arbiter) : Bool := a.inService == some .checkStep || a.waiting.contains .checkStep

/-! ### The drive link -/

/-- The byte of a Correction's capture number, correction and coupled indication, and its CRC-8 (R119). -/
def Correction.bytes (m : Correction) : List Byte :=
  let body := [0xA0#8 + BitVec.ofNat 8 m.channel.val, m.capture] ++ halfBytes (BitVec.ofInt 16 m.torque)
    ++ [if m.coupled then 0x01 else 0x00]
  body ++ [crc8 body]

/-- The Correction message that begins now for a channel (R119). -/
def State.correctionFor (s : State) (c : ChannelNo) : Correction where
  channel := c
  capture := s.link.roundCapture.setWidth 8
  torque := s.link.slots[c]
  coupled := s.channels[c].coupled

/-- The served set of the round in progress (R116, R118). -/
def Link.servedSet (l : Link) : List ChannelNo :=
  match l.round with
  | some r => r.earlier ++ [r.message.channel]
  | none => []

/-- The round list of the round in progress (R116). -/
def Link.roundList (l : Link) : List ChannelNo :=
  match l.round with
  | some r => r.earlier ++ [r.message.channel] ++ r.remaining
  | none => []

/-- Go on with a round: the exchange with the first of the channels still to come begins, or the round ends (R118). -/
def State.nextExchange (s : State) (earlier remaining : List ChannelNo) : State :=
  match remaining with
  | c :: rest =>
    { s with
      link :=
        { s.link with
          round := some
            { earlier := earlier, message := s.correctionFor c, phase := .sending, remaining := rest } } }
  | [] => { s with link := { s.link with round := none } }

/-- A 32-bit count that stops at its largest value (R125). -/
def countUp (w : Word) : Word := if w = 0xFFFFFFFF then w else w + 1

/-- Count a skip for each channel of the served set (R123, R125). -/
def Link.countSkips (l : Link) : Link :=
  { l with
    counts := Vector.ofFn fun c =>
      if l.servedSet.contains c then { l.counts[c] with skips := countUp l.counts[c].skips } else l.counts[c] }

/-- The channels that are not OFF, in ascending order (R117). -/
def State.enabledChannels (s : State) : List ChannelNo :=
  (List.finRange 8).filter fun c => s.channels[c].state != .off

/-- The controller takes a post: the slots and the round capture number are written, and a round starts, or the round
in progress is overrun (R117, R123). -/
def State.takePost (s : State) (values : Vector Int 8) (capture : Word) : State :=
  let t : State := { s with link := { s.link with slots := values, roundCapture := capture } }
  match s.link.round with
  | none => t.nextExchange [] s.enabledChannels
  | some _ => { t with link := t.link.countSkips }.report .linkOverrun

/-! ### The port -/

/-- The result and values of a reply. -/
structure Answer where
  result : ResultCode
  a : Word := 0
  b : Word := 0
  c : Half := 0
  deriving DecidableEq, Repr

/-- A reply is formed: it replaces the reply place and the service ends (R149, R150). -/
def State.replyWith (s : State) (code seq : Byte) (edit : EditOutcome) (r : Answer) : State :=
  { s with
    port :=
      { s.port with
        reply := { code := code, seq := seq, result := r.result, edit := edit, a := r.a, b := r.b, c := r.c }
        service := none } }

/-- The reply of the request in service is formed. -/
def State.finish (s : State) (r : Answer) : State :=
  match s.port.service with
  | some v => s.replyWith v.code v.seq v.edit r
  | none => s

/-- The snapshot buffer's copy is of the record in a slot: mark it changed since (R153). -/
def State.recordChanged (s : State) (i : SlotNo) : State :=
  match s.port.snapshot with
  | .record j capture fields _ =>
    if j = i then { s with port := { s.port with snapshot := .record j capture fields true } } else s
  | .empty | .channel _ _ _ => s

/-- The snapshot buffer's copy is of a channel: mark it changed since (R153). -/
def State.channelChanged (s : State) (c : ChannelNo) : State :=
  match s.port.snapshot with
  | .channel d fields _ => if d = c then { s with port := { s.port with snapshot := .channel d fields true } } else s
  | .empty | .record _ _ _ _ => s

/-- An install marks whatever the buffer holds changed since (R153, R160). -/
def Snapshot.afterInstall : Snapshot → Snapshot
  | .empty => .empty
  | .record i capture fields _ => .record i capture fields true
  | .channel c fields _ => .channel c fields true

end Sys2Proof.Machine
end

