-- ==== Sys2Proof/Machine/Compute.lean ====
section
/-! DEFINITION. The computation of a capture: increments, rate and phase error, the state handling, the correction and
its split, the channel sums, the post (Chapter 3, 4.3), and the expiry of completion entries at its end (R114). -/

namespace Sys2Proof.Machine

/-- The largest magnitude of a phase error in travel units, 1,000,000 µm (R48). -/
def errorLimit : Int := 65536000000

/-- The scaled leader increment u_L′ (R45). -/
def RecordConfig.scaledLeader (cfg : RecordConfig) (uL : Int) : Int := uL + roundDiv (uL * cfg.ratio.toInt) 1000000

/-- The error increment δ (R46). -/
def RecordConfig.increment (cfg : RecordConfig) (uL uF : Int) : Int := uF - cfg.scaledLeader uL

/-- The rate filter step (R47). -/
def Record.filtered (r : Record) (delta : Int) : Int := r.rate + (delta - r.rate).tdiv (2 ^ r.cfg.filterShift.toNat)

/-- The capture band in travel units per capture (R49). -/
def RecordConfig.bandUnits (cfg : RecordConfig) (p : CapturePeriod) : Int :=
  roundDiv (cfg.band.toNat * 65536 * p.micros) 1000

/-- The phase error after a HELD or SLIPPING record's accumulation and clamp (R48); a pending offset is added in HELD
alone. -/
def Record.accumulated (r : Record) (delta : Int) : Int :=
  let offset := match r.state, r.pendingOffset with
    | .held, some o => o * 65536
    | _, _ => 0
  clampTo errorLimit (r.error + delta + offset)

/-- The outcomes a computation gives (R69). -/
inductive Ending where
  | formed | formTimeout | released
  deriving DecidableEq, Repr

/-- A record after the update and the state handling of one computation, with what it reports (R69). -/
structure Advance where
  record : Record
  ending : Option Ending := none
  slipped : Bool := false
  broke : Bool := false
  deriving DecidableEq, Repr

/-- A record found FORMING (R70). -/
def Record.advanceForming (p : CapturePeriod) (r : Record) (delta : Int) : Advance :=
  let rate := r.filtered delta
  let elapsed := min (r.elapsed + 1) 65535
  let run := if (rate.natAbs : Int) ≤ r.cfg.bandUnits p then r.run + 1 else 0
  let moved := { r with rate := rate, elapsed := elapsed }
  if r.cfg.slipCount.toNat ≤ run then
    { record := { moved with state := .held, error := 0, run := 0 }, ending := some .formed }
  else if r.cfg.timeout.toNat ≤ elapsed then { record := moved.leave .idle, ending := some .formTimeout }
  else { record := { moved with run := run } }

/-- A record found HELD (R71). -/
def Record.advanceHeld (r : Record) (delta : Int) : Advance :=
  let error := r.accumulated delta
  let run := if r.cfg.slipWindow.toNat * 65536 < error.natAbs then r.run + 1 else 0
  let moved := { r with rate := r.filtered delta, error := error, pendingOffset := none }
  if r.cfg.slipCount.toNat ≤ run then { record := { moved with state := .slipping, run := 0 }, slipped := true }
  else { record := { moved with run := run } }

/-- A record found SLIPPING (R72). -/
def Record.advanceSlipping (r : Record) (delta : Int) : Advance :=
  let error := r.accumulated delta
  let moved := { r with rate := r.filtered delta, error := error }
  if r.cfg.breakWindow.toNat * 65536 < error.natAbs then { record := moved.leave (.broken .slipLimit), broke := true }
  else if error.natAbs ≤ r.cfg.slipWindow.toNat / 2 * 65536 then
    if r.cfg.slipCount.toNat ≤ r.run + 1 then { record := { moved with state := .held, run := 0 } }
    else { record := { moved with run := r.run + 1 } }
  else { record := { moved with run := 0 } }

/-- A record found RELEASING (R73). -/
def Record.advanceReleasing (r : Record) (ramp : Ramp) (delta : Int) : Advance :=
  let moved := { r with rate := r.filtered delta }
  if r.cfg.ramp.toNat ≤ ramp.step + 1 then { record := moved.leave .idle, ending := some .released }
  else { record := { moved with state := .releasing { ramp with step := ramp.step + 1 } } }

/-- The update and the state handling of a record by the state it is found in (R43, R69); `up`: both its channels are
RUNNING or STALE. -/
def Record.advance (p : CapturePeriod) (uL uF : Int) (up : Bool) (r : Record) : Advance :=
  let delta := r.cfg.increment uL uF
  match r.state with
  | .idle => if up then { record := { r with rate := r.filtered delta } } else { record := r }
  | .forming => r.advanceForming p delta
  | .held => r.advanceHeld delta
  | .slipping => r.advanceSlipping delta
  | .releasing ramp => r.advanceReleasing ramp delta
  | .broken _ => { record := r }

/-- The torque numerator N (R51); FORMING leaves the phase term out. -/
def Record.numerator (p : CapturePeriod) (r : Record) : Int :=
  let rateTerm := r.cfg.damping.toNat * r.rate * 1000000
  if r.state = .forming then rateTerm else r.cfg.stiffness.toNat * r.error * p.micros + rateTerm

/-- The unclamped correction of the torque law (R52). -/
def Record.lawOutput (p : CapturePeriod) (r : Record) : Int := -roundDiv (r.numerator p) (1048576000 * p.micros)

/-- The unclamped ramp output (R54). -/
def Record.rampOutput (r : Record) (ramp : Ramp) : Int :=
  roundDiv (ramp.start * (r.cfg.ramp.toNat - ramp.step)) r.cfg.ramp.toNat

/-- The unclamped correction by the state after the state handling; none outside the active states (R43, R55). -/
def Record.unclamped (p : CapturePeriod) (r : Record) : Option Int :=
  match r.state with
  | .forming | .held | .slipping => some (r.lawOutput p)
  | .releasing ramp => some (r.rampOutput ramp)
  | .idle | .broken _ => none

/-- The correction τ and the limited indication by the clamp to ±T_c (R53); kept where none is formed (R55). -/
def Record.corrected (p : CapturePeriod) (r : Record) : Record :=
  match r.unclamped p with
  | some x =>
    { r with
      correction := clampTo r.cfg.limit.toNat x
      limited := r.cfg.limit.toNat < x.natAbs }
  | none => r

/-- The leader's term of the share split (R56). -/
def Record.leaderTerm (r : Record) : Int := -roundDiv (r.correction * r.cfg.share.toNat) 16

/-- The follower's term of the share split (R56). -/
def Record.followerTerm (r : Record) : Int := r.correction + r.leaderTerm

/-- What a record contributes to a channel's sum (R57). -/
def Record.term (r : Record) (c : ChannelNo) : Int :=
  if r.state.isActive then
    (if r.cfg.followerNo = c then r.followerTerm else 0) + (if r.cfg.leaderNo = c then r.leaderTerm else 0)
  else 0

/-- The advance of the record in a slot, from the channel entries as they stand (R44). -/
def State.advanceAt (s : State) (i : SlotNo) : Option Advance :=
  s.slots[i].map fun r =>
    let l := s.channels[r.cfg.leaderNo]
    let f := s.channels[r.cfg.followerNo]
    r.advance s.engine.period l.travel f.travel (l.state.isUp && f.state.isUp)

/-- The record in a slot after its advance and its correction. -/
def State.correctedAt (s : State) (i : SlotNo) : Option Record :=
  (s.advanceAt i).map fun a => a.record.corrected s.engine.period

/-- A channel's sum over the records active after the state handling (R57). -/
def State.channelSum (s : State) (c : ChannelNo) : Int :=
  ((List.finRange 16).map fun i => match s.correctedAt i with
    | some r => r.term c
    | none => 0).sum

/-- The ceiling clamp acts on a channel (R58). -/
def State.ceilingActs (s : State) (c : ChannelNo) : Bool :=
  s.channels[c].cfg.ceiling.toNat < (s.channelSum c).natAbs

/-- The clamped sum of a channel (R58). -/
def State.clampedSum (s : State) (c : ChannelNo) : Int := clampTo s.channels[c].cfg.ceiling.toNat (s.channelSum c)

/-- The correction posted for a channel (R59). -/
def State.postFor (s : State) (c : ChannelNo) : Int := if s.channels[c].state.isUp then s.clampedSum c else 0

/-- A ceiling clamp marks the record in a slot limited: it contributed a term other than 0 to a clamped sum (R58). -/
def State.ceilingMarks (s : State) (r : Record) : Bool :=
  (List.finRange 8).any fun c => s.ceilingActs c && r.term c != 0

/-- The record a computation leaves in a slot. -/
def State.computedAt (s : State) (i : SlotNo) : Option Record :=
  (s.correctedAt i).map fun r => { r with limited := r.limited || s.ceilingMarks r }

/-- Hand the outcome of a record's advance to the Completion Unit (R69, R110). -/
def State.giveEnding (s : State) (i : SlotNo) (e : Option Ending) (capture : Word) : State :=
  match e with
  | some .formed => s.giveForm i .formed capture
  | some .formTimeout => s.giveForm i .formTimeout capture
  | some .released => s.giveRelease i .released capture
  | none => s

/-- Report what a record's advance did: its outcome, its SLIP event, its BREAK event (R69). -/
def State.reportAdvance (s : State) (i : SlotNo) (a : Option Advance) (capture : Word) : State :=
  match a with
  | some a => ((s.giveEnding i a.ending capture).reportIf a.slipped (.slip i)).reportIf a.broke (.broke i)
  | none => s

/-- The writes of a computation to the tables (R42, R57 to R59). -/
def State.computed (s : State) (capture : Word) : State :=
  { s with
    slots := Vector.ofFn s.computedAt
    channels := Vector.ofFn fun c => { s.channels[c] with limited := s.ceilingActs c, posted := s.postFor c }
    engine := { s.engine with lastComputed := some capture } }

/-- The computation access, whole: the writes, the coupled indications, the outcomes and flags, and the post (R42,
R69). -/
def State.compute (s : State) (capture : Word) : State :=
  let reported :=
    (List.finRange 16).foldl (fun t i => t.reportAdvance i (s.advanceAt i) capture) (s.computed capture).recouple
  reported.takePost (Vector.ofFn s.postFor) capture

/-- A READY entry falls due at a capture number (R114). -/
def Completion.due (e : Completion) (capture : Word) : Bool :=
  match e with
  | .readyForm _ k | .readyRelease _ k => k.deadline == some capture
  | .waitingForm | .waitingRelease => false

/-- The slot's entry falls due at a capture number (R114). -/
def State.dueAt (s : State) (capture : Word) (i : SlotNo) : Bool :=
  match s.completions[i] with
  | some e => e.due capture
  | none => false

/-- Some entry falls due. -/
def State.anyDue (s : State) (capture : Word) : Bool := (List.finRange 16).any (s.dueAt capture)

/-- The due entries are removed and DISCARD is reported when there is one (R114). -/
def State.expire (s : State) (capture : Word) : State :=
  let removed : State :=
    { s with completions := Vector.ofFn fun i => if s.dueAt capture i then none else s.completions[i] }
  removed.reportIf (s.anyDue capture) .discard

end Sys2Proof.Machine
end

