-- ==== Sys2Proof/Machine/Faults.lean ====
section
/-! DEFINITION. The requests of the Fault Unit: Read Faults, Clear Faults, Clear Summary, Set Masks (R143 to R146), with
their packed values (10.8). -/

namespace Sys2Proof.Machine

/-! ### Read Faults -/

/-- Indications at the low end of a value, up to `width` bits of it. -/
def padBits (width : Nat) (l : List Bool) : List Bool := l ++ List.replicate (width - l.length) false

/-- Whether a CHECK flag has cause TEST (10.8). -/
def causeIsTest (o : Option CheckCause) : Bool := o == some .test

/-- The kind masks from one position of the table of R139 on. -/
def FaultUnit.kindMasksFrom (f : FaultUnit) (first count : Nat) : List Bool :=
  (List.range count).map fun k => f.kindMasks.getLsbD (first + k)

/-- Read Faults of CHANNEL (10.8). -/
def FaultUnit.readChannel (f : FaultUnit) : Answer where
  result := .done
  a := BitVec.ofNat 32 (packBits (f.capture.toList ++ f.overspeed.toList ++ f.lost.toList ++ f.driveLimit.toList))
  b := BitVec.ofNat 32
    (packBits (f.channelCheck.toList.map Option.isSome ++ f.channelCheck.toList.map causeIsTest
      ++ padBits 8 (f.kindMasksFrom 0 5) ++ [f.summary .channel, f.lineMask .channel]))

/-- Read Faults of COUPLING (10.8). -/
def FaultUnit.readCoupling (f : FaultUnit) : Answer where
  result := .done
  a := BitVec.ofNat 32 (packBits (f.slip.toList ++ f.broke.toList))
  b := BitVec.ofNat 32
    (packBits (f.couplingCheck.toList.map Option.isSome ++ f.couplingCheck.toList.map causeIsTest))
  c := BitVec.ofNat 16
    (packBits (padBits 8 (f.kindMasksFrom 5 3) ++ [f.summary .coupling, f.lineMask .coupling]))

/-- The last-reject record packed; 0 when it is absent (10.8). -/
def packLastReject : Option LastReject → Word
  | some l => 0x01#8 ++ l.reason.result.byte ++ l.tag
  | none => 0

/-- Read Faults of SERVICE (10.8). -/
def FaultUnit.readService (f : FaultUnit) : Answer where
  result := .done
  a := BitVec.ofNat 32
    (packBits (padBits 8 (FlagGroup.service.flags.map f.isSet) ++ padBits 8 (f.kindMasksFrom 8 6)
      ++ [f.summary .service, f.lineMask .service]))
  b := packLastReject f.lastReject

/-- Read Faults (R143). -/
def State.readFaults (s : State) (index : Byte) : State × Answer :=
  match FlagGroup.ofByte index with
  | none => (s, { result := .range })
  | some .channel => (s, s.faults.readChannel)
  | some .coupling => (s, s.faults.readCoupling)
  | some .service => (s, s.faults.readService)

/-! ### Clear Faults -/

/-- The instance sets a Clear Faults may name: no bit above the group's last instance; disregarded for SERVICE
(R144). -/
def FlagGroup.instanceSetInRange (g : FlagGroup) (a : Word) : Bool :=
  match g with
  | .channel => a.toNat < 256
  | .coupling => a.toNat < 65536
  | .service => true

/-- The request names the flag at a place of its kind (R144). -/
def FlagGroup.named (g : FlagGroup) (a : Word) (n : Nat) : Bool :=
  match g with
  | .channel | .coupling => a.getLsbD n
  | .service => true

/-- The named flags of a kind in instance order, none in the place of a flag not named. -/
def FlagGroup.namedFlags (g : FlagGroup) (a : Word) (flags : List Flag) : List (Option Flag) :=
  flags.zipIdx.map fun p => if g.named a p.2 then some p.1 else none

/-- A named flag is cleared unless its condition holds (R144). -/
def State.clearNamed (s : State) (o : Option Flag) : State :=
  match o with
  | some fl => if s.conditionHolds fl then s else { s with faults := s.faults.clearFlag fl }
  | none => s

/-- A named flag that stayed set (R144). -/
def State.staysSet (s : State) (o : Option Flag) : Bool :=
  match o with
  | some fl => s.faults.isSet fl
  | none => false

/-- Clear Faults (R144). -/
def State.clearFaults (s : State) (index item : Byte) (a : Word) : State × Answer :=
  match FlagGroup.ofByte index with
  | none => (s, { result := .range })
  | some g =>
    match g.instances item with
    | none => (s, { result := .range })
    | some flags =>
      if !g.instanceSetInRange a then (s, { result := .range })
      else
        let named := g.namedFlags a flags
        let t := named.foldl State.clearNamed s
        (t, { result := .done, a := BitVec.ofNat 32 (packBits (named.map t.staysSet)) })

/-! ### Clear Summary, Set Masks -/

/-- Clear Summary (R145). -/
def State.clearSummary (s : State) (index : Byte) : State × Answer :=
  match FlagGroup.ofByte index with
  | none => (s, { result := .range })
  | some g =>
    if s.faults.unmaskedSet g then (s, { result := .stillSet })
    else ({ s with faults := s.faults.dropSummary g }, { result := .done })

/-- Set Masks (R146). -/
def State.setMasks (s : State) (a b : Word) : State × Answer :=
  if 16384 ≤ a.toNat || 8 ≤ b.toNat then (s, { result := .range })
  else ({ s with faults := s.faults.setMasks (a.setWidth 14) (b.setWidth 3) }, { result := .done })

end Sys2Proof.Machine
end

