-- ==== Sys2Proof/Machine/Channels.lean ====
section
/-! DEFINITION. Write Channel and Lookup Channel as events at the Channel Table (R4 to R7, R153). -/

namespace Sys2Proof.Machine

/-- The fields that describe the roller and its encoder (R6). -/
def ChannelField.isGeometry : ChannelField → Bool
  | .counts | .circumference => true
  | .enabled | .direction | .ceiling | .standstill | .overspeed => false

/-- The channel number of an index byte. -/
def channelOfIndex (index : Byte) : Option ChannelNo :=
  if h : index.toNat < 8 then some ⟨index.toNat, h⟩ else none

/-- Checks 2 to 4 of R4 for a channel and field that exist: the first that fails. -/
def Channel.writeRefusal (ch : Channel) (f : ChannelField) (w : Word) : Option ResultCode :=
  if ch.coupled then some .state
  else if f.isGeometry && !(ch.state == .off || ch.standstill) then some .moving
  else if !f.inRange w then some .range
  else none

/-- The live fields on an entry to WAITING from OFF or to OFF (R7). -/
def Channel.restart (ch : Channel) (state : ChannelState) : Channel :=
  { ch with
    state := state, seedPending := true, travel := 0, speed := 0, suspectRun := 0, goodRun := 0, missRun := 0
    standstillRun := 0, standstill := false, lastDrive := none }

/-- The value stored, with the check value and q recomputed (R7). -/
def Channel.store (ch : Channel) (f : ChannelField) (w : Word) : Channel :=
  { ch with
    cfg := ch.cfg.setField f w
    check := (ch.cfg.setField f w).checkValue
    travelPerCount := if f.isGeometry then (ch.cfg.setField f w).travelPerCount else ch.travelPerCount }

/-- An accepted Write Channel (R7). -/
def Channel.written (ch : Channel) (f : ChannelField) (w : Word) : Channel :=
  match ch.state with
  | .off => if f = .enabled ∧ w = 1 then (ch.store f w).restart .waiting else ch.store f w
  | .lost .check =>
    if f = .enabled ∧ w = 0 then (ch.store f w).restart .off
    else { ch.store f w with state := .waiting, goodRun := 0, missRun := 0 }
  | .waiting | .running | .stale | .lost _ =>
    if f = .enabled ∧ w = 0 then (ch.store f w).restart .off else ch.store f w

/-- Write Channel (R4, R7). -/
def State.writeChannel (s : State) (index item : Byte) (w : Word) : State × Answer :=
  match channelOfIndex index, ChannelField.ofId item with
  | some c, some f =>
    match s.channels[c].writeRefusal f w with
    | some refusal => (s, { result := refusal })
    | none => ((s.setChannel c (s.channels[c].written f w)).channelChanged c, { result := .done })
  | _, _ => (s, { result := .range })

/-- The state reason, present only while LOST (R2). -/
def ChannelState.reason : ChannelState → Option LostReason
  | .lost r => some r
  | .off | .waiting | .running | .stale => none

/-- The fields of a channel copy by id, 1 to 28, an absent one as none (R1, R154). -/
def Channel.reported (ch : Channel) (n : ExchangeCounts) : List (Option Int) :=
  (ChannelField.all.map fun f => some ((ch.cfg.field f).toNat : Int))
    ++ [some ch.travelPerCount, some ch.state.code, ch.state.reason.map fun r => (r.code : Int),
      some (flagNat ch.seedPending), some ch.latched.toNat, some ch.travel, some ch.speed, some ch.suspectRun,
      some ch.goodRun, some ch.missRun, some ch.standstillRun, some (flagNat ch.standstill)]
    ++ [ch.lastDrive.map fun d => (d.code : Int), some (flagNat ch.coupled), some (flagNat ch.limited),
      some ch.posted, some ch.check.toNat, some ch.lastCapture.toNat, some n.replies.toNat, some n.misses.toNat,
      some n.skips.toNat]

/-- The snapshot buffer takes a channel copy (R153). -/
def State.copyChannel (s : State) (c : ChannelNo) : State :=
  { s with port := { s.port with snapshot := .channel c (s.channels[c].reported s.link.counts[c]) false } }

/-- Lookup Channel (R153). -/
def State.lookupChannel (s : State) (index : Byte) : State × Answer :=
  match channelOfIndex index with
  | none => (s, { result := .range })
  | some c => (s.copyChannel c, { result := .done, a := s.channels[c].lastCapture })

end Sys2Proof.Machine
end

