-- ==== Sys2Proof/Machine/Capture.lean ====
section
/-! DEFINITION. Encoder counting, capture sets and their application to the channels, and the drive status events at the
Channel Table (Chapter 1). -/

namespace Sys2Proof.Machine

/-- The next pair of phases when phase A leads: A rises, B rises, A falls, B falls (R8). -/
def forwardOf : Bool × Bool → Bool × Bool
  | (false, false) => (true, false)
  | (true, false) => (true, true)
  | (true, true) => (false, true)
  | (false, true) => (false, false)

/-- One sample of an encoder input (R8): one phase changed counts up or down, both changed is an illegal transition,
none changed counts nothing. -/
def Encoder.sample (e : Encoder) (a b : Bool) : Encoder :=
  let old := (e.phaseA, e.phaseB)
  let new := (a, b)
  let moved := { e with phaseA := a, phaseB := b }
  if new = old then moved
  else if new = forwardOf old then { moved with count := e.count + 1 }
  else if old = forwardOf new then { moved with count := e.count - 1 }
  else { moved with illegal := true }

/-- The count delta d of a capture (R12). -/
def Channel.delta (ch : Channel) (raw : Word) : Int :=
  if ch.cfg.reverse then -(raw - ch.latched).toInt else (raw - ch.latched).toInt

/-- The state of a channel after a suspect capture that leaves the suspect run at `run` (R13 and the table of 1.8). -/
def ChannelState.afterSuspect (st : ChannelState) (run : Nat) : ChannelState :=
  match st with
  | .running | .stale => if run = 4 then .lost .capture else .stale
  | .waiting => if run = 4 then .lost .capture else .waiting
  | .off => .off
  | .lost r => .lost r

/-- The good-status run after a suspect capture: restarted when the capture finds the channel WAITING or LOST or takes
it to LOST (R13, 1.9; assumption 16). -/
def Channel.goodRunAfterSuspect (ch : Channel) (after : ChannelState) : Nat :=
  match after with
  | .waiting | .lost _ => 0
  | .off | .running | .stale => ch.goodRun

/-- A suspect capture (R13). -/
def Channel.takeSuspect (ch : Channel) (number raw : Word) : ChannelStep :=
  let run := min (ch.suspectRun + 1) 4
  let after := ch.state.afterSuspect run
  { entry :=
      { ch with
        latched := raw, lastCapture := number, suspectRun := run, state := after
        goodRun := ch.goodRunAfterSuspect after }
    suspect := true
    lost := after.isLost && !ch.state.isLost }

/-- The state of a channel after a good capture (R14). -/
def ChannelState.afterGood : ChannelState → ChannelState
  | .stale => .running
  | .off => .off
  | .waiting => .waiting
  | .running => .running
  | .lost r => .lost r

/-- A good capture (R14, R15, R16, R20). -/
def Channel.takeGood (p : CapturePeriod) (ch : Channel) (number raw : Word) (d : Int) : ChannelStep :=
  let u := d * ch.travelPerCount
  let v := rateInMmPerS p u
  let still := v.natAbs ≤ ch.cfg.standstill.toNat
  let run := if still then min (ch.standstillRun + 1) 16 else 0
  { entry :=
      { ch with
        latched := raw, lastCapture := number, suspectRun := 0, travel := u, speed := v
        state := ch.state.afterGood
        standstillRun := run
        standstill := if still then ch.standstill || run == 16 else false }
    overspeed := ch.cfg.overspeed.toNat < v.natAbs }

/-- One capture applied to one channel (R10 to R14). -/
def Channel.takeCapture (p : CapturePeriod) (ch : Channel) (number raw : Word) (illegal : Bool) : ChannelStep :=
  if ch.state = .off then { entry := ch }
  else if ch.seedPending then { entry := { ch with latched := raw, seedPending := false, lastCapture := number } }
  else if 32767 < (ch.delta raw).natAbs || illegal then ch.takeSuspect number raw
  else ch.takeGood p number raw (ch.delta raw)

/-- One capture set applied to one channel of the state. -/
def State.captureStep (s : State) (set : CaptureSet) (c : ChannelNo) : ChannelStep :=
  s.channels[c].takeCapture s.engine.period set.number set.counts[c] set.illegal[c]

/-- A capture set is applied to the channels in turn and handed to the engine, which requests its computation
(R10, R42). -/
def State.takeCaptureSet (s : State) (set : CaptureSet) : State :=
  ((List.finRange 8).foldl (fun t c => t.takeChannelStep c (t.captureStep set c)) s).request (.computation set.number)

/-- A good reply carrying READY or TORQUE_LIMIT (R17). -/
def Channel.takeFit (ch : Channel) (d : DriveState) : ChannelStep :=
  let run := min (ch.goodRun + 1) 8
  { entry :=
      { ch with
        missRun := 0, lastDrive := some d, goodRun := run
        state := if run = 8 then
            match ch.state with
            | .waiting => .running
            | .lost .check => .lost .check
            | .lost _ => .running
            | .running => .running
            | .stale => .stale
            | .off => .off
          else ch.state }
    driveLimit := d == .torqueLimit }

/-- A channel that a trip or a run of misses takes to LOST; a LOST one is not (R18, R19). -/
def ChannelState.canFall : ChannelState → Bool
  | .waiting | .running | .stale => true
  | .off | .lost _ => false

/-- A good reply carrying TRIPPED or DISABLED (R18). -/
def Channel.takeDown (ch : Channel) (d : DriveState) : ChannelStep :=
  { entry :=
      { ch with
        goodRun := 0, missRun := 0, lastDrive := some d
        state := match ch.state with
          | .waiting | .running | .stale => .lost .driveDown
          | .lost .noReply | .lost .capture => .lost .driveDown
          | .lost .driveDown => .lost .driveDown
          | .lost .check => .lost .check
          | .off => .off }
    lost := ch.state.canFall }

/-- A miss, against the miss limit (R19). -/
def Channel.takeMiss (limit : Nat) (ch : Channel) : ChannelStep :=
  let run := min (ch.missRun + 1) 15
  let falls := limit ≤ run && ch.state.canFall
  { entry := { ch with goodRun := 0, missRun := run, state := if falls then .lost .noReply else ch.state }
    lost := falls }

/-- A drive status event at the Channel Table; an OFF channel discards it (R17, R18, R19, R121). -/
def Channel.takeDrive (limit : Nat) (ch : Channel) (r : DriveResult) : ChannelStep :=
  if ch.state = .off then { entry := ch }
  else match r with
    | .good .ready => ch.takeFit .ready
    | .good .torqueLimit => ch.takeFit .torqueLimit
    | .good .tripped => ch.takeDown .tripped
    | .good .disabled => ch.takeDown .disabled
    | .miss => ch.takeMiss limit

/-- The exchange counts after a judgement (R125). -/
def ExchangeCounts.afterJudgement (n : ExchangeCounts) (r : DriveResult) : ExchangeCounts :=
  match r with
  | .good _ => { n with replies := countUp n.replies }
  | .miss => { n with misses := countUp n.misses }

/-- The gap that follows an exchange: 2 µs after a good reply, 6 µs after a miss (R120). -/
def DriveResult.gap : DriveResult → Nat
  | .good _ => 2
  | .miss => 6

/-- The judged result of the exchange in progress is taken by the Channel Table; the exchange counts follow, and the
gap begins (R121, R125). -/
def State.takeDriveStatus (s : State) : State :=
  match s.link.round with
  | some rd => match rd.phase with
    | .judged r =>
      let c := rd.message.channel
      let counted : State :=
        { s with
          link :=
            { s.link with
              counts := s.link.counts.set c (s.link.counts[c].afterJudgement r)
              round := some { rd with phase := .gap r.gap } } }
      counted.takeChannelStep c (s.channels[c].takeDrive s.engine.missLimit r)
    | .sending | .awaiting | .receiving | .gap _ => s
  | none => s

/-- The channel a judged drive status event would take to LOST with a notice. -/
def State.driveStatusLoses (s : State) : Bool :=
  match s.link.round with
  | some rd => match rd.phase with
    | .judged r => (s.channels[rd.message.channel].takeDrive s.engine.missLimit r).lost
    | .sending | .awaiting | .receiving | .gap _ => false
  | none => false

/-- A capture set would take some channel to LOST with a notice. -/
def State.captureSetLoses (s : State) (set : CaptureSet) : Bool :=
  (List.finRange 8).any fun c => (s.captureStep set c).lost

end Sys2Proof.Machine
end

