-- ==== Sys2Proof/Machine/Integrity.lean ====
section
/-! DEFINITION. The Integrity Checker: the check scan, mismatches, and the commissioning tests (Chapter 8). -/

namespace Sys2Proof.Machine

/-! ### The scan -/

/-- The position after an item: channels 0 to 7, then slots 0 to 15, and again (R130). -/
def ScanPosition.after : ScanPosition → ScanPosition
  | .channel c => if h : c.val + 1 < 8 then .channel ⟨c.val + 1, h⟩ else .slot 0
  | .slot i => if h : i.val + 1 < 16 then .slot ⟨i.val + 1, h⟩ else .channel 0

/-- The lowest-numbered non-vacant slot at or above a slot (R130). -/
def State.firstOccupied (s : State) (i : SlotNo) : Option SlotNo :=
  (List.finRange 16).find? fun j => decide (i ≤ j) && s.slots[j].isSome

/-- The item a check step checks, chosen by the scan position (R130). -/
def State.checkItem (s : State) : ScanPosition :=
  match s.checker.scan with
  | .channel c => .channel c
  | .slot i => match s.firstOccupied i with
    | some j => .slot j
    | none => .channel 0

/-! ### Mismatches -/

/-- A channel entry after a check mismatch (R21, R132). -/
def Channel.takeMismatch (ch : Channel) : ChannelStep where
  entry :=
    { ch with
      state := match ch.state with
        | .off => .off
        | .waiting | .running | .stale | .lost _ => .lost .check }
  lost := ch.state.canFall

/-- A mismatch on a channel configuration (R132). -/
def State.channelMismatch (s : State) (c : ChannelNo) : State :=
  (s.takeChannelStep c s.channels[c].takeMismatch).report (.channelCheck c)

/-- The check-failed mark of the record in a slot is set (R134). -/
def State.markFailed (s : State) (i : SlotNo) : State :=
  match s.slots[i] with
  | some r => s.setRecord i { r with checkFailed := true }
  | none => s

/-- A mismatch on a record (R82, R133). -/
def State.recordMismatch (s : State) (i : SlotNo) : State :=
  (((s.cutAt i .check).markFailed i).recouple).report (.couplingCheck i)

/-- The pending check test is consumed when it is for the slot (R136). -/
def State.consumeTest (s : State) (i : SlotNo) : State :=
  { s with
    checker :=
      { s.checker with pendingTest := if s.checker.pendingTest = some i then none else s.checker.pendingTest } }

/-- A channel is checked (R131, R132). -/
def State.checkChannel (s : State) (c : ChannelNo) : State :=
  if s.channels[c].cfg.checkValue = s.channels[c].check then s else s.channelMismatch c

/-- A record is checked, and with it a pending check test for its slot (R131, R133, R136). -/
def State.checkRecord (s : State) (i : SlotNo) (r : Record) : State :=
  if r.cfg.checkValue = r.check then
    if s.checker.pendingTest = some i then (s.consumeTest i).report (.couplingCheck i) .test else s
  else (s.consumeTest i).recordMismatch i

/-- The scan position moves on (R130). -/
def State.setScan (s : State) (p : ScanPosition) : State := { s with checker := { s.checker with scan := p } }

/-- The check step access with the taking of its outcome, whole (R130, R131). -/
def State.takeCheckStep (s : State) : State :=
  match s.checkItem with
  | .channel c => (s.setScan (ScanPosition.channel c).after).checkChannel c
  | .slot i => match s.slots[i] with
    | some r => (s.setScan (ScanPosition.slot i).after).checkRecord i r
    | none => s.setScan (ScanPosition.slot i).after

/-! ### Commissioning tests -/

/-- The offsets an Offset Test may carry, in µm (R137). -/
def offsetInRange (w : Word) : Bool := -500000 ≤ w.toInt && w.toInt ≤ 500000

/-- Offset Test (R137). -/
def State.offsetTest (s : State) (name : RecordName) (offset : Word) : State × Answer :=
  match s.resolve name with
  | .error refusal => (s, { result := refusal })
  | .ok (i, r) =>
    if !offsetInRange offset then (s, { result := .range })
    else if r.state ≠ .held then (s, { result := .state })
    else (s.setRecord i { r with pendingOffset := some offset.toInt }, { result := .done })

/-- Check Test (R135). -/
def State.checkTest (s : State) (name : RecordName) : State × Answer :=
  match s.resolve name with
  | .error refusal => (s, { result := refusal })
  | .ok (i, r) =>
    if r.state ≠ .idle then (s, { result := .state })
    else ({ s with checker := { s.checker with pendingTest := some i } }, { result := .done })

end Sys2Proof.Machine
end

