-- ==== Sys2Proof/Machine/Edit.lean ====
section
/-! DEFINITION. The Edit Unit: buffers, the result of an edit, validation and application, alone and in a group
(Chapter 5). -/

namespace Sys2Proof.Machine

/-- The slots of the Coupling Table. -/
abbrev Slots := Vector (Option Record) 16

/-! ### One edit -/

/-- The written values in place of the written fields (R94, R96). -/
def EditBuffer.over (b : EditBuffer) (cfg : RecordConfig) : RecordConfig :=
  RecordField.all.foldl (fun k f => match b.written[f.place] with
    | some w => k.setField f w
    | none => k) cfg

/-- The base copy (R86). -/
def EditBuffer.base (b : EditBuffer) : RecordConfig :=
  match b.target with
  | .new => RecordConfig.defaults b.tag
  | .existing _ copy => copy

/-- The result of the edit: the base copy with the written values (R94). -/
def EditBuffer.result (b : EditBuffer) : RecordConfig := b.over b.base

/-- Whether a field is in the written-field set. -/
def EditBuffer.wrote (b : EditBuffer) (f : RecordField) : Bool := b.written[f.place].isSome

/-- The buffer edits the record in a slot. -/
def EditBuffer.edits (b : EditBuffer) (i : SlotNo) : Bool :=
  match b.target with
  | .new => false
  | .existing j _ => i == j

/-- Some record other than the target holds a tag (R94, check 3). -/
def tagHeldElsewhere (slots : Slots) (b : EditBuffer) (tag : Half) : Bool :=
  (List.finRange 16).any fun i => match slots[i] with
    | some r => r.cfg.tag == tag && !b.edits i
    | none => false

/-- The lowest-numbered VACANT slot (R22). -/
def lowestVacant (slots : Slots) : Option SlotNo := (List.finRange 16).find? fun i => slots[i].isNone

/-- Check 5 of R94 fails: the target is active and the edit changes its leader or follower. -/
def movesActivePair (slots : Slots) (b : EditBuffer) : Bool :=
  match b.target with
  | .new => false
  | .existing i _ => match slots[i] with
    | some r => r.state.isActive && (b.result.leader != r.cfg.leader || b.result.follower != r.cfg.follower)
    | none => false

/-- The first check of R94 that fails, in its order. -/
def EditBuffer.rejection (b : EditBuffer) (slots : Slots) : Option EditReason :=
  if b.target = .new && !(b.wrote .leader && b.wrote .follower) then some .incomplete
  else if b.result.follower = b.result.leader || b.result.breakWindow.toNat < b.result.slipWindow.toNat then
    some .inconsistent
  else if tagHeldElsewhere slots b b.result.tag then some .duplicate
  else if b.target = .new && (lowestVacant slots).isNone then some .full
  else if movesActivePair slots b then some .state
  else none

/-- An existing record with an edit applied (R96). -/
def EditBuffer.applyTo (b : EditBuffer) (r : Record) : Record :=
  { r with
    cfg := b.over r.cfg
    edition := r.edition + 1
    check := (b.over r.cfg).checkValue
    checkFailed := false }

/-- The table with an edit applied that has passed validation (R96, R97). -/
def EditBuffer.applied (b : EditBuffer) (slots : Slots) : Slots :=
  match b.target with
  | .new => match lowestVacant slots with
    | some i => slots.set i (some (Record.fresh b.result))
    | none => slots
  | .existing i _ => match slots[i] with
    | some r => slots.set i (some (b.applyTo r))
    | none => slots

/-- The target slot of an edit when it is VACANT, which R88 rules out (assumption 22). -/
def EditBuffer.dangling (b : EditBuffer) (slots : Slots) : Option SlotNo :=
  match b.target with
  | .new => none
  | .existing i _ => if slots[i].isNone then some i else none

/-! ### Buffers -/

/-- The open buffer for a tag (R86). -/
def EditUnit.bufferFor (e : EditUnit) (tag : Half) : Option BufferNo :=
  (List.finRange 4).find? fun k => match e.buffers[k] with
    | some b => b.tag == tag
    | none => false

/-- The lowest-numbered FREE buffer (R86). -/
def EditUnit.freeBuffer (e : EditUnit) : Option BufferNo := (List.finRange 4).find? fun k => e.buffers[k].isNone

/-- The open buffers in ascending number. -/
def EditUnit.openBuffers (e : EditUnit) : List (BufferNo × EditBuffer) :=
  (List.finRange 4).filterMap fun k => e.buffers[k].map fun b => (k, b)

/-- The open buffers whose tags match a group (R91). -/
def EditUnit.matching (e : EditUnit) (tag mask : Half) : List BufferNo :=
  (e.openBuffers.filter fun p => tagMatches tag mask p.2.tag).map (·.1)

/-- Fill or free a buffer. -/
def State.setBuffer (s : State) (k : BufferNo) (b : Option EditBuffer) : State :=
  { s with edit := { s.edit with buffers := s.edit.buffers.set k b } }

/-- In group mode, a buffer is open for a record's tag (R100). -/
def State.editHolds (s : State) (tag : Half) : Bool := s.edit.groupMode && (s.edit.bufferFor tag).isSome

/-- A rejection is reported with its reason and tag (R92, R95, R143). -/
def State.rejectEdit (s : State) (reason : EditReason) (tag : Half) : State :=
  let t := s.report .editReject
  { t with faults := { t.faults with lastReject := some { reason := reason, tag := tag } } }

/-- The snapshot buffer learns of an edit applied to an existing record (R96, R153). -/
def State.noteApplied (s : State) (b : EditBuffer) : State :=
  match b.target with
  | .new => s
  | .existing i _ => s.recordChanged i

/-- One edit validated and applied whole or rejected whole in its access; the buffer becomes FREE (R94 to R97). -/
def State.applyEdit (s : State) (k : BufferNo) (b : EditBuffer) : State × EditOutcome :=
  match b.rejection s.slots with
  | some reason => ((s.setBuffer k none).rejectEdit reason b.tag, .rejected reason)
  | none => (({ s with slots := b.applied s.slots }.setBuffer k none).noteApplied b, .applied)

/-- The open buffers judged in order, each against the table as those before it would leave it: the table they leave,
or the first failing buffer's reason and tag (R101). -/
def judgeGroup : List (BufferNo × EditBuffer) → Slots → Except (EditReason × Half) Slots
  | [], slots => .ok slots
  | (_, b) :: rest, slots =>
    match b.rejection slots with
    | some reason => .error (reason, b.tag)
    | none => judgeGroup rest (b.applied slots)

/-- Every buffer FREE and group mode ended (R101 to R103). -/
def State.endGroup (s : State) : State :=
  { s with edit := { buffers := Vector.replicate 4 none, groupMode := false } }

/-- The Commit Group access: all the edits or none (R101, R102). -/
def State.applyGroup (s : State) : State × EditOutcome × Answer :=
  match judgeGroup s.edit.openBuffers s.slots with
  | .error (reason, tag) =>
    (s.endGroup.rejectEdit reason tag, .rejected reason, { result := reason.result, a := tag.setWidth 32 })
  | .ok slots =>
    let noted := s.edit.openBuffers.foldl (fun t p => t.noteApplied p.2) s
    ({ noted with slots := slots }.endGroup, .applied,
      { result := .done, a := BitVec.ofNat 32 s.edit.openBuffers.length })

/-- Open a buffer for a tag and write one field into it: the directory decides the target and the base copy (R88). -/
def State.openBuffer (s : State) (k : BufferNo) (tag : Half) (f : RecordField) (w : Word) : State :=
  let target : EditTarget := match s.findTag tag with
    | some i => match s.slots[i] with
      | some r => .existing i r.cfg
      | none => .new
    | none => .new
  s.setBuffer k
    (some { tag := tag, target := target, written := (Vector.replicate 15 none).set f.place (some w) })

/-- Write one field into an open buffer (R88, R89). -/
def State.writeInto (s : State) (k : BufferNo) (b : EditBuffer) (f : RecordField) (w : Word) : State :=
  s.setBuffer k (some { b with written := b.written.set f.place (some w) })

end Sys2Proof.Machine
end

