-- ==== Sys2Proof/Machine/Life.lean ====
section
/-! DEFINITION. The requests of the coupling life cycle as events at the Coupling Table: Form, Release, Release Group,
Retire, Set Engine (Chapter 4, Chapter 6). -/

namespace Sys2Proof.Machine

/-! ### The forest rule -/

/-- The leader of the active record that the channel follows, if there is one (R66). -/
def State.leaderOf (s : State) (c : ChannelNo) : Option ChannelNo :=
  (List.finRange 16).findSome? fun i => match s.slots[i] with
    | some r => if r.state.isActive && r.cfg.followerNo == c then some r.cfg.leaderNo else none
    | none => none

/-- The walk through the leaders of active records from a channel reaches the target (R66). -/
def State.walkReaches (s : State) : Nat → ChannelNo → ChannelNo → Bool
  | 0, target, c => c == target
  | fuel + 1, target, c =>
    c == target || (match s.leaderOf c with
      | some l => s.walkReaches fuel target l
      | none => false)

/-- The forest rule refuses a pair (R66). -/
def State.conflicts (s : State) (leader follower : ChannelNo) : Bool :=
  (s.leaderOf follower).isSome || s.walkReaches 8 follower leader

/-! ### Form -/

/-- Checks 4 to 9 of R65, for a record that holds no entry answering the Form: the first that fails. -/
def State.formRefusal (s : State) (r : Record) : Option ResultCode :=
  if r.state ≠ .idle then some .state
  else if r.checkFailed then some .check
  else if s.engine.stopTaken then some .stopped
  else if !(s.channels[r.cfg.leaderNo].state.isUp && s.channels[r.cfg.followerNo].state.isUp) then some .channel
  else if s.conflicts r.cfg.leaderNo r.cfg.followerNo then some .conflict
  else if s.mapFull then some .queueFull
  else none

/-- An accepted Form (R67). -/
def State.acceptForm (s : State) (i : SlotNo) (r : Record) : State :=
  ((s.setRecord i { r with state := .forming, error := 0, run := 0, elapsed := 0 }).setEntry i
    (some .waitingForm)).recouple

/-- The break reason a collecting reply carries (R111). -/
def FormOutcome.reasonCode : FormOutcome → Half
  | .broken reason => BitVec.ofNat 16 reason.code
  | .formed | .formTimeout | .cancelled => 0

/-- A Form's answer that collects an outcome (R111). -/
def collectedForm (o : FormOutcome) (k : Collect) : Answer where
  result := .done
  a := BitVec.ofNat 32 o.code
  b := k.capture
  c := o.reasonCode

/-- A Form of the record found (R65 checks 2 to 9, R111). -/
def State.formFound (s : State) (i : SlotNo) (r : Record) : State × Answer :=
  if s.editHolds r.cfg.tag then (s, { result := .editOpen })
  else match s.completions[i] with
    | some .waitingForm => (s, { result := .pending })
    | some (.readyForm o k) => (s.setEntry i none, collectedForm o k)
    | some (.readyRelease _ _) => (s, { result := .uncollected })
    | some .waitingRelease | none =>
      match s.formRefusal r with
      | some refusal => (s, { result := refusal })
      | none => (s.acceptForm i r, { result := .pending })

/-- Form (R65). -/
def State.form (s : State) (name : RecordName) : State × Answer :=
  match s.resolve name with
  | .error refusal => (s, { result := refusal })
  | .ok (i, r) => s.formFound i r

/-! ### Release -/

/-- What a Release does to a record by its state, creating no entry (R74 to R77). -/
def State.releaseAt (s : State) (i : SlotNo) (r : Record) : State :=
  match r.state with
  | .idle | .releasing _ => s
  | .forming => ((s.setRecord i (r.leave .idle)).giveForm i .cancelled s.lastCapture).recouple
  | .held | .slipping => s.setRecord i (r.leave (.releasing { start := r.correction, step := 0 }))
  | .broken _ => s.setRecord i { r.leave .idle with error := 0, rate := 0 }

/-- The answer of a Release and the entry it creates, by the state the Release found (R74, R75, R108). -/
def State.releaseAnswer (s : State) (i : SlotNo) (found : RecordState) : State × Answer :=
  match found with
  | .idle | .forming | .broken _ => (s, { result := .done })
  | .releasing _ => (s, { result := .pending })
  | .held | .slipping =>
    if s.mapFull || s.completions[i].isSome then (s, { result := .accepted })
    else (s.setEntry i (some .waitingRelease), { result := .pending })

/-- A Release's answer that collects an outcome (R111). -/
def collectedRelease (o : ReleaseOutcome) (k : Collect) : Answer where
  result := .done
  a := BitVec.ofNat 32 o.code
  b := k.capture

/-- A Release of the record found (R74 checks 2 and 3, R111). -/
def State.releaseFound (s : State) (i : SlotNo) (r : Record) : State × Answer :=
  if s.editHolds r.cfg.tag then (s, { result := .editOpen })
  else match s.completions[i] with
    | some (.readyRelease o k) => (s.setEntry i none, collectedRelease o k)
    | some .waitingForm | some .waitingRelease | some (.readyForm _ _) | none =>
      (s.releaseAt i r).releaseAnswer i r.state

/-- Release (R74). -/
def State.release (s : State) (name : RecordName) : State × Answer :=
  match s.resolve name with
  | .error refusal => (s, { result := refusal })
  | .ok (i, r) => s.releaseFound i r

/-- Release Group counts a record it puts into RELEASING or IDLE (R77). -/
def RecordState.releasable : RecordState → Bool
  | .forming | .held | .slipping | .broken _ => true
  | .idle | .releasing _ => false

/-- One member of a group is released by its state (R77). -/
def State.releaseMember (s : State) (i : SlotNo) : State :=
  match s.slots[i] with
  | some r => s.releaseAt i r
  | none => s

/-- The record in a slot has an open buffer for its tag in group mode (R77, R100). -/
def State.memberEditOpen (s : State) (i : SlotNo) : Bool :=
  match s.slots[i] with
  | some r => s.editHolds r.cfg.tag
  | none => false

/-- Release Group would move the record in a slot. -/
def State.memberMoves (s : State) (i : SlotNo) : Bool :=
  match s.slots[i] with
  | some r => r.state.releasable
  | none => false

/-- Release Group (R77). -/
def State.releaseGroup (s : State) (tag mask : Half) : State × Answer :=
  let members := s.groupMatch tag mask
  if members.any s.memberEditOpen then (s, { result := .editOpen })
  else
    (members.foldl State.releaseMember s,
      { result := .accepted, c := BitVec.ofNat 16 (members.countP s.memberMoves) })

/-! ### Retire -/

/-- A record that a Retire or a Check Test may take: IDLE, or BROKEN for a Retire (R78). -/
def RecordState.retirable : RecordState → Bool
  | .idle | .broken _ => true
  | .forming | .held | .slipping | .releasing _ => false

/-- An accepted Retire: the slot VACANT, a check test pending for it discarded, the snapshot marked (R78, R135,
R153). -/
def State.vacate (s : State) (i : SlotNo) : State :=
  { s with
    slots := s.slots.set i none
    checker :=
      { s.checker with pendingTest := if s.checker.pendingTest = some i then none else s.checker.pendingTest }
  }.recordChanged i

/-- Retire (R78). -/
def State.retire (s : State) (name : RecordName) : State × Answer :=
  match s.resolve name with
  | .error refusal => (s, { result := refusal })
  | .ok (i, r) =>
    if s.editHolds r.cfg.tag then (s, { result := .editOpen })
    else if !r.state.retirable then (s, { result := .state })
    else if s.completions[i].isSome then (s, { result := .uncollected })
    else (s.vacate i, { result := .done })

/-! ### Engine settings -/

/-- The collect windows (R84). -/
def collectWindowInRange (w : Word) : Bool := w == 0 || (64 ≤ w.toNat && w.toNat ≤ 65535)

/-- The miss limits (R84). -/
def missLimitInRange (w : Word) : Bool := 1 ≤ w.toNat && w.toNat ≤ 15

/-- An accepted Set Engine; a new period restarts the capture timer (R9, R84). -/
def State.setEngineTo (s : State) (p : CapturePeriod) (window limit : Word) : State :=
  { s with
    engine := { s.engine with period := p, collectWindow := window.setWidth 16, missLimit := limit.toNat }
    captureTimer := if p = s.engine.period then s.captureTimer else .running p }

/-- Set Engine (R84). -/
def State.setEngine (s : State) (a b c : Word) : State × Answer :=
  match CapturePeriod.ofMicros a with
  | none => (s, { result := .range })
  | some p =>
    if !(collectWindowInRange b && missLimitInRange c) then (s, { result := .range })
    else if p ≠ s.engine.period && s.anyActive then (s, { result := .state })
    else (s.setEngineTo p b c, { result := .done })

end Sys2Proof.Machine
end

