-- ==== Sys2Proof/Machine/Store.lean ====
section
/-! DEFINITION. The Profile Store: profiles and their validity, the store requests, save, erase, load, install, and what
a reset leaves (Chapter 11). -/

namespace Sys2Proof.Machine

/-! ### Profiles -/

/-- A mark as a byte under the profile CRC: erased all ones, programmed all zeros (R156; assumption 18). -/
def markByte (programmed : Bool) : Byte := if programmed then 0x00 else 0xFF

/-- The saved records (R156). -/
def Profile.savedRecords (p : Profile) : List RecordConfig := p.records.toList.take p.recordCount.toNat

/-- The items the profile CRC covers, in the order of R156 (assumption 18). -/
def Profile.bytes (p : Profile) : List Byte :=
  [markByte p.validMark, markByte p.autoLoad, p.recordCount] ++ p.channels.toList.flatMap ChannelConfig.bytes
    ++ p.savedRecords.flatMap RecordConfig.bytes

/-- The profile CRC that agrees with the contents (R156). -/
def Profile.contentCrc (p : Profile) : Half := crc16 p.bytes

/-- The saved tags are distinct (R160). -/
def Profile.tagsDistinct (p : Profile) : Bool := decide (p.savedRecords.map RecordConfig.tag).Nodup

/-- The tests of R160 that a valid profile passes. -/
def Profile.isValid (p : Profile) : Bool :=
  p.validMark && p.crc == p.contentCrc && decide (p.recordCount.toNat ≤ 16)
    && p.channels.toList.all ChannelConfig.inRange && p.savedRecords.all RecordConfig.inRange && p.tagsDistinct

/-- A channel configuration whose bits can also stand at one where `bits` has one. -/
def ChannelConfig.loosen (cfg : ChannelConfig) (bits : Nat → Word) : ChannelConfig :=
  ChannelField.all.zipIdx.foldl (fun k p => k.setField p.1 (k.field p.1 ||| bits p.2)) cfg

/-- A record configuration whose bits can also stand at one where `bits` has one. -/
def RecordConfig.loosen (cfg : RecordConfig) (bits : Nat → Word) : RecordConfig :=
  RecordField.all.zipIdx.foldl (fun k p => k.setField p.1 (k.field p.1 ||| bits p.2)) cfg

/-- A profile partly erased or partly programmed: its valid mark erased, every bit of `p` that is zero standing at zero
or at one by the free values (R161; assumption 10). -/
def Profile.loosen (p : Profile) (bits : Nat → Word) : Profile where
  validMark := false
  autoLoad := p.autoLoad && (bits 0).getLsbD 0
  recordCount := p.recordCount ||| (bits 1).setWidth 8
  channels := Vector.ofFn fun c => p.channels[c].loosen fun n => bits (16 * (c.val + 1) + n)
  records := Vector.ofFn fun i => p.records[i].loosen fun n => bits (16 * (i.val + 9) + n)
  crc := p.crc ||| (bits 2).setWidth 16

/-- A profile as a reset leaves it in the middle of a save: partly programmed, of the bits that the copy has at zero;
and the CRC, which a save that does not verify programs to zeros before it ends, with any bit at zero or at one (R159,
R161; assumption 10). -/
def Profile.cutShort (copy : Profile) (bits : Nat → Word) : Profile :=
  { copy.loosen bits with crc := (bits 2).setWidth 16 }

/-- A profile with another record count. -/
def Profile.withCount (p : Profile) (count : Byte) : Profile := { p with recordCount := count }

/-- A profile with its CRC at zeros, whose contents must not agree with that: where they would, bit 7 of the record
count stands at one, and where they still would, bit 6 the other way (R159; assumption 10). Both bits are zero in a
record count of 0 to 16, so that either of their values is that of a bit not programmed or programmed. -/
def Profile.disagreeing (p : Profile) : Profile :=
  let tall := p.withCount (p.recordCount ||| 0x80)
  if p.contentCrc ≠ 0 then p
  else if tall.contentCrc ≠ 0 then tall
  else tall.withCount (tall.recordCount ^^^ 0x40)

/-- What a save that did not verify leaves: the valid mark erased, the CRC programmed to zeros, of the other bits that
the copy has at zero those programmed that the free values say, and contents with which that CRC does not agree (R159;
assumption 10). -/
def Profile.unverified (copy : Profile) (bits : Nat → Word) : Profile :=
  { copy.loosen bits with crc := 0 }.disagreeing

/-- The configurations of the non-vacant records in ascending slot order (R159). -/
def State.savedConfigs (s : State) : List RecordConfig :=
  (List.finRange 16).filterMap fun i => s.slots[i].map Record.cfg

/-- What a save will program, from the tables as they stand (R156, R159). -/
def State.profileCopy (s : State) (autoLoad : Bool) : Profile :=
  let contents : Profile :=
    { validMark := true
      autoLoad := autoLoad
      recordCount := BitVec.ofNat 8 s.savedConfigs.length
      channels := Vector.ofFn fun c => s.channels[c].cfg
      records := Vector.ofFn fun i => s.savedConfigs[i.val]?.getD RecordConfig.erased
      crc := 0 }
  { contents with crc := contents.contentCrc }

/-! ### Operations -/

/-- The profile of an index byte. -/
def profileOfIndex (index : Byte) : Option ProfileNo :=
  if h : index.toNat < 4 then some ⟨index.toNat, h⟩ else none

/-- The store is LOADING (R152, R157). -/
def StoreOp.isLoading : StoreOp → Bool
  | .loading _ _ | .startupLoading => true
  | .idle | .erasing _ | .saving _ _ _ => false

/-- Write one profile's memory. -/
def State.setProfile (s : State) (p : ProfileNo) (contents : Profile) : State :=
  { s with store := { s.store with profiles := s.store.profiles.set p contents } }

/-- An operation of the store begins (R157). -/
def State.beginStore (s : State) (op : StoreOp) : State := { s with store := { s.store with op := op, journal := true } }

/-- An operation of the store ends with a last result, and one other than OK is reported (R157). -/
def State.endStore (s : State) (r : StoreResult) : State :=
  { s with store := { s.store with op := .idle, journal := false, lastResult := r } }.reportIf (r != StoreResult.ok) .store

/-- Save Profile (R157, R159). -/
def State.saveProfile (s : State) (index item : Byte) : State × Answer :=
  match profileOfIndex index with
  | none => (s, { result := .range })
  | some p =>
    if 1 < item.toNat || (item == 1 && p != 0) then (s, { result := .range })
    else if s.store.op ≠ .idle then (s, { result := .busy })
    else if s.store.profiles[p] ≠ Profile.blank then (s.endStore .notBlank, { result := .accepted })
    else ((s.beginStore (.saving p (item == 1) none)).request .saveSnapshot, { result := .accepted })

/-- Erase Profile; the valid mark is erased before anything else (R157, R158; assumption 30). -/
def State.eraseProfile (s : State) (index : Byte) : State × Answer :=
  match profileOfIndex index with
  | none => (s, { result := .range })
  | some p =>
    if s.store.op ≠ .idle then (s, { result := .busy })
    else
      ((s.beginStore (.erasing p)).setProfile p { s.store.profiles[p] with validMark := false },
        { result := .accepted })

/-- A Load Profile must not be accepted: a record is active or a buffer is open (R160). -/
def State.loadBarred (s : State) : Bool := s.anyActive || !s.edit.openBuffers.isEmpty

/-- Load Profile (R157, R160). -/
def State.loadProfile (s : State) (index : Byte) : State × Answer :=
  match profileOfIndex index with
  | none => (s, { result := .range })
  | some p =>
    if s.store.op ≠ .idle then (s, { result := .busy })
    else if s.loadBarred then (s, { result := .state })
    else if s.store.profiles[p].isValid then
      ((s.beginStore (.loading p true)).request .install, { result := .accepted })
    else (s.beginStore (.loading p false), { result := .accepted })

/-- Store Status (R157). -/
def State.storeStatus (s : State) : Answer where
  result := .done
  a := BitVec.ofNat 16 s.store.op.code ++ BitVec.ofNat 16 s.store.lastResult.code
  b := BitVec.ofNat 32 s.store.startupLoad.code

/-- The save snapshot access: the copy is taken (R159). -/
def State.takeSaveSnapshot (s : State) : State :=
  match s.store.op with
  | .saving p autoLoad _ =>
    { s with store := { s.store with op := .saving p autoLoad (some (s.profileCopy autoLoad)) } }
  | .idle | .erasing _ | .loading _ _ | .startupLoading => s

/-- The next occasion of the free values. -/
def State.nextOccasion (s : State) : State := { s with freeIndex := s.freeIndex + 1 }

/-- The end of a save's programming and verify (R159). -/
def State.endSave (s : State) (agrees : Bool) : State :=
  match s.store.op with
  | .saving p _ (some copy) =>
    if agrees then (s.setProfile p copy).endStore .ok
    else ((s.setProfile p (copy.unverified (Config.freeBits s.freeIndex))).nextOccasion).endStore .verifyFail
  | .saving _ _ none | .idle | .erasing _ | .loading _ _ | .startupLoading => s

/-- The end of an erase (R158). -/
def State.endErase (s : State) : State :=
  match s.store.op with
  | .erasing p => (s.setProfile p Profile.blank).endStore .ok
  | .saving _ _ _ | .idle | .loading _ _ | .startupLoading => s

/-- The end of a load whose profile was judged INVALID (R160). -/
def State.endInvalidLoad (s : State) : State :=
  match s.store.op with
  | .loading _ false => s.endStore .invalid
  | .loading _ true | .saving _ _ _ | .idle | .erasing _ | .startupLoading => s

/-- The tables as an install writes them (R160). -/
def State.install (s : State) (p : Profile) : State :=
  { s with
    channels := Vector.ofFn fun c => Channel.installed p.channels[c]
    slots := Vector.ofFn fun i => p.savedRecords[i.val]?.map Record.fresh
    completions := Vector.replicate 16 none
    link := { s.link with slots := Vector.replicate 8 0 }
    checker := { s.checker with pendingTest := none }
    port := { s.port with snapshot := s.port.snapshot.afterInstall } }

/-- The install access with the end of the load it belongs to (R160, R162). -/
def State.takeInstall (s : State) : State :=
  match s.store.op with
  | .loading p _ => (s.install s.store.profiles[p]).endStore .ok
  | .startupLoading =>
    let t := s.install s.store.profiles[(0 : ProfileNo)]
    { t with store := { t.store with op := .idle, journal := false }, startup := .settled }
  | .idle | .erasing _ | .saving _ _ _ => s

/-- The start-up load result by profile 0 (R162). -/
def Profile.startupLoad (p : Profile) : StartupLoad :=
  if p = Profile.blank ∨ p.autoLoad = false then .noLoad else if p.isValid then .done else .invalid

/-- Start-up step 2: the last result is settled by the journal, profile 0 is read, and its install begins when the
start-up load result is DONE (R161, R162). -/
def State.takeStartupLoad (s : State) : State :=
  let load := s.store.profiles[(0 : ProfileNo)].startupLoad
  let read : State :=
    { s with
      store :=
        { s.store with
          lastResult := if s.store.journal then .interrupted else .noResult
          journal := false
          startupLoad := load } }
  if load = .done then { read.beginStore .startupLoading with startup := .loading }.request .install
  else { read with startup := .settled }

/-- The profiles as a reset leaves them, by the operation it ends (R161). -/
def Store.profilesAfterReset (st : Store) (bits : Nat → Word) : Vector Profile 4 :=
  match st.op with
  | .erasing p => st.profiles.set p (st.profiles[p].loosen bits)
  | .saving p _ (some copy) => st.profiles.set p (copy.cutShort bits)
  | .saving _ _ none | .idle | .loading _ _ | .startupLoading => st.profiles

end Sys2Proof.Machine
end

