-- ==== Sys2Proof/Machine/Port.lean ====
section
/-! DEFINITION. The Supervisory Port: the status word and the frames shifted out, the fall and rise of chip select, the
port's own answers, record copies, and Read Snapshot (Chapter 10). -/

namespace Sys2Proof.Machine

/-! ### What is shifted out -/

/-- The four bytes of the status word (R151, 10.8). -/
def State.statusBytes (s : State) : List Byte :=
  [BitVec.ofNat 8
      (packBits
        [false, s.store.op != .idle, s.edit.groupMode, s.stopLine, s.faults.summary .service,
          s.faults.summary .coupling, s.faults.summary .channel, s.startup == .ready]),
    (BitVec.ofNat 4 s.readyCount).setWidth 8]
    ++ halfBytes (s.captureNumber.setWidth 16)

/-- The body of a reply as bytes (R149, 10.8). -/
def Reply.bytes (r : Reply) : List Byte :=
  [r.code, r.seq, r.result.byte, r.edit.byte] ++ wordBytes r.a ++ wordBytes r.b ++ halfBytes r.c

/-- A reply frame: status word, body and CRC (R148, R149). -/
def replyFrame (status body : List Byte) : List Byte := status ++ body ++ halfBytes (crc16 (status ++ body))

/-! ### Chip select -/

/-- A fall of chip select that the port hears: the frame is shifted out, and whether it is overlapped is settled
(R149, R150). What follows it on the data output is free (assumption 32). -/
def State.heardFall (s : State) : State :=
  { s with
    freeIndex := s.freeIndex + 1
    port :=
      { s.port with
        chipSelect := .low s.port.service.isSome
        output := replyFrame s.statusBytes s.port.reply.bytes } }

/-- A fall of chip select that the port does not hear: the frame counts as none (R155). R149 has every fall shift out
the reply and R155 does not say whether that holds of this one, so what the data output carries is free, and the reply
frame of the last fall heard stays in `output` (assumption 32). -/
def State.unheardFall (s : State) : State :=
  { s with freeIndex := s.freeIndex + 1, port := { s.port with chipSelect := .lowUnheard } }

/-- The port will leave a number of falls unheard after a Reset request; with 0 it receives (R155). -/
def State.setDeaf (s : State) (falls : Nat) : State := { s with port := { s.port with deafFalls := falls } }

/-- The port receives again after a Reset request (R155). -/
def State.recovered (s : State) : State := s.setDeaf 0

/-- A fall of chip select: not heard while RESET is held, nor while falls are left that the port leaves unheard after
a Reset request (R155; assumption 11). -/
def State.csFall (s : State) : State :=
  if s.resetHeld then s.unheardFall
  else match s.port.deafFalls with
    | 0 => s.heardFall
    | falls + 1 => (s.setDeaf falls).unheardFall

/-- Chip select rises. -/
def State.raised (s : State) : State := { s with port := { s.port with chipSelect := .high } }

/-- The frame that ends now has fallen: a row that stands for a whole frame falls first (assumption 6). -/
def State.fallen (s : State) : State := if s.port.chipSelect = .high then s.csFall else s

/-- The rise of a frame that was not heard, of a number of whole bytes: it counts as no frame. Thirteen bytes take
10.4 µs at the least, so that the port receives when they have passed (R148, R155; assumption 11). -/
def State.unheardRise (s : State) (wholeBytes : Nat) : State :=
  if 13 ≤ wholeBytes then s.raised.recovered else s.raised

/-- The rise that ends a frame of a number of whole bytes: a frame that was not overlapped is judged by `judge`; an
overlapped one is discarded whatever it is, with a PORT_FRAME event; one that was not heard counts as no frame (R148,
R150, R155). -/
def State.frameRise (s : State) (judge : State → State) (wholeBytes : Nat := 20) : State :=
  match s.fallen.port.chipSelect with
  | .low false => judge s.fallen.raised
  | .low true => s.fallen.raised.report .portFrame
  | .lowUnheard | .high => s.fallen.unheardRise wholeBytes

/-! ### The port's own answers -/

/-- A taken request whose code is in the catalogue: STARTING before READY, BUSY for a request refused during a load,
otherwise handed to its owner (R152). -/
def State.dispatch (s : State) (code seq : Byte) (refusedInLoad : Bool) (serve : State → State) : State :=
  if s.startup ≠ .ready then s.replyWith code seq .untouched { result := .starting }
  else if refusedInLoad && s.store.op.isLoading then s.replyWith code seq .untouched { result := .busy }
  else serve s

/-- A request's reply formed at once, with no edit closed. -/
def State.answered (code seq : Byte) (r : State × Answer) : State := r.1.replyWith code seq .untouched r.2

/-! ### Snapshots -/

/-- The break reason, present while BROKEN (R26). -/
def RecordState.reason : RecordState → Option BreakReason
  | .broken r => some r
  | .idle | .forming | .held | .slipping | .releasing _ => none

/-- The ramp fields, present while RELEASING (R26). -/
def RecordState.ramp : RecordState → Option Ramp
  | .releasing r => some r
  | .idle | .forming | .held | .slipping | .broken _ => none

/-- A configuration field as a number; the ratio offset is signed (R23). -/
def RecordConfig.fieldValue (cfg : RecordConfig) (f : RecordField) : Int :=
  match f with
  | .ratio => cfg.ratio.toInt
  | .tag | .leader | .follower | .stiffness | .damping | .filterShift | .limit | .share | .slipWindow | .breakWindow
  | .slipCount | .band | .timeout | .ramp => (cfg.field f).toNat

/-- The fields of a record copy by id, 1 to 29, in the host's units, an absent one as none (R25 to R27). -/
def Record.reported (p : CapturePeriod) (r : Record) : List (Option Int) :=
  (RecordField.all.map fun f => some (r.cfg.fieldValue f))
    ++ [some (r.state.code : Int), some (inMicrometres r.error), some (rateInMmPerS p r.rate), some r.run, some r.elapsed,
      some r.correction, some (flagNat r.limited), r.state.reason.map fun b => (b.code : Int)]
    ++ [r.state.ramp.map Ramp.start, r.state.ramp.map fun m => (m.step : Int), r.pendingOffset,
      some (r.edition.toNat : Int), some r.check.toNat, some (flagNat r.checkFailed)]

/-- The snapshot buffer takes a record copy (R37, R153). -/
def State.copyRecord (s : State) (i : SlotNo) (r : Record) : State :=
  { s with port := { s.port with snapshot := .record i s.lastCapture (r.reported s.engine.period) false } }

/-- The answer of a Lookup Record (R153). -/
def State.lookupAnswer (s : State) (i : SlotNo) (r : Record) : Answer where
  result := .done
  a := s.lastCapture
  b := BitVec.ofNat 16 i.val ++ r.edition
  c := if s.editHolds r.cfg.tag then 1 else 0

/-- Presence indications by slot. -/
def slotBits (slots : List SlotNo) : Half := BitVec.ofNat 16 (packBits ((List.finRange 16).map slots.contains))

/-- The answer of a Query Group (R33, 10.8). -/
def State.groupAnswer (s : State) (tag mask : Half) : Answer where
  result := .done
  a := s.lastCapture
  b := slotBits ((s.groupMatch tag mask).filter s.activeAt) ++ slotBits (s.groupMatch tag mask)
  c := BitVec.ofNat 16 (s.groupMatch tag mask).length

/-- The fields of the copy and its changed-since indication (R153). -/
def Snapshot.contents : Snapshot → Option (List (Option Int) × Bool)
  | .empty => none
  | .record _ _ fields changed => some (fields, changed)
  | .channel _ fields changed => some (fields, changed)

/-- The reply of Read Snapshot for a field, absent or not (R154). -/
def snapshotAnswer (field : Option Int) (changed : Bool) : Answer where
  result := .done
  a := (BitVec.ofInt 64 (field.getD 0)).extractLsb' 32 32
  b := (BitVec.ofInt 64 (field.getD 0)).extractLsb' 0 32
  c := BitVec.ofNat 16 (packBits [field.isNone, changed])

/-- Read Snapshot (R154). -/
def State.readSnapshot (s : State) (item : Byte) : Answer :=
  match s.port.snapshot.contents with
  | none => { result := .state }
  | some (fields, changed) =>
    if item = 0 then { result := .range }
    else match fields[item.toNat - 1]? with
      | some field => snapshotAnswer field changed
      | none => { result := .range }

end Sys2Proof.Machine
end

