-- ==== Sys2Proof/Machine/Serve.lean ====
section
/-! DEFINITION. How requests and events wait: the service of a request with the edits it closes (R90, R91, R150), events
that wait for an access to end (R34, R38, R121), and the end of an access. -/

namespace Sys2Proof.Machine

/-! ### Events at the tables -/

/-- A request judged as one event at its table. -/
def State.perform (s : State) : TableRequest → State × Answer
  | .form name => s.form name
  | .release name => s.release name
  | .retire name => s.retire name
  | .releaseGroup tag mask => s.releaseGroup tag mask
  | .offsetTest name offset => s.offsetTest name offset
  | .checkTest name => s.checkTest name
  | .setEngine a b c => s.setEngine a b c
  | .writeChannel index item a => s.writeChannel index item a
  | .lookupChannel index => s.lookupChannel index

/-- Requests at the Channel Table wait only for an access that reads or writes it; the others are events at the
Coupling Table (R34, R38). -/
def TableRequest.atChannels : TableRequest → Bool
  | .writeChannel _ _ _ | .lookupChannel _ => true
  | .form _ | .release _ | .retire _ | .releaseGroup _ _ | .offsetTest _ _ | .checkTest _ | .setEngine _ _ _ => false

/-- The request in service, when it is one judged at its table, is judged and its reply formed. -/
def State.takeRequest (s : State) : State :=
  match s.port.service with
  | some v => match v.request with
    | .table r => (s.perform r).1.finish (s.perform r).2
    | .lookupRecord _ | .queryGroup _ _ | .writeField _ _ _ | .commit _ | .commitGroup => s
  | none => s

/-- An event is taken. -/
def State.takeEvent (s : State) : TableEvent → State
  | .request => s.takeRequest
  | .captureSet set => s.takeCaptureSet set
  | .driveStatus => s.takeDriveStatus
  | .stopAsserted => s.takeStop
  | .stopDeasserted => s.takeStopRelease

/-- An access in service reads or writes Channel Table entries. -/
def State.channelsHeld (s : State) : Bool :=
  match s.arbiter.inService with
  | some a => a.touchesChannels
  | none => false

/-- The request in service is an event at the Channel Table. -/
def State.requestAtChannels (s : State) : Bool :=
  match s.port.service with
  | some v => match v.request with
    | .table r => r.atChannels
    | .lookupRecord _ | .queryGroup _ _ | .writeField _ _ _ | .commit _ | .commitGroup => false
  | none => false

/-- The event is one at the Channel Table alone. A capture set or drive status that sends a channel-lost notice is an
event at the Coupling Table too (R38). -/
def State.atChannelsOnly (s : State) : TableEvent → Bool
  | .request => s.requestAtChannels
  | .captureSet set => !s.captureSetLoses set
  | .driveStatus => !s.driveStatusLoses
  | .stopAsserted | .stopDeasserted => false

/-- A capture set waits that the event, a capture set, must not pass (R10). -/
def State.behindCaptureSet (s : State) : TableEvent → Bool
  | .captureSet _ => s.arbiter.deferred.any TableEvent.isCaptureSet
  | .request | .driveStatus | .stopAsserted | .stopDeasserted => false

/-- The event must wait for the access in service to end. One at the Channel Table alone waits for an access that reads
or writes that table, one at the Coupling Table for any access, and a capture set for the set before it (R10, R34, R38,
R121; assumption 3). -/
def State.mustWait (s : State) (e : TableEvent) : Bool :=
  s.behindCaptureSet e || (if s.atChannelsOnly e then s.channelsHeld else s.arbiter.inService.isSome)

/-- An event waits. -/
def State.defer (s : State) (e : TableEvent) : State :=
  { s with arbiter := { s.arbiter with deferred := s.arbiter.deferred ++ [e] } }

/-- An event arises: it is taken now or when the access in service ends. -/
def State.raise (s : State) (e : TableEvent) : State := if s.mustWait e then s.defer e else s.takeEvent e

/-- The access in service ends: the events that waited are taken in the order in which they arose, and the arbiter
serves the next access (R34, R35; assumption 3). -/
def State.endAccess (s : State) : State :=
  let waited := s.arbiter.deferred
  (waited.foldl State.takeEvent { s with arbiter := { s.arbiter with deferred := [] } }).serveNext

/-! ### The service of a request -/

/-- The request in service stands in a phase. -/
def State.setPhase (s : State) (p : ServicePhase) : State :=
  { s with port := { s.port with service := s.port.service.map fun v => { v with phase := p } } }

/-- A Write Field that closed its buffer opens a new one for its tag (R89). -/
def State.reopen (s : State) (tag : Half) (f : RecordField) (w : Word) : State :=
  match s.edit.freeBuffer with
  | some k => (s.openBuffer k tag f w).finish { result := .done }
  | none => s.finish { result := .noBuffer }

/-- The answer of a Commit by the outcome of its edit (R93). -/
def EditOutcome.commitResult : EditOutcome → ResultCode
  | .rejected reason => reason.result
  | .untouched | .applied => .done

/-- The request's own work, when every edit it closes has been applied or rejected (R90). -/
def State.serve (s : State) (v : Service) : State :=
  match v.request with
  | .table _ => (s.setPhase .judging).raise .request
  | .lookupRecord name =>
    match s.resolve name with
    | .ok _ => (s.setPhase .access).request .portSnapshot
    | .error refusal => s.finish { result := refusal }
  | .queryGroup _ _ => (s.setPhase .access).request .portSnapshot
  | .writeField tag f w => s.reopen tag f w
  | .commit _ => s.finish { result := v.edit.commitResult }
  | .commitGroup => (s.setPhase .access).request .group

/-- The service of a request goes on: the application of the next edit to close is requested, or, when none is left,
the request is served (R90, R91). -/
def State.proceed (s : State) : State :=
  match s.port.service with
  | some v => match v.phase with
    | .closing (k :: rest) => (s.setPhase (.closing rest)).request (.edit k)
    | .closing [] => s.serve v
    | .judging | .access => s
  | none => s

/-- A request enters service and closes edits first (R90, R150). -/
def State.begin (s : State) (code seq : Byte) (request : PortRequest) (toClose : List BufferNo) : State :=
  { s with
    port :=
      { s.port with
        service :=
          some { code := code, seq := seq, request := request, phase := .closing toClose, edit := .untouched } }
  }.proceed

/-- The buffers a request naming a record closes (R90), or the refusal of a slot that holds no record. -/
def State.closedBy (s : State) (name : RecordName) : Except ResultCode (List BufferNo) :=
  if s.edit.groupMode then .ok []
  else match name with
    | .byTag tag => .ok (s.edit.bufferFor tag).toList
    | .bySlot index =>
      match s.resolve (.bySlot index) with
      | .ok (_, r) => .ok (s.edit.bufferFor r.cfg.tag).toList
      | .error refusal => .error refusal

/-- A request that names a record (R90). -/
def State.beginNamed (s : State) (code seq : Byte) (name : RecordName) (request : PortRequest) : State :=
  match s.closedBy name with
  | .ok toClose => s.begin code seq request toClose
  | .error refusal => s.replyWith code seq .untouched { result := refusal }

/-- The buffers a request naming a group closes (R91). -/
def State.closedByGroup (s : State) (tag mask : Half) : List BufferNo :=
  if s.edit.groupMode then [] else s.edit.matching tag mask

/-! ### Requests of the Edit Unit -/

/-- A Write Field that passes its first three checks (R87 check 4, R88, R89). -/
def State.writeFieldTo (s : State) (seq : Byte) (tag : Half) (f : RecordField) (w : Word) : State :=
  match s.edit.bufferFor tag with
  | some k => match s.edit.buffers[k] with
    | some b =>
      if b.wrote f && !s.edit.groupMode then s.begin 0x10 seq (.writeField tag f w) [k]
      else State.answered 0x10 seq (s.writeInto k b f w, { result := .done })
    | none => s
  | none => match s.edit.freeBuffer with
    | some k => State.answered 0x10 seq (s.openBuffer k tag f w, { result := .done })
    | none => s.replyWith 0x10 seq .untouched { result := .noBuffer }

/-- Write Field (R87). -/
def State.writeField (s : State) (seq : Byte) (tag : Half) (item : Byte) (w : Word) : State :=
  if tag = 0 then s.replyWith 0x10 seq .untouched { result := .range }
  else match RecordField.ofId item with
    | none => s.replyWith 0x10 seq .untouched { result := .range }
    | some f =>
      if !f.inRange w then s.replyWith 0x10 seq .untouched { result := .range } else s.writeFieldTo seq tag f w

/-- Commit (R93). -/
def State.commit (s : State) (seq : Byte) (tag : Half) : State :=
  if tag = 0 then s.replyWith 0x11 seq .untouched { result := .range }
  else if s.edit.groupMode then s.replyWith 0x11 seq .untouched { result := .groupOpen }
  else match s.edit.bufferFor tag with
    | some k => s.begin 0x11 seq (.commit tag) [k]
    | none => s.replyWith 0x11 seq .untouched { result := .noEdit }

/-- Begin Group (R99). -/
def State.beginGroup (s : State) : State × Answer :=
  if s.edit.groupMode then (s, { result := .groupOpen })
  else ({ s with edit := { s.edit with groupMode := true } }, { result := .done })

/-- Commit Group (R101). -/
def State.commitGroup (s : State) (seq : Byte) : State :=
  if !s.edit.groupMode then s.replyWith 0x13 seq .untouched { result := .noGroup }
  else if s.edit.openBuffers.isEmpty then State.answered 0x13 seq (s.endGroup, { result := .done })
  else s.begin 0x13 seq .commitGroup []

/-- Abort Group (R103). -/
def State.abortGroup (s : State) : State × Answer :=
  if s.edit.groupMode then
    (s.endGroup, { result := .done, a := BitVec.ofNat 32 s.edit.openBuffers.length })
  else (s, { result := .noGroup })

/-! ### Ends of the port's accesses -/

/-- The edit outcome of the request in service after one more closed edit (R92). -/
def State.gatherEdit (s : State) (o : EditOutcome) : State :=
  { s with port := { s.port with service := s.port.service.map fun v => { v with edit := v.edit.also o } } }

/-- The edit outcome of the request in service is that of its group (R101, R102). -/
def State.endGroupService (s : State) (o : EditOutcome) (r : Answer) : State := (s.gatherEdit o).finish r

/-- A Lookup Record's copy, or its refusal when the record has gone meanwhile (R37, R38, R153). -/
def State.takeLookup (s : State) (name : RecordName) : State :=
  match s.resolve name with
  | .ok (i, r) => (s.copyRecord i r).finish (s.lookupAnswer i r)
  | .error refusal => s.finish { result := refusal }

/-- The port snapshot access (R33, R37, R153). -/
def State.takePortSnapshot (s : State) : State :=
  match s.port.service with
  | some v => match v.request with
    | .lookupRecord name => s.takeLookup name
    | .queryGroup tag mask => s.finish (s.groupAnswer tag mask)
    | .table _ | .writeField _ _ _ | .commit _ | .commitGroup => s
  | none => s

end Sys2Proof.Machine
end

