-- ==== Sys2Proof/Machine/Requests.lean ====
section
/-! DEFINITION. The meanings of the requests of the supervisory port, one for each row: the rise of chip select that
takes the request's frame (10.7). -/

namespace Sys2Proof.Machine

/-- What every meaning answers with. -/
abbrev Result := Host.Outcome State Fault Refusal

/-- A request answered at once by its owner, unless the port answers first (R152). -/
def State.ask (s : State) (code seq : Byte) (serve : State → State × Answer) : State :=
  s.frameRise fun t => t.dispatch code seq false fun u => State.answered code seq (serve u)

/-- A request judged as one event at its table, closing no edit (R152). -/
def State.askTable (s : State) (code seq : Byte) (refusedInLoad : Bool) (request : TableRequest) : State :=
  s.frameRise fun t => t.dispatch code seq refusedInLoad fun u => u.begin code seq (.table request) []

/-- A request that names a record and closes its edit first (R90, R152). -/
def State.askNamed (s : State) (code seq : Byte) (refusedInLoad : Bool) (name : RecordName) (request : PortRequest) :
    State :=
  s.frameRise fun t => t.dispatch code seq refusedInLoad fun u => u.beginNamed code seq name request

/-! ### No-op and reads -/

/-- NO_OP (R149); a code that is not in the catalogue is answered RANGE before anything else (R152). -/
def execNoOp (code seq : Byte) (s : State) : Result :=
  .next <| s.frameRise fun t =>
    if code = 0x01 then t.dispatch code seq false fun u => u.replyWith code seq .untouched { result := .done }
    else t.replyWith code seq .untouched { result := .range }

/-- LOOKUP_RECORD (R153). -/
def execLookupRecord (seq : Byte) (tag : Half) (index : Byte) (s : State) : Result :=
  .next (s.askNamed 0x02 seq false (RecordName.ofFrame tag index) (.lookupRecord (RecordName.ofFrame tag index)))

/-- READ_SNAPSHOT (R154). -/
def execReadSnapshot (seq item : Byte) (s : State) : Result :=
  .next (s.ask 0x03 seq fun t => (t, t.readSnapshot item))

/-- LOOKUP_CHANNEL (R153). -/
def execLookupChannel (seq index : Byte) (s : State) : Result :=
  .next (s.askTable 0x04 seq false (.lookupChannel index))

/-- QUERY_GROUP (R33, R91); 10.8 disregards the upper half of value A. -/
def execQueryGroup (seq : Byte) (tag : Half) (a : Word) (s : State) : Result :=
  .next <| s.frameRise fun t => t.dispatch 0x05 seq false fun u =>
    u.begin 0x05 seq (.queryGroup tag (a.setWidth 16)) (u.closedByGroup tag (a.setWidth 16))

/-! ### Edits -/

/-- WRITE_FIELD (R87 to R89). -/
def execWriteField (seq : Byte) (tag : Half) (item : Byte) (a : Word) (s : State) : Result :=
  .next <| s.frameRise fun t => t.dispatch 0x10 seq true fun u => u.writeField seq tag item a

/-- COMMIT (R93). -/
def execCommit (seq : Byte) (tag : Half) (s : State) : Result :=
  .next <| s.frameRise fun t => t.dispatch 0x11 seq true fun u => u.commit seq tag

/-- BEGIN_GROUP (R99). -/
def execBeginGroup (seq : Byte) (s : State) : Result := .next (s.ask 0x12 seq State.beginGroup)

/-- COMMIT_GROUP (R101). -/
def execCommitGroup (seq : Byte) (s : State) : Result :=
  .next <| s.frameRise fun t => t.dispatch 0x13 seq true fun u => u.commitGroup seq

/-- ABORT_GROUP (R103). -/
def execAbortGroup (seq : Byte) (s : State) : Result := .next (s.ask 0x14 seq State.abortGroup)

/-! ### The life cycle -/

/-- FORM (R65). -/
def execForm (seq : Byte) (tag : Half) (index : Byte) (s : State) : Result :=
  .next (s.askNamed 0x20 seq true (RecordName.ofFrame tag index) (.table (.form (RecordName.ofFrame tag index))))

/-- RELEASE (R74). -/
def execRelease (seq : Byte) (tag : Half) (index : Byte) (s : State) : Result :=
  .next (s.askNamed 0x21 seq true (RecordName.ofFrame tag index) (.table (.release (RecordName.ofFrame tag index))))

/-- RETIRE (R78). -/
def execRetire (seq : Byte) (tag : Half) (index : Byte) (s : State) : Result :=
  .next (s.askNamed 0x22 seq true (RecordName.ofFrame tag index) (.table (.retire (RecordName.ofFrame tag index))))

/-- RELEASE_GROUP (R77, R91). The mask is the low half of value A; its upper half is disregarded, as 10.8 has it for
Query Group (assumption 31). -/
def execReleaseGroup (seq : Byte) (tag : Half) (a : Word) (s : State) : Result :=
  .next <| s.frameRise fun t => t.dispatch 0x23 seq true fun u =>
    u.begin 0x23 seq (.table (.releaseGroup tag (a.setWidth 16))) (u.closedByGroup tag (a.setWidth 16))

/-! ### Channels, engine, tests -/

/-- WRITE_CHANNEL (R4 to R7). -/
def execWriteChannel (seq index item : Byte) (a : Word) (s : State) : Result :=
  .next (s.askTable 0x30 seq true (.writeChannel index item a))

/-- SET_ENGINE (R84). -/
def execSetEngine (seq : Byte) (a b c : Word) (s : State) : Result :=
  .next (s.askTable 0x31 seq false (.setEngine a b c))

/-- OFFSET_TEST (R137). -/
def execOffsetTest (seq : Byte) (tag : Half) (index : Byte) (a : Word) (s : State) : Result :=
  .next (s.askNamed 0x40 seq true (RecordName.ofFrame tag index) (.table (.offsetTest (RecordName.ofFrame tag index) a)))

/-- CHECK_TEST (R135). -/
def execCheckTest (seq : Byte) (tag : Half) (index : Byte) (s : State) : Result :=
  .next (s.askNamed 0x41 seq false (RecordName.ofFrame tag index) (.table (.checkTest (RecordName.ofFrame tag index))))

/-! ### Faults -/

/-- READ_FAULTS (R143). -/
def execReadFaults (seq index : Byte) (s : State) : Result := .next (s.ask 0x50 seq fun t => t.readFaults index)

/-- CLEAR_FAULTS (R144). -/
def execClearFaults (seq index item : Byte) (a : Word) (s : State) : Result :=
  .next (s.ask 0x51 seq fun t => t.clearFaults index item a)

/-- CLEAR_SUMMARY (R145). -/
def execClearSummary (seq index : Byte) (s : State) : Result := .next (s.ask 0x52 seq fun t => t.clearSummary index)

/-- SET_MASKS (R146). -/
def execSetMasks (seq : Byte) (a b : Word) (s : State) : Result := .next (s.ask 0x53 seq fun t => t.setMasks a b)

/-! ### The store -/

/-- SAVE_PROFILE (R157, R159). -/
def execSaveProfile (seq index item : Byte) (s : State) : Result :=
  .next (s.ask 0x60 seq fun t => t.saveProfile index item)

/-- ERASE_PROFILE (R157, R158). -/
def execEraseProfile (seq index : Byte) (s : State) : Result := .next (s.ask 0x61 seq fun t => t.eraseProfile index)

/-- LOAD_PROFILE (R157, R160). -/
def execLoadProfile (seq index : Byte) (s : State) : Result := .next (s.ask 0x62 seq fun t => t.loadProfile index)

/-- STORE_STATUS (R157). -/
def execStoreStatus (seq : Byte) (s : State) : Result := .next (s.ask 0x63 seq fun t => (t, t.storeStatus))

end Sys2Proof.Machine
end

