-- ==== Sys2Proof/Machine/Accesses.lean ====
section
/-! DEFINITION. The meanings of the table accesses and of the ends of the store's operations. The row of an access is
its end, at which what it writes appears (2.5; assumption 3); without that access in service there is no occasion for
it (assumption 2). -/

namespace Sys2Proof.Machine

/-- A computation whose capture number makes entries due has their expiry as its last part (R114; assumption 4). -/
def State.closeComputation (s : State) (capture : Word) : State :=
  if s.anyDue capture then { s with arbiter := { s.arbiter with inService := some (.expiry capture) } } else s.endAccess

/-- COMPUTATION (R42). -/
def execComputation (s : State) : Result :=
  match s.arbiter.inService with
  | some (.computation capture) => .next ((s.compute capture).closeComputation capture)
  | some (.expiry _) | some (.edit _) | some .group | some .install | some .saveSnapshot | some .portSnapshot
  | some .checkStep | none => .next s

/-- COLLECT_DEADLINE_EXPIRY (R114). -/
def execCollectDeadlineExpiry (s : State) : Result :=
  match s.arbiter.inService with
  | some (.expiry capture) => .next (s.expire capture).endAccess
  | some (.computation _) | some (.edit _) | some .group | some .install | some .saveSnapshot | some .portSnapshot
  | some .checkStep | none => .next s

/-- The end of the edit application of one buffer, and the service of the request that closed it going on (R90,
R94). -/
def endEdit (r : State × EditOutcome) : State := ((r.1.gatherEdit r.2).endAccess).proceed

/-- EDIT_APPLICATION (R94 to R97). -/
def execEditApplication (s : State) : Result :=
  match s.arbiter.inService with
  | some (.edit k) =>
    match s.edit.buffers[k] with
    | some b =>
      match b.dangling s.slots with
      | some i => .fault (.danglingEdit i)
      | none => .next (endEdit (s.applyEdit k b))
    | none => .next s.endAccess.proceed
  | some (.computation _) | some (.expiry _) | some .group | some .install | some .saveSnapshot | some .portSnapshot
  | some .checkStep | none => .next s

/-- The open buffer whose target slot is VACANT, if one is (assumption 22). -/
def State.danglingBuffer (s : State) : Option SlotNo :=
  s.edit.openBuffers.findSome? fun p => p.2.dangling s.slots

/-- GROUP_APPLICATION (R101, R102). -/
def execGroupApplication (s : State) : Result :=
  match s.arbiter.inService with
  | some .group =>
    match s.danglingBuffer with
    | some i => .fault (.danglingEdit i)
    | none => .next ((s.applyGroup.1.endGroupService s.applyGroup.2.1 s.applyGroup.2.2).endAccess)
  | some (.computation _) | some (.expiry _) | some (.edit _) | some .install | some .saveSnapshot
  | some .portSnapshot | some .checkStep | none => .next s

/-- PORT_SNAPSHOT (R33, R37, R153). -/
def execPortSnapshot (s : State) : Result :=
  .next (if s.arbiter.inService = some .portSnapshot then s.takePortSnapshot.endAccess else s)

/-- SAVE_SNAPSHOT (R159). -/
def execSaveSnapshot (s : State) : Result :=
  .next (if s.arbiter.inService = some .saveSnapshot then s.takeSaveSnapshot.endAccess else s)

/-- PROFILE_INSTALL (R160). -/
def execProfileInstall (s : State) : Result :=
  .next (if s.arbiter.inService = some .install then s.takeInstall.endAccess else s)

/-- CHECK_STEP (R130, R131). -/
def execCheckStep (s : State) : Result :=
  .next (if s.arbiter.inService = some .checkStep then s.takeCheckStep.endAccess else s)

/-- SAVE_END (R159). -/
def execSaveEnd (agrees : Bool) (s : State) : Result := .next (s.endSave agrees)

/-- ERASE_END (R158). -/
def execEraseEnd (s : State) : Result := .next s.endErase

/-- LOAD_INVALID_END (R160). -/
def execLoadInvalidEnd (s : State) : Result := .next s.endInvalidLoad

end Sys2Proof.Machine
end

