-- ==== Sys2Proof/Machine/Board.lean ====
section
/-! DEFINITION. The meanings of the encoder samples, of the timers and of the STOP input (R8, R10, R80, R81, R129). -/

namespace Sys2Proof.Machine

/-- A sample taken while RESET is held is seen but not counted (R8; assumption 20). -/
def Encoder.follow (e : Encoder) (a b : Bool) : Encoder := { e with phaseA := a, phaseB := b }

/-- QUADRATURE_EDGE (R8). -/
def execQuadratureEdge (c : ChannelNo) (a b : Bool) (s : State) : Result :=
  .next
    { s with
      encoders :=
        s.encoders.set c (if s.resetHeld then s.encoders[c].follow a b else s.encoders[c].sample a b) }

/-- The capture set of an expiry: the new number, the counters and their indications (R10). -/
def State.latchSet (s : State) : CaptureSet where
  number := s.captureNumber + 1
  counts := Vector.ofFn fun c => s.encoders[c].count
  illegal := Vector.ofFn fun c => s.encoders[c].illegal

/-- The counters latched: the capture number has risen and the indications are clear (R9, R10). -/
def State.latched (s : State) : State :=
  { s with
    captureNumber := s.captureNumber + 1
    encoders := Vector.ofFn fun c => { s.encoders[c] with illegal := false } }

/-- CAPTURE: the capture timer expires (R9, R10). The first expiry after a Reset request comes a capture period, 250 µs
at the least, after READY, so that the port receives by then (R155; assumption 11). -/
def execCapture (s : State) : Result :=
  .next (if s.captureTimer = .stopped then s else s.recovered.latched.raise (.captureSet s.latchSet))

/-- CHECK_STEP_TIMER (R129). -/
def execCheckStepTimer (s : State) : Result :=
  .next (if s.checker.timerRunning && !s.arbiter.checkStepOutstanding then s.request .checkStep else s)

/-- STOP_ASSERTED: the line is asserted, and after READY the engine takes it (R80, R81). -/
def execStopAsserted (s : State) : Result :=
  .next
    (if s.stopLine then s
    else if s.startup = .ready then { s with stopLine := true }.raise .stopAsserted
    else { s with stopLine := true })

/-- STOP_DEASSERTED (R81). -/
def execStopDeasserted (s : State) : Result :=
  .next
    (if s.stopLine then
      if s.startup = .ready then { s with stopLine := false }.raise .stopDeasserted else { s with stopLine := false }
    else s)

end Sys2Proof.Machine
end

