-- ==== Sys2Proof/Machine/DriveLink.lean ====
section
/-! DEFINITION. The meanings of the steps of an exchange on the drive link (R118 to R121). -/

namespace Sys2Proof.Machine

/-- The phase of the exchange in progress. -/
def Link.phase (l : Link) : Option ExchangePhase := l.round.map Round.phase

/-- The exchange in progress passes to a phase. -/
def State.setExchange (s : State) (p : ExchangePhase) : State :=
  { s with link := { s.link with round := s.link.round.map fun r => { r with phase := p } } }

/-- An exchange in one phase passes to another; in any other phase the step has no occasion (R120; assumption 2). -/
def State.passPhase (s : State) (old new : ExchangePhase) : State :=
  if s.link.phase = some old then s.setExchange new else s

/-- CORRECTION_SENT (R120). -/
def execCorrectionSent (s : State) : Result := .next (s.passPhase .sending .awaiting)

/-- REPLY_START (R120). -/
def execReplyStart (s : State) : Result := .next (s.passPhase .awaiting .receiving)

/-- BROKEN_REPLY (R120). -/
def execBrokenReply (s : State) : Result := .next (s.passPhase .receiving (.judged .miss))

/-- REPLY_WINDOW_EXPIRY (R120). -/
def execReplyWindowExpiry (s : State) : Result := .next (s.passPhase .awaiting (.judged .miss))

/-- The judgement of a whole reply to a Correction (R121). -/
def Correction.judge (m : Correction) (b0 b1 b2 b3 : Byte) : DriveResult :=
  if b0 = 0x50#8 + BitVec.ofNat 8 m.channel.val ∧ b1 = m.capture ∧ b3 = crc8 [b0, b1, b2] then
    match DriveState.ofByte b2 with
    | some d => .good d
    | none => .miss
  else .miss

/-- The judgement of a whole reply in the exchange in progress. -/
def Link.judge (l : Link) (b0 b1 b2 b3 : Byte) : DriveResult :=
  match l.round with
  | some r => r.message.judge b0 b1 b2 b3
  | none => .miss

/-- DRIVE_STATUS: the fourth byte of a reply has ended (R120, R121). -/
def execDriveStatus (b0 b1 b2 b3 : Byte) (s : State) : Result :=
  .next (s.passPhase .receiving (.judged (s.link.judge b0 b1 b2 b3)))

/-- A judged result stands that the Channel Table has not taken. -/
def Link.isJudged (l : Link) : Bool :=
  match l.phase with
  | some (.judged _) => true
  | some .sending | some .awaiting | some .receiving | some (.gap _) | none => false

/-- DRIVE_STATUS_EVENT (R121); one that already waits for an access to end is not handed again. -/
def execDriveStatusEvent (s : State) : Result :=
  .next (if s.link.isJudged && !s.arbiter.deferred.contains .driveStatus then s.raise .driveStatus else s)

/-- GAP_END (R118, R120). -/
def execGapEnd (s : State) : Result :=
  match s.link.round with
  | some r =>
    match r.phase with
    | .gap _ => .next (s.nextExchange (r.earlier ++ [r.message.channel]) r.remaining)
    | .sending | .awaiting | .receiving | .judged _ => .next s
  | none => .next s

end Sys2Proof.Machine
end

