-- ==== Sys2Proof/Machine/Frames.lean ====
section
/-! DEFINITION. The meanings of the frames that are no taken request, and of the fall of chip select (R148 to R150). -/

namespace Sys2Proof.Machine

/-- FRAME_DISCARDED: the reply place is unchanged (R148). -/
def execFrameDiscarded (wholeBytes : Nat) (_partByte : Bool) (s : State) : Result :=
  .next (s.frameRise (fun t => t.report .portFrame) wholeBytes)

/-- FRAME_REJECTED: the received bytes 0 and 1 are echoed (R149). -/
def execFrameRejected (code seq : Byte) (s : State) : Result :=
  .next (s.frameRise fun t => (t.replyWith code seq .untouched { result := .frameRejected }).report .portFrame)

/-- OVERLAPPED_FRAME: the rise of an overlapped frame (R150). With no overlapped frame in progress there is no
occasion for it (assumption 2). -/
def execOverlappedFrame (s : State) : Result :=
  .next (if s.port.chipSelect = .low true then s.raised.report .portFrame else s)

/-- CHIP_SELECT_FALL (R149, R150). -/
def execChipSelectFall (s : State) : Result := .next (if s.port.chipSelect = .high then s.csFall else s)

end Sys2Proof.Machine
end

