-- ==== Sys2Proof/Machine/Resets.lean ====
section
/-! DEFINITION. Reset in its three forms and start-up: the meanings of RESET, RESET_LINE, POWER_ON, END_OF_RESET,
STARTUP_LOAD and READY (R39, R85, R105, R115, R127, R147, R155, R161, R162). -/

namespace Sys2Proof.Machine

/-- A frame in progress at a reset counts as no frame (R155; assumption 21). -/
def ChipSelect.afterReset : ChipSelect → ChipSelect
  | .high => .high
  | .low _ | .lowUnheard => .lowUnheard

/-- The encoder inputs after a reset: counters 0, indications clear (R8); the phases are inputs and stay. -/
def Encoder.afterReset (e : Encoder) : Encoder := { e with count := 0, illegal := false }

/-- Every block takes its reset values (R162 step 1). What stays: the profiles and the journal, which are non-volatile
(R156, R161), the levels of the inputs, the reply frame last shifted out and the queue. The occasion of the
free values moves on. -/
def State.resetPart (s : State) (held : Bool) (deafFalls : Nat) : State :=
  { State.reset with
    encoders := Vector.ofFn fun c => s.encoders[c].afterReset
    port :=
      { State.reset.port with
        chipSelect := s.port.chipSelect.afterReset, deafFalls := deafFalls, output := s.port.output }
    store :=
      { State.reset.store with
        profiles := s.store.profilesAfterReset (Config.freeBits s.freeIndex), journal := s.store.journal }
    resetHeld := held
    stopLine := s.stopLine
    freeIndex := s.freeIndex + 1
    pending := s.pending }

/-- RESET (R155): taken whatever READY and the store state are. How many falls the port then leaves unheard is free
(assumption 11). -/
def execReset (_seq : Byte) (s : State) : Result :=
  .next (s.frameRise fun t => t.resetPart false (Config.deafFalls t.freeIndex))

/-- RESET_LINE: the RESET line is asserted (R162), and holds until END_OF_RESET. -/
def execResetLine (s : State) : Result := .next (s.resetPart true 0)

/-- POWER_ON (R162). -/
def execPowerOn (s : State) : Result := .next (s.resetPart false 0)

/-- END_OF_RESET: RESET is released, and the port receives again, after a Reset request as after the RESET line (R155,
R162; assumption 29). -/
def execEndOfReset (s : State) : Result := .next { s.recovered with resetHeld := false }

/-- STARTUP_LOAD (R162 step 2). -/
def execStartupLoad (s : State) : Result :=
  .next (if s.startup = .begun ∧ s.resetHeld = false then s.takeStartupLoad else s)

/-- READY goes to 1 and the timers start (R9, R129, R162 step 3). -/
def State.becomeReady (s : State) : State :=
  { s with
    startup := .ready
    captureTimer := .running s.engine.period
    checker := { s.checker with timerRunning := true } }

/-- The engine reads the STOP line (R81). -/
def State.readStop (s : State) : State := if s.stopLine then s.takeStop else s

/-- The STORE event of start-up is due (R162 step 3). -/
def Store.startupFault (st : Store) : Bool := st.lastResult == .interrupted || st.startupLoad == .invalid

/-- READY (R162 step 3). -/
def execReady (s : State) : Result :=
  .next (if s.startup = .settled then s.becomeReady.readStop.reportIf s.store.startupFault .store else s)

end Sys2Proof.Machine
end

