-- ==== Sys2Proof/Machine/Dispatch.lean ====
section
/-! DEFINITION. One arm per command. -/

namespace Sys2Proof.Machine

/-- The effect of a command on everything but the queue. -/
def exec (i : Instr) (s : State) : Host.Outcome State Fault Refusal :=
  match i with
  | .noOp code seq => Sys2Proof.Machine.execNoOp code seq s
  | .lookupRecord seq tag index => Sys2Proof.Machine.execLookupRecord seq tag index s
  | .readSnapshot seq item => Sys2Proof.Machine.execReadSnapshot seq item s
  | .lookupChannel seq index => Sys2Proof.Machine.execLookupChannel seq index s
  | .queryGroup seq tag a => Sys2Proof.Machine.execQueryGroup seq tag a s
  | .writeField seq tag item a => Sys2Proof.Machine.execWriteField seq tag item a s
  | .commit seq tag => Sys2Proof.Machine.execCommit seq tag s
  | .beginGroup seq => Sys2Proof.Machine.execBeginGroup seq s
  | .commitGroup seq => Sys2Proof.Machine.execCommitGroup seq s
  | .abortGroup seq => Sys2Proof.Machine.execAbortGroup seq s
  | .form seq tag index => Sys2Proof.Machine.execForm seq tag index s
  | .release seq tag index => Sys2Proof.Machine.execRelease seq tag index s
  | .retire seq tag index => Sys2Proof.Machine.execRetire seq tag index s
  | .releaseGroup seq tag a => Sys2Proof.Machine.execReleaseGroup seq tag a s
  | .writeChannel seq index item a => Sys2Proof.Machine.execWriteChannel seq index item a s
  | .setEngine seq a b c => Sys2Proof.Machine.execSetEngine seq a b c s
  | .offsetTest seq tag index a => Sys2Proof.Machine.execOffsetTest seq tag index a s
  | .checkTest seq tag index => Sys2Proof.Machine.execCheckTest seq tag index s
  | .readFaults seq index => Sys2Proof.Machine.execReadFaults seq index s
  | .clearFaults seq index item a => Sys2Proof.Machine.execClearFaults seq index item a s
  | .clearSummary seq index => Sys2Proof.Machine.execClearSummary seq index s
  | .setMasks seq a b => Sys2Proof.Machine.execSetMasks seq a b s
  | .saveProfile seq index item => Sys2Proof.Machine.execSaveProfile seq index item s
  | .eraseProfile seq index => Sys2Proof.Machine.execEraseProfile seq index s
  | .loadProfile seq index => Sys2Proof.Machine.execLoadProfile seq index s
  | .storeStatus seq => Sys2Proof.Machine.execStoreStatus seq s
  | .reset seq => Sys2Proof.Machine.execReset seq s
  | .frameDiscarded wholeBytes partByte => Sys2Proof.Machine.execFrameDiscarded wholeBytes partByte s
  | .frameRejected code seq => Sys2Proof.Machine.execFrameRejected code seq s
  | .overlappedFrame => Sys2Proof.Machine.execOverlappedFrame s
  | .resetLine => Sys2Proof.Machine.execResetLine s
  | .powerOn => Sys2Proof.Machine.execPowerOn s
  | .startupLoad => Sys2Proof.Machine.execStartupLoad s
  | .ready => Sys2Proof.Machine.execReady s
  | .quadratureEdge channel phaseA phaseB => Sys2Proof.Machine.execQuadratureEdge channel phaseA phaseB s
  | .capture => Sys2Proof.Machine.execCapture s
  | .computation => Sys2Proof.Machine.execComputation s
  | .collectDeadlineExpiry => Sys2Proof.Machine.execCollectDeadlineExpiry s
  | .editApplication => Sys2Proof.Machine.execEditApplication s
  | .groupApplication => Sys2Proof.Machine.execGroupApplication s
  | .portSnapshot => Sys2Proof.Machine.execPortSnapshot s
  | .saveSnapshot => Sys2Proof.Machine.execSaveSnapshot s
  | .profileInstall => Sys2Proof.Machine.execProfileInstall s
  | .saveEnd agrees => Sys2Proof.Machine.execSaveEnd agrees s
  | .eraseEnd => Sys2Proof.Machine.execEraseEnd s
  | .loadInvalidEnd => Sys2Proof.Machine.execLoadInvalidEnd s
  | .checkStepTimer => Sys2Proof.Machine.execCheckStepTimer s
  | .checkStep => Sys2Proof.Machine.execCheckStep s
  | .stopAsserted => Sys2Proof.Machine.execStopAsserted s
  | .stopDeasserted => Sys2Proof.Machine.execStopDeasserted s
  | .correctionSent => Sys2Proof.Machine.execCorrectionSent s
  | .driveStatus byte0 byte1 byte2 byte3 => Sys2Proof.Machine.execDriveStatus byte0 byte1 byte2 byte3 s
  | .brokenReply => Sys2Proof.Machine.execBrokenReply s
  | .replyWindowExpiry => Sys2Proof.Machine.execReplyWindowExpiry s
  | .gapEnd => Sys2Proof.Machine.execGapEnd s
  | .driveStatusEvent => Sys2Proof.Machine.execDriveStatusEvent s
  | .replyStart => Sys2Proof.Machine.execReplyStart s
  | .chipSelectFall => Sys2Proof.Machine.execChipSelectFall s
  | .endOfReset => Sys2Proof.Machine.execEndOfReset s

end Sys2Proof.Machine
end

