-- ==== Sys2Proof/Machine/Line.lean ====
section
/-! DEFINITION. The bits on the drive link and on the supervisory port: how bytes stand on the link (R119), what the
controller puts there and what it reads back (R119, R120, R127), and how the bits of a frame make bytes (R148). -/

namespace Sys2Proof.Machine

/-! ### The drive link -/

/-- The level at which the link idles (R119). -/
def idleLevel : Bool := true

/-- One byte on the link, a level for each of its ten bit times: a low start bit, the eight data bits with the least
significant first, a high stop bit (R119). -/
def byteLevels (b : Byte) : List Bool := false :: (List.range 8).map b.getLsbD ++ [true]

/-- A message on the link: its bytes in order, with no idle bit between them (R119). -/
def messageLevels (bytes : List Byte) : List Bool := bytes.flatMap byteLevels

/-- A Correction message on the link. -/
def Correction.levels (m : Correction) : List Bool := messageLevels m.bytes

/-- The level the controller gives the link in a bit time of the exchange in progress, counted from 0 at the start of
its Correction: the message while that is sent, idle otherwise (R119, R120, R127). -/
def Link.level (l : Link) (bitTime : Nat) : Bool :=
  match l.round with
  | some r => match r.phase with
    | .sending => r.message.levels[bitTime]?.getD idleLevel
    | .awaiting | .receiving | .judged _ | .gap _ => idleLevel
  | none => idleLevel

/-- The byte that ten levels carry, when the first is low and the last is high (R119). -/
def byteOfLevels : List Bool → Option Byte
  | [false, d0, d1, d2, d3, d4, d5, d6, d7, true] => some (BitVec.ofNat 8 (packBits [d0, d1, d2, d3, d4, d5, d6, d7]))
  | _ => none

/-- The bytes that the levels of a reply carry, from its first start bit on; none when a byte has a low level in place
of its stop bit, or an idle bit stands where a start bit is due (R120). -/
def replyBytes (levels : List Bool) : List (Option Byte) :=
  (List.range 4).map fun n => byteOfLevels ((levels.drop (10 * n)).take 10)

/-- The command that the levels of a reply spell: a reply of four bytes, or a broken one (R120). -/
def replyCommand (levels : List Bool) : Instr :=
  match replyBytes levels with
  | [some b0, some b1, some b2, some b3] => .driveStatus b0 b1 b2 b3
  | _ => .brokenReply

/-! ### The supervisory port -/

/-- The bits of the reply frame: byte 0 first, each byte most significant bit first (R148, R149). -/
def Port.outputBits (p : Port) : List Bool := p.output.flatMap fun b => (List.range 8).map b.getMsbD

/-- What the port drives on its data output in a bit time, counted from 0 at the fall of chip select; none where it does
not drive it. It drives it only while chip select is low: the reply frame when it heard the fall, and what is free when
it did not, or when the reply frame is over (R148, R149; assumption 32). -/
def State.outputLevel (s : State) (bitTime : Nat) : Option Bool :=
  match s.port.chipSelect with
  | .high => none
  | .low _ => match s.port.outputBits[bitTime]? with
    | some level => some level
    | none => Config.strayOutput s.freeIndex bitTime
  | .lowUnheard => Config.strayOutput s.freeIndex bitTime

/-- The whole bytes of the bits sampled in a frame, most significant bit first, and whether a part byte is left
(R148). -/
def frameBytes : List Bool → List Byte × Bool
  | b7 :: b6 :: b5 :: b4 :: b3 :: b2 :: b1 :: b0 :: rest =>
    (BitVec.ofNat 8 (packBits [b0, b1, b2, b3, b4, b5, b6, b7]) :: (frameBytes rest).1, (frameBytes rest).2)
  | [] => ([], false)
  | _ :: _ => ([], true)

/-- The command that the bits sampled in a frame spell at its rise, when it is not overlapped (R148). -/
def frameCommand (bits : List Bool) : Instr := decodeFrame (frameBytes bits).1 (frameBytes bits).2

end Sys2Proof.Machine
end

