-- ==== Sys2Proof/Safety.lean ====
section
/-! DEFINITION. What is said of states and steps: the invariants of the part, when the part is free to take a request or an
event, and the commands grouped as the statements need them. -/

namespace Sys2Proof

/-! ### Groups of commands -/

/-- The request code and the sequence byte of a request other than Reset (10.7). -/
def Instr.requestHead : Instr → Option (Byte × Byte)
  | .noOp code seq => some (code, seq)
  | .lookupRecord seq _ _ => some (0x02, seq)
  | .readSnapshot seq _ => some (0x03, seq)
  | .lookupChannel seq _ => some (0x04, seq)
  | .queryGroup seq _ _ => some (0x05, seq)
  | .writeField seq _ _ _ => some (0x10, seq)
  | .commit seq _ => some (0x11, seq)
  | .beginGroup seq => some (0x12, seq)
  | .commitGroup seq => some (0x13, seq)
  | .abortGroup seq => some (0x14, seq)
  | .form seq _ _ => some (0x20, seq)
  | .release seq _ _ => some (0x21, seq)
  | .retire seq _ _ => some (0x22, seq)
  | .releaseGroup seq _ _ => some (0x23, seq)
  | .writeChannel seq _ _ _ => some (0x30, seq)
  | .setEngine seq _ _ _ => some (0x31, seq)
  | .offsetTest seq _ _ _ => some (0x40, seq)
  | .checkTest seq _ _ => some (0x41, seq)
  | .readFaults seq _ => some (0x50, seq)
  | .clearFaults seq _ _ _ => some (0x51, seq)
  | .clearSummary seq _ => some (0x52, seq)
  | .setMasks seq _ _ => some (0x53, seq)
  | .saveProfile seq _ _ => some (0x60, seq)
  | .eraseProfile seq _ => some (0x61, seq)
  | .loadProfile seq _ => some (0x62, seq)
  | .storeStatus seq => some (0x63, seq)
  | .reset _ | .frameDiscarded _ _ | .frameRejected _ _ | .overlappedFrame | .resetLine | .powerOn | .startupLoad
  | .ready | .quadratureEdge _ _ _ | .capture | .computation | .collectDeadlineExpiry | .editApplication
  | .groupApplication | .portSnapshot | .saveSnapshot | .profileInstall | .saveEnd _ | .eraseEnd | .loadInvalidEnd
  | .checkStepTimer | .checkStep | .stopAsserted | .stopDeasserted | .correctionSent | .driveStatus _ _ _ _
  | .brokenReply | .replyWindowExpiry | .gapEnd | .driveStatusEvent | .replyStart | .chipSelectFall
  | .endOfReset => none

/-- What a request that can wait, other than one of the Edit Unit's, asks for (R90, R91, R150). -/
def Instr.asksFor : Instr → Option Machine.PortRequest
  | .lookupRecord _ tag index => some (.lookupRecord (Machine.RecordName.ofFrame tag index))
  | .queryGroup _ tag a => some (.queryGroup tag (a.setWidth 16))
  | .form _ tag index => some (.table (.form (Machine.RecordName.ofFrame tag index)))
  | .release _ tag index => some (.table (.release (Machine.RecordName.ofFrame tag index)))
  | .retire _ tag index => some (.table (.retire (Machine.RecordName.ofFrame tag index)))
  | .releaseGroup _ tag a => some (.table (.releaseGroup tag (a.setWidth 16)))
  | .offsetTest _ tag index a => some (.table (.offsetTest (Machine.RecordName.ofFrame tag index) a))
  | .checkTest _ tag index => some (.table (.checkTest (Machine.RecordName.ofFrame tag index)))
  | .setEngine _ a b c => some (.table (.setEngine a b c))
  | .writeChannel _ index item a => some (.table (.writeChannel index item a))
  | .lookupChannel _ index => some (.table (.lookupChannel index))
  | _ => none

/-- The commands that stand for a whole frame ending in a rise of chip select. -/
def Instr.endsFrame (i : Instr) : Bool :=
  i.requestHead.isSome || (match i with
    | .reset _ | .frameDiscarded _ _ | .frameRejected _ _ => true
    | _ => false)

/-- The resets (R155, R162). -/
def Instr.isReset : Instr → Bool
  | .reset _ | .resetLine | .powerOn => true
  | _ => false

/-- The command that ends an access (2.5; assumption 3). -/
def Machine.Access.row : Machine.Access → Instr
  | .computation _ => .computation
  | .expiry _ => .collectDeadlineExpiry
  | .edit _ => .editApplication
  | .group => .groupApplication
  | .install => .profileInstall
  | .saveSnapshot => .saveSnapshot
  | .portSnapshot => .portSnapshot
  | .checkStep => .checkStep

/-- The codes of the requests that R157 refuses while the store is LOADING. -/
def codesRefusedInLoad : List Byte := [0x10, 0x11, 0x13, 0x20, 0x21, 0x22, 0x23, 0x30, 0x40]

end Sys2Proof

namespace Sys2Proof.Machine

/-! ### Invariants -/

/-- The FAULT line has the level its summaries and line masks give it (R142). -/
def State.LineAgrees (s : State) : Prop := s.faults.line = s.faults.lineLevel

/-- Each channel entry's posted correction is the value of the channel's slot at the Drive Link Controller (R116). -/
def State.PostsAgree (s : State) : Prop := ∀ c : ChannelNo, s.channels[c].posted = s.link.slots[c]

/-- No record's phase error exceeds 1,000,000 µm (R48). -/
def State.ErrorsBounded (s : State) : Prop :=
  ∀ (i : SlotNo) (r : Record), s.slots[i] = some r → r.error.natAbs ≤ 65536000000

/-- The completion map holds at most eight entries (R106). -/
def State.MapBounded (s : State) : Prop := s.entryCount ≤ 8

/-- Every completion entry belongs to a non-vacant record (R107). -/
def State.EntriesOwned (s : State) : Prop := ∀ i : SlotNo, s.completions[i].isSome → s.slots[i].isSome

/-- A channel is coupled exactly while an active record names it (R2, R63). -/
def State.CoupledAgree (s : State) : Prop := ∀ c : ChannelNo, s.channels[c].coupled = s.coupledNow c

/-- Every channel that an active record names is RUNNING or STALE (R21). -/
def State.ActiveUp (s : State) : Prop :=
  ∀ (i : SlotNo) (r : Record), s.slots[i] = some r → r.state.isActive →
    s.channels[r.cfg.leaderNo].state.isUp ∧ s.channels[r.cfg.followerNo].state.isUp

/-- While the engine holds STOP as asserted no record is active (R80). -/
def State.StopEmpties (s : State) : Prop := s.engine.stopTaken = true → s.anyActive = false

/-- Some active record has the one channel as follower and the other as leader (R66). -/
def State.Follows (s : State) (c l : ChannelNo) : Prop :=
  ∃ (i : SlotNo) (r : Record), s.slots[i] = some r ∧ r.state.isActive = true ∧ r.cfg.followerNo = c ∧
    r.cfg.leaderNo = l

/-- Among active records each channel is the follower of at most one, and no chain of them leads from a channel back
to itself (R66). -/
def State.Forest (s : State) : Prop :=
  (∀ (i j : SlotNo) (r q : Record), s.slots[i] = some r → s.slots[j] = some q → r.state.isActive = true →
    q.state.isActive = true → r.cfg.followerNo = q.cfg.followerNo → i = j) ∧
  ∀ c : ChannelNo, ¬ Relation.TransGen s.Follows c c

/-- With no access in service none waits, and no event waits for one (R34). -/
def State.TableQuiet (s : State) : Prop :=
  s.arbiter.inService = none → s.arbiter.waiting = [] ∧ s.arbiter.deferred = []

/-- A record is FORMING exactly while its entry is WAITING FORM, and one with a WAITING RELEASE entry is RELEASING
(R107). -/
def State.EntriesFollow (s : State) : Prop :=
  ∀ i : SlotNo,
    (s.completions[i] = some .waitingForm ↔ ∃ r, s.slots[i] = some r ∧ r.state = .forming) ∧
    (s.completions[i] = some .waitingRelease → ∃ r ramp, s.slots[i] = some r ∧ r.state = .releasing ramp)

/-- Every tag is other than 0, and no two records have one tag (R28). -/
def State.TagsDistinct (s : State) : Prop :=
  (∀ (i : SlotNo) (r : Record), s.slots[i] = some r → r.cfg.tag ≠ 0) ∧
  ∀ (i j : SlotNo) (r q : Record), s.slots[i] = some r → s.slots[j] = some q → r.cfg.tag = q.cfg.tag → i = j

/-- Every open buffer has a tag other than 0 that no other open buffer has, and values in range alone; one that edits a
record names the slot of the record with its tag (R86 to R88). -/
def State.BuffersSound (s : State) : Prop :=
  ∀ (k : BufferNo) (b : EditBuffer), s.edit.buffers[k] = some b →
    b.tag ≠ 0 ∧ (∀ (f : RecordField) (w : Word), b.written[f.place] = some w → f.inRange w = true) ∧
    (∀ (j : BufferNo) (c : EditBuffer), s.edit.buffers[j] = some c → c.tag = b.tag → j = k) ∧
    ∀ i base, b.target = .existing i base → ∃ r, s.slots[i] = some r ∧ r.cfg.tag = b.tag

/-- The accesses in service and waiting (R34). -/
def Arbiter.outstanding (a : Arbiter) : List Access := a.inService.toList ++ a.waiting

/-- The accesses that the port's requests cause (R34). -/
def Access.ofPort : Access → Bool
  | .edit _ | .group | .portSnapshot => true
  | .computation _ | .expiry _ | .install | .saveSnapshot | .checkStep => false

/-- Of these accesses one at most is an install, and that is of a valid profile which the store is loading; no buffer is
open during a load (R160, R162). -/
def State.InstallSound (s : State) (accesses : List Access) : Prop :=
  accesses.count .install ≤ 1 ∧
  (.install ∈ accesses → ∃ p : ProfileNo, s.store.profiles[p].isValid = true ∧
    (s.store.op = .loading p true ∨ (s.store.op = .startupLoading ∧ p = 0))) ∧
  (s.store.op = .startupLoading → s.startup = .loading) ∧ (s.startup = .begun → s.store.op = .idle) ∧
  (s.store.op.isLoading = true → ∀ k : BufferNo, s.edit.buffers[k] = none)

/-- Of these accesses one at most is the port's, and it is that of the request in service at its phase; an event that is
a request waits only while that request is to be judged; there is no request in service in a frame that is not
overlapped, and neither a request nor an open buffer before READY (R34, R90, R150, R152). -/
def State.ServiceSound (s : State) (accesses : List Access) : Prop :=
  (s.port.chipSelect = .low false → s.port.service = none) ∧
  (s.startup ≠ .ready → s.port.service = none ∧ ∀ k : BufferNo, s.edit.buffers[k] = none) ∧
  accesses.countP Access.ofPort ≤ 1 ∧
  (∀ k : BufferNo, .edit k ∈ accesses → ∃ v toClose, s.port.service = some v ∧ v.phase = .closing toClose) ∧
  (.group ∈ accesses ∨ .portSnapshot ∈ accesses → ∃ v, s.port.service = some v ∧ v.phase = .access) ∧
  (.request ∈ s.arbiter.deferred → ∃ v, s.port.service = some v ∧ v.phase = .judging)

/-- The buffers that a Write Field or a Retire in service must not find open when its turn comes are being closed: that
of the tag to be written, and outside group mode that of the record to be retired (R87, R89, R90). -/
def State.ClosingSound (s : State) (accesses : List Access) : Prop :=
  ∀ v, s.port.service = some v →
    (∀ tag f w, v.request = .writeField tag f w →
      tag ≠ 0 ∧ f.inRange w = true ∧ s.store.op.isLoading = false ∧
      ∀ (k : BufferNo) (b : EditBuffer), s.edit.buffers[k] = some b → b.tag = tag →
        v.phase = .closing [] ∧ .edit k ∈ accesses) ∧
    (∀ name, v.request = .table (.retire name) → s.edit.groupMode = false →
      ∀ (k : BufferNo) (b : EditBuffer) (i : SlotNo) (base : RecordConfig) (r : Record),
        s.edit.buffers[k] = some b → b.target = .existing i base → s.resolve name = .ok (i, r) →
        v.phase = .closing [] ∧ .edit k ∈ accesses)

/-- The tags, the edit buffers, the installs and the port's request are sound together. -/
def State.EditsSound (s : State) : Prop :=
  s.TagsDistinct ∧ s.BuffersSound ∧ s.InstallSound s.arbiter.outstanding ∧
  s.ServiceSound s.arbiter.outstanding ∧ s.ClosingSound s.arbiter.outstanding

/-- The counts of a channel entry stay in the ranges of R2. -/
def Channel.CountsBounded (ch : Channel) : Prop :=
  ch.suspectRun ≤ 4 ∧ ch.goodRun ≤ 8 ∧ ch.missRun ≤ 15 ∧ ch.standstillRun ≤ 16 ∧ ch.speed.natAbs ≤ 100000

/-- The counts of every channel entry stay in the ranges of R2. -/
def State.CountsBounded (s : State) : Prop := ∀ c : ChannelNo, s.channels[c].CountsBounded

/-! ### When the part is free -/

/-- A frame that the port heard and that is not overlapped is in progress, and no request is in service (R148, R150). -/
def State.FrameOpen (s : State) : Prop := s.port.chipSelect = .low false ∧ s.port.service = none

/-- Such a frame is in progress and start-up is complete (R152). -/
def State.Listening (s : State) : Prop := s.FrameOpen ∧ s.startup = .ready

/-- The Coupling Table is free: no access in service or waiting, no event waiting (R34, R38). -/
def State.TableFree (s : State) : Prop := s.arbiter = { inService := none, waiting := [], deferred := [] }

/-- A request naming a record finds it, with no edit to close and the table free (R30, R31, R90). -/
def State.Finds (s : State) (tag : Half) (index : Byte) (i : SlotNo) (r : Record) : Prop :=
  s.Listening ∧ s.TableFree ∧ s.closedBy (RecordName.ofFrame tag index) = .ok [] ∧
  s.resolve (RecordName.ofFrame tag index) = .ok (i, r)

/-- A request naming a record, with the table free, finds none: the slot it names is VACANT or out of range, or no
record has its tag (R30, R31, R90). -/
def State.FindsNone (s : State) (tag : Half) (index : Byte) (refusal : ResultCode) : Prop :=
  s.Listening ∧ s.TableFree ∧
  (s.closedBy (RecordName.ofFrame tag index) = .error refusal ∨
    (s.closedBy (RecordName.ofFrame tag index) = .ok [] ∧
      s.resolve (RecordName.ofFrame tag index) = .error refusal))

/-- The arbiter when an access is requested: served at once when none is in service and none waits, otherwise behind
those that wait (R34). -/
def Arbiter.asked (a : Arbiter) (x : Access) : Arbiter :=
  if a.inService = none ∧ a.waiting = [] then { a with inService := some x } else { a with waiting := a.waiting ++ [x] }

/-- The arbiter when an event has to wait (R34, R38). -/
def Arbiter.deferring (a : Arbiter) (e : TableEvent) : Arbiter := { a with deferred := a.deferred ++ [e] }

/-- The port after a request has been answered: chip select high, the reply in place, no request in service. -/
def State.replied (s : State) (r : Reply) : State :=
  { s with port := { s.port with chipSelect := .high, reply := r, service := none } }

/-- The port with a request in service. -/
def State.serving (s : State) (v : Service) : State :=
  { s with port := { s.port with chipSelect := .high, service := some v } }

/-- A reply with no values and no edit closed. -/
def Reply.plain (code seq : Byte) (result : ResultCode) : Reply where
  code := code
  seq := seq
  result := result
  edit := .untouched
  a := 0
  b := 0
  c := 0

/-! ### A request that goes on after the edits it closes -/

/-- The part as it would be if the request in service came now, with no edit open. -/
def State.asIfAsked (u : State) : State :=
  { u with
    port := { u.port with chipSelect := .low false, service := none }
    edit := { u.edit with buffers := Vector.replicate 4 none } }

/-- What the request would have left of `asIfAsked`, as the request in service leaves it: the buffers and chip select
stand, and the edit outcome goes with the request or its reply (R92). -/
def State.asServed (w u : State) (outcome : EditOutcome) : State :=
  { w with
    edit := u.edit
    port :=
      { w.port with
        chipSelect := u.port.chipSelect
        service := w.port.service.map fun v => { v with edit := outcome }
        reply := if w.port.service = none then { w.port.reply with edit := outcome } else w.port.reply } }

/-- The slot that a request names, if it names one (R31). -/
def PortRequest.slotNamed : PortRequest → Option Byte
  | .lookupRecord (.bySlot index) | .table (.form (.bySlot index)) | .table (.release (.bySlot index))
  | .table (.retire (.bySlot index)) | .table (.offsetTest (.bySlot index) _) | .table (.checkTest (.bySlot index)) =>
    some index
  | _ => none

/-- The request v, in service in u with its edit outcome gathered, has gone on to t: the application of the next buffer
it closes is requested, or, when none is left, the request is served as if it came now (R89 to R93). While an access is
in service this is said of a request by slot number only where the slot holds a record, as it does when an edit of that
record has been closed. -/
def State.GoesOn (u t : State) (v : Service) : Prop :=
  (∀ k rest, v.phase = .closing (k :: rest) → t = { u with
    port := { u.port with service := some { v with phase := .closing rest } }
    arbiter := u.arbiter.asked (.edit k) }) ∧
  (v.phase = .closing [] →
    (∀ tag, v.request = .commit tag → t = { u with
      port := { u.port with
        service := none
        reply :=
          { code := v.code, seq := v.seq, edit := v.edit, a := 0, b := 0, c := 0
            result := match v.edit with
              | .rejected reason => reason.result
              | .untouched | .applied => .done } } }) ∧
    (∀ tag f w k, v.request = .writeField tag f w → u.edit.buffers[k] = none →
      (∀ j : BufferNo, j < k → u.edit.buffers[j].isSome) → ∃ target : EditTarget,
      (∀ i r, u.findTag tag = some i → u.slots[i] = some r → target = .existing i r.cfg) ∧
      (u.findTag tag = none → target = .new) ∧
      t = { u with
        edit := { u.edit with
          buffers := u.edit.buffers.set k
            (some { tag := tag, target := target, written := (Vector.replicate 15 none).set f.place (some w) }) }
        port := { u.port with
          service := none
          reply := { code := v.code, seq := v.seq, result := .done, edit := v.edit, a := 0, b := 0, c := 0 } } }) ∧
    (u.startup = .ready → u.store.op.isLoading = false → u.edit.groupMode = false →
      u.arbiter.inService = none ∨ (∀ index, v.request.slotNamed = some index →
        ∃ found, u.resolve (.bySlot index) = .ok found) →
      ∀ i w, i.requestHead = some (v.code, v.seq) → i.asksFor = some v.request →
        exec i u.asIfAsked = .next w → t = w.asServed u v.edit))

/-! ### The end of an access that others wait for -/

/-- An access ends that would have left u had nothing waited for it; these events and accesses did, and it leaves t: the
events are taken in their order, each with the effect it has on a free table, and of the accesses that wait then the one
with the lowest rank, the earliest of its kind, is served (R34, R35, R38). -/
def State.EndsTo (u t : State) (events : List TableEvent) (waiting : List Access) : Prop :=
  let taken := events.foldl State.takeEvent u
  (waiting = [] → t = taken) ∧
  ∀ (next : Access) (before after : List Access), waiting ++ taken.arbiter.outstanding = before ++ next :: after →
    (∀ b ∈ before, next.rank < b.rank) → (∀ b ∈ after, next.rank ≤ b.rank) →
    t = { taken with arbiter := { inService := some next, waiting := before ++ after, deferred := [] } }

/-! ### What a report and a reset leave -/

/-- A report of a flag, and nothing else, took the Fault Unit from f to g (R139, R141, R142). -/
def FaultUnit.Reported (f g : FaultUnit) (fl : Flag) : Prop :=
  g.isSet fl = true ∧ (∀ other, other ≠ fl → g.isSet other = f.isSet other) ∧
  (f.masked fl = false → g.summary fl.group = true) ∧ (f.masked fl = true → g.summaries = f.summaries) ∧
  (∀ other, other ≠ fl.group → g.summary other = f.summary other) ∧
  g.kindMasks = f.kindMasks ∧ g.lineMasks = f.lineMasks ∧ g.lastReject = f.lastReject ∧
  (f.line = f.lineLevel → g.line = g.lineLevel) ∧
  (∀ c : ChannelNo, fl ≠ .channelCheck c → g.channelCheck[c] = f.channelCheck[c]) ∧
  ∀ i : SlotNo, fl ≠ .couplingCheck i → g.couplingCheck[i] = f.couplingCheck[i]

/-- Reports of the flags for which `event` holds, and nothing else, took the Fault Unit from f to g (R139, R141,
R142). -/
def FaultUnit.Raised (f g : FaultUnit) (event : Flag → Prop) : Prop :=
  (∀ fl, g.isSet fl = true ↔ f.isSet fl = true ∨ event fl) ∧
  (∀ group, g.summary group = true ↔
    f.summary group = true ∨ ∃ fl, event fl ∧ fl.group = group ∧ f.masked fl = false) ∧
  (∀ c : ChannelNo, ¬ event (.channelCheck c) → g.channelCheck[c] = f.channelCheck[c]) ∧
  (∀ i : SlotNo, ¬ event (.couplingCheck i) → g.couplingCheck[i] = f.couplingCheck[i]) ∧
  g.kindMasks = f.kindMasks ∧ g.lineMasks = f.lineMasks ∧ g.lastReject = f.lastReject ∧
  (f.line = f.lineLevel → g.line = g.lineLevel)

/-- What a READY entry carries when its outcome is given at capture number n: that number, and the collect deadline, a
collect window later, or none when the window is 0 (R110, R113). -/
def State.Carries (s : State) (n : Word) (k : Collect) : Prop :=
  k.capture = n ∧ (s.engine.collectWindow = 0 → k.deadline = none) ∧
  (s.engine.collectWindow ≠ 0 → k.deadline = some (n + s.engine.collectWindow.setWidth 32))

/-- A record in this state goes to BROKEN when it is cut for the reason: a ramp does on a check mismatch alone (R79,
R80, R82). -/
def RecordState.Breaks (st : RecordState) (reason : BreakReason) : Prop :=
  st = .forming ∨ st = .held ∨ st = .slipping ∨ (reason = .check ∧ ∃ ramp, st = .releasing ramp)

/-- What an event outside a computation left of the record in a slot when it broke or cut it for a reason: `cutTo` is
where a ramp goes (R79, R80, R82). -/
def State.CutAt (s t : State) (i : SlotNo) (reason : BreakReason) (cutTo : RecordState) : Prop :=
  (s.slots[i] = none → t.slots[i] = none ∧ t.completions[i] = s.completions[i]) ∧
  ∀ r, s.slots[i] = some r →
    (r.state.isActive = false → t.slots[i] = some r ∧ t.completions[i] = s.completions[i]) ∧
    (r.state = .forming ∨ r.state = .held ∨ r.state = .slipping →
      t.slots[i] = some { r with state := .broken reason, run := 0, pendingOffset := none } ∧
      t.faults.isSet (.broke i) = true) ∧
    (∀ ramp, r.state = .releasing ramp →
      t.slots[i] = some { r with state := cutTo, run := 0, pendingOffset := none } ∧
      (cutTo ≠ .idle → t.faults.isSet (.broke i) = true)) ∧
    (∀ ramp, r.state = .releasing ramp → s.completions[i] = some .waitingRelease →
      ∃ k : Collect, s.Carries (s.engine.lastComputed.getD 0) k ∧
        t.completions[i] = some (.readyRelease .releaseCut k)) ∧
    (r.state = .forming → s.completions[i] = some .waitingForm →
      ∃ k : Collect, s.Carries (s.engine.lastComputed.getD 0) k ∧
        t.completions[i] = some (.readyForm (.broken reason) k)) ∧
    (s.completions[i] ≠ some .waitingForm → s.completions[i] ≠ some .waitingRelease →
      t.completions[i] = s.completions[i])

/-- A channel that left its states for LOST took every active record naming it with it, was posted 0, and nothing else
of the part but the flags and coupled indications changed; `also` are the other flags its event reports (R21, R79). -/
def State.LostAt (s t : State) (c : ChannelNo) (entry : Channel) (also : Flag → Prop) : Prop :=
  t.CoupledAgree ∧ t.link.slots = s.link.slots.set c 0 ∧
  s.faults.Raised t.faults (fun fl => also fl ∨ fl = .lost c ∨ ∃ (i : SlotNo) (r : Record), fl = .broke i ∧
    s.slots[i] = some r ∧ r.names c = true ∧ r.state.Breaks .channelLost) ∧
  t.channels[c] = { entry with posted := 0, coupled := false } ∧
  (∀ d : ChannelNo, d ≠ c → t.channels[d] = { s.channels[d] with coupled := t.channels[d].coupled }) ∧
  (∀ (i : SlotNo) (r : Record), s.slots[i] = some r → r.names c = true → s.CutAt t i .channelLost .idle) ∧
  (∀ i : SlotNo, (∀ r, s.slots[i] = some r → r.names c = false) →
    t.slots[i] = s.slots[i] ∧ t.completions[i] = s.completions[i])

/-- Every block but the Profile Store stands at its reset values, and the inputs and the queue are as they were
(R162 step 1). -/
def State.BlocksReset (s t : State) : Prop :=
  t.channels = State.reset.channels ∧ t.captureTimer = .stopped ∧ t.captureNumber = 0 ∧
  t.slots = State.reset.slots ∧ t.arbiter = State.reset.arbiter ∧ t.engine = State.reset.engine ∧
  t.edit = State.reset.edit ∧ t.completions = State.reset.completions ∧ t.link = State.reset.link ∧
  t.checker = State.reset.checker ∧ t.faults = FaultUnit.reset ∧ t.startup = .begun ∧
  t.port.reply = Reply.startUp ∧ t.port.snapshot = .empty ∧ t.port.service = none ∧
  (∀ c : ChannelNo, t.encoders[c] = { s.encoders[c] with count := 0, illegal := false }) ∧
  t.stopLine = s.stopLine ∧ t.pending = s.pending

/-- The Profile Store after a reset: no operation, the journal and the profiles kept, but the one an erase or a save was
writing left with its valid mark erased (R156, R161). A save that has not had its snapshot has written nothing (R159). -/
def Store.KeptByReset (a b : Store) : Prop :=
  b.op = .idle ∧ b.journal = a.journal ∧
  (a.op = .idle ∨ a.op = .startupLoading → b.profiles = a.profiles) ∧
  (∀ p valid, a.op = .loading p valid → b.profiles = a.profiles) ∧
  (∀ p q : ProfileNo, a.op = .erasing p → b.profiles[p].validMark = false ∧ (q ≠ p → b.profiles[q] = a.profiles[q])) ∧
  (∀ (p q : ProfileNo) (autoLoad : Bool) (copy : Profile), a.op = .saving p autoLoad (some copy) →
    b.profiles[p].validMark = false ∧ (q ≠ p → b.profiles[q] = a.profiles[q])) ∧
  (∀ (p : ProfileNo) (autoLoad : Bool), a.op = .saving p autoLoad none → b.profiles = a.profiles)

end Sys2Proof.Machine
end

