-- ==== Sys2Proof/Certificates/Slice0/Obligations.lean ====
section
/-! DEFINITION. The statements for the provers. -/

open Sys2Proof Sys2Proof.Machine

/-! ### The machine as a whole -/

/-- The command at the front of the queue is run on the state with the queue's rest; an empty queue idles. The queue
and the idling are the model's (assumption 1). -/
def Obligations.StepRunsFrontCommand : Prop :=
  (∀ (c : Instr) (rest : List Instr) (s : State),
    s.pending = c :: rest → step s = exec c { s with pending := rest }) ∧
  (∀ s : State, s.pending = [] → step s = .next s)

/-- No command changes the queue. The queue is the model's own (assumption 1): the handbook gives the part's steps and
no queue of them. -/
def Obligations.ExecKeepsQueue : Prop :=
  ∀ (c : Instr) (s t : State), exec c s = .next t → t.pending = s.pending

/-- Every command answers a next state, but for an edit application whose buffer names a VACANT slot (assumption 22).
Where the open buffers are sound none does, and every step keeps the tags distinct, the buffers sound, and with them
what they rest on: one install at most, of a valid profile, and one access at most for the request in service. -/
def Obligations.StopsOnlyOnDanglingEdit : Prop :=
  (∀ (c : Instr) (s : State),
    (∃ t, exec c s = .next t) ∨
    ∃ (i : SlotNo) (k : BufferNo) (b : EditBuffer) (base : RecordConfig),
      exec c s = .fault (.danglingEdit i) ∧ (c = .editApplication ∨ c = .groupApplication) ∧
      s.edit.buffers[k] = some b ∧ b.target = .existing i base ∧ s.slots[i] = none) ∧
  (∀ (c : Instr) (s : State), s.BuffersSound → ∃ t, exec c s = .next t) ∧
  ∀ s t : State, s.EditsSound → step s = .next t → t.EditsSound

/-- Every step keeps the FAULT line at the level of R142. -/
def Obligations.FaultLineFollowsSummaries : Prop :=
  ∀ s t : State, s.LineAgrees → step s = .next t → t.LineAgrees

/-- Every step keeps each entry's posted correction equal to the channel's slot at the Drive Link Controller. -/
def Obligations.PostedCorrectionsAgree : Prop :=
  ∀ s t : State, s.PostsAgree → step s = .next t → t.PostsAgree

/-- Every step keeps every phase error within 1,000,000 µm. -/
def Obligations.PhaseErrorsStayBounded : Prop :=
  ∀ s t : State, s.ErrorsBounded → step s = .next t → t.ErrorsBounded

/-- Every step keeps the completion map at eight entries at most, each belonging to a non-vacant record, and the waiting
entries with the records they wait for: WAITING FORM with FORMING, WAITING RELEASE with RELEASING. -/
def Obligations.CompletionMapStaysWithinBounds : Prop :=
  ∀ s t : State, s.MapBounded ∧ s.EntriesOwned ∧ s.EntriesFollow → step s = .next t →
    t.MapBounded ∧ t.EntriesOwned ∧ t.EntriesFollow

/-- Every step keeps these together: a channel is coupled exactly while an active record names it; every channel an
active record names is RUNNING or STALE; while STOP is taken as asserted no record is active. -/
def Obligations.ActiveCouplingsUseRunningChannels : Prop :=
  ∀ s t : State, s.CoupledAgree ∧ s.ActiveUp ∧ s.StopEmpties → step s = .next t →
    t.CoupledAgree ∧ t.ActiveUp ∧ t.StopEmpties

/-- Every step keeps the arbiter so that nothing waits while no access is in service. After READY a step that is
neither a reset nor the end of the access in service leaves that access in service, every record, and the channel
entries when the access reads or writes them; what is requested or arises meanwhile goes behind what already waits. At
the end of an access the events that waited are taken in their order, each with the effect it has on a free table, and
the access that waits then with the lowest rank in the order of R35, the earliest of its kind, is served next. At the
end of an edit application the request that closed the edit goes on after that, and a computation with entries falling
due goes over into their expiry with all that waits for it. A request that waited to be judged is judged as if it came
then, its edit outcome kept. That the row of an access is its end, and the order of the three, are the model's
(assumptions 3, 4, 5). -/
def Obligations.NothingWaitsOnAFreeTable : Prop :=
  (∀ s t : State, s.TableQuiet → step s = .next t → t.TableQuiet) ∧
  (∀ (s t : State) (c : Instr) (rest : List Instr) (a : Access), s.pending = c :: rest → s.startup = .ready →
    s.arbiter.inService = some a → c ≠ a.row → c.isReset = false → step s = .next t →
    t.arbiter.inService = some a ∧ t.slots = s.slots ∧ (a.touchesChannels = true → t.channels = s.channels) ∧
    s.arbiter.waiting <+: t.arbiter.waiting ∧ s.arbiter.deferred <+: t.arbiter.deferred) ∧
  (∀ (s : State) (e : TableEvent), ∃ (t : State) (asked : List Access), ∀ x : Arbiter,
    State.takeEvent { s with arbiter := x } e = { t with arbiter := asked.foldl Arbiter.asked x }) ∧
  (∀ (s u : State) (a : Access) (events : List TableEvent) (waiting : List Access), (∀ k, a ≠ .edit k) →
    s.arbiter = { inService := some a, waiting := waiting, deferred := events } →
    exec a.row { s with arbiter := { inService := some a, waiting := [], deferred := [] } } = .next u →
    (u.arbiter = { inService := none, waiting := [], deferred := [] } →
      ∃ t, exec a.row s = .next t ∧ u.EndsTo t events waiting) ∧
    ∀ n, u.arbiter = { inService := some (.expiry n), waiting := [], deferred := [] } →
      exec a.row s =
        .next { u with arbiter := { inService := some (.expiry n), waiting := waiting, deferred := events } }) ∧
  (∀ (s w : State) (k : BufferNo) (b : EditBuffer) (v committed : Service) (toClose : List BufferNo) (tag : Half)
    (events : List TableEvent) (waiting : List Access),
    s.arbiter = { inService := some (.edit k), waiting := waiting, deferred := events } → s.edit.buffers[k] = some b →
    s.port.service = some v → v.phase = .closing toClose → .request ∉ events →
    committed.request = .commit tag → committed.phase = .closing [] →
    exec .editApplication { s with
      arbiter := { inService := some (.edit k), waiting := [], deferred := [] }
      port := { s.port with service := some committed } } = .next w →
    let gathered : Service := { v with edit := match v.edit, b.rejection s.slots with
      | .rejected first, _ => .rejected first
      | .untouched, some reason | .applied, some reason => .rejected reason
      | .untouched, none | .applied, none => .applied }
    ∃ t u : State, exec .editApplication s = .next t ∧
      State.EndsTo { w with port := { w.port with service := some gathered, reply := s.port.reply } } u events waiting ∧
      u.GoesOn t gathered) ∧
  (∀ (u w : State) (v : Service) (i : Instr) (r : TableRequest), u.TableFree → u.startup = .ready →
    u.store.op.isLoading = false → u.port.service = some v → v.request = .table r →
    i.requestHead = some (v.code, v.seq) → i.asksFor = some (.table r) →
    (u.edit.groupMode = false → exec i u.asIfAsked = .next w → u.takeEvent .request = w.asServed u v.edit) ∧
    (u.edit.groupMode = true →
      exec i { u with port := { u.port with chipSelect := .low false, service := none } } = .next w →
      u.takeEvent .request = w.asServed u v.edit)) ∧
  (∀ n k, [Access.computation n, .edit k, .install, .saveSnapshot, .portSnapshot, .checkStep].map Access.rank =
    [0, 1, 2, 3, 4, 5] ∧ (Access.expiry n).rank = 0 ∧ Access.group.rank = 1) ∧
  (∀ s : State, s.TableFree → s.startup = .ready →
    (s.stopLine = false →
      exec .stopAsserted s = .next (State.takeEvent { s with stopLine := true } .stopAsserted)) ∧
    (s.stopLine = true →
      exec .stopDeasserted s = .next (State.takeEvent { s with stopLine := false } .stopDeasserted)) ∧
    (s.link.isJudged = true → exec .driveStatusEvent s = .next (s.takeEvent .driveStatus)) ∧
    (∀ p, s.captureTimer = .running p →
      exec .capture s = .next (State.takeEvent
        { s with
          captureNumber := s.captureNumber + 1
          encoders := Vector.ofFn fun c => { s.encoders[c] with illegal := false }
          port := { s.port with deafFalls := 0 } }
        (.captureSet
          { number := s.captureNumber + 1, counts := Vector.ofFn fun c => s.encoders[c].count
            illegal := Vector.ofFn fun c => s.encoders[c].illegal }))) ∧
    ∀ (i : Instr) (code seq : Byte) (r : TableRequest), s.Listening → s.store.op.isLoading = false →
      i.requestHead = some (code, seq) → i.asksFor = some (.table r) →
      s.edit.groupMode = true ∨ r.atChannels = true ∨ (∃ a b d, r = .setEngine a b d) →
      exec i s = .next ((s.serving
        { code := code, seq := seq, request := .table r, phase := .judging, edit := .untouched }).takeEvent .request))

/-- Every step keeps the runs and the speed of every channel entry in their ranges. -/
def Obligations.ChannelRunsStayInRange : Prop :=
  ∀ s t : State, s.CountsBounded → step s = .next t → t.CountsBounded

/-- Every invariant stated here holds at reset. -/
def Obligations.InvariantsHoldAtReset : Prop :=
  State.reset.LineAgrees ∧ State.reset.PostsAgree ∧ State.reset.ErrorsBounded ∧ State.reset.MapBounded ∧
  State.reset.EntriesOwned ∧ State.reset.EntriesFollow ∧ State.reset.EditsSound ∧ State.reset.CoupledAgree ∧
  State.reset.ActiveUp ∧ State.reset.StopEmpties ∧
  State.reset.TableQuiet ∧ State.reset.CountsBounded ∧ State.reset.Forest

/-! ### Frames -/

/-- A request frame built from a well-formed request decodes to that request, every operand with it. -/
def Obligations.RequestFramesDecode : Prop :=
  ∀ (i : Instr) (frame : List Byte), i.wellFormed = true → encodeFrame i = some frame → decodeFrame frame false = i

/-- A code outside the catalogue is answered RANGE at any time; before READY every request of the catalogue but Reset
is answered STARTING; during a load those of R157 are answered BUSY; a No-op is answered DONE. Nothing else changes.
That the NO_OP row carries the codes outside the catalogue is the model's convention (assumption 7). -/
def Obligations.PortAnswersBeforeDispatch : Prop :=
  (∀ (c : Instr) (code seq : Byte) (s : State), c.requestHead = some (code, seq) → code ∈ requestCodes →
    c.wellFormed = true → s.FrameOpen → s.startup ≠ .ready →
    exec c s = .next (s.replied (Reply.plain code seq .starting))) ∧
  (∀ (c : Instr) (code seq : Byte) (s : State), c.requestHead = some (code, seq) → code ∈ codesRefusedInLoad →
    c.wellFormed = true → s.Listening → s.store.op.isLoading = true →
    exec c s = .next (s.replied (Reply.plain code seq .busy))) ∧
  (∀ (seq : Byte) (s : State), s.Listening →
    exec (.noOp 0x01 seq) s = .next (s.replied (Reply.plain 0x01 seq .done))) ∧
  (∀ (code seq : Byte) (s : State), s.FrameOpen → code ∉ requestCodes →
    exec (.noOp code seq) s = .next (s.replied (Reply.plain code seq .range)))

/-- Power-on, the RESET line and a Reset request put every block at its reset values, and leave the profiles as they
were but for the one that an erase or a save was writing. That a power-on leaves RESET released is the model's choice
(assumption 29), and that a save writes nothing before its snapshot is its reading of R159 and R161 (assumption 10). -/
def Obligations.ResetsReachEveryBlock : Prop :=
  (∀ s : State, ∃ t, exec .powerOn s = .next t ∧ s.BlocksReset t ∧ s.store.KeptByReset t.store ∧
    t.resetHeld = false) ∧
  (∀ s : State, ∃ t, exec .resetLine s = .next t ∧ s.BlocksReset t ∧ s.store.KeptByReset t.store ∧
    t.resetHeld = true) ∧
  (∀ (seq : Byte) (s : State), s.FrameOpen → ∃ t, exec (.reset seq) s = .next t ∧ s.BlocksReset t ∧
    s.store.KeptByReset t.store ∧ t.resetHeld = false ∧ t.port.chipSelect = .high)

/-- Overlapped, discarded and rejected frames report PORT_FRAME; only a rejected one changes the reply place. -/
def Obligations.FaultyFramesReportPortFrame : Prop :=
  (∀ s : State, s.port.chipSelect = .low true → ∃ f, s.faults.Reported f .portFrame ∧
    exec .overlappedFrame s = .next { s with port := { s.port with chipSelect := .high }, faults := f } ∧
    ∀ c : Instr, c.endsFrame = true →
      exec c s = .next { s with port := { s.port with chipSelect := .high }, faults := f }) ∧
  (∀ (wholeBytes : Nat) (partByte : Bool) (s : State), s.FrameOpen → ∃ f, s.faults.Reported f .portFrame ∧
    exec (.frameDiscarded wholeBytes partByte) s =
      .next { s with port := { s.port with chipSelect := .high }, faults := f }) ∧
  (∀ (code seq : Byte) (s : State), s.FrameOpen → ∃ f, s.faults.Reported f .portFrame ∧
    exec (.frameRejected code seq) s =
      .next { s.replied (Reply.plain code seq .frameRejected) with faults := f })

/-- At a fall of chip select that the port hears it shifts out the status word, the reply place and a CRC over both,
and settles whether the frame is overlapped. A fall while RESET is held is not heard, nor one of those that a Reset
request leaves unheard; how many those are is free (assumption 11), and a frame of 13 bytes or more is the last of
them, which is the model's reading of the 10 µs. The data output is driven only while chip select is low, and carries
the bytes of the reply frame in order, each with its most significant bit first; what it carries in a frame whose fall
was not heard is free, which is why a fall, heard or not, takes the next occasion (assumption 32). -/
def Obligations.ChipSelectFallShiftsOutReply : Prop :=
  (∀ s : State, s.port.chipSelect = .high → s.resetHeld = false → s.port.deafFalls = 0 →
    ∃ b0 b1 b2 b3 : Byte, ∃ body : List Byte,
      body = [s.port.reply.code, s.port.reply.seq, s.port.reply.result.byte, s.port.reply.edit.byte]
        ++ wordBytes s.port.reply.a ++ wordBytes s.port.reply.b ++ halfBytes s.port.reply.c ∧
      exec .chipSelectFall s = .next { s with
        freeIndex := s.freeIndex + 1
        port := { s.port with
          chipSelect := .low s.port.service.isSome
          output := [b0, b1, b2, b3] ++ body ++ halfBytes (crc16 ([b0, b1, b2, b3] ++ body)) } } ∧
      b0.getLsbD 7 = decide (s.startup = .ready) ∧ b0.getLsbD 6 = s.faults.summary .channel ∧
      b0.getLsbD 5 = s.faults.summary .coupling ∧ b0.getLsbD 4 = s.faults.summary .service ∧
      b0.getLsbD 3 = s.stopLine ∧ b0.getLsbD 2 = s.edit.groupMode ∧
      b0.getLsbD 1 = decide (s.store.op ≠ .idle) ∧ b0.getLsbD 0 = false ∧
      (s.MapBounded → b1.toNat = s.readyCount) ∧ halfOf b2 b3 = s.captureNumber.setWidth 16) ∧
  (∀ s : State, s.port.chipSelect = .high → s.resetHeld = true →
    exec .chipSelectFall s =
      .next { s with freeIndex := s.freeIndex + 1, port := { s.port with chipSelect := .lowUnheard } }) ∧
  (∀ (s : State) (falls : Nat), s.port.chipSelect = .high → s.resetHeld = false → s.port.deafFalls = falls + 1 →
    exec .chipSelectFall s =
      .next { s with
        freeIndex := s.freeIndex + 1, port := { s.port with chipSelect := .lowUnheard, deafFalls := falls } }) ∧
  (∀ (c : Instr) (s : State), c.endsFrame = true → s.port.chipSelect = .lowUnheard →
    exec c s = .next { s with port := { s.port with
      chipSelect := .high
      deafFalls := match c with
        | .frameDiscarded wholeBytes _ => if wholeBytes < 13 then s.port.deafFalls else 0
        | _ => 0 } }) ∧
  (∀ (s : State) (bitTime : Nat), s.port.chipSelect = .high → s.outputLevel bitTime = none) ∧
  (∀ (s : State) (overlapped : Bool) (k n : Nat) (b : Byte), s.port.chipSelect = .low overlapped →
    s.port.output[k]? = some b → n < 8 → s.outputLevel (8 * k + n) = some (b.getMsbD n))

/-- A row that stands for a whole frame, found with chip select high, is the fall of chip select and then the same row
(the model's convention, assumption 6). -/
def Obligations.WholeFrameIsFallThenRise : Prop :=
  ∀ (c : Instr) (s : State), c.endsFrame = true → s.port.chipSelect = .high → exec c s = exec c s.csFall

/-! ### Reads -/

/-- Read Snapshot gives the field of the copy with its indications, or STATE, or RANGE, and changes nothing else. -/
def Obligations.ReadSnapshotGivesField : Prop :=
  ∀ (seq item : Byte) (s : State), s.Listening →
    (s.port.snapshot = .empty → exec (.readSnapshot seq item) s = .next (s.replied (Reply.plain 0x03 seq .state))) ∧
    ∀ (fields : List (Option Int)) (changed : Bool), s.port.snapshot.contents = some (fields, changed) →
      (item = 0 ∨ fields.length < item.toNat →
        exec (.readSnapshot seq item) s = .next (s.replied (Reply.plain 0x03 seq .range))) ∧
      (item ≠ 0 → fields[item.toNat - 1]? = some none →
        exec (.readSnapshot seq item) s =
          .next (s.replied { Reply.plain 0x03 seq .done with c := if changed then 3 else 1 })) ∧
      (∀ v : Int, item ≠ 0 → fields[item.toNat - 1]? = some (some v) → -2 ^ 63 ≤ v → v < 2 ^ 63 →
        ∃ a b : Word, (a ++ b).toInt = v ∧
          exec (.readSnapshot seq item) s =
            .next (s.replied { Reply.plain 0x03 seq .done with a := a, b := b, c := if changed then 2 else 0 }))

/-- Lookup Channel copies the entry and its exchange counts as one event, the 28 fields in the order and coding of R154;
while an access that reads or writes channel entries is in service it waits. -/
def Obligations.LookupChannelCopiesEntry : Prop :=
  (∀ (seq index : Byte) (s : State) (c : ChannelNo), s.Listening → s.channelsHeld = false → index.toNat = c.val →
    exec (.lookupChannel seq index) s = .next { s with
      port := { s.port with
        chipSelect := .high
        reply := { Reply.plain 0x04 seq .done with a := s.channels[c].lastCapture }
        snapshot := .channel c (s.channels[c].reported s.link.counts[c]) false } }) ∧
  (∀ (seq index : Byte) (s : State), s.Listening → s.channelsHeld = false →
    8 ≤ index.toNat → exec (.lookupChannel seq index) s = .next (s.replied (Reply.plain 0x04 seq .range))) ∧
  (∀ (seq index : Byte) (s : State), s.Listening → s.channelsHeld = true →
    exec (.lookupChannel seq index) s = .next { s.serving
      { code := 0x04, seq := seq, request := .table (.lookupChannel index), phase := .judging, edit := .untouched } with
      arbiter := s.arbiter.deferring .request }) ∧
  (∀ s : State, s.channelsHeld = true ↔ ∃ a, s.arbiter.inService = some a ∧
    ((∃ n, a = .computation n ∨ a = .expiry n) ∨ a = .install ∨ a = .saveSnapshot ∨ a = .checkStep)) ∧
  (∀ (ch : Channel) (n : ExchangeCounts),
    let flag (b : Bool) : Option Int := some (if b then 1 else 0)
    (ch.reported n).length = 28 ∧
    ch.reported n = (
      [some ch.cfg.enabled.toNat, some ch.cfg.counts.toNat, some ch.cfg.circumference.toNat,
        some ch.cfg.direction.toNat, some ch.cfg.ceiling.toNat, some ch.cfg.standstill.toNat,
        some ch.cfg.overspeed.toNat, some ch.travelPerCount,
        some (match ch.state with
          | .off => 0
          | .waiting => 1
          | .running => 2
          | .stale => 3
          | .lost _ => 4),
        (match ch.state with
          | .lost .noReply => some 0
          | .lost .driveDown => some 1
          | .lost .capture => some 2
          | .lost .check => some 3
          | .off | .waiting | .running | .stale => none),
        flag ch.seedPending, some ch.latched.toNat, some ch.travel, some ch.speed, some ch.suspectRun,
        some ch.goodRun, some ch.missRun, some ch.standstillRun, flag ch.standstill,
        (match ch.lastDrive with
          | some .ready => some 1
          | some .torqueLimit => some 2
          | some .tripped => some 3
          | some .disabled => some 4
          | none => none),
        flag ch.coupled, flag ch.limited, some ch.posted, some ch.check.toNat, some ch.lastCapture.toNat,
        some n.replies.toNat, some n.misses.toNat, some n.skips.toNat] : List (Option Int)))

/-- Lookup Record with no edit to close requests its snapshot, which waits while another access is in service, or is
answered UNKNOWN or RANGE at once; the snapshot copies the record as it stands, the 29 fields in the order and coding
of R154, with the number of the last computation served, or is answered UNKNOWN when the name no longer finds one. A
tag finds the record that has it, and a slot number the record in the slot. The name is resolved at the request and
again in the access (assumption 27). -/
def Obligations.LookupRecordCopiesTheRecord : Prop :=
  (∀ (seq : Byte) (tag : Half) (index : Byte) (s : State), s.Listening →
    (∀ refusal, s.closedBy (RecordName.ofFrame tag index) = .error refusal ∨
        (s.closedBy (RecordName.ofFrame tag index) = .ok [] ∧
          s.resolve (RecordName.ofFrame tag index) = .error refusal) →
      (refusal = .unknown ∨ refusal = .range) ∧
      exec (.lookupRecord seq tag index) s = .next (s.replied (Reply.plain 0x02 seq refusal))) ∧
    (∀ i r, s.closedBy (RecordName.ofFrame tag index) = .ok [] →
      s.resolve (RecordName.ofFrame tag index) = .ok (i, r) →
      exec (.lookupRecord seq tag index) s = .next { s.serving
        { code := 0x02, seq := seq, request := .lookupRecord (RecordName.ofFrame tag index), phase := .access,
          edit := .untouched } with
        arbiter := s.arbiter.asked .portSnapshot })) ∧
  (∀ (s : State) (v : Service) (name : RecordName) (i : SlotNo) (r : Record),
    s.arbiter = { inService := some .portSnapshot, waiting := [], deferred := [] } → s.port.service = some v →
    v.request = .lookupRecord name → s.resolve name = .ok (i, r) →
    exec .portSnapshot s = .next { s with
      arbiter := { inService := none, waiting := [], deferred := [] }
      port := { s.port with
        service := none
        snapshot := .record i (s.engine.lastComputed.getD 0) (r.reported s.engine.period) false
        reply :=
          { code := v.code, seq := v.seq, result := .done, edit := v.edit, a := s.engine.lastComputed.getD 0
            b := BitVec.ofNat 16 i.val ++ r.edition
            c := if s.edit.groupMode ∧ (s.edit.bufferFor r.cfg.tag).isSome then 1 else 0 } } }) ∧
  (∀ (seq : Byte) (tag : Half) (index : Byte) (refusal : ResultCode) (s : State), s.FindsNone tag index refusal →
    exec (.lookupRecord seq tag index) s = .next (s.replied (Reply.plain 0x02 seq refusal))) ∧
  (∀ (s : State) (v : Service) (name : RecordName) (refusal : ResultCode),
    s.arbiter = { inService := some .portSnapshot, waiting := [], deferred := [] } → s.port.service = some v →
    v.request = .lookupRecord name → s.resolve name = .error refusal →
    exec .portSnapshot s = .next { s with
      arbiter := { inService := none, waiting := [], deferred := [] }
      port := { s.port with
        service := none
        reply :=
          { code := v.code, seq := v.seq, result := refusal, edit := v.edit, a := 0, b := 0, c := 0 } } }) ∧
  (∀ (s : State) (tag : Half),
    (∀ i : SlotNo, s.findTag tag = some i ↔ (∃ r, s.slots[i] = some r ∧ r.cfg.tag = tag) ∧
      ∀ (j : SlotNo) (r : Record), j < i → s.slots[j] = some r → r.cfg.tag ≠ tag) ∧
    (s.findTag tag = none ↔ ∀ (i : SlotNo) (r : Record), s.slots[i] = some r → r.cfg.tag ≠ tag) ∧
    (∀ (i : SlotNo) (r : Record), s.findTag tag = some i → s.slots[i] = some r →
      s.resolve (.byTag tag) = .ok (i, r)) ∧
    (s.findTag tag = none → s.resolve (.byTag tag) = .error .unknown)) ∧
  (∀ (s : State) (index : Byte),
    (16 ≤ index.toNat → s.resolve (.bySlot index) = .error .range) ∧
    ∀ i : SlotNo, index.toNat = i.val →
      (s.slots[i] = none → s.resolve (.bySlot index) = .error .unknown) ∧
      ∀ r, s.slots[i] = some r → s.resolve (.bySlot index) = .ok (i, r)) ∧
  (∀ (p : CapturePeriod) (r : Record),
    let flag (b : Bool) : Option Int := some (if b then 1 else 0)
    (r.reported p).length = 29 ∧
    r.reported p = (
      [some r.cfg.tag.toNat, some r.cfg.leader.toNat, some r.cfg.follower.toNat, some r.cfg.ratio.toInt,
        some r.cfg.stiffness.toNat, some r.cfg.damping.toNat, some r.cfg.filterShift.toNat, some r.cfg.limit.toNat,
        some r.cfg.share.toNat, some r.cfg.slipWindow.toNat, some r.cfg.breakWindow.toNat,
        some r.cfg.slipCount.toNat, some r.cfg.band.toNat, some r.cfg.timeout.toNat, some r.cfg.ramp.toNat,
        some (match r.state with
          | .idle => 0
          | .forming => 1
          | .held => 2
          | .slipping => 3
          | .releasing _ => 4
          | .broken _ => 5),
        some (roundDiv r.error 65536), some (clampTo 100000 (roundDiv (r.rate * 1000) (65536 * p.micros))),
        some r.run, some r.elapsed, some r.correction, flag r.limited,
        (match r.state with
          | .broken .slipLimit => some 0
          | .broken .channelLost => some 1
          | .broken .stop => some 2
          | .broken .check => some 3
          | .idle | .forming | .held | .slipping | .releasing _ => none),
        (match r.state with
          | .releasing ramp => some ramp.start
          | .idle | .forming | .held | .slipping | .broken _ => none),
        (match r.state with
          | .releasing ramp => some ramp.step
          | .idle | .forming | .held | .slipping | .broken _ => none),
        r.pendingOffset, some r.edition.toNat, some r.check.toNat, flag r.checkFailed] : List (Option Int)))

/-- Query Group with no edit to close requests a port snapshot, which waits while another access is in service, and in
which it is answered with the matching slots, those active among them, their count and the last computation's number;
the snapshot buffer stays. A VACANT slot is no member, and a record is active in FORMING, HELD, SLIPPING and
RELEASING. -/
def Obligations.QueryGroupReportsMatch : Prop :=
  (∀ (seq : Byte) (tag : Half) (a : Word) (s : State), s.Listening → s.closedByGroup tag (a.setWidth 16) = [] →
    exec (.queryGroup seq tag a) s = .next { s.serving
      { code := 0x05, seq := seq, request := .queryGroup tag (a.setWidth 16), phase := .access,
        edit := .untouched } with
      arbiter := s.arbiter.asked .portSnapshot }) ∧
  (∀ (s : State) (v : Service) (tag mask : Half),
    s.arbiter = { inService := some .portSnapshot, waiting := [], deferred := [] } → s.port.service = some v →
    v.request = .queryGroup tag mask → ∃ b : Word, ∃ c : Half,
      exec .portSnapshot s = .next { s with
        arbiter := { inService := none, waiting := [], deferred := [] }
        port := { s.port with
          service := none
          reply :=
            { code := v.code, seq := v.seq, result := .done, edit := v.edit
              a := s.engine.lastComputed.getD 0, b := b, c := c } } } ∧
      c.toNat = (List.finRange 16).countP (fun i => s.inGroup tag mask i) ∧
      (∀ i : SlotNo, b.getLsbD i.val = s.inGroup tag mask i) ∧
      (∀ i : SlotNo, b.getLsbD (16 + i.val) = (s.inGroup tag mask i && s.activeAt i))) ∧
  (∀ (s : State) (tag mask : Half) (i : SlotNo),
    (s.slots[i] = none → s.inGroup tag mask i = false ∧ s.activeAt i = false) ∧
    ∀ r : Record, s.slots[i] = some r →
      (s.inGroup tag mask i = true ↔ ∀ n < 16, mask.getLsbD n = true → r.cfg.tag.getLsbD n = tag.getLsbD n) ∧
      (s.activeAt i = true ↔ r.state = .forming ∨ r.state = .held ∨ r.state = .slipping ∨
        ∃ ramp, r.state = .releasing ramp))

/-! ### Edits -/

/-- A Write Field is refused by the first check of R87 that fails, a Commit by the first of R93, and neither changes
anything. The fields of a record have the ids and ranges of R23. -/
def Obligations.WriteFieldAndCommitRefusals : Prop :=
  (∀ (seq : Byte) (tag : Half) (item : Byte) (a : Word) (s : State), s.Listening → s.store.op.isLoading = false →
    (tag = 0 ∨ item.toNat = 0 ∨ 15 < item.toNat ∨ (∃ f, RecordField.ofId item = some f ∧ f.inRange a = false) →
      exec (.writeField seq tag item a) s = .next (s.replied (Reply.plain 0x10 seq .range))) ∧
    (∀ f, tag ≠ 0 → RecordField.ofId item = some f → f.inRange a = true → s.edit.bufferFor tag = none →
      (∀ k : BufferNo, s.edit.buffers[k].isSome) →
      exec (.writeField seq tag item a) s = .next (s.replied (Reply.plain 0x10 seq .noBuffer)))) ∧
  (∀ (seq : Byte) (tag : Half) (s : State), s.Listening → s.store.op.isLoading = false →
    (tag = 0 → exec (.commit seq tag) s = .next (s.replied (Reply.plain 0x11 seq .range))) ∧
    (tag ≠ 0 → s.edit.groupMode = true →
      exec (.commit seq tag) s = .next (s.replied (Reply.plain 0x11 seq .groupOpen))) ∧
    (tag ≠ 0 → s.edit.groupMode = false → s.edit.bufferFor tag = none →
      exec (.commit seq tag) s = .next (s.replied (Reply.plain 0x11 seq .noEdit)))) ∧
  ((List.range 17).map fun id => RecordField.ofId (BitVec.ofNat 8 id)) =
    [none, some .tag, some .leader, some .follower, some .ratio, some .stiffness, some .damping, some .filterShift,
      some .limit, some .share, some .slipWindow, some .breakWindow, some .slipCount, some .band, some .timeout,
      some .ramp, none] ∧
  (∀ (item : Byte) (f : RecordField), RecordField.ofId item = some f ↔ item.toNat = f.place.val + 1) ∧
  (∀ a : Word,
    (RecordField.ratio.inRange a = true ↔ -50000 ≤ a.toInt ∧ a.toInt ≤ 50000) ∧
    ∀ (f : RecordField) (least most : Nat),
      (f, least, most) ∈ [(.tag, 1, 65535), (.leader, 0, 7), (.follower, 0, 7), (.stiffness, 0, 65535),
        (.damping, 0, 65535), (.filterShift, 0, 7), (.limit, 0, 32767), (.share, 0, 8), (.slipWindow, 100, 500000),
        (.breakWindow, 100, 1000000), (.slipCount, 1, 32), (.band, 1, 2000), (.timeout, 16, 65535),
        (.ramp, 1, 4096)] →
      (f.inRange a = true ↔ least ≤ a.toNat ∧ a.toNat ≤ most)) ∧
  ∀ (e : EditUnit) (tag : Half),
    (∀ k : BufferNo, e.bufferFor tag = some k ↔ (∃ b, e.buffers[k] = some b ∧ b.tag = tag) ∧
      ∀ (j : BufferNo) (b : EditBuffer), j < k → e.buffers[j] = some b → b.tag ≠ tag) ∧
    (e.bufferFor tag = none ↔ ∀ (k : BufferNo) (b : EditBuffer), e.buffers[k] = some b → b.tag ≠ tag)

/-- A Write Field with no buffer open for its tag opens the lowest FREE one, against the record the directory gives or
NEW; with one open it stores the value there, in group mode also over a written one. -/
def Obligations.WriteFieldStoresValue : Prop :=
  ∀ (seq : Byte) (tag : Half) (item : Byte) (a : Word) (s : State) (f : RecordField), s.Listening →
    s.store.op.isLoading = false → tag ≠ 0 → RecordField.ofId item = some f → f.inRange a = true →
    (∀ k : BufferNo, s.edit.bufferFor tag = none → s.edit.buffers[k] = none →
      (∀ j : BufferNo, j < k → s.edit.buffers[j].isSome) →
      (∀ i r, s.findTag tag = some i → s.slots[i] = some r →
        exec (.writeField seq tag item a) s = .next { s.replied (Reply.plain 0x10 seq .done) with
          edit := { s.edit with
            buffers := s.edit.buffers.set k (some
              { tag := tag, target := .existing i r.cfg,
                written := (Vector.replicate 15 none).set f.place (some a) }) } }) ∧
      (s.findTag tag = none →
        exec (.writeField seq tag item a) s = .next { s.replied (Reply.plain 0x10 seq .done) with
          edit := { s.edit with
            buffers := s.edit.buffers.set k (some
              { tag := tag, target := .new, written := (Vector.replicate 15 none).set f.place (some a) }) } })) ∧
    (∀ (k : BufferNo) (b : EditBuffer), s.edit.bufferFor tag = some k → s.edit.buffers[k] = some b →
      (b.wrote f = false ∨ s.edit.groupMode = true) →
      exec (.writeField seq tag item a) s = .next { s.replied (Reply.plain 0x10 seq .done) with
        edit := { s.edit with
          buffers := s.edit.buffers.set k (some { b with written := b.written.set f.place (some a) }) } })

/-- Outside group mode a second write of a field, a Commit, and a request naming a record with an open buffer close
the edit first: its application is requested, waiting while another access is in service, and the request stays in
service. A request naming a slot closes the buffer of the tag of the record there, and one naming a group closes every
buffer with a matching tag in ascending order. In group mode, and with no such buffer, none is closed, and a request
at the Coupling Table waits for the access in service, one at the Channel Table for an access that reads or writes
that table. That Set Engine and Check Test are requests at the Coupling Table is the model's reading (assumption 19).
The upper half of a mask is disregarded, which for Release Group is the model's reading too (assumption 31). -/
def Obligations.ClosingRequestsApplyTheEditFirst : Prop :=
  (∀ (seq : Byte) (tag : Half) (s : State) (k : BufferNo) (b : EditBuffer), s.Listening →
    s.store.op.isLoading = false → tag ≠ 0 → s.edit.groupMode = false → s.edit.bufferFor tag = some k →
    s.edit.buffers[k] = some b →
    (exec (.commit seq tag) s = .next { s.serving
      { code := 0x11, seq := seq, request := .commit tag, phase := .closing [], edit := .untouched } with
      arbiter := s.arbiter.asked (.edit k) }) ∧
    (∀ (item : Byte) (a : Word) (f : RecordField), RecordField.ofId item = some f → f.inRange a = true →
      b.wrote f = true →
      exec (.writeField seq tag item a) s = .next { s.serving
        { code := 0x10, seq := seq, request := .writeField tag f a, phase := .closing [], edit := .untouched } with
        arbiter := s.arbiter.asked (.edit k) }) ∧
    (∀ (index : Byte) (a : Word) (c : Instr) (code : Byte) (request : PortRequest),
      (c, code, request) ∈
        [(.lookupRecord seq tag index, 0x02, .lookupRecord (.byTag tag)),
          (.form seq tag index, 0x20, .table (.form (.byTag tag))),
          (.release seq tag index, 0x21, .table (.release (.byTag tag))),
          (.retire seq tag index, 0x22, .table (.retire (.byTag tag))),
          (.offsetTest seq tag index a, 0x40, .table (.offsetTest (.byTag tag) a)),
          (.checkTest seq tag index, 0x41, .table (.checkTest (.byTag tag)))] →
      exec c s = .next { s.serving
        { code := code, seq := seq, request := request, phase := .closing [], edit := .untouched } with
        arbiter := s.arbiter.asked (.edit k) })) ∧
  (∀ (c : Instr) (code seq : Byte) (request : PortRequest) (s : State) (k : BufferNo) (rest : List BufferNo),
    s.Listening → s.store.op.isLoading = false → s.edit.groupMode = false →
    c.requestHead = some (code, seq) → c.asksFor = some request →
    let closing : Prop := exec c s = .next { s.serving
      { code := code, seq := seq, request := request, phase := .closing rest, edit := .untouched } with
      arbiter := s.arbiter.asked (.edit k) }
    let ascending : Prop := (k :: rest).Pairwise (· < ·)
    (∀ (index : Byte) (i : SlotNo) (r : Record),
      (∃ a : Word, c ∈ [.lookupRecord seq 0 index, .form seq 0 index, .release seq 0 index, .retire seq 0 index,
        .offsetTest seq 0 index a, .checkTest seq 0 index]) →
      index.toNat = i.val → s.slots[i] = some r → s.edit.bufferFor r.cfg.tag = some k → rest = [] → closing) ∧
    (∀ (tag : Half) (index : Byte),
      (∃ a : Word, c ∈ [.lookupRecord seq tag index, .form seq tag index, .release seq tag index,
        .retire seq tag index, .offsetTest seq tag index a, .checkTest seq tag index]) →
      tag ≠ 0 → s.edit.bufferFor tag = some k → rest = [] → closing) ∧
    (∀ (tag : Half) (a : Word), c = .queryGroup seq tag a ∨ c = .releaseGroup seq tag a → ascending →
      (∀ j : BufferNo, j ∈ k :: rest ↔ ∃ b, s.edit.buffers[j] = some b ∧
        ∀ n < 16, a.getLsbD n = true → b.tag.getLsbD n = tag.getLsbD n) → closing)) ∧
  (∀ (s : State) (tag mask : Half),
    (s.edit.groupMode = true →
      s.closedByGroup tag mask = [] ∧ ∀ name, s.closedBy name = .ok []) ∧
    (s.edit.groupMode = false →
      ((∀ (j : BufferNo) (b : EditBuffer), s.edit.buffers[j] = some b →
        ∃ n < 16, mask.getLsbD n = true ∧ b.tag.getLsbD n ≠ tag.getLsbD n) → s.closedByGroup tag mask = []) ∧
      (s.edit.bufferFor tag = none → s.closedBy (.byTag tag) = .ok []) ∧
      ∀ index : Byte,
        (16 ≤ index.toNat → s.closedBy (.bySlot index) = .error .range) ∧
        ∀ i : SlotNo, index.toNat = i.val →
          (s.slots[i] = none → s.closedBy (.bySlot index) = .error .unknown) ∧
          ∀ r, s.slots[i] = some r → s.edit.bufferFor r.cfg.tag = none → s.closedBy (.bySlot index) = .ok [])) ∧
  (∀ (c : Instr) (code seq : Byte) (r : TableRequest) (s : State), s.Listening → s.store.op.isLoading = false →
    c.requestHead = some (code, seq) →
    let waits : Prop := exec c s = .next { s.serving
      { code := code, seq := seq, request := .table r, phase := .judging, edit := .untouched } with
      arbiter := s.arbiter.deferring .request }
    (∀ tag index, c.asksFor = some (.table r) →
      (∃ a : Word, c ∈ [.form seq tag index, .release seq tag index, .retire seq tag index,
        .offsetTest seq tag index a, .checkTest seq tag index]) →
      s.closedBy (RecordName.ofFrame tag index) = .ok [] → s.arbiter.inService.isSome = true → waits) ∧
    (∀ tag a, c = .releaseGroup seq tag a → r = .releaseGroup tag (a.setWidth 16) →
      s.closedByGroup tag (a.setWidth 16) = [] → s.arbiter.inService.isSome = true → waits) ∧
    (∀ a b d, c = .setEngine seq a b d → r = .setEngine a b d → s.arbiter.inService.isSome = true → waits) ∧
    (∀ index item a, c = .writeChannel seq index item a → r = .writeChannel index item a →
      s.channelsHeld = true → waits))

/-- The first check of R94 that fails gives the reason of a rejection. -/
def Obligations.EditRejectionInOrder : Prop :=
  ∀ (b : EditBuffer) (slots : Slots),
    let misses := b.target = .new ∧ (b.written[(1 : Fin 15)] = none ∨ b.written[(2 : Fin 15)] = none)
    let clashes := b.result.follower = b.result.leader ∨ b.result.breakWindow.toNat < b.result.slipWindow.toNat
    let held := ∃ (i : SlotNo) (r : Record), slots[i] = some r ∧ r.cfg.tag = b.result.tag ∧
      ∀ base, b.target ≠ .existing i base
    let noSlot := b.target = .new ∧ ∀ i : SlotNo, slots[i].isSome
    let moved := ∃ (i : SlotNo) (base : RecordConfig) (r : Record), b.target = .existing i base ∧
      slots[i] = some r ∧ r.state.isActive ∧ (b.result.leader ≠ r.cfg.leader ∨ b.result.follower ≠ r.cfg.follower)
    (misses → b.rejection slots = some .incomplete) ∧
    (¬ misses → clashes → b.rejection slots = some .inconsistent) ∧
    (¬ misses → ¬ clashes → held → b.rejection slots = some .duplicate) ∧
    (¬ misses → ¬ clashes → ¬ held → noSlot → b.rejection slots = some .full) ∧
    (¬ misses → ¬ clashes → ¬ held → ¬ noSlot → moved → b.rejection slots = some .state) ∧
    (¬ misses → ¬ clashes → ¬ held → ¬ noSlot → ¬ moved → b.rejection slots = none)

/-- A rejected edit frees its buffer, sets EDIT_REJECT and the last-reject record, and leaves every record; the Commit
that closed it is answered the reason. Whatever request closed it goes on in the step that ends the access (assumption
5), with the first rejection among its edits as its edit outcome. -/
def Obligations.RejectedEditLeavesTheTable : Prop :=
  (∀ (s : State) (k : BufferNo) (b : EditBuffer) (v : Service) (tag : Half) (reason : EditReason),
    s.arbiter = { inService := some (.edit k), waiting := [], deferred := [] } → s.edit.buffers[k] = some b →
    (∀ i base, b.target = .existing i base → s.slots[i].isSome) → b.rejection s.slots = some reason →
    s.port.service = some v → v.request = .commit tag → v.phase = .closing [] → v.edit = .untouched →
    ∃ f, s.faults.Reported { f with lastReject := s.faults.lastReject } .editReject ∧
      f.lastReject = some { reason := reason, tag := b.tag } ∧
      exec .editApplication s = .next { s with
        edit := { s.edit with buffers := s.edit.buffers.set k none }
        faults := f
        arbiter := { inService := none, waiting := [], deferred := [] }
        port := { s.port with
          service := none
          reply :=
            { code := v.code, seq := v.seq, result := reason.result, edit := .rejected reason
              a := 0, b := 0, c := 0 } } }) ∧
  ∀ (s : State) (k : BufferNo) (b : EditBuffer) (v : Service) (toClose : List BufferNo) (reason : EditReason),
    s.arbiter = { inService := some (.edit k), waiting := [], deferred := [] } → s.edit.buffers[k] = some b →
    (∀ i base, b.target = .existing i base → s.slots[i].isSome) → b.rejection s.slots = some reason →
    s.port.service = some v → v.phase = .closing toClose →
    let gathered : Service := { v with edit := match v.edit with
      | .rejected first => .rejected first
      | .untouched | .applied => .rejected reason }
    ∃ (f : FaultUnit) (t : State), s.faults.Reported { f with lastReject := s.faults.lastReject } .editReject ∧
      f.lastReject = some { reason := reason, tag := b.tag } ∧ exec .editApplication s = .next t ∧
      State.GoesOn
        { s with
          edit := { s.edit with buffers := s.edit.buffers.set k none }
          faults := f
          arbiter := { inService := none, waiting := [], deferred := [] }
          port := { s.port with service := some gathered } } t gathered

/-- An edit applied to a record writes the written fields, raises the edition, recomputes the check value, clears the
mark, keeps the live fields, and marks a snapshot copy of the record changed; the Commit that closed it is answered
DONE. Whatever request closed it goes on in the step that ends the access (assumption 5), with APPLIED as its edit
outcome unless an edit before it was rejected. -/
def Obligations.AppliedEditWritesTheRecord : Prop :=
  ∀ (s : State) (k : BufferNo) (b : EditBuffer) (v : Service) (tag : Half) (i : SlotNo) (base : RecordConfig)
    (r : Record) (toClose : List BufferNo),
    s.arbiter = { inService := some (.edit k), waiting := [], deferred := [] } → s.edit.buffers[k] = some b →
    b.target = .existing i base → s.slots[i] = some r → b.rejection s.slots = none →
    s.port.service = some v → v.phase = .closing toClose →
    ∃ (cfg : RecordConfig) (snapshot : Snapshot),
      (∀ f : RecordField, cfg.field f = match b.written[f.place] with
        | some w => (r.cfg.setField f w).field f
        | none => r.cfg.field f) ∧
      (snapshot = s.port.snapshot ∨
        ∃ capture fields changed, s.port.snapshot = .record i capture fields changed ∧
          snapshot = .record i capture fields true) ∧
      (∀ capture fields changed, s.port.snapshot = .record i capture fields changed →
        snapshot = .record i capture fields true) ∧
      (let gathered : Service := { v with edit := match v.edit with
          | .rejected first => .rejected first
          | .untouched | .applied => .applied }
        ∃ t : State, exec .editApplication s = .next t ∧
          State.GoesOn
            { s with
              slots := s.slots.set i (some
                { r with cfg := cfg, edition := r.edition + 1, check := crc16 cfg.bytes, checkFailed := false })
              edit := { s.edit with buffers := s.edit.buffers.set k none }
              arbiter := { inService := none, waiting := [], deferred := [] }
              port := { s.port with service := some gathered, snapshot := snapshot } } t gathered) ∧
      (v.request = .commit tag → toClose = [] → v.edit = .untouched →
      exec .editApplication s = .next { s with
        slots := s.slots.set i (some
          { r with cfg := cfg, edition := r.edition + 1, check := crc16 cfg.bytes, checkFailed := false })
        edit := { s.edit with buffers := s.edit.buffers.set k none }
        arbiter := { inService := none, waiting := [], deferred := [] }
        port := { s.port with
          service := none
          snapshot := snapshot
          reply :=
            { code := v.code, seq := v.seq, result := .done, edit := .applied, a := 0, b := 0, c := 0 } } })

/-- A NEW edit that passes validation places an IDLE record in the lowest VACANT slot, with the written values over
the defaults of R23. Whatever request closed it goes on in the step that ends the access (assumption 5), with APPLIED
as its edit outcome unless an edit before it was rejected. -/
def Obligations.NewEditCreatesARecord : Prop :=
  ∀ (s : State) (k : BufferNo) (b : EditBuffer) (v : Service) (tag : Half) (i : SlotNo) (toClose : List BufferNo),
    s.arbiter = { inService := some (.edit k), waiting := [], deferred := [] } → s.edit.buffers[k] = some b →
    b.target = .new → b.rejection s.slots = none → s.slots[i] = none → (∀ j : SlotNo, j < i → s.slots[j].isSome) →
    s.port.service = some v → v.phase = .closing toClose →
    ∃ cfg : RecordConfig,
      (∀ f : RecordField, cfg.field f = match b.written[f.place] with
        | some w => ((RecordConfig.defaults b.tag).setField f w).field f
        | none => (RecordConfig.defaults b.tag).field f) ∧
      (∀ d : RecordConfig, d = RecordConfig.defaults b.tag →
        d.tag = b.tag ∧ d.ratio = 0 ∧ d.stiffness = 320 ∧ d.damping = 16 ∧ d.filterShift = 2 ∧ d.limit = 500 ∧
        d.share = 0 ∧ d.slipWindow = 5000 ∧ d.breakWindow = 50000 ∧ d.slipCount = 8 ∧ d.band = 20 ∧
        d.timeout = 10000 ∧ d.ramp = 200) ∧
      (let gathered : Service := { v with edit := match v.edit with
          | .rejected first => .rejected first
          | .untouched | .applied => .applied }
        ∃ t : State, exec .editApplication s = .next t ∧
          State.GoesOn
            { s with
              slots := s.slots.set i (some
                { cfg := cfg, state := .idle, error := 0, rate := 0, run := 0, elapsed := 0, correction := 0
                  limited := false, pendingOffset := none, edition := 0, check := crc16 cfg.bytes
                  checkFailed := false })
              edit := { s.edit with buffers := s.edit.buffers.set k none }
              arbiter := { inService := none, waiting := [], deferred := [] }
              port := { s.port with service := some gathered } } t gathered) ∧
      (v.request = .commit tag → toClose = [] → v.edit = .untouched →
      exec .editApplication s = .next { s with
        slots := s.slots.set i (some
          { cfg := cfg, state := .idle, error := 0, rate := 0, run := 0, elapsed := 0, correction := 0
            limited := false, pendingOffset := none, edition := 0, check := crc16 cfg.bytes, checkFailed := false })
        edit := { s.edit with buffers := s.edit.buffers.set k none }
        arbiter := { inService := none, waiting := [], deferred := [] }
        port := { s.port with
          service := none
          reply :=
            { code := v.code, seq := v.seq, result := .done, edit := .applied, a := 0, b := 0, c := 0 } } })

/-- Begin Group turns group mode on, or is refused with GROUP_OPEN and changes nothing. -/
def Obligations.BeginGroupTurnsGroupModeOn : Prop :=
  ∀ (seq : Byte) (s : State), s.Listening →
    (s.edit.groupMode = false →
      exec (.beginGroup seq) s =
        .next { s.replied (Reply.plain 0x12 seq .done) with edit := { s.edit with groupMode := true } }) ∧
    (s.edit.groupMode = true →
      exec (.beginGroup seq) s = .next (s.replied (Reply.plain 0x12 seq .groupOpen)))

/-- Abort Group frees every open buffer and ends group mode with the count freed, or is refused with NO_GROUP. -/
def Obligations.AbortGroupFreesBuffers : Prop :=
  ∀ (seq : Byte) (s : State), s.Listening →
    (s.edit.groupMode = true →
      exec (.abortGroup seq) s = .next
        { s.replied
            { Reply.plain 0x14 seq .done with a := BitVec.ofNat 32 (s.edit.buffers.toList.countP Option.isSome) } with
          edit := { buffers := Vector.replicate 4 none, groupMode := false } }) ∧
    (s.edit.groupMode = false →
      exec (.abortGroup seq) s = .next (s.replied (Reply.plain 0x14 seq .noGroup)))

/-- Commit Group requests one access, which waits while another is in service, or is refused with NO_GROUP, or with no
open buffer ends group mode at once; the access applies every open edit in buffer order, marks a snapshot copy of an
edited record changed, and answers their count, or applies none and answers the first failing buffer's reason and tag.
-/
def Obligations.CommitGroupAppliesAllOrNothing : Prop :=
  (∀ (seq : Byte) (s : State), s.Listening → s.store.op.isLoading = false →
    (s.edit.groupMode = false →
      exec (.commitGroup seq) s = .next (s.replied (Reply.plain 0x13 seq .noGroup))) ∧
    (s.edit.groupMode = true → (∀ k : BufferNo, s.edit.buffers[k] = none) →
      exec (.commitGroup seq) s = .next
        { s.replied (Reply.plain 0x13 seq .done) with
          edit := { buffers := Vector.replicate 4 none, groupMode := false } }) ∧
    (∀ k : BufferNo, s.edit.groupMode = true → s.edit.buffers[k].isSome →
      exec (.commitGroup seq) s = .next { s.serving
        { code := 0x13, seq := seq, request := .commitGroup, phase := .access, edit := .untouched } with
        arbiter := s.arbiter.asked .group })) ∧
  (∀ (s : State) (v : Service), s.arbiter = { inService := some .group, waiting := [], deferred := [] } →
    s.port.service = some v → v.request = .commitGroup → v.edit = .untouched →
    (∀ (k : BufferNo) (b : EditBuffer) (i : SlotNo) (base : RecordConfig), s.edit.buffers[k] = some b →
      b.target = .existing i base → s.slots[i].isSome) →
    (∀ slots, judgeGroup s.edit.openBuffers s.slots = .ok slots → ∃ snapshot : Snapshot,
      let copies (capture : Word) (fields : List (Option Int)) (changed : Bool) : Prop :=
        ∃ (k : BufferNo) (b : EditBuffer) (i : SlotNo) (base : RecordConfig), s.edit.buffers[k] = some b ∧
          b.target = .existing i base ∧ s.port.snapshot = .record i capture fields changed
      (∀ (k : BufferNo) (b : EditBuffer) (i : SlotNo) (base : RecordConfig) (capture : Word)
        (fields : List (Option Int)) (changed : Bool), s.edit.buffers[k] = some b → b.target = .existing i base →
        s.port.snapshot = .record i capture fields changed → snapshot = .record i capture fields true) ∧
      ((∀ capture fields changed, ¬ copies capture fields changed) → snapshot = s.port.snapshot) ∧
      exec .groupApplication s = .next { s with
        slots := slots
        edit := { buffers := Vector.replicate 4 none, groupMode := false }
        arbiter := { inService := none, waiting := [], deferred := [] }
        port := { s.port with
          service := none
          snapshot := snapshot
          reply :=
            { code := v.code, seq := v.seq, result := .done, edit := .applied
              a := BitVec.ofNat 32 (s.edit.buffers.toList.countP Option.isSome), b := 0, c := 0 } } }) ∧
    (∀ reason tag, judgeGroup s.edit.openBuffers s.slots = .error (reason, tag) → ∃ f,
      s.faults.Reported { f with lastReject := s.faults.lastReject } .editReject ∧
      f.lastReject = some { reason := reason, tag := tag } ∧
      exec .groupApplication s = .next { s with
        edit := { buffers := Vector.replicate 4 none, groupMode := false }
        faults := f
        arbiter := { inService := none, waiting := [], deferred := [] }
        port := { s.port with
          service := none
          reply :=
            { code := v.code, seq := v.seq, result := reason.result, edit := .rejected reason
              a := tag.setWidth 32, b := 0, c := 0 } } }) ∧
    (∀ (k : BufferNo) (b : EditBuffer) (rest : List (BufferNo × EditBuffer)) (slots : Slots),
      (∀ reason, b.rejection slots = some reason → judgeGroup ((k, b) :: rest) slots = .error (reason, b.tag)) ∧
      (b.rejection slots = none → judgeGroup ((k, b) :: rest) slots = judgeGroup rest (b.applied slots)) ∧
      judgeGroup [] slots = .ok slots))

/-! ### The life cycle, channels, engine, tests -/

/-- Every step keeps the active couplings a forest. -/
def Obligations.ActiveCouplingsFormAForest : Prop :=
  ∀ s t : State, s.Forest → step s = .next t → t.Forest

/-- A Form that passes every check puts the record into FORMING with e, run count and elapsed captures 0, creates its
WAITING FORM entry, couples its channels, keeps r, τ and the limited indication, and answers PENDING. -/
def Obligations.FormPutsRecordIntoForming : Prop :=
  ∀ (seq : Byte) (tag : Half) (index : Byte) (s : State) (i : SlotNo) (r : Record), s.Finds tag index i r →
    s.store.op.isLoading = false → s.CoupledAgree →
    (s.edit.groupMode = true → s.edit.bufferFor r.cfg.tag = none) → s.completions[i] = none → r.state = .idle →
    r.checkFailed = false → s.engine.stopTaken = false → s.channels[r.cfg.leaderNo].state.isUp = true →
    s.channels[r.cfg.followerNo].state.isUp = true → (∀ l, ¬ s.Follows r.cfg.followerNo l) →
    r.cfg.leaderNo ≠ r.cfg.followerNo → ¬ Relation.TransGen s.Follows r.cfg.leaderNo r.cfg.followerNo →
    s.entryCount < 8 →
    exec (.form seq tag index) s = .next { s.replied (Reply.plain 0x20 seq .pending) with
      slots := s.slots.set i (some { r with state := .forming, error := 0, run := 0, elapsed := 0 })
      completions := s.completions.set i (some .waitingForm)
      channels := Vector.ofFn fun c =>
        { s.channels[c] with
          coupled := s.channels[c].coupled || decide (c = r.cfg.leaderNo ∨ c = r.cfg.followerNo) } }

/-- The first check of a Form that fails gives its answer and changes nothing, but that a READY FORM entry is answered
with its outcome and removed. -/
def Obligations.FormAnswersInOrder : Prop :=
  ∀ (seq : Byte) (tag : Half) (index : Byte) (s : State), s.store.op.isLoading = false →
    (∀ refusal, s.Listening → s.TableFree →
      s.closedBy (RecordName.ofFrame tag index) = .error refusal ∨
        (s.closedBy (RecordName.ofFrame tag index) = .ok [] ∧
          s.resolve (RecordName.ofFrame tag index) = .error refusal) →
      exec (.form seq tag index) s = .next (s.replied (Reply.plain 0x20 seq refusal))) ∧
    ∀ (i : SlotNo) (r : Record), s.Finds tag index i r →
      let answer (result : ResultCode) : Prop :=
        exec (.form seq tag index) s = .next (s.replied (Reply.plain 0x20 seq result))
      let editOpen : Prop := s.edit.groupMode = true ∧ (s.edit.bufferFor r.cfg.tag).isSome = true
      let up : Prop := s.channels[r.cfg.leaderNo].state.isUp = true ∧ s.channels[r.cfg.followerNo].state.isUp = true
      let clash : Prop := (∃ l, s.Follows r.cfg.followerNo l) ∨ r.cfg.leaderNo = r.cfg.followerNo ∨
        Relation.TransGen s.Follows r.cfg.leaderNo r.cfg.followerNo
      (editOpen → answer .editOpen) ∧
      (¬ editOpen → s.completions[i] = some .waitingForm → answer .pending) ∧
      (∀ o k, ¬ editOpen → s.completions[i] = some (.readyForm o k) →
        exec (.form seq tag index) s = .next { s.replied
            { Reply.plain 0x20 seq .done with
              a := match o with
                | .formed => 1
                | .formTimeout => 2
                | .cancelled => 3
                | .broken _ => 4
              b := k.capture
              c := match o with
                | .broken .slipLimit => 0
                | .broken .channelLost => 1
                | .broken .stop => 2
                | .broken .check => 3
                | .formed | .formTimeout | .cancelled => 0 } with
          completions := s.completions.set i none }) ∧
      (∀ o k, ¬ editOpen → s.completions[i] = some (.readyRelease o k) → answer .uncollected) ∧
      (¬ editOpen → s.completions[i] = none ∨ s.completions[i] = some .waitingRelease →
        (r.state ≠ .idle → answer .state) ∧
        (r.state = .idle → r.checkFailed = true → answer .check) ∧
        (r.state = .idle → r.checkFailed = false → s.engine.stopTaken = true → answer .stopped) ∧
        (r.state = .idle → r.checkFailed = false → s.engine.stopTaken = false → ¬ up → answer .channel) ∧
        (r.state = .idle → r.checkFailed = false → s.engine.stopTaken = false → up → s.Forest → clash →
          answer .conflict) ∧
        (r.state = .idle → r.checkFailed = false → s.engine.stopTaken = false → up → s.Forest → ¬ clash →
          8 ≤ s.entryCount → answer .queueFull))

/-- A Release acts by the state of the record it finds; a READY RELEASE entry is answered with its outcome and removed,
and in group mode an open buffer for the record refuses it. A name that finds none is refused. -/
def Obligations.ReleaseActsByState : Prop :=
  (∀ (seq : Byte) (tag : Half) (index : Byte) (s : State) (refusal : ResultCode), s.FindsNone tag index refusal →
    s.store.op.isLoading = false →
    exec (.release seq tag index) s = .next (s.replied (Reply.plain 0x21 seq refusal))) ∧
  ∀ (seq : Byte) (tag : Half) (index : Byte) (s : State) (i : SlotNo) (r : Record), s.Finds tag index i r →
    s.store.op.isLoading = false →
    let editOpen : Prop := s.edit.groupMode = true ∧ (s.edit.bufferFor r.cfg.tag).isSome = true
    let taken : Prop := ¬ editOpen ∧ ∀ o k, s.completions[i] ≠ some (.readyRelease o k)
    let ramped : State := { s with
      slots := s.slots.set i (some
        { r with state := .releasing { start := r.correction, step := 0 }, run := 0, pendingOffset := none }) }
    (editOpen → exec (.release seq tag index) s = .next (s.replied (Reply.plain 0x21 seq .editOpen))) ∧
    (∀ o k, ¬ editOpen → s.completions[i] = some (.readyRelease o k) →
      exec (.release seq tag index) s = .next { s.replied
          { Reply.plain 0x21 seq .done with
            a := match o with
              | .released => 5
              | .releaseCut => 6
            b := k.capture } with
        completions := s.completions.set i none }) ∧
    (taken → r.state = .idle →
      exec (.release seq tag index) s = .next (s.replied (Reply.plain 0x21 seq .done))) ∧
    (∀ ramp, taken → r.state = .releasing ramp →
      exec (.release seq tag index) s = .next (s.replied (Reply.plain 0x21 seq .pending))) ∧
    (∀ reason, taken → r.state = .broken reason →
      exec (.release seq tag index) s = .next { s.replied (Reply.plain 0x21 seq .done) with
        slots := s.slots.set i (some
          { r with state := .idle, error := 0, rate := 0, run := 0, pendingOffset := none }) }) ∧
    (taken → r.state = .held ∨ r.state = .slipping →
      (s.entryCount < 8 → s.completions[i] = none →
        exec (.release seq tag index) s = .next { ramped.replied (Reply.plain 0x21 seq .pending) with
          completions := s.completions.set i (some .waitingRelease) }) ∧
      (8 ≤ s.entryCount ∨ s.completions[i] ≠ none →
        exec (.release seq tag index) s = .next (ramped.replied (Reply.plain 0x21 seq .accepted)))) ∧
    (taken → r.state = .forming → ∃ t : State, t.CoupledAgree ∧
      (∀ c : ChannelNo, t.channels[c] = { s.channels[c] with coupled := t.channels[c].coupled }) ∧
      exec (.release seq tag index) s = .next { s.replied (Reply.plain 0x21 seq .done) with
        channels := t.channels
        slots := t.slots
        completions := t.completions } ∧
      t.slots = s.slots.set i (some { r with state := .idle, run := 0, pendingOffset := none }) ∧
      (s.completions[i] = some .waitingForm → ∃ k : Collect, k.capture = s.engine.lastComputed.getD 0 ∧
        (s.engine.collectWindow = 0 → k.deadline = none) ∧
        (s.engine.collectWindow ≠ 0 →
          k.deadline = some (s.engine.lastComputed.getD 0 + s.engine.collectWindow.setWidth 32)) ∧
        t.completions = s.completions.set i (some (.readyForm .cancelled k))) ∧
      (s.completions[i] ≠ some .waitingForm → t.completions = s.completions))

/-- Release Group releases each matching record as a Release of its state would, creating and collecting no entry, and
answers the count of those it moved; in group mode an open buffer for a matching record refuses it whole. That the
upper half of value A is disregarded is the model's reading (assumption 31). -/
def Obligations.ReleaseGroupReleasesEveryMember : Prop :=
  ∀ (seq : Byte) (tag : Half) (a : Word) (s : State), s.Listening → s.TableFree → s.store.op.isLoading = false →
    s.closedByGroup tag (a.setWidth 16) = [] → s.CoupledAgree →
    let member (i : SlotNo) : Prop := s.inGroup tag (a.setWidth 16) i = true
    let held : Prop := ∃ i r, member i ∧ s.slots[i] = some r ∧ s.edit.groupMode = true ∧
      (s.edit.bufferFor r.cfg.tag).isSome = true
    (held → exec (.releaseGroup seq tag a) s = .next (s.replied (Reply.plain 0x23 seq .editOpen))) ∧
    (¬ held → ∃ t : State, t.CoupledAgree ∧
      (∀ c : ChannelNo, t.channels[c] = { s.channels[c] with coupled := t.channels[c].coupled }) ∧
      exec (.releaseGroup seq tag a) s = .next { s.replied
          { Reply.plain 0x23 seq .accepted with
            c := BitVec.ofNat 16 ((s.groupMatch tag (a.setWidth 16)).countP fun i => match s.slots[i] with
              | some r => r.state.releasable
              | none => false) } with
        channels := t.channels
        slots := t.slots
        completions := t.completions } ∧
      ∀ i : SlotNo,
        (¬ member i → t.slots[i] = s.slots[i] ∧ t.completions[i] = s.completions[i]) ∧
        ∀ r, member i → s.slots[i] = some r →
          (∀ ramp, r.state = .idle ∨ r.state = .releasing ramp →
            t.slots[i] = some r ∧ t.completions[i] = s.completions[i]) ∧
          (r.state = .held ∨ r.state = .slipping →
            t.slots[i] = some
              { r with state := .releasing { start := r.correction, step := 0 }, run := 0, pendingOffset := none } ∧
            t.completions[i] = s.completions[i]) ∧
          (∀ reason, r.state = .broken reason →
            t.slots[i] = some { r with state := .idle, error := 0, rate := 0, run := 0, pendingOffset := none } ∧
            t.completions[i] = s.completions[i]) ∧
          (r.state = .forming →
            t.slots[i] = some { r with state := .idle, run := 0, pendingOffset := none } ∧
            (s.completions[i] ≠ some .waitingForm → t.completions[i] = s.completions[i]) ∧
            (s.completions[i] = some .waitingForm → ∃ k : Collect, s.Carries (s.engine.lastComputed.getD 0) k ∧
              t.completions[i] = some (.readyForm .cancelled k))))

/-- Retire makes the slot of an IDLE or BROKEN record without an entry VACANT; the first check that fails refuses it,
as does a name that finds no record. -/
def Obligations.RetireVacatesSlot : Prop :=
  (∀ (seq : Byte) (tag : Half) (index : Byte) (s : State) (refusal : ResultCode), s.FindsNone tag index refusal →
    s.store.op.isLoading = false →
    exec (.retire seq tag index) s = .next (s.replied (Reply.plain 0x22 seq refusal))) ∧
  ∀ (seq : Byte) (tag : Half) (index : Byte) (s : State) (i : SlotNo) (r : Record), s.Finds tag index i r →
    s.store.op.isLoading = false →
    let answer (result : ResultCode) : Prop :=
      exec (.retire seq tag index) s = .next (s.replied (Reply.plain 0x22 seq result))
    let editOpen : Prop := s.edit.groupMode = true ∧ (s.edit.bufferFor r.cfg.tag).isSome = true
    let still : Prop := r.state = .idle ∨ ∃ reason, r.state = .broken reason
    (editOpen → answer .editOpen) ∧
    (¬ editOpen → ¬ still → answer .state) ∧
    (¬ editOpen → still → s.completions[i] ≠ none → answer .uncollected) ∧
    (¬ editOpen → still → s.completions[i] = none → ∃ snapshot : Snapshot,
      (snapshot = s.port.snapshot ∨ ∃ capture fields changed, s.port.snapshot = .record i capture fields changed ∧
        snapshot = .record i capture fields true) ∧
      (∀ capture fields changed, s.port.snapshot = .record i capture fields changed →
        snapshot = .record i capture fields true) ∧
      exec (.retire seq tag index) s = .next { s with
        slots := s.slots.set i none
        checker := { s.checker with
          pendingTest := if s.checker.pendingTest = some i then none else s.checker.pendingTest }
        port := { s.port with
          chipSelect := .high, service := none, snapshot := snapshot, reply := Reply.plain 0x22 seq .done } })

/-- Set Engine writes the three settings together, restarting the capture timer for a new period, or is refused and
changes none. -/
def Obligations.SetEngineWritesSettings : Prop :=
  ∀ (seq : Byte) (a b c : Word) (s : State), s.Listening → s.TableFree →
    let valid : Prop := (a = 250 ∨ a = 500 ∨ a = 1000 ∨ a = 2000) ∧
      (b = 0 ∨ (64 ≤ b.toNat ∧ b.toNat ≤ 65535)) ∧ 1 ≤ c.toNat ∧ c.toNat ≤ 15
    let active : Prop := ∃ (i : SlotNo) (r : Record), s.slots[i] = some r ∧ r.state.isActive = true
    (¬ valid → exec (.setEngine seq a b c) s = .next (s.replied (Reply.plain 0x31 seq .range))) ∧
    (valid → a.toNat ≠ s.engine.period.micros → active →
      exec (.setEngine seq a b c) s = .next (s.replied (Reply.plain 0x31 seq .state))) ∧
    (∀ p : CapturePeriod, valid → a.toNat = p.micros → (p = s.engine.period ∨ ¬ active) →
      exec (.setEngine seq a b c) s = .next { s.replied (Reply.plain 0x31 seq .done) with
        engine := { s.engine with period := p, collectWindow := b.setWidth 16, missLimit := c.toNat }
        captureTimer := if p = s.engine.period then s.captureTimer else .running p })

/-- Offset Test sets the pending offset of a HELD record; Check Test makes the slot of an IDLE record the pending check
test; each is refused by the first check that fails, and by a name that finds no record. -/
def Obligations.CommissioningTestsSetTheirPendingValue : Prop :=
  (∀ (seq : Byte) (tag : Half) (index : Byte) (a : Word) (s : State) (refusal : ResultCode),
    s.FindsNone tag index refusal →
    (s.store.op.isLoading = false →
      exec (.offsetTest seq tag index a) s = .next (s.replied (Reply.plain 0x40 seq refusal))) ∧
    exec (.checkTest seq tag index) s = .next (s.replied (Reply.plain 0x41 seq refusal))) ∧
  ∀ (seq : Byte) (tag : Half) (index : Byte) (a : Word) (s : State) (i : SlotNo) (r : Record),
    s.Finds tag index i r →
    (s.store.op.isLoading = false →
      let inRange : Prop := -500000 ≤ a.toInt ∧ a.toInt ≤ 500000
      (¬ inRange → exec (.offsetTest seq tag index a) s = .next (s.replied (Reply.plain 0x40 seq .range))) ∧
      (inRange → r.state ≠ .held →
        exec (.offsetTest seq tag index a) s = .next (s.replied (Reply.plain 0x40 seq .state))) ∧
      (inRange → r.state = .held →
        exec (.offsetTest seq tag index a) s = .next { s.replied (Reply.plain 0x40 seq .done) with
          slots := s.slots.set i (some { r with pendingOffset := some a.toInt }) })) ∧
    (r.state ≠ .idle →
      exec (.checkTest seq tag index) s = .next (s.replied (Reply.plain 0x41 seq .state))) ∧
    (r.state = .idle →
      exec (.checkTest seq tag index) s = .next { s.replied (Reply.plain 0x41 seq .done) with
        checker := { s.checker with pendingTest := some i } })

/-- A Write Channel is refused by the first check of R4 that fails and changes no field; an accepted one stores the
value, recomputes the check value and, for field 2 or 3, q, moves the state as R7 gives, and marks a copy of the channel
changed. The fields have the ids and ranges of R1, and q is that of R3 where the counts are not 0, which no write
makes them (assumption 12). -/
def Obligations.WriteChannelIsJudgedAndStored : Prop :=
  (∀ (seq index item : Byte) (a : Word) (s : State), s.Listening → s.channelsHeld = false →
    s.store.op.isLoading = false →
    let answer (result : ResultCode) : Prop :=
      exec (.writeChannel seq index item a) s = .next (s.replied (Reply.plain 0x30 seq result))
    (7 < index.toNat ∨ item.toNat = 0 ∨ 7 < item.toNat → answer .range) ∧
    ∀ (c : ChannelNo) (f : ChannelField), index.toNat = c.val → ChannelField.ofId item = some f →
      let moving : Prop := (f = .counts ∨ f = .circumference) ∧ s.channels[c].state ≠ .off ∧
        s.channels[c].standstill = false
      (s.channels[c].coupled = true → answer .state) ∧
      (s.channels[c].coupled = false → moving → answer .moving) ∧
      (s.channels[c].coupled = false → ¬ moving → f.inRange a = false → answer .range)) ∧
  (∀ (seq index item : Byte) (a : Word) (s : State) (c : ChannelNo) (f : ChannelField), s.Listening →
    s.channelsHeld = false → s.store.op.isLoading = false → index.toNat = c.val →
    ChannelField.ofId item = some f → s.channels[c].coupled = false →
    ((f = .counts ∨ f = .circumference) → s.channels[c].state = .off ∨ s.channels[c].standstill = true) →
    f.inRange a = true → ∃ snapshot : Snapshot,
      (∀ fields changed, s.port.snapshot = .channel c fields changed → snapshot = .channel c fields true) ∧
      ((∀ fields changed, s.port.snapshot ≠ .channel c fields changed) → snapshot = s.port.snapshot) ∧
      exec (.writeChannel seq index item a) s = .next { s with
        channels := s.channels.set c (s.channels[c].written f a)
        port := { s.port with
          chipSelect := .high, service := none, snapshot := snapshot, reply := Reply.plain 0x30 seq .done } }) ∧
  ((List.range 9).map fun id => ChannelField.ofId (BitVec.ofNat 8 id)) =
    [none, some .enabled, some .counts, some .circumference, some .direction, some .ceiling, some .standstill,
      some .overspeed, none] ∧
  (∀ item : Byte, 8 ≤ item.toNat → ChannelField.ofId item = none) ∧
  (∀ (a : Word) (f : ChannelField) (least most : Nat),
    (f, least, most) ∈ [(.enabled, 0, 1), (.counts, 1024, 65536), (.circumference, 1000000, 8000000),
      (.direction, 0, 1), (.ceiling, 0, 32767), (.standstill, 0, 1000), (.overspeed, 1000, 70000)] →
    (f.inRange a = true ↔ least ≤ a.toNat ∧ a.toNat ≤ most)) ∧
  (∀ cfg : ChannelConfig, cfg.counts ≠ 0 →
    cfg.travelPerCount = roundDiv (cfg.circumference.toNat * 65536) cfg.counts.toNat) ∧
  ∀ (ch : Channel) (f : ChannelField) (a : Word),
    let kept : Channel := { ch with
      cfg := ch.cfg.setField f a
      check := crc16 (ch.cfg.setField f a).bytes
      travelPerCount :=
        if f = .counts ∨ f = .circumference then (ch.cfg.setField f a).travelPerCount else ch.travelPerCount }
    let cleared : Channel := { kept with
      seedPending := true, travel := 0, speed := 0, suspectRun := 0, goodRun := 0, missRun := 0, standstillRun := 0
      standstill := false, lastDrive := none }
    (∀ g : ChannelField, g ≠ f → (ch.written f a).cfg.field g = ch.cfg.field g) ∧
    (f.inRange a = true → (ch.written f a).cfg.field f = a) ∧
    (ch.state = .off → f = .enabled → a = 1 → ch.written f a = { cleared with state := .waiting }) ∧
    (ch.state = .off → ¬ (f = .enabled ∧ a = 1) → ch.written f a = kept) ∧
    (ch.state ≠ .off → f = .enabled → a = 0 → ch.written f a = { cleared with state := .off }) ∧
    (ch.state = .lost .check → ¬ (f = .enabled ∧ a = 0) →
      ch.written f a = { kept with state := .waiting, goodRun := 0, missRun := 0 }) ∧
    (ch.state ≠ .off → ch.state ≠ .lost .check → ¬ (f = .enabled ∧ a = 0) → ch.written f a = kept)

/-! ### Faults -/

/-- Read Faults reports a group's flags, causes, masks and summary as they stand, in the places 10.8 gives them with
every other bit 0, and changes nothing; a group that does not exist is refused. -/
def Obligations.ReadFaultsReportsAGroup : Prop :=
  ∀ (seq : Byte) (s : State), s.Listening →
    (∀ index : Byte, 2 < index.toNat →
      exec (.readFaults seq index) s = .next (s.replied (Reply.plain 0x50 seq .range))) ∧
    (∃ a b : Word,
      exec (.readFaults seq 0) s = .next (s.replied { Reply.plain 0x50 seq .done with a := a, b := b }) ∧
      (∀ c : ChannelNo,
        a.getLsbD c = s.faults.isSet (.capture c) ∧ a.getLsbD (8 + c) = s.faults.isSet (.overspeed c) ∧
        a.getLsbD (16 + c) = s.faults.isSet (.lost c) ∧ a.getLsbD (24 + c) = s.faults.isSet (.driveLimit c) ∧
        b.getLsbD c = s.faults.isSet (.channelCheck c) ∧
        b.getLsbD (8 + c) = decide (s.faults.channelCheck[c] = some .test)) ∧
      (∀ k : Fin 5, b.getLsbD (16 + k) = s.faults.kindMasks.getLsbD k) ∧
      b.getLsbD 24 = s.faults.summary .channel ∧ b.getLsbD 25 = s.faults.lineMask .channel ∧
      ∀ n : Nat, (21 ≤ n ∧ n < 24) ∨ 26 ≤ n → b.getLsbD n = false) ∧
    (∃ (a b : Word) (m : Half),
      exec (.readFaults seq 1) s = .next (s.replied { Reply.plain 0x50 seq .done with a := a, b := b, c := m }) ∧
      (∀ i : SlotNo,
        a.getLsbD i = s.faults.isSet (.slip i) ∧ a.getLsbD (16 + i) = s.faults.isSet (.broke i) ∧
        b.getLsbD i = s.faults.isSet (.couplingCheck i) ∧
        b.getLsbD (16 + i) = decide (s.faults.couplingCheck[i] = some .test)) ∧
      (∀ k : Fin 3, m.getLsbD k = s.faults.kindMasks.getLsbD (5 + k)) ∧
      m.getLsbD 8 = s.faults.summary .coupling ∧ m.getLsbD 9 = s.faults.lineMask .coupling ∧
      ∀ n : Nat, (3 ≤ n ∧ n < 8) ∨ 10 ≤ n → m.getLsbD n = false) ∧
    (∃ a b : Word,
      exec (.readFaults seq 2) s = .next (s.replied { Reply.plain 0x50 seq .done with a := a, b := b }) ∧
      a.getLsbD 0 = s.faults.portFrame ∧ a.getLsbD 1 = s.faults.linkOverrun ∧ a.getLsbD 2 = s.faults.discard ∧
      a.getLsbD 3 = s.faults.editReject ∧ a.getLsbD 4 = s.faults.store ∧ a.getLsbD 5 = s.faults.stop ∧
      (∀ k : Fin 6, a.getLsbD (8 + k) = s.faults.kindMasks.getLsbD (8 + k)) ∧
      a.getLsbD 16 = s.faults.summary .service ∧ a.getLsbD 17 = s.faults.lineMask .service ∧
      (∀ n : Nat, n = 6 ∨ n = 7 ∨ n = 14 ∨ n = 15 ∨ 18 ≤ n → a.getLsbD n = false) ∧
      (s.faults.lastReject = none → b = 0) ∧
      ∀ l, s.faults.lastReject = some l → b = 0x01#8 ++ l.reason.result.byte ++ l.tag)

/-- Clear Faults clears each named flag whose condition does not hold and lists those that stayed set; no other flag,
no summary, no mask, not the line and not the cause of a CHECK flag that stays set changes. The conditions are those of
R140, and the groups, kinds and instances are numbered as R139 and R152 have them. -/
def Obligations.ClearFaultsClearsNamedFlags : Prop :=
  (∀ s : State,
    (∀ c : ChannelNo,
      (s.conditionHolds (.lost c) = true ↔ s.channels[c].state.isLost = true) ∧
      (s.conditionHolds (.driveLimit c) = true ↔ s.channels[c].lastDrive = some .torqueLimit) ∧
      (s.conditionHolds (.overspeed c) = true ↔ s.channels[c].cfg.overspeed.toNat < s.channels[c].speed.natAbs) ∧
      s.conditionHolds (.capture c) = false ∧ s.conditionHolds (.channelCheck c) = false) ∧
    (∀ i : SlotNo,
      (s.conditionHolds (.slip i) = true ↔ ∃ r, s.slots[i] = some r ∧ r.state = .slipping) ∧
      (s.conditionHolds (.broke i) = true ↔ ∃ r reason, s.slots[i] = some r ∧ r.state = .broken reason) ∧
      (s.conditionHolds (.couplingCheck i) = true ↔ ∃ r, s.slots[i] = some r ∧ r.checkFailed = true)) ∧
    (s.conditionHolds .stop = true ↔ s.stopLine = true) ∧
    ∀ fl ∈ [Flag.portFrame, .linkOverrun, .discard, .editReject, .store], s.conditionHolds fl = false) ∧
  (∀ b : Byte,
    (FlagGroup.ofByte b = some .channel ↔ b = 0) ∧ (FlagGroup.ofByte b = some .coupling ↔ b = 1) ∧
    (FlagGroup.ofByte b = some .service ↔ b = 2) ∧ (FlagGroup.ofByte b = none ↔ 2 < b.toNat)) ∧
  (let kinds (g : FlagGroup) : List (List Flag) := match g with
    | .channel => [Flag.capture, .overspeed, .lost, .driveLimit, .channelCheck].map (List.finRange 8).map
    | .coupling => [Flag.slip, .broke, .couplingCheck].map (List.finRange 16).map
    | .service => [[.portFrame], [.linkOverrun], [.discard], [.editReject], [.store], [.stop]]
  let first (g : FlagGroup) : Nat := match g with
    | .channel => 0
    | .coupling => 5
    | .service => 8
  ∀ (g : FlagGroup) (kind : Byte), g.instances kind = (kinds g)[kind.toNat]? ∧
    ∀ (flags : List Flag) (fl : Flag), g.instances kind = some flags → fl ∈ flags →
      fl.group = g ∧ fl.kind.val = first g + kind.toNat) ∧
  [FlagGroup.channel, .coupling, .service].map (fun g => g.index.val) = [0, 1, 2] ∧
  ∀ (seq index item : Byte) (a : Word) (s : State), s.Listening →
    (FlagGroup.ofByte index = none ∨ (∃ g, FlagGroup.ofByte index = some g ∧ g.instances item = none) ∨
        (index = 0 ∧ 256 ≤ a.toNat) ∨ (index = 1 ∧ 65536 ≤ a.toNat) →
      exec (.clearFaults seq index item a) s = .next (s.replied (Reply.plain 0x51 seq .range))) ∧
    ∀ (g : FlagGroup) (flags : List Flag), FlagGroup.ofByte index = some g → g.instances item = some flags →
      (g = .channel → a.toNat < 256) → (g = .coupling → a.toNat < 65536) →
      ∃ (f : FaultUnit) (left : Word),
        exec (.clearFaults seq index item a) s =
          .next { s.replied { Reply.plain 0x51 seq .done with a := left } with faults := f } ∧
        f.summaries = s.faults.summaries ∧ f.kindMasks = s.faults.kindMasks ∧ f.lineMasks = s.faults.lineMasks ∧
        f.line = s.faults.line ∧ f.lastReject = s.faults.lastReject ∧
        (∀ fl : Flag, fl ∉ flags → f.isSet fl = s.faults.isSet fl) ∧
        (∀ c : ChannelNo, f.isSet (.channelCheck c) = true → f.channelCheck[c] = s.faults.channelCheck[c]) ∧
        (∀ i : SlotNo, f.isSet (.couplingCheck i) = true → f.couplingCheck[i] = s.faults.couplingCheck[i]) ∧
        ∀ (n : Nat) (fl : Flag), flags[n]? = some fl →
          let named : Prop := g = .service ∨ a.getLsbD n = true
          (¬ named → f.isSet fl = s.faults.isSet fl ∧ left.getLsbD n = false) ∧
          (named → f.isSet fl = (s.faults.isSet fl && s.conditionHolds fl) ∧ left.getLsbD n = f.isSet fl)

/-- Clear Summary clears a group's summary, and with it the line where nothing else holds it, unless a flag of the
group with an unmasked kind is set. -/
def Obligations.ClearSummaryClearsOneSummary : Prop :=
  ∀ (seq index : Byte) (s : State), s.Listening →
    (2 < index.toNat → exec (.clearSummary seq index) s = .next (s.replied (Reply.plain 0x52 seq .range))) ∧
    ∀ g : FlagGroup, index.toNat = g.index.val →
      ((∃ fl : Flag, fl.group = g ∧ s.faults.isSet fl = true ∧ s.faults.masked fl = false) →
        exec (.clearSummary seq index) s = .next (s.replied (Reply.plain 0x52 seq .stillSet))) ∧
      ((∀ fl : Flag, fl.group = g → s.faults.isSet fl = true → s.faults.masked fl = true) →
        ∃ (summaries : BitVec 3) (line : Bool),
          exec (.clearSummary seq index) s = .next { s.replied (Reply.plain 0x52 seq .done) with
            faults := { s.faults with summaries := summaries, line := line } } ∧
          (∀ k : Fin 3, summaries.getLsbD k = (s.faults.summaries.getLsbD k && decide (k ≠ g.index))) ∧
          (line = true ↔ ∃ k : Fin 3, summaries.getLsbD k = true ∧ s.faults.lineMasks.getLsbD k = false))

/-- Set Masks writes every mask at once, sets the summary of each group in which it unmasks a kind with a set flag, and
judges the line afresh; a value with a bit that names nothing is refused. -/
def Obligations.SetMasksWritesEveryMask : Prop :=
  ∀ (seq : Byte) (a b : Word) (s : State), s.Listening →
    (2 ^ 14 ≤ a.toNat ∨ 2 ^ 3 ≤ b.toNat →
      exec (.setMasks seq a b) s = .next (s.replied (Reply.plain 0x53 seq .range))) ∧
    (a.toNat < 2 ^ 14 → b.toNat < 2 ^ 3 → ∃ (summaries : BitVec 3) (line : Bool),
      exec (.setMasks seq a b) s = .next { s.replied (Reply.plain 0x53 seq .done) with
        faults := { s.faults with
          kindMasks := a.setWidth 14, lineMasks := b.setWidth 3, summaries := summaries, line := line } } ∧
      (∀ g : FlagGroup, summaries.getLsbD g.index = true ↔
        s.faults.summary g = true ∨ ∃ fl : Flag, fl.group = g ∧ s.faults.isSet fl = true ∧
          s.faults.masked fl = true ∧ a.getLsbD fl.kind = false) ∧
      (line = true ↔ ∃ k : Fin 3, summaries.getLsbD k = true ∧ b.getLsbD k = false))

/-! ### The store and start-up -/

/-- The store requests are refused with RANGE, BUSY or STATE in the order of R157 and R160; an accepted one sets the
journal and begins its operation, but a Save to a profile that is not blank ends NOT_BLANK at once. A profile is valid
when its mark, CRC, count, configurations and tags pass the tests of R160. The coding of the marks and the count under
the profile CRC, and that an erase takes the valid mark at its acceptance, are the model's (assumptions 18 and 30). -/
def Obligations.StoreRequestsBeginOperations : Prop :=
  (∀ (seq index item : Byte) (s : State), s.Listening →
    (exec (.storeStatus seq) s = .next (s.replied
      { Reply.plain 0x63 seq .done with
        a := BitVec.ofNat 16 s.store.op.code ++ BitVec.ofNat 16 s.store.lastResult.code
        b := BitVec.ofNat 32 s.store.startupLoad.code })) ∧
    (4 ≤ index.toNat ∨ 2 ≤ item.toNat ∨ (item = 1 ∧ index ≠ 0) →
      exec (.saveProfile seq index item) s = .next (s.replied (Reply.plain 0x60 seq .range))) ∧
    (4 ≤ index.toNat →
      exec (.eraseProfile seq index) s = .next (s.replied (Reply.plain 0x61 seq .range)) ∧
      exec (.loadProfile seq index) s = .next (s.replied (Reply.plain 0x62 seq .range))) ∧
    ∀ p : ProfileNo, index.toNat = p.val →
      let saved : Prop := item.toNat ≤ 1 ∧ (item = 1 → p = 0)
      let barred : Prop := (∃ (i : SlotNo) (r : Record), s.slots[i] = some r ∧ r.state.isActive = true) ∨
        ∃ k : BufferNo, s.edit.buffers[k].isSome = true
      (s.store.op ≠ .idle →
        (saved → exec (.saveProfile seq index item) s = .next (s.replied (Reply.plain 0x60 seq .busy))) ∧
        exec (.eraseProfile seq index) s = .next (s.replied (Reply.plain 0x61 seq .busy)) ∧
        exec (.loadProfile seq index) s = .next (s.replied (Reply.plain 0x62 seq .busy))) ∧
      (s.store.op = .idle → saved → s.store.profiles[p] ≠ Profile.blank → ∃ f, s.faults.Reported f .store ∧
        exec (.saveProfile seq index item) s = .next { s.replied (Reply.plain 0x60 seq .accepted) with
          store := { s.store with journal := false, lastResult := .notBlank }, faults := f }) ∧
      (s.store.op = .idle → saved → s.store.profiles[p] = Profile.blank →
        exec (.saveProfile seq index item) s = .next { s.replied (Reply.plain 0x60 seq .accepted) with
          store := { s.store with op := .saving p (decide (item = 1)) none, journal := true }
          arbiter := s.arbiter.asked .saveSnapshot }) ∧
      (s.store.op = .idle →
        exec (.eraseProfile seq index) s = .next { s.replied (Reply.plain 0x61 seq .accepted) with
          store := { s.store with
            op := .erasing p, journal := true
            profiles := s.store.profiles.set p { s.store.profiles[p] with validMark := false } } }) ∧
      (s.store.op = .idle → barred →
        exec (.loadProfile seq index) s = .next (s.replied (Reply.plain 0x62 seq .state))) ∧
      (s.store.op = .idle → ¬ barred → s.store.profiles[p].isValid = true →
        exec (.loadProfile seq index) s = .next { s.replied (Reply.plain 0x62 seq .accepted) with
          store := { s.store with op := .loading p true, journal := true }
          arbiter := s.arbiter.asked .install }) ∧
      (s.store.op = .idle → ¬ barred → s.store.profiles[p].isValid = false →
        exec (.loadProfile seq index) s = .next { s.replied (Reply.plain 0x62 seq .accepted) with
          store := { s.store with op := .loading p false, journal := true } })) ∧
  (∀ p : Profile,
    let saved := p.records.toList.take p.recordCount.toNat
    p.isValid = true ↔
      p.validMark = true ∧
      p.crc = crc16
        ([if p.validMark then 0x00#8 else 0xFF#8, if p.autoLoad then 0x00#8 else 0xFF#8, p.recordCount]
          ++ p.channels.toList.flatMap ChannelConfig.bytes ++ saved.flatMap RecordConfig.bytes) ∧
      p.recordCount.toNat ≤ 16 ∧
      (∀ (c : ChannelNo) (f : ChannelField), f.inRange (p.channels[c].field f) = true) ∧
      (∀ cfg ∈ saved, (∀ f : RecordField, f.inRange (cfg.field f) = true) ∧ cfg.follower ≠ cfg.leader ∧
        cfg.slipWindow.toNat ≤ cfg.breakWindow.toNat) ∧
      (saved.map RecordConfig.tag).Nodup)

/-- A save takes its copy in its snapshot access; at its end the copy stands in the profile with result OK, or an
unverified profile with result VERIFY_FAIL; an erase ends blank and OK; an INVALID load ends INVALID. An unverified
profile has its valid mark erased and its CRC at zeros, with which its contents do not agree; no other bit is at zero
but one that the save was programming, and which of those are is free (assumption 10). The coding under the CRC is the
model's (assumption 18). -/
def Obligations.StoreOperationsEnd : Prop :=
  ∀ (s : State) (p : ProfileNo),
    (∀ (autoLoad : Bool) (old : Option Profile), s.store.op = .saving p autoLoad old →
      s.arbiter = { inService := some .saveSnapshot, waiting := [], deferred := [] } → ∃ copy : Profile,
        exec .saveSnapshot s = .next { s with
          store := { s.store with op := .saving p autoLoad (some copy) }
          arbiter := { inService := none, waiting := [], deferred := [] } } ∧
        copy.validMark = true ∧ copy.autoLoad = autoLoad ∧ copy.crc = crc16 copy.bytes ∧
        (∀ c : ChannelNo, copy.channels[c] = s.channels[c].cfg) ∧
        copy.savedRecords = (List.finRange 16).filterMap (fun i => s.slots[i].map Record.cfg) ∧
        copy.recordCount.toNat = copy.savedRecords.length ∧
        ∀ i : SlotNo, copy.savedRecords.length ≤ i.val → copy.records[i] = RecordConfig.erased) ∧
    (∀ (autoLoad : Bool) (copy : Profile), s.store.op = .saving p autoLoad (some copy) →
      exec (.saveEnd true) s = .next { s with
        store := { s.store with
          op := .idle, journal := false, lastResult := .ok, profiles := s.store.profiles.set p copy } } ∧
      ∃ (left : Profile) (f : FaultUnit), left.validMark = false ∧ left.crc = 0 ∧ crc16 left.bytes ≠ 0 ∧
        (copy.autoLoad = false → left.autoLoad = false) ∧
        (∀ n, copy.recordCount.toNat ≤ 16 → copy.recordCount.getLsbD n = true →
          left.recordCount.getLsbD n = true) ∧
        (∀ (c : ChannelNo) (field : ChannelField) (n : Nat), (copy.channels[c].field field).getLsbD n = true →
          (left.channels[c].field field).getLsbD n = true) ∧
        (∀ (i : SlotNo) (field : RecordField) (n : Nat), (copy.records[i].field field).getLsbD n = true →
          (left.records[i].field field).getLsbD n = true) ∧
        s.faults.Reported f .store ∧
        exec (.saveEnd false) s = .next { s with
          store := { s.store with
            op := .idle, journal := false, lastResult := .verifyFail, profiles := s.store.profiles.set p left }
          freeIndex := s.freeIndex + 1
          faults := f }) ∧
    (s.store.op = .erasing p →
      exec .eraseEnd s = .next { s with
        store := { s.store with
          op := .idle, journal := false, lastResult := .ok
          profiles := s.store.profiles.set p Profile.blank } }) ∧
    (s.store.op = .loading p false → ∃ f, s.faults.Reported f .store ∧
      exec .loadInvalidEnd s = .next { s with
        store := { s.store with op := .idle, journal := false, lastResult := .invalid }, faults := f })

/-- A profile install writes every channel with fresh live fields, zeroes the posts, places the saved records IDLE from
slot 0 on, empties the map and the pending check test, marks the snapshot changed, and leaves the rest. -/
def Obligations.ProfileInstallWritesTheTables : Prop :=
  ∀ (s : State) (p : ProfileNo), s.arbiter = { inService := some .install, waiting := [], deferred := [] } →
    let source : Profile := s.store.profiles[p]
    let installed : State := { s with
      channels := Vector.ofFn fun c =>
        { cfg := source.channels[c], travelPerCount := source.channels[c].travelPerCount
          state := if source.channels[c].enabled = 1 then .waiting else .off
          seedPending := true, latched := 0, travel := 0, speed := 0, suspectRun := 0, goodRun := 0, missRun := 0
          standstillRun := 0, standstill := false, lastDrive := none, coupled := false, limited := false, posted := 0
          check := crc16 source.channels[c].bytes, lastCapture := 0 }
      slots := Vector.ofFn fun i => (source.records.toList.take source.recordCount.toNat)[i.val]?.map fun cfg =>
        { cfg := cfg, state := .idle, error := 0, rate := 0, run := 0, elapsed := 0, correction := 0, limited := false
          pendingOffset := none, edition := 0, check := crc16 cfg.bytes, checkFailed := false }
      completions := Vector.replicate 16 none
      link := { s.link with slots := Vector.replicate 8 0 }
      checker := { s.checker with pendingTest := none }
      port := { s.port with
        snapshot := match s.port.snapshot with
          | .empty => .empty
          | .record i capture fields _ => .record i capture fields true
          | .channel c fields _ => .channel c fields true }
      arbiter := { inService := none, waiting := [], deferred := [] } }
    (∀ valid, s.store.op = .loading p valid →
      exec .profileInstall s = .next { installed with
        store := { s.store with op := .idle, journal := false, lastResult := .ok } }) ∧
    (s.store.op = .startupLoading → p = 0 →
      exec .profileInstall s = .next { installed with
        store := { s.store with op := .idle, journal := false }, startup := .settled })

/-- Start-up settles the last result by the journal and reads profile 0, loading it when it is valid and marked; then
READY goes to 1, the timers start, STOP is read, which asserted is taken as R80 states, and a STORE event is made where
due. That READY without start-up settled and STARTUP_LOAD without start-up begun or with RESET held have no occasion and
change nothing is the model's (assumption 2), and so are that the journal is set when the install is requested
(assumption 19) and that END_OF_RESET releases RESET and makes the port receive again (assumptions 11 and 29). -/
def Obligations.StartUpGoesToReady : Prop :=
  (∀ s : State, s.startup = .begun → s.resetHeld = false →
    let read (load : StartupLoad) : Store := { s.store with
      lastResult := if s.store.journal then .interrupted else .noResult, journal := false, startupLoad := load }
    let first : Profile := s.store.profiles[(0 : ProfileNo)]
    (first = Profile.blank ∨ first.autoLoad = false →
      exec .startupLoad s = .next { s with store := read .noLoad, startup := .settled }) ∧
    (first ≠ Profile.blank → first.autoLoad = true → first.isValid = false →
      exec .startupLoad s = .next { s with store := read .invalid, startup := .settled }) ∧
    (first ≠ Profile.blank → first.autoLoad = true → first.isValid = true →
      exec .startupLoad s = .next { s with
        store := { read .done with op := .startupLoading, journal := true }
        startup := .loading
        arbiter := s.arbiter.asked .install })) ∧
  (∀ s : State, s.startup = .settled → s.stopLine = false →
    let started : State := { s with
      startup := .ready
      captureTimer := .running s.engine.period
      checker := { s.checker with timerRunning := true } }
    let due : Prop := s.store.lastResult = .interrupted ∨ s.store.startupLoad = .invalid
    (¬ due → exec .ready s = .next started) ∧
    (due → ∃ f, s.faults.Reported f .store ∧ exec .ready s = .next { started with faults := f })) ∧
  (∀ s : State, s.startup = .settled → s.stopLine = true → ∃ t : State,
    exec .ready s = .next { s with
      startup := .ready
      captureTimer := .running s.engine.period
      checker := { s.checker with timerRunning := true }
      engine := { s.engine with stopTaken := true }
      channels := Vector.ofFn fun c => { s.channels[c] with coupled := false, posted := 0 }
      link := { s.link with slots := Vector.replicate 8 0 }
      slots := t.slots
      completions := t.completions
      faults := t.faults } ∧
    t.anyActive = false ∧ (∀ i : SlotNo, s.CutAt t i .stop .idle) ∧
    s.faults.Raised t.faults (fun fl => fl = .stop ∨
      (fl = .store ∧ (s.store.lastResult = .interrupted ∨ s.store.startupLoad = .invalid)) ∨
      ∃ (i : SlotNo) (r : Record), fl = .broke i ∧ s.slots[i] = some r ∧ r.state.Breaks .stop)) ∧
  (∀ s : State, s.startup ≠ .settled → exec .ready s = .next s) ∧
  (∀ s : State, s.startup ≠ .begun ∨ s.resetHeld = true → exec .startupLoad s = .next s) ∧
  (∀ s : State,
    exec .endOfReset s = .next { s with resetHeld := false, port := { s.port with deafFalls := 0 } })

/-! ### The board, the captures, STOP, the check scan -/

/-- A sample counts one edge up or down by the order of R8, marks an illegal transition when both phases changed, and
counts nothing while RESET is held (assumption 20). -/
def Obligations.QuadratureEdgesCount : Prop :=
  ∀ (c : ChannelNo) (a b : Bool) (s : State), ∃ e : Encoder,
    exec (.quadratureEdge c a b) s = .next { s with encoders := s.encoders.set c e } ∧
    e.phaseA = a ∧ e.phaseB = b ∧
    let old : Encoder := s.encoders[c]
    (s.resetHeld = true → e.count = old.count ∧ e.illegal = old.illegal) ∧
    (s.resetHeld = false →
      (a = old.phaseA → b = old.phaseB → e.count = old.count ∧ e.illegal = old.illegal) ∧
      (a ≠ old.phaseA → b ≠ old.phaseB → e.count = old.count ∧ e.illegal = true) ∧
      (a ≠ old.phaseA → b = old.phaseB →
        e.illegal = old.illegal ∧ e.count = if a ≠ b then old.count + 1 else old.count - 1) ∧
      (a = old.phaseA → b ≠ old.phaseB →
        e.illegal = old.illegal ∧ e.count = if a = b then old.count + 1 else old.count - 1))

/-- At an expiry of the capture timer the counters are latched, the set is applied to every channel, with its CAPTURE
and OVERSPEED flags, and the computation is requested; with the timer stopped the row has no occasion and changes
nothing (assumption 2). A channel that the set takes to LOST takes its couplings with it, whichever others it takes.
While an access is in service that reads or writes channel entries, or any access when the set loses a channel, the
set waits; it also waits behind a set that waits. By the first expiry the port receives again (assumption 11). -/
def Obligations.CaptureAppliesItsSet : Prop :=
  ∀ s : State,
    (s.captureTimer = .stopped → exec .capture s = .next s) ∧
    let taken (c : ChannelNo) : ChannelStep :=
      s.channels[c].takeCapture s.engine.period (s.captureNumber + 1) s.encoders[c].count s.encoders[c].illegal
    let latched : State := { s with
      captureNumber := s.captureNumber + 1
      encoders := Vector.ofFn fun c => { s.encoders[c] with illegal := false }
      port := { s.port with deafFalls := 0 } }
    let waits : Prop := TableEvent.captureSet
        { number := s.captureNumber + 1, counts := Vector.ofFn fun c => s.encoders[c].count
          illegal := Vector.ofFn fun c => s.encoders[c].illegal } |> fun set =>
      exec .capture s = .next { latched with arbiter := s.arbiter.deferring set }
    let behind : Prop := ∃ set, TableEvent.captureSet set ∈ s.arbiter.deferred
    ∀ p, s.captureTimer = .running p →
      (¬ behind → s.channelsHeld = false → (∀ c, (taken c).lost = false) → ∃ f : FaultUnit,
        exec .capture s = .next { latched with
          channels := Vector.ofFn fun c => (taken c).entry
          arbiter := s.arbiter.asked (.computation (s.captureNumber + 1))
          faults := f } ∧
        (∀ c, f.isSet (.capture c) = (s.faults.isSet (.capture c) || (taken c).suspect)) ∧
        (∀ c, f.isSet (.overspeed c) = (s.faults.isSet (.overspeed c) || (taken c).overspeed)) ∧
        (∀ fl : Flag, (∀ c, fl ≠ .capture c) → (∀ c, fl ≠ .overspeed c) → f.isSet fl = s.faults.isSet fl) ∧
        s.faults.Raised f fun fl => ∃ c : ChannelNo,
          (fl = .capture c ∧ (taken c).suspect = true) ∨ (fl = .overspeed c ∧ (taken c).overspeed = true)) ∧
      (¬ behind → s.arbiter.inService = none → s.CoupledAgree → ∃ t : State,
        exec .capture s = .next { latched with
          channels := t.channels, slots := t.slots, completions := t.completions, faults := t.faults
          link := { s.link with slots := t.link.slots }
          arbiter := s.arbiter.asked (.computation (s.captureNumber + 1)) } ∧
        t.CoupledAgree ∧
        (∀ c : ChannelNo,
          t.channels[c] = { (taken c).entry with
            coupled := t.channels[c].coupled
            posted := if (taken c).lost = true then 0 else s.channels[c].posted } ∧
          t.link.slots[c] = if (taken c).lost = true then 0 else s.link.slots[c]) ∧
        (∀ (i : SlotNo) (r : Record) (c : ChannelNo), s.slots[i] = some r → r.names c = true →
          (taken c).lost = true → s.CutAt t i .channelLost .idle) ∧
        (∀ i : SlotNo, (∀ r c, s.slots[i] = some r → r.names c = true → (taken c).lost = false) →
          t.slots[i] = s.slots[i] ∧ t.completions[i] = s.completions[i]) ∧
        s.faults.Raised t.faults fun fl =>
          (∃ c : ChannelNo, (fl = .capture c ∧ (taken c).suspect = true) ∨
            (fl = .overspeed c ∧ (taken c).overspeed = true) ∨ (fl = .lost c ∧ (taken c).lost = true)) ∨
          ∃ (i : SlotNo) (r : Record) (c : ChannelNo), fl = .broke i ∧ s.slots[i] = some r ∧ r.names c = true ∧
            (taken c).lost = true ∧ r.state.Breaks .channelLost) ∧
      (behind ∨ s.channelsHeld = true ∨ (s.arbiter.inService.isSome = true ∧ ∃ c, (taken c).lost = true) → waits)

/-- A capture leaves an OFF channel, seeds one whose seed is pending, and is otherwise suspect or good by R12, with
the effects of R13 to R16 and R20. The good-status run at an entry to LOST and a suspect capture of a RUNNING channel
whose run stands at 2 or 3 are the model's readings (assumptions 16 and 17). -/
def Obligations.CapturesAreSeedSuspectOrGood : Prop :=
  ∀ (p : CapturePeriod) (ch : Channel) (number raw : Word) (illegal : Bool),
    let st : ChannelStep := ch.takeCapture p number raw illegal
    let d : Int := if ch.cfg.direction = 1 then -(raw - ch.latched).toInt else (raw - ch.latched).toInt
    let suspect : Prop := 32767 < d.natAbs ∨ illegal = true
    (ch.state = .off → st = { entry := ch }) ∧
    (ch.state ≠ .off → ch.seedPending = true →
      st = { entry := { ch with latched := raw, seedPending := false, lastCapture := number } }) ∧
    (ch.state ≠ .off → ch.seedPending = false → ch.cfg.direction.toNat ≤ 1 → suspect →
      let run := if ch.suspectRun < 4 then ch.suspectRun + 1 else 4
      st.suspect = true ∧ st.overspeed = false ∧
      st.entry = { ch with
        latched := raw, lastCapture := number, suspectRun := run
        state := match ch.state with
          | .running => if run = 4 then .lost .capture else .stale
          | .stale => if run = 4 then .lost .capture else .stale
          | .waiting => if run = 4 then .lost .capture else .waiting
          | .off => .off
          | .lost reason => .lost reason
        goodRun := st.entry.goodRun } ∧
      (ch.state = .waiting ∨ ch.state.isLost = true → st.entry.goodRun = 0) ∧
      (st.entry.state = .stale → st.entry.goodRun = ch.goodRun) ∧
      (st.lost = true ↔ ch.state.isLost = false ∧ run = 4)) ∧
    (ch.state ≠ .off → ch.seedPending = false → ch.cfg.direction.toNat ≤ 1 → ¬ suspect →
      let u := d * ch.travelPerCount
      let v := clampTo 100000 (roundDiv (u * 1000) (65536 * p.micros))
      let still : Prop := v.natAbs ≤ ch.cfg.standstill.toNat
      st.suspect = false ∧ st.lost = false ∧ (st.overspeed = true ↔ ch.cfg.overspeed.toNat < v.natAbs) ∧
      st.entry = { ch with
        latched := raw, lastCapture := number, suspectRun := 0, travel := u, speed := v
        state := if ch.state = .stale then .running else ch.state
        standstillRun := st.entry.standstillRun, standstill := st.entry.standstill } ∧
      (¬ still → st.entry.standstillRun = 0 ∧ st.entry.standstill = false) ∧
      (still → ch.standstillRun < 15 →
        st.entry.standstillRun = ch.standstillRun + 1 ∧ st.entry.standstill = ch.standstill) ∧
      (still → 15 ≤ ch.standstillRun → st.entry.standstillRun = 16 ∧ st.entry.standstill = true))

/-- The engine takes the assertion of STOP as one event that breaks or cuts every active record, uncouples and zeroes
every channel and sets STOP; the deassertion changes nothing but the line. Before READY only the level is seen; while an
access is in service the engine takes either when it ends. -/
def Obligations.StopEmptiesTheActiveStates : Prop :=
  ∀ s : State,
    (s.stopLine = false → s.startup ≠ .ready → exec .stopAsserted s = .next { s with stopLine := true }) ∧
    (s.stopLine = true → s.startup ≠ .ready → exec .stopDeasserted s = .next { s with stopLine := false }) ∧
    (s.stopLine = true → s.startup = .ready → s.TableFree →
      exec .stopDeasserted s =
        .next { s with stopLine := false, engine := { s.engine with stopTaken := false } }) ∧
    (s.stopLine = false → s.startup = .ready → s.TableFree → ∃ t : State,
      exec .stopAsserted s = .next { s with
        stopLine := true
        engine := { s.engine with stopTaken := true }
        channels := Vector.ofFn fun c => { s.channels[c] with coupled := false, posted := 0 }
        link := { s.link with slots := Vector.replicate 8 0 }
        slots := t.slots
        completions := t.completions
        faults := t.faults } ∧
      t.faults.isSet .stop = true ∧ t.anyActive = false ∧ (∀ i : SlotNo, s.CutAt t i .stop .idle) ∧
      s.faults.Raised t.faults fun fl => fl = .stop ∨
        ∃ (i : SlotNo) (r : Record), fl = .broke i ∧ s.slots[i] = some r ∧ r.state.Breaks .stop) ∧
    (s.startup = .ready → s.arbiter.inService.isSome = true →
      (s.stopLine = false → exec .stopAsserted s =
        .next { s with stopLine := true, arbiter := s.arbiter.deferring .stopAsserted }) ∧
      (s.stopLine = true → exec .stopDeasserted s =
        .next { s with stopLine := false, arbiter := s.arbiter.deferring .stopDeasserted }))

/-- An expiry of the check step timer requests one check step unless one is outstanding or the timer is stopped. A
check step that finds agreement moves the scan on and changes nothing else, but that a pending check test of a sound
record is consumed and sets its CHECK flag with cause TEST. -/
def Obligations.CheckScanStepsAndTests : Prop :=
  ∀ s : State,
    (s.checker.timerRunning = false ∨ s.arbiter.inService = some .checkStep ∨ Access.checkStep ∈ s.arbiter.waiting →
      exec .checkStepTimer s = .next s) ∧
    (s.checker.timerRunning = true → s.arbiter.inService ≠ some .checkStep → Access.checkStep ∉ s.arbiter.waiting →
      exec .checkStepTimer s = .next { s with arbiter := s.arbiter.asked .checkStep }) ∧
    (s.arbiter = { inService := some .checkStep, waiting := [], deferred := [] } →
      let free : Arbiter := { inService := none, waiting := [], deferred := [] }
      (∀ c : ChannelNo,
        s.checker.scan = .channel c ∨
          (c = 0 ∧ ∃ i : SlotNo, s.checker.scan = .slot i ∧ ∀ j : SlotNo, i ≤ j → s.slots[j] = none) →
        crc16 s.channels[c].cfg.bytes = s.channels[c].check →
        exec .checkStep s = .next { s with
          arbiter := free
          checker := { s.checker with
            scan := if h : c.val + 1 < 8 then .channel ⟨c.val + 1, h⟩ else .slot 0 } }) ∧
      ∀ (i j : SlotNo) (r : Record), s.checker.scan = .slot i → i ≤ j → s.slots[j] = some r →
        (∀ k : SlotNo, i ≤ k → k < j → s.slots[k] = none) → crc16 r.cfg.bytes = r.check →
        let after : ScanPosition := if h : j.val + 1 < 16 then .slot ⟨j.val + 1, h⟩ else .channel 0
        (s.checker.pendingTest ≠ some j →
          exec .checkStep s = .next { s with arbiter := free, checker := { s.checker with scan := after } }) ∧
        (s.checker.pendingTest = some j → ∃ f, s.faults.Reported f (.couplingCheck j) ∧
          f.couplingCheck[j] =
            (if s.faults.couplingCheck[j] = some .mismatch then some .mismatch else some .test) ∧
          exec .checkStep s = .next { s with
            arbiter := free
            checker := { s.checker with scan := after, pendingTest := none }
            faults := f }))

/-- A check step that finds a mismatch, on the channel of the scan position, on the record of the lowest non-vacant
slot from there, or on channel 0 when no slot is left, sets the CHECK flag with cause MISMATCH: a channel goes to LOST
with reason CHECK unless OFF, with its notice; a record takes the mark, and an active one breaks with reason CHECK. -/
def Obligations.CheckMismatchTakesOutOfService : Prop :=
  ∀ s : State, s.arbiter = { inService := some .checkStep, waiting := [], deferred := [] } → s.CoupledAgree →
    (∀ c : ChannelNo,
      s.checker.scan = .channel c ∨
        (c = 0 ∧ ∃ i : SlotNo, s.checker.scan = .slot i ∧ ∀ j : SlotNo, i ≤ j → s.slots[j] = none) →
      crc16 s.channels[c].cfg.bytes ≠ s.channels[c].check →
      let after : ScanPosition := if h : c.val + 1 < 8 then .channel ⟨c.val + 1, h⟩ else .slot 0
      (s.channels[c].state = .off ∨ s.channels[c].state.isLost = true → ∃ f,
        s.faults.Reported f (.channelCheck c) ∧ f.channelCheck[c] = some .mismatch ∧
        exec .checkStep s = .next { s with
          arbiter := { inService := none, waiting := [], deferred := [] }
          checker := { s.checker with scan := after }
          channels := s.channels.set c { s.channels[c] with
            state := if s.channels[c].state = .off then .off else .lost .check }
          faults := f }) ∧
      (s.channels[c].state = .waiting ∨ s.channels[c].state.isUp = true → ∃ t : State,
        exec .checkStep s = .next { s with
          arbiter := { inService := none, waiting := [], deferred := [] }
          checker := { s.checker with scan := after }
          channels := t.channels, slots := t.slots, completions := t.completions
          link := { s.link with slots := t.link.slots }, faults := t.faults } ∧
        s.LostAt t c { s.channels[c] with state := .lost .check } (fun fl => fl = .channelCheck c) ∧
        t.faults.channelCheck[c] = some .mismatch)) ∧
    (∀ (i j : SlotNo) (r : Record), s.checker.scan = .slot i → i ≤ j → s.slots[j] = some r →
      (∀ k : SlotNo, i ≤ k → k < j → s.slots[k] = none) → crc16 r.cfg.bytes ≠ r.check →
      let after : ScanPosition := if h : j.val + 1 < 16 then .slot ⟨j.val + 1, h⟩ else .channel 0
      ∃ t q : State,
        exec .checkStep s = .next { s with
          arbiter := { inService := none, waiting := [], deferred := [] }
          checker := { s.checker with
            scan := after
            pendingTest := if s.checker.pendingTest = some j then none else s.checker.pendingTest }
          channels := t.channels, slots := t.slots, completions := t.completions, faults := t.faults } ∧
        t.CoupledAgree ∧ t.faults.couplingCheck[j] = some .mismatch ∧
        s.faults.Raised t.faults (fun fl => fl = .couplingCheck j ∨ (fl = .broke j ∧ r.state.Breaks .check)) ∧
        (∀ c : ChannelNo, t.channels[c] = { s.channels[c] with coupled := t.channels[c].coupled }) ∧
        (∀ i : SlotNo, i ≠ j → t.slots[i] = s.slots[i] ∧ t.completions[i] = s.completions[i]) ∧
        s.CutAt q j .check (.broken .check) ∧ t.completions[j] = q.completions[j] ∧
        t.faults.isSet (.broke j) = q.faults.isSet (.broke j) ∧
        t.slots[j] = q.slots[j].map fun left => { left with checkFailed := true })

/-! ### The computation -/

/-- The roundings and the terms of the law are those of R41 to R49 and R51 to R56. A clamp writes the correction and the
limited indication alone, and an active record's terms count for its follower and its leader, as R57 has them. -/
def Obligations.ArithmeticOfTheLaw : Prop :=
  (∀ (a : Int) (b : Nat), 0 < b → 2 * (roundDiv a b * b - a).natAbs ≤ b ∧
    (2 * (roundDiv a b * b - a).natAbs = b → a.natAbs ≤ (roundDiv a b * b).natAbs) ∧
    roundDiv (-a) b = -roundDiv a b) ∧
  (∀ limit x : Int, 0 ≤ limit → (x < -limit → clampTo limit x = -limit) ∧ (limit < x → clampTo limit x = limit) ∧
    (-limit ≤ x → x ≤ limit → clampTo limit x = x)) ∧
  (∀ (p : CapturePeriod) (r : Record) (uL uF : Int),
    r.cfg.increment uL uF = uF - (uL + roundDiv (uL * r.cfg.ratio.toInt) 1000000) ∧
    (∀ delta, r.filtered delta = r.rate + (delta - r.rate).tdiv (2 ^ r.cfg.filterShift.toNat)) ∧
    r.cfg.bandUnits p = roundDiv (r.cfg.band.toNat * 65536 * p.micros) 1000 ∧
    (∀ ramp, r.state = .releasing ramp → r.unclamped p =
      some (roundDiv (ramp.start * (r.cfg.ramp.toNat - ramp.step)) r.cfg.ramp.toNat)) ∧
    (r.state = .held ∨ r.state = .slipping → r.unclamped p = some (-roundDiv
      (r.cfg.stiffness.toNat * r.error * p.micros + r.cfg.damping.toNat * r.rate * 1000000)
      (1048576000 * p.micros))) ∧
    (r.state = .forming → r.unclamped p = some (-roundDiv
      (r.cfg.damping.toNat * r.rate * 1000000) (1048576000 * p.micros))) ∧
    (r.state.isActive = false → r.unclamped p = none) ∧
    (∀ x, r.unclamped p = some x → r.corrected p = { r with
      correction := clampTo r.cfg.limit.toNat x, limited := decide (r.cfg.limit.toNat < x.natAbs) }) ∧
    (r.unclamped p = none → r.corrected p = r) ∧
    r.leaderTerm = -roundDiv (r.correction * r.cfg.share.toNat) 16 ∧
    r.followerTerm = r.correction + r.leaderTerm ∧
    (r.cfg.share.toNat ≤ 8 → r.leaderTerm.natAbs ≤ r.correction.natAbs ∧
      r.followerTerm.natAbs ≤ r.correction.natAbs) ∧
    ∀ c : ChannelNo,
      (r.state.isActive = true → r.term c =
        (if r.cfg.followerNo = c then r.followerTerm else 0) + (if r.cfg.leaderNo = c then r.leaderTerm else 0)) ∧
      (r.state.isActive = false → r.term c = 0))

/-- A record found in each state is filtered, accumulated and judged as R47, R48 and R69 to R73 state. -/
def Obligations.StateHandlingByStateFound : Prop :=
  ∀ (p : CapturePeriod) (uL uF : Int) (up : Bool) (r : Record),
    let delta := r.cfg.increment uL uF
    let rate := r.filtered delta
    let moved : Record := { r with rate := rate }
    let after := r.advance p uL uF up
    let error (offset : Int) := clampTo 65536000000 (r.error + delta + offset)
    (r.state = .idle → after = { record := if up then moved else r }) ∧
    (∀ reason, r.state = .broken reason → after = { record := r }) ∧
    (r.state = .forming →
      let elapsed := min (r.elapsed + 1) 65535
      let run := if (rate.natAbs : Int) ≤ r.cfg.bandUnits p then r.run + 1 else 0
      (r.cfg.slipCount.toNat ≤ run → after =
        { record := { moved with state := .held, elapsed := elapsed, error := 0, run := 0 }
          ending := some .formed }) ∧
      (run < r.cfg.slipCount.toNat → r.cfg.timeout.toNat ≤ elapsed → after =
        { record := { moved with state := .idle, elapsed := elapsed, run := 0, pendingOffset := none }
          ending := some .formTimeout }) ∧
      (run < r.cfg.slipCount.toNat → elapsed < r.cfg.timeout.toNat → after =
        { record := { moved with elapsed := elapsed, run := run } })) ∧
    (r.state = .held →
      let e := error ((r.pendingOffset.getD 0) * 65536)
      let run := if r.cfg.slipWindow.toNat * 65536 < e.natAbs then r.run + 1 else 0
      (r.cfg.slipCount.toNat ≤ run → after =
        { record := { moved with state := .slipping, error := e, run := 0, pendingOffset := none }
          slipped := true }) ∧
      (run < r.cfg.slipCount.toNat → after =
        { record := { moved with error := e, run := run, pendingOffset := none } })) ∧
    (r.state = .slipping →
      let e := error 0
      let half := r.cfg.slipWindow.toNat / 2 * 65536
      (r.cfg.breakWindow.toNat * 65536 < e.natAbs → after =
        { record := { moved with state := .broken .slipLimit, error := e, run := 0, pendingOffset := none }
          broke := true }) ∧
      (e.natAbs ≤ r.cfg.breakWindow.toNat * 65536 → e.natAbs ≤ half → r.cfg.slipCount.toNat ≤ r.run + 1 → after =
        { record := { moved with state := .held, error := e, run := 0 } }) ∧
      (e.natAbs ≤ r.cfg.breakWindow.toNat * 65536 → e.natAbs ≤ half → r.run + 1 < r.cfg.slipCount.toNat → after =
        { record := { moved with error := e, run := r.run + 1 } }) ∧
      (e.natAbs ≤ r.cfg.breakWindow.toNat * 65536 → half < e.natAbs → after =
        { record := { moved with error := e, run := 0 } })) ∧
    (∀ ramp, r.state = .releasing ramp →
      (r.cfg.ramp.toNat ≤ ramp.step + 1 → after =
        { record := { moved with state := .idle, run := 0, pendingOffset := none }, ending := some .released }) ∧
      (ramp.step + 1 < r.cfg.ramp.toNat → after =
        { record := { moved with state := .releasing { ramp with step := ramp.step + 1 } } }))

/-- A computation takes every record through its state handling and correction, sums and clamps the terms of each
channel, posts the sums, hands the outcomes over, and counts as the last computation served. A record is limited when
its own clamp acts or it put a term other than 0 into a clamped sum. That entries falling due leave the access in
service for their expiry is the model's (assumption 4). -/
def Obligations.ComputationUpdatesAndPosts : Prop :=
  ∀ (s : State) (n : Word), s.arbiter = { inService := some (.computation n), waiting := [], deferred := [] } →
    ∃ t : State,
      exec .computation s = .next { s with
        slots := t.slots, channels := t.channels, completions := t.completions, faults := t.faults
        link := t.link
        engine := { s.engine with lastComputed := some n }
        arbiter := t.arbiter } ∧
      t.CoupledAgree ∧
      let sum (c : ChannelNo) : Int := ((List.finRange 16).map fun i => match t.slots[i] with
        | some r => r.term c
        | none => 0).sum
      let after (r : Record) : Advance := r.advance s.engine.period s.channels[r.cfg.leaderNo].travel
        s.channels[r.cfg.followerNo].travel
        (s.channels[r.cfg.leaderNo].state.isUp && s.channels[r.cfg.followerNo].state.isUp)
      s.faults.Raised t.faults (fun fl => (fl = .linkOverrun ∧ s.link.round.isSome = true) ∨
        ∃ (i : SlotNo) (r : Record), s.slots[i] = some r ∧
          ((fl = .slip i ∧ (after r).slipped = true) ∨ (fl = .broke i ∧ (after r).broke = true))) ∧
      (t.anyDue n = false → t.arbiter = { inService := none, waiting := [], deferred := [] }) ∧
      (t.anyDue n = true → t.arbiter = { inService := some (.expiry n), waiting := [], deferred := [] }) ∧
      (∀ i : SlotNo, s.slots[i] = none → t.slots[i] = none ∧ t.completions[i] = s.completions[i]) ∧
      (∀ (i : SlotNo) (r : Record), s.slots[i] = some r →
        let formed := (after r).record.corrected s.engine.period
        ∃ q : Record, t.slots[i] = some q ∧ q = { formed with limited := q.limited } ∧
          (q.limited = true ↔ formed.limited = true ∨
            ∃ c : ChannelNo, s.channels[c].cfg.ceiling.toNat < (sum c).natAbs ∧ q.term c ≠ 0) ∧
          ((after r).slipped = true → t.faults.isSet (.slip i) = true) ∧
          ((after r).broke = true → t.faults.isSet (.broke i) = true) ∧
          ((after r).ending = none → t.completions[i] = s.completions[i]) ∧
          ((after r).ending = some .formed → s.completions[i] = some .waitingForm →
            ∃ k : Collect, s.Carries n k ∧ t.completions[i] = some (.readyForm .formed k)) ∧
          ((after r).ending = some .formTimeout → s.completions[i] = some .waitingForm →
            ∃ k : Collect, s.Carries n k ∧ t.completions[i] = some (.readyForm .formTimeout k)) ∧
          ((after r).ending = some .released → s.completions[i] = some .waitingRelease →
            ∃ k : Collect, s.Carries n k ∧ t.completions[i] = some (.readyRelease .released k)) ∧
          ((after r).ending = some .formed ∨ (after r).ending = some .formTimeout →
            s.completions[i] ≠ some .waitingForm → t.completions[i] = s.completions[i]) ∧
          ((after r).ending = some .released → s.completions[i] ≠ some .waitingRelease →
            t.completions[i] = s.completions[i])) ∧
      (∀ c : ChannelNo,
        let post : Int := if s.channels[c].state.isUp then clampTo s.channels[c].cfg.ceiling.toNat (sum c) else 0
        t.link.slots[c] = post ∧
        t.channels[c] = { s.channels[c] with
          posted := post, coupled := t.channels[c].coupled
          limited := decide (s.channels[c].cfg.ceiling.toNat < (sum c).natAbs) } ∧
        (s.channels[c].cfg.ceiling.toNat < (sum c).natAbs → ∀ (i : SlotNo) (q : Record), t.slots[i] = some q →
          q.term c ≠ 0 → q.limited = true)) ∧
      t.link.roundCapture = n ∧
      (∀ rd, s.link.round = some rd → t.link.round = some rd ∧ t.faults.isSet .linkOverrun = true ∧
        ∀ c : ChannelNo, t.link.counts[c] =
          if c ∈ rd.earlier ∨ c = rd.message.channel then
            { s.link.counts[c] with
              skips := if s.link.counts[c].skips = 0xFFFFFFFF then 0xFFFFFFFF else s.link.counts[c].skips + 1 }
          else s.link.counts[c]) ∧
      (s.link.round = none → t.link.counts = s.link.counts ∧
        ((∀ c : ChannelNo, s.channels[c].state = .off) → t.link.round = none) ∧
        ((∃ c : ChannelNo, s.channels[c].state ≠ .off) → ∃ rd : Round, t.link.round = some rd ∧
          rd.earlier = [] ∧ rd.phase = .sending ∧
          rd.message.channel :: rd.remaining =
            (List.finRange 8).filter (fun c => decide (s.channels[c].state ≠ .off)) ∧
          rd.message = { channel := rd.message.channel, capture := n.setWidth 8
                         torque := t.link.slots[rd.message.channel]
                         coupled := t.channels[rd.message.channel].coupled }))

/-- At the end of the computation the READY entries whose deadline is its number are removed, with a DISCARD event.
The row is the closing part of the computation access (assumption 4). -/
def Obligations.DueEntriesExpire : Prop :=
  ∀ (s : State) (n : Word), s.arbiter = { inService := some (.expiry n), waiting := [], deferred := [] } →
    let due (i : SlotNo) : Prop := (∃ o k, s.completions[i] = some (.readyForm o k) ∧ k.deadline = some n) ∨
      ∃ o k, s.completions[i] = some (.readyRelease o k) ∧ k.deadline = some n
    ∃ t : State,
      exec .collectDeadlineExpiry s = .next { s with
        completions := t.completions
        faults := t.faults
        arbiter := { inService := none, waiting := [], deferred := [] } } ∧
      (∀ i : SlotNo, (due i → t.completions[i] = none) ∧ (¬ due i → t.completions[i] = s.completions[i])) ∧
      ((∃ i, due i) → s.faults.Reported t.faults .discard) ∧ ((∀ i, ¬ due i) → t.faults = s.faults)

/-! ### The drive link -/

/-- An exchange goes through the phases of R120, a whole reply is good exactly when R121 says so, and at the end of the
gap the next exchange begins or the round ends. A Correction message is six bytes, the last their CRC-8. On the link a
byte is a low start bit, its bits with the least significant first and a high stop bit, the next byte follows with no
idle bit, and the levels of a reply spell its four bytes or a broken one. -/
def Obligations.ExchangesPassThroughTheirPhases : Prop :=
  (∀ m : Correction, ∃ b0 b1 b2 b3 b4 b5 : Byte,
    m.bytes = [b0, b1, b2, b3, b4, b5] ∧ b0 = 0xA0#8 + BitVec.ofNat 8 m.channel.val ∧ b1 = m.capture ∧
    halfOf b2 b3 = BitVec.ofInt 16 m.torque ∧ b4 = (if m.coupled then 1 else 0) ∧
    b5 = crc8 [b0, b1, b2, b3, b4] ∧ m.levels.length = 60 ∧
    ∀ (n : Fin 6) (b : Byte), m.bytes[n.val]? = some b →
      m.levels[10 * n.val]? = some false ∧ m.levels[10 * n.val + 9]? = some true ∧
      ∀ k < 8, m.levels[10 * n.val + 1 + k]? = some (b.getLsbD k)) ∧
  (∀ (bytes : List Byte) (b : Byte), crc8 [] = 0 ∧ crc8 (bytes ++ [b]) = crc8Byte (crc8 bytes) b) ∧
  (∀ r b : Byte,
    crc8Byte r b = crc8Bit (crc8Bit (crc8Bit (crc8Bit (crc8Bit (crc8Bit (crc8Bit (crc8Bit (r ^^^ b)))))))) ∧
    crc8Bit r = if r.getMsbD 0 then (r <<< 1) ^^^ 0x07 else r <<< 1) ∧
  (∀ (l : Link) (rd : Round) (n : Nat), l.round = some rd →
    (rd.phase = .sending → n < 60 → rd.message.levels[n]? = some (l.level n)) ∧
    (rd.phase ≠ .sending ∨ 60 ≤ n → l.level n = true)) ∧
  (∀ (l : Link) (n : Nat), l.round = none → l.level n = true) ∧
  (∀ b0 b1 b2 b3 : Byte, replyCommand (messageLevels [b0, b1, b2, b3]) = .driveStatus b0 b1 b2 b3) ∧
  (∀ (levels : List Bool) (n : Nat), n < 4 →
    (levels[10 * n]? = some true ∨ levels[10 * n + 9]? = some false → replyCommand levels = .brokenReply)) ∧
  ∀ (s : State) (rd : Round), s.link.round = some rd →
    let now (phase : ExchangePhase) : State :=
      { s with link := { s.link with round := some { rd with phase := phase } } }
    (rd.phase = .sending → exec .correctionSent s = .next (now .awaiting)) ∧
    (rd.phase = .awaiting → exec .replyStart s = .next (now .receiving) ∧
      exec .replyWindowExpiry s = .next (now (.judged .miss))) ∧
    (rd.phase = .receiving → exec .brokenReply s = .next (now (.judged .miss)) ∧
      ∀ b0 b1 b2 b3 : Byte,
        let answers : Prop := b0 = 0x50#8 + BitVec.ofNat 8 rd.message.channel.val ∧ b1 = rd.message.capture ∧
          b3 = crc8 [b0, b1, b2]
        (answers → b2 = 0x01 → exec (.driveStatus b0 b1 b2 b3) s = .next (now (.judged (.good .ready)))) ∧
        (answers → b2 = 0x02 → exec (.driveStatus b0 b1 b2 b3) s = .next (now (.judged (.good .torqueLimit)))) ∧
        (answers → b2 = 0x03 → exec (.driveStatus b0 b1 b2 b3) s = .next (now (.judged (.good .tripped)))) ∧
        (answers → b2 = 0x04 → exec (.driveStatus b0 b1 b2 b3) s = .next (now (.judged (.good .disabled)))) ∧
        (¬ answers ∨ b2 = 0 ∨ 4 < b2.toNat →
          exec (.driveStatus b0 b1 b2 b3) s = .next (now (.judged .miss)))) ∧
    (∀ micros, rd.phase = .gap micros →
      (rd.remaining = [] → exec .gapEnd s = .next { s with link := { s.link with round := none } }) ∧
      ∀ (c : ChannelNo) (rest : List ChannelNo), rd.remaining = c :: rest →
        exec .gapEnd s = .next { s with
          link := { s.link with
            round := some
              { earlier := rd.earlier ++ [rd.message.channel]
                message := { channel := c, capture := s.link.roundCapture.setWidth 8, torque := s.link.slots[c]
                             coupled := s.channels[c].coupled }
                phase := .sending
                remaining := rest } } })

/-- The Channel Table takes the judged result of an exchange as R17 to R19 state, an OFF channel discarding it; the
exchange counts follow and the gap begins; a channel that falls to LOST takes its couplings with it. The event waits for
an access that reads or writes channel entries, and one that takes the channel to LOST for any access; another access or
an event that waits for it does not hold it up. That the exchange counts change in this event is the model's reading
(assumption 23). -/
def Obligations.DriveStatusActsOnTheChannel : Prop :=
  ∀ (s : State) (rd : Round) (result : DriveResult), s.link.round = some rd → rd.phase = .judged result →
    TableEvent.driveStatus ∉ s.arbiter.deferred →
    let c : ChannelNo := rd.message.channel
    let ch : Channel := s.channels[c]
    let n : ExchangeCounts := s.link.counts[c]
    let up (w : Word) : Word := if w = 0xFFFFFFFF then w else w + 1
    let link : Link := { s.link with
      round := some { rd with phase := .gap (if result = .miss then 6 else 2) }
      counts := s.link.counts.set c
        (if result = .miss then { n with misses := up n.misses } else { n with replies := up n.replies }) }
    let goodRun := if ch.goodRun < 8 then ch.goodRun + 1 else 8
    let missRun := if ch.missRun < 15 then ch.missRun + 1 else 15
    let risen : ChannelState := if goodRun = 8 then
        match ch.state with
        | .waiting | .running => .running
        | .stale => .stale
        | .off => .off
        | .lost .check => .lost .check
        | .lost .noReply | .lost .driveDown | .lost .capture => .running
      else ch.state
    let fit (d : DriveState) : Channel :=
      { ch with missRun := 0, lastDrive := some d, goodRun := goodRun, state := risen }
    let falls : Prop := ch.state = .waiting ∨ ch.state = .running ∨ ch.state = .stale
    let down (d : DriveState) : Channel :=
      { ch with goodRun := 0, missRun := 0, lastDrive := some d
                state := if ch.state = .lost .check then .lost .check else .lost .driveDown }
    let loses : Prop := falls ∧ (result = .good .tripped ∨ result = .good .disabled ∨
      (result = .miss ∧ s.engine.missLimit ≤ missRun))
    let waits : Prop :=
      exec .driveStatusEvent s = .next { s with arbiter := s.arbiter.deferring .driveStatus }
    (s.channelsHeld = true ∨ (loses ∧ s.arbiter.inService.isSome = true) → waits) ∧
    (s.channelsHeld = false →
      (ch.state = .off → exec .driveStatusEvent s = .next { s with link := link }) ∧
      (ch.state ≠ .off → result = .good .ready → exec .driveStatusEvent s =
        .next { s with link := link, channels := s.channels.set c (fit .ready) }) ∧
      (ch.state ≠ .off → result = .good .torqueLimit → ∃ f, s.faults.Reported f (.driveLimit c) ∧
        exec .driveStatusEvent s =
          .next { s with link := link, channels := s.channels.set c (fit .torqueLimit), faults := f }) ∧
      (∀ d, ch.state.isLost = true → (d = .tripped ∨ d = .disabled) → result = .good d →
        exec .driveStatusEvent s = .next { s with link := link, channels := s.channels.set c (down d) }) ∧
      (ch.state ≠ .off → ¬ (falls ∧ s.engine.missLimit ≤ missRun) → result = .miss →
        exec .driveStatusEvent s = .next { s with
          link := link, channels := s.channels.set c { ch with goodRun := 0, missRun := missRun } })) ∧
    (s.arbiter.inService = none →
      (∀ d, falls → (d = .tripped ∨ d = .disabled) → result = .good d → ∃ t : State,
        exec .driveStatusEvent s = .next { s with
          link := { link with slots := t.link.slots }
          channels := t.channels, slots := t.slots, completions := t.completions, faults := t.faults } ∧
        s.LostAt t c (down d) fun _ => False) ∧
      (falls → s.engine.missLimit ≤ missRun → result = .miss → ∃ t : State,
        exec .driveStatusEvent s = .next { s with
          link := { link with slots := t.link.slots }
          channels := t.channels, slots := t.slots, completions := t.completions, faults := t.faults } ∧
        s.LostAt t c { ch with goodRun := 0, missRun := missRun, state := .lost .noReply } fun _ => False))
end

