-- ==== Sys2Proof/Laws/State.lean ====
section
/-! SUPPORT. What each update of the state leaves and writes, field by field. -/

namespace Sys2Proof.Machine

@[simp] theorem setRecord_channels (s : State) (i : SlotNo) (r : Record) :
    (s.setRecord i r).channels = s.channels := rfl
@[simp] theorem setRecord_encoders (s : State) (i : SlotNo) (r : Record) :
    (s.setRecord i r).encoders = s.encoders := rfl
@[simp] theorem setRecord_captureTimer (s : State) (i : SlotNo) (r : Record) :
    (s.setRecord i r).captureTimer = s.captureTimer := rfl
@[simp] theorem setRecord_captureNumber (s : State) (i : SlotNo) (r : Record) :
    (s.setRecord i r).captureNumber = s.captureNumber := rfl
@[simp] theorem setRecord_slots (s : State) (i : SlotNo) (r : Record) :
    (s.setRecord i r).slots = s.slots.set i (some r) := rfl
@[simp] theorem setRecord_arbiter (s : State) (i : SlotNo) (r : Record) : (s.setRecord i r).arbiter = s.arbiter := rfl
@[simp] theorem setRecord_engine (s : State) (i : SlotNo) (r : Record) : (s.setRecord i r).engine = s.engine := rfl
@[simp] theorem setRecord_edit (s : State) (i : SlotNo) (r : Record) : (s.setRecord i r).edit = s.edit := rfl
@[simp] theorem setRecord_completions (s : State) (i : SlotNo) (r : Record) :
    (s.setRecord i r).completions = s.completions := rfl
@[simp] theorem setRecord_link (s : State) (i : SlotNo) (r : Record) : (s.setRecord i r).link = s.link := rfl
@[simp] theorem setRecord_checker (s : State) (i : SlotNo) (r : Record) : (s.setRecord i r).checker = s.checker := rfl
@[simp] theorem setRecord_faults (s : State) (i : SlotNo) (r : Record) : (s.setRecord i r).faults = s.faults := rfl
@[simp] theorem setRecord_port (s : State) (i : SlotNo) (r : Record) : (s.setRecord i r).port = s.port := rfl
@[simp] theorem setRecord_store (s : State) (i : SlotNo) (r : Record) : (s.setRecord i r).store = s.store := rfl
@[simp] theorem setRecord_startup (s : State) (i : SlotNo) (r : Record) : (s.setRecord i r).startup = s.startup := rfl
@[simp] theorem setRecord_resetHeld (s : State) (i : SlotNo) (r : Record) :
    (s.setRecord i r).resetHeld = s.resetHeld := rfl
@[simp] theorem setRecord_stopLine (s : State) (i : SlotNo) (r : Record) :
    (s.setRecord i r).stopLine = s.stopLine := rfl
@[simp] theorem setRecord_freeIndex (s : State) (i : SlotNo) (r : Record) :
    (s.setRecord i r).freeIndex = s.freeIndex := rfl
@[simp] theorem setRecord_pending (s : State) (i : SlotNo) (r : Record) : (s.setRecord i r).pending = s.pending := rfl

@[simp] theorem setChannel_channels (s : State) (c : ChannelNo) (ch : Channel) :
    (s.setChannel c ch).channels = s.channels.set c ch := rfl
@[simp] theorem setChannel_encoders (s : State) (c : ChannelNo) (ch : Channel) :
    (s.setChannel c ch).encoders = s.encoders := rfl
@[simp] theorem setChannel_captureTimer (s : State) (c : ChannelNo) (ch : Channel) :
    (s.setChannel c ch).captureTimer = s.captureTimer := rfl
@[simp] theorem setChannel_captureNumber (s : State) (c : ChannelNo) (ch : Channel) :
    (s.setChannel c ch).captureNumber = s.captureNumber := rfl
@[simp] theorem setChannel_slots (s : State) (c : ChannelNo) (ch : Channel) :
    (s.setChannel c ch).slots = s.slots := rfl
@[simp] theorem setChannel_arbiter (s : State) (c : ChannelNo) (ch : Channel) :
    (s.setChannel c ch).arbiter = s.arbiter := rfl
@[simp] theorem setChannel_engine (s : State) (c : ChannelNo) (ch : Channel) :
    (s.setChannel c ch).engine = s.engine := rfl
@[simp] theorem setChannel_edit (s : State) (c : ChannelNo) (ch : Channel) : (s.setChannel c ch).edit = s.edit := rfl
@[simp] theorem setChannel_completions (s : State) (c : ChannelNo) (ch : Channel) :
    (s.setChannel c ch).completions = s.completions := rfl
@[simp] theorem setChannel_link (s : State) (c : ChannelNo) (ch : Channel) : (s.setChannel c ch).link = s.link := rfl
@[simp] theorem setChannel_checker (s : State) (c : ChannelNo) (ch : Channel) :
    (s.setChannel c ch).checker = s.checker := rfl
@[simp] theorem setChannel_faults (s : State) (c : ChannelNo) (ch : Channel) :
    (s.setChannel c ch).faults = s.faults := rfl
@[simp] theorem setChannel_port (s : State) (c : ChannelNo) (ch : Channel) : (s.setChannel c ch).port = s.port := rfl
@[simp] theorem setChannel_store (s : State) (c : ChannelNo) (ch : Channel) :
    (s.setChannel c ch).store = s.store := rfl
@[simp] theorem setChannel_startup (s : State) (c : ChannelNo) (ch : Channel) :
    (s.setChannel c ch).startup = s.startup := rfl
@[simp] theorem setChannel_resetHeld (s : State) (c : ChannelNo) (ch : Channel) :
    (s.setChannel c ch).resetHeld = s.resetHeld := rfl
@[simp] theorem setChannel_stopLine (s : State) (c : ChannelNo) (ch : Channel) :
    (s.setChannel c ch).stopLine = s.stopLine := rfl
@[simp] theorem setChannel_freeIndex (s : State) (c : ChannelNo) (ch : Channel) :
    (s.setChannel c ch).freeIndex = s.freeIndex := rfl
@[simp] theorem setChannel_pending (s : State) (c : ChannelNo) (ch : Channel) :
    (s.setChannel c ch).pending = s.pending := rfl

@[simp] theorem report_channels (s : State) (fl : Flag) (k : CheckCause) :
    (s.report fl k).channels = s.channels := rfl
@[simp] theorem report_encoders (s : State) (fl : Flag) (k : CheckCause) :
    (s.report fl k).encoders = s.encoders := rfl
@[simp] theorem report_captureTimer (s : State) (fl : Flag) (k : CheckCause) :
    (s.report fl k).captureTimer = s.captureTimer := rfl
@[simp] theorem report_captureNumber (s : State) (fl : Flag) (k : CheckCause) :
    (s.report fl k).captureNumber = s.captureNumber := rfl
@[simp] theorem report_slots (s : State) (fl : Flag) (k : CheckCause) : (s.report fl k).slots = s.slots := rfl
@[simp] theorem report_arbiter (s : State) (fl : Flag) (k : CheckCause) : (s.report fl k).arbiter = s.arbiter := rfl
@[simp] theorem report_engine (s : State) (fl : Flag) (k : CheckCause) : (s.report fl k).engine = s.engine := rfl
@[simp] theorem report_edit (s : State) (fl : Flag) (k : CheckCause) : (s.report fl k).edit = s.edit := rfl
@[simp] theorem report_completions (s : State) (fl : Flag) (k : CheckCause) :
    (s.report fl k).completions = s.completions := rfl
@[simp] theorem report_link (s : State) (fl : Flag) (k : CheckCause) : (s.report fl k).link = s.link := rfl
@[simp] theorem report_checker (s : State) (fl : Flag) (k : CheckCause) : (s.report fl k).checker = s.checker := rfl
@[simp] theorem report_faults (s : State) (fl : Flag) (k : CheckCause) :
    (s.report fl k).faults = s.faults.report fl k := rfl
@[simp] theorem report_port (s : State) (fl : Flag) (k : CheckCause) : (s.report fl k).port = s.port := rfl
@[simp] theorem report_store (s : State) (fl : Flag) (k : CheckCause) : (s.report fl k).store = s.store := rfl
@[simp] theorem report_startup (s : State) (fl : Flag) (k : CheckCause) : (s.report fl k).startup = s.startup := rfl
@[simp] theorem report_resetHeld (s : State) (fl : Flag) (k : CheckCause) :
    (s.report fl k).resetHeld = s.resetHeld := rfl
@[simp] theorem report_stopLine (s : State) (fl : Flag) (k : CheckCause) :
    (s.report fl k).stopLine = s.stopLine := rfl
@[simp] theorem report_freeIndex (s : State) (fl : Flag) (k : CheckCause) :
    (s.report fl k).freeIndex = s.freeIndex := rfl
@[simp] theorem report_pending (s : State) (fl : Flag) (k : CheckCause) : (s.report fl k).pending = s.pending := rfl

@[simp] theorem setEntry_channels (s : State) (i : SlotNo) (e : Option Completion) :
    (s.setEntry i e).channels = s.channels := rfl
@[simp] theorem setEntry_encoders (s : State) (i : SlotNo) (e : Option Completion) :
    (s.setEntry i e).encoders = s.encoders := rfl
@[simp] theorem setEntry_captureTimer (s : State) (i : SlotNo) (e : Option Completion) :
    (s.setEntry i e).captureTimer = s.captureTimer := rfl
@[simp] theorem setEntry_captureNumber (s : State) (i : SlotNo) (e : Option Completion) :
    (s.setEntry i e).captureNumber = s.captureNumber := rfl
@[simp] theorem setEntry_slots (s : State) (i : SlotNo) (e : Option Completion) :
    (s.setEntry i e).slots = s.slots := rfl
@[simp] theorem setEntry_arbiter (s : State) (i : SlotNo) (e : Option Completion) :
    (s.setEntry i e).arbiter = s.arbiter := rfl
@[simp] theorem setEntry_engine (s : State) (i : SlotNo) (e : Option Completion) :
    (s.setEntry i e).engine = s.engine := rfl
@[simp] theorem setEntry_edit (s : State) (i : SlotNo) (e : Option Completion) : (s.setEntry i e).edit = s.edit := rfl
@[simp] theorem setEntry_completions (s : State) (i : SlotNo) (e : Option Completion) :
    (s.setEntry i e).completions = s.completions.set i e := rfl
@[simp] theorem setEntry_link (s : State) (i : SlotNo) (e : Option Completion) : (s.setEntry i e).link = s.link := rfl
@[simp] theorem setEntry_checker (s : State) (i : SlotNo) (e : Option Completion) :
    (s.setEntry i e).checker = s.checker := rfl
@[simp] theorem setEntry_faults (s : State) (i : SlotNo) (e : Option Completion) :
    (s.setEntry i e).faults = s.faults := rfl
@[simp] theorem setEntry_port (s : State) (i : SlotNo) (e : Option Completion) : (s.setEntry i e).port = s.port := rfl
@[simp] theorem setEntry_store (s : State) (i : SlotNo) (e : Option Completion) :
    (s.setEntry i e).store = s.store := rfl
@[simp] theorem setEntry_startup (s : State) (i : SlotNo) (e : Option Completion) :
    (s.setEntry i e).startup = s.startup := rfl
@[simp] theorem setEntry_resetHeld (s : State) (i : SlotNo) (e : Option Completion) :
    (s.setEntry i e).resetHeld = s.resetHeld := rfl
@[simp] theorem setEntry_stopLine (s : State) (i : SlotNo) (e : Option Completion) :
    (s.setEntry i e).stopLine = s.stopLine := rfl
@[simp] theorem setEntry_freeIndex (s : State) (i : SlotNo) (e : Option Completion) :
    (s.setEntry i e).freeIndex = s.freeIndex := rfl
@[simp] theorem setEntry_pending (s : State) (i : SlotNo) (e : Option Completion) :
    (s.setEntry i e).pending = s.pending := rfl

@[simp] theorem setBuffer_channels (s : State) (k : BufferNo) (b : Option EditBuffer) :
    (s.setBuffer k b).channels = s.channels := rfl
@[simp] theorem setBuffer_encoders (s : State) (k : BufferNo) (b : Option EditBuffer) :
    (s.setBuffer k b).encoders = s.encoders := rfl
@[simp] theorem setBuffer_captureTimer (s : State) (k : BufferNo) (b : Option EditBuffer) :
    (s.setBuffer k b).captureTimer = s.captureTimer := rfl
@[simp] theorem setBuffer_captureNumber (s : State) (k : BufferNo) (b : Option EditBuffer) :
    (s.setBuffer k b).captureNumber = s.captureNumber := rfl
@[simp] theorem setBuffer_slots (s : State) (k : BufferNo) (b : Option EditBuffer) :
    (s.setBuffer k b).slots = s.slots := rfl
@[simp] theorem setBuffer_arbiter (s : State) (k : BufferNo) (b : Option EditBuffer) :
    (s.setBuffer k b).arbiter = s.arbiter := rfl
@[simp] theorem setBuffer_engine (s : State) (k : BufferNo) (b : Option EditBuffer) :
    (s.setBuffer k b).engine = s.engine := rfl
@[simp] theorem setBuffer_edit (s : State) (k : BufferNo) (b : Option EditBuffer) :
    (s.setBuffer k b).edit = { s.edit with buffers := s.edit.buffers.set k b } := rfl
@[simp] theorem setBuffer_completions (s : State) (k : BufferNo) (b : Option EditBuffer) :
    (s.setBuffer k b).completions = s.completions := rfl
@[simp] theorem setBuffer_link (s : State) (k : BufferNo) (b : Option EditBuffer) :
    (s.setBuffer k b).link = s.link := rfl
@[simp] theorem setBuffer_checker (s : State) (k : BufferNo) (b : Option EditBuffer) :
    (s.setBuffer k b).checker = s.checker := rfl
@[simp] theorem setBuffer_faults (s : State) (k : BufferNo) (b : Option EditBuffer) :
    (s.setBuffer k b).faults = s.faults := rfl
@[simp] theorem setBuffer_port (s : State) (k : BufferNo) (b : Option EditBuffer) :
    (s.setBuffer k b).port = s.port := rfl
@[simp] theorem setBuffer_store (s : State) (k : BufferNo) (b : Option EditBuffer) :
    (s.setBuffer k b).store = s.store := rfl
@[simp] theorem setBuffer_startup (s : State) (k : BufferNo) (b : Option EditBuffer) :
    (s.setBuffer k b).startup = s.startup := rfl
@[simp] theorem setBuffer_resetHeld (s : State) (k : BufferNo) (b : Option EditBuffer) :
    (s.setBuffer k b).resetHeld = s.resetHeld := rfl
@[simp] theorem setBuffer_stopLine (s : State) (k : BufferNo) (b : Option EditBuffer) :
    (s.setBuffer k b).stopLine = s.stopLine := rfl
@[simp] theorem setBuffer_freeIndex (s : State) (k : BufferNo) (b : Option EditBuffer) :
    (s.setBuffer k b).freeIndex = s.freeIndex := rfl
@[simp] theorem setBuffer_pending (s : State) (k : BufferNo) (b : Option EditBuffer) :
    (s.setBuffer k b).pending = s.pending := rfl

@[simp] theorem endGroup_channels (s : State) : (s.endGroup).channels = s.channels := rfl
@[simp] theorem endGroup_encoders (s : State) : (s.endGroup).encoders = s.encoders := rfl
@[simp] theorem endGroup_captureTimer (s : State) : (s.endGroup).captureTimer = s.captureTimer := rfl
@[simp] theorem endGroup_captureNumber (s : State) : (s.endGroup).captureNumber = s.captureNumber := rfl
@[simp] theorem endGroup_slots (s : State) : (s.endGroup).slots = s.slots := rfl
@[simp] theorem endGroup_arbiter (s : State) : (s.endGroup).arbiter = s.arbiter := rfl
@[simp] theorem endGroup_engine (s : State) : (s.endGroup).engine = s.engine := rfl
@[simp] theorem endGroup_edit (s : State) :
    (s.endGroup).edit = { buffers := Vector.replicate 4 none, groupMode := false } := rfl
@[simp] theorem endGroup_completions (s : State) : (s.endGroup).completions = s.completions := rfl
@[simp] theorem endGroup_link (s : State) : (s.endGroup).link = s.link := rfl
@[simp] theorem endGroup_checker (s : State) : (s.endGroup).checker = s.checker := rfl
@[simp] theorem endGroup_faults (s : State) : (s.endGroup).faults = s.faults := rfl
@[simp] theorem endGroup_port (s : State) : (s.endGroup).port = s.port := rfl
@[simp] theorem endGroup_store (s : State) : (s.endGroup).store = s.store := rfl
@[simp] theorem endGroup_startup (s : State) : (s.endGroup).startup = s.startup := rfl
@[simp] theorem endGroup_resetHeld (s : State) : (s.endGroup).resetHeld = s.resetHeld := rfl
@[simp] theorem endGroup_stopLine (s : State) : (s.endGroup).stopLine = s.stopLine := rfl
@[simp] theorem endGroup_freeIndex (s : State) : (s.endGroup).freeIndex = s.freeIndex := rfl
@[simp] theorem endGroup_pending (s : State) : (s.endGroup).pending = s.pending := rfl

@[simp] theorem recouple_encoders (s : State) : (s.recouple).encoders = s.encoders := rfl
@[simp] theorem recouple_captureTimer (s : State) : (s.recouple).captureTimer = s.captureTimer := rfl
@[simp] theorem recouple_captureNumber (s : State) : (s.recouple).captureNumber = s.captureNumber := rfl
@[simp] theorem recouple_slots (s : State) : (s.recouple).slots = s.slots := rfl
@[simp] theorem recouple_arbiter (s : State) : (s.recouple).arbiter = s.arbiter := rfl
@[simp] theorem recouple_engine (s : State) : (s.recouple).engine = s.engine := rfl
@[simp] theorem recouple_edit (s : State) : (s.recouple).edit = s.edit := rfl
@[simp] theorem recouple_completions (s : State) : (s.recouple).completions = s.completions := rfl
@[simp] theorem recouple_link (s : State) : (s.recouple).link = s.link := rfl
@[simp] theorem recouple_checker (s : State) : (s.recouple).checker = s.checker := rfl
@[simp] theorem recouple_faults (s : State) : (s.recouple).faults = s.faults := rfl
@[simp] theorem recouple_port (s : State) : (s.recouple).port = s.port := rfl
@[simp] theorem recouple_store (s : State) : (s.recouple).store = s.store := rfl
@[simp] theorem recouple_startup (s : State) : (s.recouple).startup = s.startup := rfl
@[simp] theorem recouple_resetHeld (s : State) : (s.recouple).resetHeld = s.resetHeld := rfl
@[simp] theorem recouple_stopLine (s : State) : (s.recouple).stopLine = s.stopLine := rfl
@[simp] theorem recouple_freeIndex (s : State) : (s.recouple).freeIndex = s.freeIndex := rfl
@[simp] theorem recouple_pending (s : State) : (s.recouple).pending = s.pending := rfl

@[simp] theorem zeroWrite_encoders (s : State) (c : ChannelNo) : (s.zeroWrite c).encoders = s.encoders := rfl
@[simp] theorem zeroWrite_captureTimer (s : State) (c : ChannelNo) :
    (s.zeroWrite c).captureTimer = s.captureTimer := rfl
@[simp] theorem zeroWrite_captureNumber (s : State) (c : ChannelNo) :
    (s.zeroWrite c).captureNumber = s.captureNumber := rfl
@[simp] theorem zeroWrite_slots (s : State) (c : ChannelNo) : (s.zeroWrite c).slots = s.slots := rfl
@[simp] theorem zeroWrite_arbiter (s : State) (c : ChannelNo) : (s.zeroWrite c).arbiter = s.arbiter := rfl
@[simp] theorem zeroWrite_engine (s : State) (c : ChannelNo) : (s.zeroWrite c).engine = s.engine := rfl
@[simp] theorem zeroWrite_edit (s : State) (c : ChannelNo) : (s.zeroWrite c).edit = s.edit := rfl
@[simp] theorem zeroWrite_completions (s : State) (c : ChannelNo) : (s.zeroWrite c).completions = s.completions := rfl
@[simp] theorem zeroWrite_checker (s : State) (c : ChannelNo) : (s.zeroWrite c).checker = s.checker := rfl
@[simp] theorem zeroWrite_faults (s : State) (c : ChannelNo) : (s.zeroWrite c).faults = s.faults := rfl
@[simp] theorem zeroWrite_port (s : State) (c : ChannelNo) : (s.zeroWrite c).port = s.port := rfl
@[simp] theorem zeroWrite_store (s : State) (c : ChannelNo) : (s.zeroWrite c).store = s.store := rfl
@[simp] theorem zeroWrite_startup (s : State) (c : ChannelNo) : (s.zeroWrite c).startup = s.startup := rfl
@[simp] theorem zeroWrite_resetHeld (s : State) (c : ChannelNo) : (s.zeroWrite c).resetHeld = s.resetHeld := rfl
@[simp] theorem zeroWrite_stopLine (s : State) (c : ChannelNo) : (s.zeroWrite c).stopLine = s.stopLine := rfl
@[simp] theorem zeroWrite_freeIndex (s : State) (c : ChannelNo) : (s.zeroWrite c).freeIndex = s.freeIndex := rfl
@[simp] theorem zeroWrite_pending (s : State) (c : ChannelNo) : (s.zeroWrite c).pending = s.pending := rfl

@[simp] theorem replyWith_channels (s : State) (code seq : Byte) (e : EditOutcome) (r : Answer) :
    (s.replyWith code seq e r).channels = s.channels := rfl
@[simp] theorem replyWith_encoders (s : State) (code seq : Byte) (e : EditOutcome) (r : Answer) :
    (s.replyWith code seq e r).encoders = s.encoders := rfl
@[simp] theorem replyWith_captureTimer (s : State) (code seq : Byte) (e : EditOutcome) (r : Answer) :
    (s.replyWith code seq e r).captureTimer = s.captureTimer := rfl
@[simp] theorem replyWith_captureNumber (s : State) (code seq : Byte) (e : EditOutcome) (r : Answer) :
    (s.replyWith code seq e r).captureNumber = s.captureNumber := rfl
@[simp] theorem replyWith_slots (s : State) (code seq : Byte) (e : EditOutcome) (r : Answer) :
    (s.replyWith code seq e r).slots = s.slots := rfl
@[simp] theorem replyWith_arbiter (s : State) (code seq : Byte) (e : EditOutcome) (r : Answer) :
    (s.replyWith code seq e r).arbiter = s.arbiter := rfl
@[simp] theorem replyWith_engine (s : State) (code seq : Byte) (e : EditOutcome) (r : Answer) :
    (s.replyWith code seq e r).engine = s.engine := rfl
@[simp] theorem replyWith_edit (s : State) (code seq : Byte) (e : EditOutcome) (r : Answer) :
    (s.replyWith code seq e r).edit = s.edit := rfl
@[simp] theorem replyWith_completions (s : State) (code seq : Byte) (e : EditOutcome) (r : Answer) :
    (s.replyWith code seq e r).completions = s.completions := rfl
@[simp] theorem replyWith_link (s : State) (code seq : Byte) (e : EditOutcome) (r : Answer) :
    (s.replyWith code seq e r).link = s.link := rfl
@[simp] theorem replyWith_checker (s : State) (code seq : Byte) (e : EditOutcome) (r : Answer) :
    (s.replyWith code seq e r).checker = s.checker := rfl
@[simp] theorem replyWith_faults (s : State) (code seq : Byte) (e : EditOutcome) (r : Answer) :
    (s.replyWith code seq e r).faults = s.faults := rfl
@[simp] theorem replyWith_store (s : State) (code seq : Byte) (e : EditOutcome) (r : Answer) :
    (s.replyWith code seq e r).store = s.store := rfl
@[simp] theorem replyWith_startup (s : State) (code seq : Byte) (e : EditOutcome) (r : Answer) :
    (s.replyWith code seq e r).startup = s.startup := rfl
@[simp] theorem replyWith_resetHeld (s : State) (code seq : Byte) (e : EditOutcome) (r : Answer) :
    (s.replyWith code seq e r).resetHeld = s.resetHeld := rfl
@[simp] theorem replyWith_stopLine (s : State) (code seq : Byte) (e : EditOutcome) (r : Answer) :
    (s.replyWith code seq e r).stopLine = s.stopLine := rfl
@[simp] theorem replyWith_freeIndex (s : State) (code seq : Byte) (e : EditOutcome) (r : Answer) :
    (s.replyWith code seq e r).freeIndex = s.freeIndex := rfl
@[simp] theorem replyWith_pending (s : State) (code seq : Byte) (e : EditOutcome) (r : Answer) :
    (s.replyWith code seq e r).pending = s.pending := rfl

@[simp] theorem raised_channels (s : State) : (s.raised).channels = s.channels := rfl
@[simp] theorem raised_encoders (s : State) : (s.raised).encoders = s.encoders := rfl
@[simp] theorem raised_captureTimer (s : State) : (s.raised).captureTimer = s.captureTimer := rfl
@[simp] theorem raised_captureNumber (s : State) : (s.raised).captureNumber = s.captureNumber := rfl
@[simp] theorem raised_slots (s : State) : (s.raised).slots = s.slots := rfl
@[simp] theorem raised_arbiter (s : State) : (s.raised).arbiter = s.arbiter := rfl
@[simp] theorem raised_engine (s : State) : (s.raised).engine = s.engine := rfl
@[simp] theorem raised_edit (s : State) : (s.raised).edit = s.edit := rfl
@[simp] theorem raised_completions (s : State) : (s.raised).completions = s.completions := rfl
@[simp] theorem raised_link (s : State) : (s.raised).link = s.link := rfl
@[simp] theorem raised_checker (s : State) : (s.raised).checker = s.checker := rfl
@[simp] theorem raised_faults (s : State) : (s.raised).faults = s.faults := rfl
@[simp] theorem raised_port (s : State) : (s.raised).port = { s.port with chipSelect := .high } := rfl
@[simp] theorem raised_store (s : State) : (s.raised).store = s.store := rfl
@[simp] theorem raised_startup (s : State) : (s.raised).startup = s.startup := rfl
@[simp] theorem raised_resetHeld (s : State) : (s.raised).resetHeld = s.resetHeld := rfl
@[simp] theorem raised_stopLine (s : State) : (s.raised).stopLine = s.stopLine := rfl
@[simp] theorem raised_freeIndex (s : State) : (s.raised).freeIndex = s.freeIndex := rfl
@[simp] theorem raised_pending (s : State) : (s.raised).pending = s.pending := rfl

@[simp] theorem setPhase_channels (s : State) (p : ServicePhase) : (s.setPhase p).channels = s.channels := rfl
@[simp] theorem setPhase_encoders (s : State) (p : ServicePhase) : (s.setPhase p).encoders = s.encoders := rfl
@[simp] theorem setPhase_captureTimer (s : State) (p : ServicePhase) :
    (s.setPhase p).captureTimer = s.captureTimer := rfl
@[simp] theorem setPhase_captureNumber (s : State) (p : ServicePhase) :
    (s.setPhase p).captureNumber = s.captureNumber := rfl
@[simp] theorem setPhase_slots (s : State) (p : ServicePhase) : (s.setPhase p).slots = s.slots := rfl
@[simp] theorem setPhase_arbiter (s : State) (p : ServicePhase) : (s.setPhase p).arbiter = s.arbiter := rfl
@[simp] theorem setPhase_engine (s : State) (p : ServicePhase) : (s.setPhase p).engine = s.engine := rfl
@[simp] theorem setPhase_edit (s : State) (p : ServicePhase) : (s.setPhase p).edit = s.edit := rfl
@[simp] theorem setPhase_completions (s : State) (p : ServicePhase) :
    (s.setPhase p).completions = s.completions := rfl
@[simp] theorem setPhase_link (s : State) (p : ServicePhase) : (s.setPhase p).link = s.link := rfl
@[simp] theorem setPhase_checker (s : State) (p : ServicePhase) : (s.setPhase p).checker = s.checker := rfl
@[simp] theorem setPhase_faults (s : State) (p : ServicePhase) : (s.setPhase p).faults = s.faults := rfl
@[simp] theorem setPhase_store (s : State) (p : ServicePhase) : (s.setPhase p).store = s.store := rfl
@[simp] theorem setPhase_startup (s : State) (p : ServicePhase) : (s.setPhase p).startup = s.startup := rfl
@[simp] theorem setPhase_resetHeld (s : State) (p : ServicePhase) : (s.setPhase p).resetHeld = s.resetHeld := rfl
@[simp] theorem setPhase_stopLine (s : State) (p : ServicePhase) : (s.setPhase p).stopLine = s.stopLine := rfl
@[simp] theorem setPhase_freeIndex (s : State) (p : ServicePhase) : (s.setPhase p).freeIndex = s.freeIndex := rfl
@[simp] theorem setPhase_pending (s : State) (p : ServicePhase) : (s.setPhase p).pending = s.pending := rfl

@[simp] theorem gatherEdit_channels (s : State) (o : EditOutcome) : (s.gatherEdit o).channels = s.channels := rfl
@[simp] theorem gatherEdit_encoders (s : State) (o : EditOutcome) : (s.gatherEdit o).encoders = s.encoders := rfl
@[simp] theorem gatherEdit_captureTimer (s : State) (o : EditOutcome) :
    (s.gatherEdit o).captureTimer = s.captureTimer := rfl
@[simp] theorem gatherEdit_captureNumber (s : State) (o : EditOutcome) :
    (s.gatherEdit o).captureNumber = s.captureNumber := rfl
@[simp] theorem gatherEdit_slots (s : State) (o : EditOutcome) : (s.gatherEdit o).slots = s.slots := rfl
@[simp] theorem gatherEdit_arbiter (s : State) (o : EditOutcome) : (s.gatherEdit o).arbiter = s.arbiter := rfl
@[simp] theorem gatherEdit_engine (s : State) (o : EditOutcome) : (s.gatherEdit o).engine = s.engine := rfl
@[simp] theorem gatherEdit_edit (s : State) (o : EditOutcome) : (s.gatherEdit o).edit = s.edit := rfl
@[simp] theorem gatherEdit_completions (s : State) (o : EditOutcome) :
    (s.gatherEdit o).completions = s.completions := rfl
@[simp] theorem gatherEdit_link (s : State) (o : EditOutcome) : (s.gatherEdit o).link = s.link := rfl
@[simp] theorem gatherEdit_checker (s : State) (o : EditOutcome) : (s.gatherEdit o).checker = s.checker := rfl
@[simp] theorem gatherEdit_faults (s : State) (o : EditOutcome) : (s.gatherEdit o).faults = s.faults := rfl
@[simp] theorem gatherEdit_store (s : State) (o : EditOutcome) : (s.gatherEdit o).store = s.store := rfl
@[simp] theorem gatherEdit_startup (s : State) (o : EditOutcome) : (s.gatherEdit o).startup = s.startup := rfl
@[simp] theorem gatherEdit_resetHeld (s : State) (o : EditOutcome) : (s.gatherEdit o).resetHeld = s.resetHeld := rfl
@[simp] theorem gatherEdit_stopLine (s : State) (o : EditOutcome) : (s.gatherEdit o).stopLine = s.stopLine := rfl
@[simp] theorem gatherEdit_freeIndex (s : State) (o : EditOutcome) : (s.gatherEdit o).freeIndex = s.freeIndex := rfl
@[simp] theorem gatherEdit_pending (s : State) (o : EditOutcome) : (s.gatherEdit o).pending = s.pending := rfl

@[simp] theorem defer_channels (s : State) (e : TableEvent) : (s.defer e).channels = s.channels := rfl
@[simp] theorem defer_encoders (s : State) (e : TableEvent) : (s.defer e).encoders = s.encoders := rfl
@[simp] theorem defer_captureTimer (s : State) (e : TableEvent) : (s.defer e).captureTimer = s.captureTimer := rfl
@[simp] theorem defer_captureNumber (s : State) (e : TableEvent) : (s.defer e).captureNumber = s.captureNumber := rfl
@[simp] theorem defer_slots (s : State) (e : TableEvent) : (s.defer e).slots = s.slots := rfl
@[simp] theorem defer_engine (s : State) (e : TableEvent) : (s.defer e).engine = s.engine := rfl
@[simp] theorem defer_edit (s : State) (e : TableEvent) : (s.defer e).edit = s.edit := rfl
@[simp] theorem defer_completions (s : State) (e : TableEvent) : (s.defer e).completions = s.completions := rfl
@[simp] theorem defer_link (s : State) (e : TableEvent) : (s.defer e).link = s.link := rfl
@[simp] theorem defer_checker (s : State) (e : TableEvent) : (s.defer e).checker = s.checker := rfl
@[simp] theorem defer_faults (s : State) (e : TableEvent) : (s.defer e).faults = s.faults := rfl
@[simp] theorem defer_port (s : State) (e : TableEvent) : (s.defer e).port = s.port := rfl
@[simp] theorem defer_store (s : State) (e : TableEvent) : (s.defer e).store = s.store := rfl
@[simp] theorem defer_startup (s : State) (e : TableEvent) : (s.defer e).startup = s.startup := rfl
@[simp] theorem defer_resetHeld (s : State) (e : TableEvent) : (s.defer e).resetHeld = s.resetHeld := rfl
@[simp] theorem defer_stopLine (s : State) (e : TableEvent) : (s.defer e).stopLine = s.stopLine := rfl
@[simp] theorem defer_freeIndex (s : State) (e : TableEvent) : (s.defer e).freeIndex = s.freeIndex := rfl
@[simp] theorem defer_pending (s : State) (e : TableEvent) : (s.defer e).pending = s.pending := rfl

@[simp] theorem setScan_channels (s : State) (p : ScanPosition) : (s.setScan p).channels = s.channels := rfl
@[simp] theorem setScan_encoders (s : State) (p : ScanPosition) : (s.setScan p).encoders = s.encoders := rfl
@[simp] theorem setScan_captureTimer (s : State) (p : ScanPosition) :
    (s.setScan p).captureTimer = s.captureTimer := rfl
@[simp] theorem setScan_captureNumber (s : State) (p : ScanPosition) :
    (s.setScan p).captureNumber = s.captureNumber := rfl
@[simp] theorem setScan_slots (s : State) (p : ScanPosition) : (s.setScan p).slots = s.slots := rfl
@[simp] theorem setScan_arbiter (s : State) (p : ScanPosition) : (s.setScan p).arbiter = s.arbiter := rfl
@[simp] theorem setScan_engine (s : State) (p : ScanPosition) : (s.setScan p).engine = s.engine := rfl
@[simp] theorem setScan_edit (s : State) (p : ScanPosition) : (s.setScan p).edit = s.edit := rfl
@[simp] theorem setScan_completions (s : State) (p : ScanPosition) : (s.setScan p).completions = s.completions := rfl
@[simp] theorem setScan_link (s : State) (p : ScanPosition) : (s.setScan p).link = s.link := rfl
@[simp] theorem setScan_checker (s : State) (p : ScanPosition) :
    (s.setScan p).checker = { s.checker with scan := p } := rfl
@[simp] theorem setScan_faults (s : State) (p : ScanPosition) : (s.setScan p).faults = s.faults := rfl
@[simp] theorem setScan_port (s : State) (p : ScanPosition) : (s.setScan p).port = s.port := rfl
@[simp] theorem setScan_store (s : State) (p : ScanPosition) : (s.setScan p).store = s.store := rfl
@[simp] theorem setScan_startup (s : State) (p : ScanPosition) : (s.setScan p).startup = s.startup := rfl
@[simp] theorem setScan_resetHeld (s : State) (p : ScanPosition) : (s.setScan p).resetHeld = s.resetHeld := rfl
@[simp] theorem setScan_stopLine (s : State) (p : ScanPosition) : (s.setScan p).stopLine = s.stopLine := rfl
@[simp] theorem setScan_freeIndex (s : State) (p : ScanPosition) : (s.setScan p).freeIndex = s.freeIndex := rfl
@[simp] theorem setScan_pending (s : State) (p : ScanPosition) : (s.setScan p).pending = s.pending := rfl

@[simp] theorem consumeTest_channels (s : State) (i : SlotNo) : (s.consumeTest i).channels = s.channels := rfl
@[simp] theorem consumeTest_encoders (s : State) (i : SlotNo) : (s.consumeTest i).encoders = s.encoders := rfl
@[simp] theorem consumeTest_captureTimer (s : State) (i : SlotNo) :
    (s.consumeTest i).captureTimer = s.captureTimer := rfl
@[simp] theorem consumeTest_captureNumber (s : State) (i : SlotNo) :
    (s.consumeTest i).captureNumber = s.captureNumber := rfl
@[simp] theorem consumeTest_slots (s : State) (i : SlotNo) : (s.consumeTest i).slots = s.slots := rfl
@[simp] theorem consumeTest_arbiter (s : State) (i : SlotNo) : (s.consumeTest i).arbiter = s.arbiter := rfl
@[simp] theorem consumeTest_engine (s : State) (i : SlotNo) : (s.consumeTest i).engine = s.engine := rfl
@[simp] theorem consumeTest_edit (s : State) (i : SlotNo) : (s.consumeTest i).edit = s.edit := rfl
@[simp] theorem consumeTest_completions (s : State) (i : SlotNo) :
    (s.consumeTest i).completions = s.completions := rfl
@[simp] theorem consumeTest_link (s : State) (i : SlotNo) : (s.consumeTest i).link = s.link := rfl
@[simp] theorem consumeTest_faults (s : State) (i : SlotNo) : (s.consumeTest i).faults = s.faults := rfl
@[simp] theorem consumeTest_port (s : State) (i : SlotNo) : (s.consumeTest i).port = s.port := rfl
@[simp] theorem consumeTest_store (s : State) (i : SlotNo) : (s.consumeTest i).store = s.store := rfl
@[simp] theorem consumeTest_startup (s : State) (i : SlotNo) : (s.consumeTest i).startup = s.startup := rfl
@[simp] theorem consumeTest_resetHeld (s : State) (i : SlotNo) : (s.consumeTest i).resetHeld = s.resetHeld := rfl
@[simp] theorem consumeTest_stopLine (s : State) (i : SlotNo) : (s.consumeTest i).stopLine = s.stopLine := rfl
@[simp] theorem consumeTest_freeIndex (s : State) (i : SlotNo) : (s.consumeTest i).freeIndex = s.freeIndex := rfl
@[simp] theorem consumeTest_pending (s : State) (i : SlotNo) : (s.consumeTest i).pending = s.pending := rfl

@[simp] theorem setProfile_channels (s : State) (p : ProfileNo) (q : Profile) :
    (s.setProfile p q).channels = s.channels := rfl
@[simp] theorem setProfile_encoders (s : State) (p : ProfileNo) (q : Profile) :
    (s.setProfile p q).encoders = s.encoders := rfl
@[simp] theorem setProfile_captureTimer (s : State) (p : ProfileNo) (q : Profile) :
    (s.setProfile p q).captureTimer = s.captureTimer := rfl
@[simp] theorem setProfile_captureNumber (s : State) (p : ProfileNo) (q : Profile) :
    (s.setProfile p q).captureNumber = s.captureNumber := rfl
@[simp] theorem setProfile_slots (s : State) (p : ProfileNo) (q : Profile) : (s.setProfile p q).slots = s.slots := rfl
@[simp] theorem setProfile_arbiter (s : State) (p : ProfileNo) (q : Profile) :
    (s.setProfile p q).arbiter = s.arbiter := rfl
@[simp] theorem setProfile_engine (s : State) (p : ProfileNo) (q : Profile) :
    (s.setProfile p q).engine = s.engine := rfl
@[simp] theorem setProfile_edit (s : State) (p : ProfileNo) (q : Profile) : (s.setProfile p q).edit = s.edit := rfl
@[simp] theorem setProfile_completions (s : State) (p : ProfileNo) (q : Profile) :
    (s.setProfile p q).completions = s.completions := rfl
@[simp] theorem setProfile_link (s : State) (p : ProfileNo) (q : Profile) : (s.setProfile p q).link = s.link := rfl
@[simp] theorem setProfile_checker (s : State) (p : ProfileNo) (q : Profile) :
    (s.setProfile p q).checker = s.checker := rfl
@[simp] theorem setProfile_faults (s : State) (p : ProfileNo) (q : Profile) :
    (s.setProfile p q).faults = s.faults := rfl
@[simp] theorem setProfile_port (s : State) (p : ProfileNo) (q : Profile) : (s.setProfile p q).port = s.port := rfl
@[simp] theorem setProfile_startup (s : State) (p : ProfileNo) (q : Profile) :
    (s.setProfile p q).startup = s.startup := rfl
@[simp] theorem setProfile_resetHeld (s : State) (p : ProfileNo) (q : Profile) :
    (s.setProfile p q).resetHeld = s.resetHeld := rfl
@[simp] theorem setProfile_stopLine (s : State) (p : ProfileNo) (q : Profile) :
    (s.setProfile p q).stopLine = s.stopLine := rfl
@[simp] theorem setProfile_freeIndex (s : State) (p : ProfileNo) (q : Profile) :
    (s.setProfile p q).freeIndex = s.freeIndex := rfl
@[simp] theorem setProfile_pending (s : State) (p : ProfileNo) (q : Profile) :
    (s.setProfile p q).pending = s.pending := rfl

@[simp] theorem beginStore_channels (s : State) (op : StoreOp) : (s.beginStore op).channels = s.channels := rfl
@[simp] theorem beginStore_encoders (s : State) (op : StoreOp) : (s.beginStore op).encoders = s.encoders := rfl
@[simp] theorem beginStore_captureTimer (s : State) (op : StoreOp) :
    (s.beginStore op).captureTimer = s.captureTimer := rfl
@[simp] theorem beginStore_captureNumber (s : State) (op : StoreOp) :
    (s.beginStore op).captureNumber = s.captureNumber := rfl
@[simp] theorem beginStore_slots (s : State) (op : StoreOp) : (s.beginStore op).slots = s.slots := rfl
@[simp] theorem beginStore_arbiter (s : State) (op : StoreOp) : (s.beginStore op).arbiter = s.arbiter := rfl
@[simp] theorem beginStore_engine (s : State) (op : StoreOp) : (s.beginStore op).engine = s.engine := rfl
@[simp] theorem beginStore_edit (s : State) (op : StoreOp) : (s.beginStore op).edit = s.edit := rfl
@[simp] theorem beginStore_completions (s : State) (op : StoreOp) :
    (s.beginStore op).completions = s.completions := rfl
@[simp] theorem beginStore_link (s : State) (op : StoreOp) : (s.beginStore op).link = s.link := rfl
@[simp] theorem beginStore_checker (s : State) (op : StoreOp) : (s.beginStore op).checker = s.checker := rfl
@[simp] theorem beginStore_faults (s : State) (op : StoreOp) : (s.beginStore op).faults = s.faults := rfl
@[simp] theorem beginStore_port (s : State) (op : StoreOp) : (s.beginStore op).port = s.port := rfl
@[simp] theorem beginStore_store (s : State) (op : StoreOp) :
    (s.beginStore op).store = { s.store with op := op, journal := true } := rfl
@[simp] theorem beginStore_startup (s : State) (op : StoreOp) : (s.beginStore op).startup = s.startup := rfl
@[simp] theorem beginStore_resetHeld (s : State) (op : StoreOp) : (s.beginStore op).resetHeld = s.resetHeld := rfl
@[simp] theorem beginStore_stopLine (s : State) (op : StoreOp) : (s.beginStore op).stopLine = s.stopLine := rfl
@[simp] theorem beginStore_freeIndex (s : State) (op : StoreOp) : (s.beginStore op).freeIndex = s.freeIndex := rfl
@[simp] theorem beginStore_pending (s : State) (op : StoreOp) : (s.beginStore op).pending = s.pending := rfl

@[simp] theorem nextOccasion_channels (s : State) : (s.nextOccasion).channels = s.channels := rfl
@[simp] theorem nextOccasion_encoders (s : State) : (s.nextOccasion).encoders = s.encoders := rfl
@[simp] theorem nextOccasion_captureTimer (s : State) : (s.nextOccasion).captureTimer = s.captureTimer := rfl
@[simp] theorem nextOccasion_captureNumber (s : State) : (s.nextOccasion).captureNumber = s.captureNumber := rfl
@[simp] theorem nextOccasion_slots (s : State) : (s.nextOccasion).slots = s.slots := rfl
@[simp] theorem nextOccasion_arbiter (s : State) : (s.nextOccasion).arbiter = s.arbiter := rfl
@[simp] theorem nextOccasion_engine (s : State) : (s.nextOccasion).engine = s.engine := rfl
@[simp] theorem nextOccasion_edit (s : State) : (s.nextOccasion).edit = s.edit := rfl
@[simp] theorem nextOccasion_completions (s : State) : (s.nextOccasion).completions = s.completions := rfl
@[simp] theorem nextOccasion_link (s : State) : (s.nextOccasion).link = s.link := rfl
@[simp] theorem nextOccasion_checker (s : State) : (s.nextOccasion).checker = s.checker := rfl
@[simp] theorem nextOccasion_faults (s : State) : (s.nextOccasion).faults = s.faults := rfl
@[simp] theorem nextOccasion_port (s : State) : (s.nextOccasion).port = s.port := rfl
@[simp] theorem nextOccasion_store (s : State) : (s.nextOccasion).store = s.store := rfl
@[simp] theorem nextOccasion_startup (s : State) : (s.nextOccasion).startup = s.startup := rfl
@[simp] theorem nextOccasion_resetHeld (s : State) : (s.nextOccasion).resetHeld = s.resetHeld := rfl
@[simp] theorem nextOccasion_stopLine (s : State) : (s.nextOccasion).stopLine = s.stopLine := rfl
@[simp] theorem nextOccasion_freeIndex (s : State) : (s.nextOccasion).freeIndex = s.freeIndex + 1 := rfl
@[simp] theorem nextOccasion_pending (s : State) : (s.nextOccasion).pending = s.pending := rfl

@[simp] theorem setExchange_channels (s : State) (p : ExchangePhase) : (s.setExchange p).channels = s.channels := rfl
@[simp] theorem setExchange_encoders (s : State) (p : ExchangePhase) : (s.setExchange p).encoders = s.encoders := rfl
@[simp] theorem setExchange_captureTimer (s : State) (p : ExchangePhase) :
    (s.setExchange p).captureTimer = s.captureTimer := rfl
@[simp] theorem setExchange_captureNumber (s : State) (p : ExchangePhase) :
    (s.setExchange p).captureNumber = s.captureNumber := rfl
@[simp] theorem setExchange_slots (s : State) (p : ExchangePhase) : (s.setExchange p).slots = s.slots := rfl
@[simp] theorem setExchange_arbiter (s : State) (p : ExchangePhase) : (s.setExchange p).arbiter = s.arbiter := rfl
@[simp] theorem setExchange_engine (s : State) (p : ExchangePhase) : (s.setExchange p).engine = s.engine := rfl
@[simp] theorem setExchange_edit (s : State) (p : ExchangePhase) : (s.setExchange p).edit = s.edit := rfl
@[simp] theorem setExchange_completions (s : State) (p : ExchangePhase) :
    (s.setExchange p).completions = s.completions := rfl
@[simp] theorem setExchange_checker (s : State) (p : ExchangePhase) : (s.setExchange p).checker = s.checker := rfl
@[simp] theorem setExchange_faults (s : State) (p : ExchangePhase) : (s.setExchange p).faults = s.faults := rfl
@[simp] theorem setExchange_port (s : State) (p : ExchangePhase) : (s.setExchange p).port = s.port := rfl
@[simp] theorem setExchange_store (s : State) (p : ExchangePhase) : (s.setExchange p).store = s.store := rfl
@[simp] theorem setExchange_startup (s : State) (p : ExchangePhase) : (s.setExchange p).startup = s.startup := rfl
@[simp] theorem setExchange_resetHeld (s : State) (p : ExchangePhase) :
    (s.setExchange p).resetHeld = s.resetHeld := rfl
@[simp] theorem setExchange_stopLine (s : State) (p : ExchangePhase) : (s.setExchange p).stopLine = s.stopLine := rfl
@[simp] theorem setExchange_freeIndex (s : State) (p : ExchangePhase) :
    (s.setExchange p).freeIndex = s.freeIndex := rfl
@[simp] theorem setExchange_pending (s : State) (p : ExchangePhase) : (s.setExchange p).pending = s.pending := rfl

@[simp] theorem computed_encoders (s : State) (n : Word) : (s.computed n).encoders = s.encoders := rfl
@[simp] theorem computed_captureTimer (s : State) (n : Word) : (s.computed n).captureTimer = s.captureTimer := rfl
@[simp] theorem computed_captureNumber (s : State) (n : Word) : (s.computed n).captureNumber = s.captureNumber := rfl
@[simp] theorem computed_arbiter (s : State) (n : Word) : (s.computed n).arbiter = s.arbiter := rfl
@[simp] theorem computed_engine (s : State) (n : Word) :
    (s.computed n).engine = { s.engine with lastComputed := some n } := rfl
@[simp] theorem computed_edit (s : State) (n : Word) : (s.computed n).edit = s.edit := rfl
@[simp] theorem computed_completions (s : State) (n : Word) : (s.computed n).completions = s.completions := rfl
@[simp] theorem computed_link (s : State) (n : Word) : (s.computed n).link = s.link := rfl
@[simp] theorem computed_checker (s : State) (n : Word) : (s.computed n).checker = s.checker := rfl
@[simp] theorem computed_faults (s : State) (n : Word) : (s.computed n).faults = s.faults := rfl
@[simp] theorem computed_port (s : State) (n : Word) : (s.computed n).port = s.port := rfl
@[simp] theorem computed_store (s : State) (n : Word) : (s.computed n).store = s.store := rfl
@[simp] theorem computed_startup (s : State) (n : Word) : (s.computed n).startup = s.startup := rfl
@[simp] theorem computed_resetHeld (s : State) (n : Word) : (s.computed n).resetHeld = s.resetHeld := rfl
@[simp] theorem computed_stopLine (s : State) (n : Word) : (s.computed n).stopLine = s.stopLine := rfl
@[simp] theorem computed_freeIndex (s : State) (n : Word) : (s.computed n).freeIndex = s.freeIndex := rfl
@[simp] theorem computed_pending (s : State) (n : Word) : (s.computed n).pending = s.pending := rfl

@[simp] theorem install_encoders (s : State) (p : Profile) : (s.install p).encoders = s.encoders := rfl
@[simp] theorem install_captureTimer (s : State) (p : Profile) : (s.install p).captureTimer = s.captureTimer := rfl
@[simp] theorem install_captureNumber (s : State) (p : Profile) : (s.install p).captureNumber = s.captureNumber := rfl
@[simp] theorem install_arbiter (s : State) (p : Profile) : (s.install p).arbiter = s.arbiter := rfl
@[simp] theorem install_engine (s : State) (p : Profile) : (s.install p).engine = s.engine := rfl
@[simp] theorem install_edit (s : State) (p : Profile) : (s.install p).edit = s.edit := rfl
@[simp] theorem install_completions (s : State) (p : Profile) :
    (s.install p).completions = Vector.replicate 16 none := rfl
@[simp] theorem install_link (s : State) (p : Profile) :
    (s.install p).link = { s.link with slots := Vector.replicate 8 0 } := rfl
@[simp] theorem install_checker (s : State) (p : Profile) :
    (s.install p).checker = { s.checker with pendingTest := none } := rfl
@[simp] theorem install_faults (s : State) (p : Profile) : (s.install p).faults = s.faults := rfl
@[simp] theorem install_store (s : State) (p : Profile) : (s.install p).store = s.store := rfl
@[simp] theorem install_startup (s : State) (p : Profile) : (s.install p).startup = s.startup := rfl
@[simp] theorem install_resetHeld (s : State) (p : Profile) : (s.install p).resetHeld = s.resetHeld := rfl
@[simp] theorem install_stopLine (s : State) (p : Profile) : (s.install p).stopLine = s.stopLine := rfl
@[simp] theorem install_freeIndex (s : State) (p : Profile) : (s.install p).freeIndex = s.freeIndex := rfl
@[simp] theorem install_pending (s : State) (p : Profile) : (s.install p).pending = s.pending := rfl

@[simp] theorem withPending_channels (s : State) (q : List Instr) : (s.withPending q).channels = s.channels := rfl
@[simp] theorem withPending_encoders (s : State) (q : List Instr) : (s.withPending q).encoders = s.encoders := rfl
@[simp] theorem withPending_captureTimer (s : State) (q : List Instr) :
    (s.withPending q).captureTimer = s.captureTimer := rfl
@[simp] theorem withPending_captureNumber (s : State) (q : List Instr) :
    (s.withPending q).captureNumber = s.captureNumber := rfl
@[simp] theorem withPending_slots (s : State) (q : List Instr) : (s.withPending q).slots = s.slots := rfl
@[simp] theorem withPending_arbiter (s : State) (q : List Instr) : (s.withPending q).arbiter = s.arbiter := rfl
@[simp] theorem withPending_engine (s : State) (q : List Instr) : (s.withPending q).engine = s.engine := rfl
@[simp] theorem withPending_edit (s : State) (q : List Instr) : (s.withPending q).edit = s.edit := rfl
@[simp] theorem withPending_completions (s : State) (q : List Instr) :
    (s.withPending q).completions = s.completions := rfl
@[simp] theorem withPending_link (s : State) (q : List Instr) : (s.withPending q).link = s.link := rfl
@[simp] theorem withPending_checker (s : State) (q : List Instr) : (s.withPending q).checker = s.checker := rfl
@[simp] theorem withPending_faults (s : State) (q : List Instr) : (s.withPending q).faults = s.faults := rfl
@[simp] theorem withPending_port (s : State) (q : List Instr) : (s.withPending q).port = s.port := rfl
@[simp] theorem withPending_store (s : State) (q : List Instr) : (s.withPending q).store = s.store := rfl
@[simp] theorem withPending_startup (s : State) (q : List Instr) : (s.withPending q).startup = s.startup := rfl
@[simp] theorem withPending_resetHeld (s : State) (q : List Instr) : (s.withPending q).resetHeld = s.resetHeld := rfl
@[simp] theorem withPending_stopLine (s : State) (q : List Instr) : (s.withPending q).stopLine = s.stopLine := rfl
@[simp] theorem withPending_freeIndex (s : State) (q : List Instr) : (s.withPending q).freeIndex = s.freeIndex := rfl
@[simp] theorem withPending_pending (s : State) (q : List Instr) : (s.withPending q).pending = q := rfl

@[simp] theorem replied_channels (s : State) (r : Reply) : (s.replied r).channels = s.channels := rfl
@[simp] theorem replied_encoders (s : State) (r : Reply) : (s.replied r).encoders = s.encoders := rfl
@[simp] theorem replied_captureTimer (s : State) (r : Reply) : (s.replied r).captureTimer = s.captureTimer := rfl
@[simp] theorem replied_captureNumber (s : State) (r : Reply) : (s.replied r).captureNumber = s.captureNumber := rfl
@[simp] theorem replied_slots (s : State) (r : Reply) : (s.replied r).slots = s.slots := rfl
@[simp] theorem replied_arbiter (s : State) (r : Reply) : (s.replied r).arbiter = s.arbiter := rfl
@[simp] theorem replied_engine (s : State) (r : Reply) : (s.replied r).engine = s.engine := rfl
@[simp] theorem replied_edit (s : State) (r : Reply) : (s.replied r).edit = s.edit := rfl
@[simp] theorem replied_completions (s : State) (r : Reply) : (s.replied r).completions = s.completions := rfl
@[simp] theorem replied_link (s : State) (r : Reply) : (s.replied r).link = s.link := rfl
@[simp] theorem replied_checker (s : State) (r : Reply) : (s.replied r).checker = s.checker := rfl
@[simp] theorem replied_faults (s : State) (r : Reply) : (s.replied r).faults = s.faults := rfl
@[simp] theorem replied_store (s : State) (r : Reply) : (s.replied r).store = s.store := rfl
@[simp] theorem replied_startup (s : State) (r : Reply) : (s.replied r).startup = s.startup := rfl
@[simp] theorem replied_resetHeld (s : State) (r : Reply) : (s.replied r).resetHeld = s.resetHeld := rfl
@[simp] theorem replied_stopLine (s : State) (r : Reply) : (s.replied r).stopLine = s.stopLine := rfl
@[simp] theorem replied_freeIndex (s : State) (r : Reply) : (s.replied r).freeIndex = s.freeIndex := rfl
@[simp] theorem replied_pending (s : State) (r : Reply) : (s.replied r).pending = s.pending := rfl

@[simp] theorem setDeaf_channels (s : State) (n : Nat) : (s.setDeaf n).channels = s.channels := rfl
@[simp] theorem setDeaf_encoders (s : State) (n : Nat) : (s.setDeaf n).encoders = s.encoders := rfl
@[simp] theorem setDeaf_captureTimer (s : State) (n : Nat) : (s.setDeaf n).captureTimer = s.captureTimer := rfl
@[simp] theorem setDeaf_captureNumber (s : State) (n : Nat) : (s.setDeaf n).captureNumber = s.captureNumber := rfl
@[simp] theorem setDeaf_slots (s : State) (n : Nat) : (s.setDeaf n).slots = s.slots := rfl
@[simp] theorem setDeaf_arbiter (s : State) (n : Nat) : (s.setDeaf n).arbiter = s.arbiter := rfl
@[simp] theorem setDeaf_engine (s : State) (n : Nat) : (s.setDeaf n).engine = s.engine := rfl
@[simp] theorem setDeaf_edit (s : State) (n : Nat) : (s.setDeaf n).edit = s.edit := rfl
@[simp] theorem setDeaf_completions (s : State) (n : Nat) : (s.setDeaf n).completions = s.completions := rfl
@[simp] theorem setDeaf_link (s : State) (n : Nat) : (s.setDeaf n).link = s.link := rfl
@[simp] theorem setDeaf_checker (s : State) (n : Nat) : (s.setDeaf n).checker = s.checker := rfl
@[simp] theorem setDeaf_faults (s : State) (n : Nat) : (s.setDeaf n).faults = s.faults := rfl
@[simp] theorem setDeaf_port (s : State) (n : Nat) : (s.setDeaf n).port = { s.port with deafFalls := n } := rfl
@[simp] theorem setDeaf_store (s : State) (n : Nat) : (s.setDeaf n).store = s.store := rfl
@[simp] theorem setDeaf_startup (s : State) (n : Nat) : (s.setDeaf n).startup = s.startup := rfl
@[simp] theorem setDeaf_resetHeld (s : State) (n : Nat) : (s.setDeaf n).resetHeld = s.resetHeld := rfl
@[simp] theorem setDeaf_stopLine (s : State) (n : Nat) : (s.setDeaf n).stopLine = s.stopLine := rfl
@[simp] theorem setDeaf_freeIndex (s : State) (n : Nat) : (s.setDeaf n).freeIndex = s.freeIndex := rfl
@[simp] theorem setDeaf_pending (s : State) (n : Nat) : (s.setDeaf n).pending = s.pending := rfl
@[simp] theorem recovered_setDeaf (s : State) : s.recovered = s.setDeaf 0 := rfl

end Sys2Proof.Machine
end

