-- ==== Sys2Proof/Laws/Faults.lean ====
section
/-! SUPPORT. What a report, a clearing and new masks do to the Fault Unit. -/

namespace Sys2Proof.Machine

/-- Setting one flag sets it and no other. -/
theorem isSet_setFlag (f : FaultUnit) (fl other : Flag) (k : CheckCause) :
    (f.setFlag fl k).isSet other = (decide (other = fl) || f.isSet other) := by
  cases fl <;> cases other <;>
    simp only [FaultUnit.setFlag, FaultUnit.isSet, Flag.capture.injEq, Flag.overspeed.injEq, Flag.lost.injEq,
      Flag.driveLimit.injEq, Flag.channelCheck.injEq, Flag.slip.injEq, Flag.broke.injEq, Flag.couplingCheck.injEq,
      reduceCtorEq, decide_false, decide_true, Bool.false_or, Bool.true_or, Fin.getElem_fin, Vector.getElem_set] <;>
    (rename_i a b
     rcases eq_or_ne b a with rfl | h
     · simp
     · have : ¬ a.val = b.val := fun e => h (Fin.ext e.symm)
       simp [h, this])

/-- Clearing one flag clears it and no other. -/
theorem isSet_clearFlag (f : FaultUnit) (fl other : Flag) :
    (f.clearFlag fl).isSet other = (!decide (other = fl) && f.isSet other) := by
  cases fl <;> cases other <;>
    simp only [FaultUnit.clearFlag, FaultUnit.isSet, Flag.capture.injEq, Flag.overspeed.injEq, Flag.lost.injEq,
      Flag.driveLimit.injEq, Flag.channelCheck.injEq, Flag.slip.injEq, Flag.broke.injEq, Flag.couplingCheck.injEq,
      reduceCtorEq, decide_false, decide_true, Bool.not_false, Bool.not_true, Bool.true_and, Bool.false_and,
      Fin.getElem_fin, Vector.getElem_set] <;>
    (rename_i a b
     rcases eq_or_ne b a with rfl | h
     · simp
     · have : ¬ a.val = b.val := fun e => h (Fin.ext e.symm)
       simp [h, this])

/-- Setting a flag leaves the summaries, masks, line and last-reject record. -/
theorem setFlag_rest (f : FaultUnit) (fl : Flag) (k : CheckCause) :
    (f.setFlag fl k).kindMasks = f.kindMasks ∧ (f.setFlag fl k).summaries = f.summaries ∧
      (f.setFlag fl k).lineMasks = f.lineMasks ∧ (f.setFlag fl k).line = f.line ∧
      (f.setFlag fl k).lastReject = f.lastReject := by
  cases fl <;> simp [FaultUnit.setFlag]

/-- Clearing a flag leaves the summaries, masks, line and last-reject record (R144). -/
theorem clearFlag_rest (f : FaultUnit) (fl : Flag) :
    (f.clearFlag fl).kindMasks = f.kindMasks ∧ (f.clearFlag fl).summaries = f.summaries ∧
      (f.clearFlag fl).lineMasks = f.lineMasks ∧ (f.clearFlag fl).line = f.line ∧
      (f.clearFlag fl).lastReject = f.lastReject := by
  cases fl <;> simp [FaultUnit.clearFlag]

/-- A summary is raised alone. -/
theorem summary_raise (f : FaultUnit) (g other : FlagGroup) :
    (f.raiseSummary g).summary other = (decide (other = g) || f.summary other) := by
  simp only [FaultUnit.raiseSummary, FaultUnit.driveLine, FaultUnit.summary, BitVec.getLsbD_or]
  cases g <;> cases other <;> simp [FlagGroup.bit, FlagGroup.index]

/-- A summary is dropped alone. -/
theorem summary_drop (f : FaultUnit) (g other : FlagGroup) :
    (f.dropSummary g).summary other = (!decide (other = g) && f.summary other) := by
  simp only [FaultUnit.dropSummary, FaultUnit.driveLine, FaultUnit.summary, BitVec.getLsbD_and, BitVec.getLsbD_not]
  cases g <;> cases other <;> simp [FlagGroup.bit, FlagGroup.index]

/-- Raising a summary leaves the flags. -/
theorem isSet_raise (f : FaultUnit) (g : FlagGroup) (fl : Flag) : (f.raiseSummary g).isSet fl = f.isSet fl := by
  cases fl <;> rfl

/-- The line after a raise is at its level. -/
theorem line_raise (f : FaultUnit) (g : FlagGroup) : (f.raiseSummary g).line = (f.raiseSummary g).lineLevel := rfl

/-- The line after a drop is at its level. -/
theorem line_drop (f : FaultUnit) (g : FlagGroup) : (f.dropSummary g).line = (f.dropSummary g).lineLevel := rfl

/-- The causes of the other CHECK flags stay. -/
theorem setFlag_causes (f : FaultUnit) (fl : Flag) (k : CheckCause) :
    (∀ c : ChannelNo, fl ≠ .channelCheck c → (f.setFlag fl k).channelCheck[c] = f.channelCheck[c]) ∧
      ∀ i : SlotNo, fl ≠ .couplingCheck i → (f.setFlag fl k).couplingCheck[i] = f.couplingCheck[i] := by
  refine ⟨fun c hc => ?_, fun i hi => ?_⟩
  · cases fl <;> try rfl
    rename_i d
    have : ¬ d.val = c.val := fun e => hc (by rw [Fin.ext e])
    simp [FaultUnit.setFlag, this]
  · cases fl <;> try rfl
    rename_i j
    have : ¬ j.val = i.val := fun e => hi (by rw [Fin.ext e])
    simp [FaultUnit.setFlag, this]

/-- A report leaves the causes of the other CHECK flags. -/
theorem report_causes (f : FaultUnit) (fl : Flag) (k : CheckCause) :
    (∀ c : ChannelNo, fl ≠ .channelCheck c → (f.report fl k).channelCheck[c] = f.channelCheck[c]) ∧
      ∀ i : SlotNo, fl ≠ .couplingCheck i → (f.report fl k).couplingCheck[i] = f.couplingCheck[i] := by
  unfold FaultUnit.report
  split <;> exact setFlag_causes f fl k

/-- A report does what R139, R141 and R142 say, and nothing else. -/
theorem report_reported (f : FaultUnit) (fl : Flag) (k : CheckCause) : f.Reported (f.report fl k) fl := by
  have causes := report_causes f fl k
  obtain ⟨h1, h2, h3, h4, h5⟩ := setFlag_rest f fl k
  revert causes
  unfold FaultUnit.report
  by_cases hm : f.masked fl = true
  · rw [if_pos hm]
    intro causes
    refine ⟨by simp [isSet_setFlag], fun o ho => by simp [isSet_setFlag, ho], fun h => by simp_all, fun _ => h2,
      fun g _ => by simp [FaultUnit.summary, h2], h1, h3, h5, fun h => ?_, causes⟩
    simp only [FaultUnit.lineLevel, h2, h3, h4] at h ⊢; exact h
  · rw [if_neg hm]
    intro causes
    refine ⟨by simp [isSet_raise, isSet_setFlag], fun o ho => by simp [isSet_raise, isSet_setFlag, ho],
      fun _ => by simp [summary_raise], fun h => absurd h hm, fun g hg => by
        rw [summary_raise]; simp [hg, FaultUnit.summary, h2],
      h1, h3, h5, fun _ => line_raise _ _, causes⟩

/-- A report keeps the line at its level. -/
theorem report_line (f : FaultUnit) (fl : Flag) (k : CheckCause) (h : f.line = f.lineLevel) :
    (f.report fl k).line = (f.report fl k).lineLevel :=
  (report_reported f fl k).2.2.2.2.2.2.2.2.1 h

/-- Whether a kind is masked depends on the masks alone. -/
theorem masked_congr {f g : FaultUnit} (h : g.kindMasks = f.kindMasks) (fl : Flag) : g.masked fl = f.masked fl := by
  simp only [FaultUnit.masked, h]

/-- No report. -/
theorem Raised.refl (f : FaultUnit) : f.Raised f fun _ => False :=
  ⟨fun _ => ⟨.inl, fun h => h.elim id False.elim⟩,
    fun _ => ⟨.inl, fun h => h.elim id fun ⟨_, e, _⟩ => e.elim⟩, fun _ _ => rfl, fun _ _ => rfl, rfl, rfl, rfl, id⟩

/-- One report. -/
theorem report_raised (f : FaultUnit) (fl : Flag) (k : CheckCause) : f.Raised (f.report fl k) (· = fl) := by
  obtain ⟨h1, h2, h3, h4, h5, h6, h7, h8, h9, h10, h11⟩ := report_reported f fl k
  refine ⟨fun o => ?_, fun g => ?_, fun c hc => h10 c (Ne.symm hc), fun i hi => h11 i (Ne.symm hi), h6, h7, h8, h9⟩
  · by_cases e : o = fl
    · subst e; simp [h1]
    · simp [h2 o e, e]
  · by_cases e : g = fl.group
    · subst e
      by_cases hm : f.masked fl = true
      · rw [FaultUnit.summary, h4 hm]
        simp [FaultUnit.summary, hm]
      · simp [h3 (by simpa using hm), hm]
    · rw [h5 g e]
      simp only [iff_self_or, forall_exists_index, and_imp]
      rintro _ rfl rfl
      exact absurd rfl e

/-- Reports one after another. -/
theorem Raised.trans {f g h : FaultUnit} {a b : Flag → Prop} (x : f.Raised g a) (y : g.Raised h b) :
    f.Raised h fun fl => a fl ∨ b fl := by
  obtain ⟨x1, x2, x3, x4, x5, x6, x7, x8⟩ := x
  obtain ⟨y1, y2, y3, y4, y5, y6, y7, y8⟩ := y
  refine ⟨fun fl => by rw [y1, x1, or_assoc], fun group => ?_, fun c hc => ?_, fun i hi => ?_, y5.trans x5,
    y6.trans x6, y7.trans x7, fun hl => y8 (x8 hl)⟩
  · rw [y2, x2, or_assoc]
    have : ∀ fl, g.masked fl = f.masked fl := masked_congr x5
    simp only [this]
    refine or_congr_right ⟨?_, ?_⟩
    · rintro (⟨fl, e, r⟩ | ⟨fl, e, r⟩)
      · exact ⟨fl, .inl e, r⟩
      · exact ⟨fl, .inr e, r⟩
    · rintro ⟨fl, e | e, r⟩
      · exact .inl ⟨fl, e, r⟩
      · exact .inr ⟨fl, e, r⟩
  · exact (y3 c fun e => hc (.inr e)).trans (x3 c fun e => hc (.inl e))
  · exact (y4 i fun e => hi (.inr e)).trans (x4 i fun e => hi (.inl e))

/-- The same reports named otherwise. -/
theorem Raised.congr {f g : FaultUnit} {a b : Flag → Prop} (x : f.Raised g a) (e : ∀ fl, a fl ↔ b fl) :
    f.Raised g b := by
  have : a = b := funext fun fl => propext (e fl)
  exact this ▸ x

/-- A report that is made or not. -/
theorem reportIf_raised (s : State) (b : Bool) (fl : Flag) :
    s.faults.Raised (s.reportIf b fl).faults fun o => o = fl ∧ b = true := by
  unfold State.reportIf
  split
  · rename_i h
    exact Raised.congr (report_raised s.faults fl _) fun o => by simp [h]
  · rename_i h
    exact Raised.congr (Raised.refl s.faults) fun o => by simp [h]

/-- New masks leave the line at its level (R146). -/
theorem setMasks_line (f : FaultUnit) (k : BitVec 14) (l : BitVec 3) :
    (f.setMasks k l).line = (f.setMasks k l).lineLevel := by
  unfold FaultUnit.setMasks FaultUnit.driveLine FaultUnit.lineLevel
  rfl

end Sys2Proof.Machine
end

