-- ==== Sys2Proof/Laws/Cut.lean ====
section
/-! SUPPORT. What cutting the records of a channel, a channel loss and STOP do to the tables. -/

namespace Sys2Proof.Machine

/-! ### Reading after a write -/

theorem slots_get_set (v : Vector (Option Record) 16) (i j : SlotNo) (x : Option Record) :
    (v.set i x)[j] = if j = i then x else v[j] := by
  rcases eq_or_ne j i with rfl | h
  · simp
  · have : ¬ i.val = j.val := fun e => h (Fin.ext e.symm)
    simp [h, this]

theorem entries_get_set (v : Vector (Option Completion) 16) (i j : SlotNo) (x : Option Completion) :
    (v.set i x)[j] = if j = i then x else v[j] := by
  rcases eq_or_ne j i with rfl | h
  · simp
  · have : ¬ i.val = j.val := fun e => h (Fin.ext e.symm)
    simp [h, this]

theorem channels_get_set (v : Vector Channel 8) (c d : ChannelNo) (x : Channel) :
    (v.set c x)[d] = if d = c then x else v[d] := by
  rcases eq_or_ne d c with rfl | h
  · simp
  · have : ¬ c.val = d.val := fun e => h (Fin.ext e.symm)
    simp [h, this]

theorem finRange_any {n : Nat} (p : Fin n → Bool) : (List.finRange n).any p = true ↔ ∃ i, p i = true := by
  simp [List.any_eq_true]

/-! ### Reports, entries -/

/-- A flag that is set stays set through a report. -/
theorem report_keeps (s : State) (fl other : Flag) (k : CheckCause) (h : s.faults.isSet other = true) :
    (s.report fl k).faults.isSet other = true := by
  obtain ⟨h1, h2, -⟩ := report_reported s.faults fl k
  rcases eq_or_ne other fl with rfl | e
  · exact h1
  · exact (h2 other e).trans h

/-- A reported flag is set. -/
theorem report_sets (s : State) (fl : Flag) (k : CheckCause) : (s.report fl k).faults.isSet fl = true :=
  (report_reported s.faults fl k).1

/-- Giving the outcome of a Form changes the entries alone. -/
theorem giveForm_eq (s : State) (i : SlotNo) (o : FormOutcome) (n : Word) :
    s.giveForm i o n = { s with completions := (s.giveForm i o n).completions } := by
  unfold State.giveForm; split <;> rfl

/-- Giving the outcome of a Release changes the entries alone. -/
theorem giveRelease_eq (s : State) (i : SlotNo) (o : ReleaseOutcome) (n : Word) :
    s.giveRelease i o n = { s with completions := (s.giveRelease i o n).completions } := by
  unfold State.giveRelease; split <;> rfl

/-- What giving the outcome of a Form does to each entry (R109). -/
theorem giveForm_get (s : State) (i j : SlotNo) (o : FormOutcome) (n : Word) :
    (s.giveForm i o n).completions[j] =
      if j = i ∧ s.completions[i] = some .waitingForm then some (.readyForm o (s.collectAt n))
      else s.completions[j] := by
  unfold State.giveForm
  split
  · rename_i h
    rw [State.setEntry, entries_get_set]
    simp [h]
  all_goals (rename_i h; simp [h])

/-- What giving the outcome of a Release does to each entry (R109). -/
theorem giveRelease_get (s : State) (i j : SlotNo) (o : ReleaseOutcome) (n : Word) :
    (s.giveRelease i o n).completions[j] =
      if j = i ∧ s.completions[i] = some .waitingRelease then some (.readyRelease o (s.collectAt n))
      else s.completions[j] := by
  unfold State.giveRelease
  split
  · rename_i h
    rw [State.setEntry, entries_get_set]
    simp [h]
  all_goals (rename_i h; simp [h])

/-- What a READY entry is given to carry. -/
theorem collectAt_carries (s : State) (n : Word) : s.Carries n (s.collectAt n) := by
  refine ⟨rfl, fun h => ?_, fun h => ?_⟩
  · exact if_pos h
  · exact if_neg h

/-- What a READY entry carries depends on the collect window alone. -/
theorem carries_congr {s t : State} (h : t.engine.collectWindow = s.engine.collectWindow) (n : Word) (k : Collect) :
    t.Carries n k ↔ s.Carries n k := by
  simp only [State.Carries, h]

/-! ### One cut -/

/-- A cut changes slots, entries and flags alone. -/
theorem cutAt_eq (s : State) (i : SlotNo) (reason : BreakReason) :
    s.cutAt i reason = { s with
      slots := (s.cutAt i reason).slots
      completions := (s.cutAt i reason).completions
      faults := (s.cutAt i reason).faults } := by
  unfold State.cutAt
  split
  · split
    · rw [giveForm_eq]; rfl
    · rfl
    · rfl
    · split <;> rw [giveRelease_eq] <;> rfl
    · rfl
    · rfl
  · rfl

/-- A cut of one slot leaves the other slots and their entries. -/
theorem cutAt_other (s : State) (i j : SlotNo) (reason : BreakReason) (h : j ≠ i) :
    (s.cutAt i reason).slots[j] = s.slots[j] ∧ (s.cutAt i reason).completions[j] = s.completions[j] := by
  unfold State.cutAt
  split
  · split
    · rw [giveForm_get, giveForm_eq]
      simp [State.breakAt, State.report, slots_get_set, h, Record.leave, -Fin.getElem_fin]
    · simp [State.breakAt, State.report, slots_get_set, h, -Fin.getElem_fin]
    · simp [State.breakAt, State.report, slots_get_set, h, -Fin.getElem_fin]
    · split
      · rw [giveRelease_get, giveRelease_eq]
        simp [State.breakAt, State.report, slots_get_set, h, -Fin.getElem_fin]
      · rw [giveRelease_get, giveRelease_eq]
        simp [slots_get_set, h, -Fin.getElem_fin]
    · exact ⟨rfl, rfl⟩
    · exact ⟨rfl, rfl⟩
  · exact ⟨rfl, rfl⟩

/-- A cut keeps the flags that are set. -/
theorem cutAt_keeps (s : State) (i : SlotNo) (reason : BreakReason) (fl : Flag) (h : s.faults.isSet fl = true) :
    (s.cutAt i reason).faults.isSet fl = true := by
  unfold State.cutAt
  split
  · split
    · rw [giveForm_eq]; exact report_keeps _ _ _ _ h
    · exact report_keeps _ _ _ _ h
    · exact report_keeps _ _ _ _ h
    · split
      · rw [giveRelease_eq]; exact report_keeps _ _ _ _ h
      · rw [giveRelease_eq]; exact h
    · exact h
    · exact h
  · exact h

/-- What a cut reports: a BREAK event when it takes the record to BROKEN. -/
theorem cutAt_raised (s : State) (i : SlotNo) (reason : BreakReason) :
    s.faults.Raised (s.cutAt i reason).faults fun fl =>
      fl = .broke i ∧ ∃ r, s.slots[i] = some r ∧ r.state.Breaks reason := by
  have broke : ∀ {t : State} {r : Record}, s.slots[i] = some r → r.state.Breaks reason →
      t.faults = s.faults.report (.broke i) .mismatch →
      s.faults.Raised t.faults fun fl => fl = .broke i ∧ ∃ r, s.slots[i] = some r ∧ r.state.Breaks reason := by
    intro t r hr hb e
    rw [e]
    exact Raised.congr (report_raised s.faults (.broke i) _) fun o => ⟨fun h => ⟨h, r, hr, hb⟩, And.left⟩
  have none : ∀ {t : State}, (∀ r, s.slots[i] = some r → ¬ r.state.Breaks reason) → t.faults = s.faults →
      s.faults.Raised t.faults fun fl => fl = .broke i ∧ ∃ r, s.slots[i] = some r ∧ r.state.Breaks reason := by
    intro t hn e
    rw [e]
    exact Raised.congr (Raised.refl s.faults) fun o => ⟨False.elim, fun ⟨_, r, hr, hb⟩ => hn r hr hb⟩
  unfold State.cutAt
  split
  · rename_i r hr
    have only : ∀ q, s.slots[i] = some q → q = r := fun q hq => Option.some.inj (hq.symm.trans hr)
    split
    · rename_i hs
      exact broke hr (by rw [hs]; exact .inl rfl) (by rw [giveForm_eq]; rfl)
    · rename_i hs
      exact broke hr (by rw [hs]; exact .inr (.inl rfl)) rfl
    · rename_i hs
      exact broke hr (by rw [hs]; exact .inr (.inr (.inl rfl))) rfl
    · rename_i ramp hs
      split
      · rename_i hc
        exact broke hr (by rw [hs]; exact .inr (.inr (.inr ⟨hc, ramp, rfl⟩))) (by rw [giveRelease_eq]; rfl)
      · rename_i hc
        refine none (fun q hq => ?_) (by rw [giveRelease_eq]; rfl)
        rw [only q hq, hs]
        rintro (e | e | e | e)
        · cases e
        · cases e
        · cases e
        · exact hc e.1
    all_goals
      rename_i hs
      refine none (fun q hq => ?_) rfl
      rw [only q hq, hs]
      rintro (e | e | e | ⟨-, ramp, e⟩) <;> cases e
  · rename_i hr
    exact none (fun q hq => by rw [hr] at hq; cases hq) rfl

/-- Where a cut takes a ramp (R79, R80, R82). -/
def rampEnd (reason : BreakReason) : RecordState := if reason = .check then .broken .check else .idle

/-- What a cut does to its own slot (R79, R80, R82). -/
theorem cutAt_own (s : State) (i : SlotNo) (reason : BreakReason) :
    s.CutAt (s.cutAt i reason) i reason (rampEnd reason) := by
  have hget : ∀ x : Option Record, (s.slots.set i x)[i] = x := fun x => by rw [slots_get_set]; exact if_pos rfl
  constructor
  · intro h
    have e : s.cutAt i reason = s := by simp only [State.cutAt, h]
    rw [e]; exact ⟨h, rfl⟩
  · intro r h
    have inactive : r.state.isActive = false → s.cutAt i reason = s := by
      intro ha
      cases hr : r.state <;> simp only [hr, RecordState.isActive, Bool.true_eq_false] at ha <;>
        simp only [State.cutAt, h, hr]
    have forming : r.state = .forming →
        s.cutAt i reason = (s.breakAt i r reason).giveForm i (.broken reason) s.lastCapture := by
      intro hr; simp only [State.cutAt, h, hr]
    have held : r.state = .held ∨ r.state = .slipping → s.cutAt i reason = s.breakAt i r reason := by
      rintro (hr | hr) <;> simp only [State.cutAt, h, hr]
    have check : ∀ m, r.state = .releasing m → reason = .check →
        s.cutAt i reason = (s.breakAt i r reason).giveRelease i .releaseCut s.lastCapture := by
      intro m hr e; simp only [State.cutAt, h, hr, if_pos e]
    have ramp : ∀ m, r.state = .releasing m → reason ≠ .check →
        s.cutAt i reason = (s.setRecord i (r.leave .idle)).giveRelease i .releaseCut s.lastCapture := by
      intro m hr e; simp only [State.cutAt, h, hr, if_neg e]
    refine ⟨?_, ?_, ?_, ?_, ?_, ?_⟩
    · intro ha; rw [inactive ha]; exact ⟨h, rfl⟩
    · rintro (hr | hr | hr)
      · rw [forming hr, giveForm_eq]; exact ⟨hget _, report_sets _ _ _⟩
      · rw [held (.inl hr)]; exact ⟨hget _, report_sets _ _ _⟩
      · rw [held (.inr hr)]; exact ⟨hget _, report_sets _ _ _⟩
    · intro m hr
      by_cases e : reason = .check
      · rw [check m hr e, giveRelease_eq, rampEnd, if_pos e]
        subst e; exact ⟨hget _, fun _ => report_sets _ _ _⟩
      · rw [ramp m hr e, giveRelease_eq, rampEnd, if_neg e]
        exact ⟨hget _, fun e => absurd rfl e⟩
    · intro m hr hw
      refine ⟨s.collectAt s.lastCapture, collectAt_carries s _, ?_⟩
      by_cases e : reason = .check
      · rw [check m hr e, giveRelease_get]; exact if_pos ⟨rfl, hw⟩
      · rw [ramp m hr e, giveRelease_get]; exact if_pos ⟨rfl, hw⟩
    · intro hr hw
      refine ⟨s.collectAt s.lastCapture, collectAt_carries s _, ?_⟩
      rw [forming hr, giveForm_get]; exact if_pos ⟨rfl, hw⟩
    · intro h1 h2
      cases hr : r.state with
      | idle => rw [inactive (by rw [hr]; rfl)]
      | broken b => rw [inactive (by rw [hr]; rfl)]
      | forming => rw [forming hr, giveForm_get]; exact if_neg fun e => h1 e.2
      | held => rw [held (.inl hr)]; rfl
      | slipping => rw [held (.inr hr)]; rfl
      | releasing m =>
        by_cases e : reason = .check
        · rw [check m hr e, giveRelease_get]; exact if_neg fun e => h2 e.2
        · rw [ramp m hr e, giveRelease_get]; exact if_neg fun e => h2 e.2

/-- A cut seen from another state that agrees on the slot, and kept by what leaves the slot and the flags. -/
theorem CutAt.weaken {s u t w : State} {i : SlotNo} {reason : BreakReason} {e : RecordState} (h : s.CutAt u i reason e)
    (h1 : w.slots[i] = s.slots[i]) (h2 : w.completions[i] = s.completions[i])
    (h3 : w.engine = s.engine) (h4 : t.slots[i] = u.slots[i])
    (h5 : t.completions[i] = u.completions[i])
    (h6 : ∀ fl, u.faults.isSet fl = true → t.faults.isSet fl = true) : w.CutAt t i reason e := by
  unfold State.CutAt at h ⊢
  have carries : ∀ n k, w.Carries n k ↔ s.Carries n k := carries_congr (by rw [h3])
  simp only [carries]
  rw [h1, h2, h3, h4, h5]
  refine ⟨h.1, fun r hr => ?_⟩
  obtain ⟨a, b, c, d, f, g⟩ := h.2 r hr
  exact ⟨a, fun x => ⟨(b x).1, h6 _ (b x).2⟩, fun m x => ⟨(c m x).1, fun y => h6 _ ((c m x).2 y)⟩, d, f, g⟩

/-! ### Cutting every slot for which a test holds -/

/-- Cut the records of a list of slots for which a test of the record holds. -/
theorem cuts_spec (reason : BreakReason) (p : Option Record → Bool) (l : List SlotNo) (hl : l.Nodup) (s : State) :
    let t := l.foldl (fun t i => if p t.slots[i] then t.cutAt i reason else t) s
    t = { s with slots := t.slots, completions := t.completions, faults := t.faults } ∧
    s.faults.Raised t.faults (fun fl => ∃ (i : SlotNo) (r : Record), i ∈ l ∧ fl = .broke i ∧ s.slots[i] = some r ∧
      p (some r) = true ∧ r.state.Breaks reason) ∧
    (∀ i : SlotNo, i ∉ l ∨ p s.slots[i] = false →
      t.slots[i] = s.slots[i] ∧ t.completions[i] = s.completions[i]) ∧
    ∀ i ∈ l, p s.slots[i] = true → s.CutAt t i reason (rampEnd reason) := by
  induction l generalizing s with
  | nil => exact ⟨rfl, Raised.congr (Raised.refl s.faults) (by simp), fun _ _ => ⟨rfl, rfl⟩, fun i h => absurd h (by simp)⟩
  | cons j l ih =>
    obtain ⟨hj, hl⟩ := List.nodup_cons.1 hl
    simp only [List.foldl_cons]
    by_cases hpj : p s.slots[j] = true
    · simp only [hpj, if_true]
      obtain ⟨k1, k2, k3, k4⟩ := ih hl (s.cutAt j reason)
      have ho := fun i (h : i ≠ j) => cutAt_other s j i reason h
      have keeps : ∀ fl, (s.cutAt j reason).faults.isSet fl = true → _ := fun fl h => (k2.1 fl).2 (.inl h)
      refine ⟨?_, ?_, ?_, ?_⟩
      · rw [k1, cutAt_eq s j reason]
      · refine Raised.congr (Raised.trans (cutAt_raised s j reason) k2) fun fl => ?_
        constructor
        · rintro (⟨e, r, hr, hb⟩ | ⟨i, r, hi, e, hr, hp, hb⟩)
          · exact ⟨j, r, List.mem_cons_self, e, hr, hr ▸ hpj, hb⟩
          · have a : i ≠ j := by rintro rfl; exact hj hi
            exact ⟨i, r, List.mem_cons_of_mem _ hi, e, (ho i a).1 ▸ hr, hp, hb⟩
        · rintro ⟨i, r, hi, e, hr, hp, hb⟩
          rcases List.mem_cons.1 hi with rfl | hi'
          · exact .inl ⟨e, r, hr, hb⟩
          · have a : i ≠ j := by rintro rfl; exact hj hi'
            exact .inr ⟨i, r, hi', e, by rw [(ho i a).1]; exact hr, hp, hb⟩
      · rintro i (hi | hi)
        · obtain ⟨a, b⟩ := not_or.1 (fun e => hi (List.mem_cons.2 e))
          exact ⟨(k3 i (.inl b)).1.trans (ho i a).1, (k3 i (.inl b)).2.trans (ho i a).2⟩
        · have a : i ≠ j := by rintro rfl; rw [hpj] at hi; cases hi
          have b := k3 i (.inr (by rw [(ho i a).1]; exact hi))
          exact ⟨b.1.trans (ho i a).1, b.2.trans (ho i a).2⟩
      · intro i hi hpi
        rcases List.mem_cons.1 hi with rfl | hl'
        · have b := k3 i (.inl hj)
          exact CutAt.weaken (cutAt_own s i reason) rfl rfl rfl b.1 b.2 keeps
        · have a : i ≠ j := by rintro rfl; exact hj hl'
          exact CutAt.weaken (k4 i hl' (by rw [(ho i a).1]; exact hpi)) (ho i a).1.symm (ho i a).2.symm
            (by rw [cutAt_eq]) rfl rfl fun _ h => h
    · simp only [hpj]
      obtain ⟨k1, k2, k3, k4⟩ := ih hl s
      refine ⟨k1, Raised.congr k2 fun fl => ?_, ?_, ?_⟩
      · constructor
        · rintro ⟨i, r, hi, e⟩
          exact ⟨i, r, List.mem_cons_of_mem _ hi, e⟩
        · rintro ⟨i, r, hi, e, hr, hp, hb⟩
          rcases List.mem_cons.1 hi with rfl | hi'
          · exact absurd (hr ▸ hp) hpj
          · exact ⟨i, r, hi', e, hr, hp, hb⟩
      · rintro i (hi | hi)
        · exact k3 i (.inl fun e => hi (List.mem_cons_of_mem _ e))
        · exact k3 i (.inr hi)
      · intro i hi hpi
        rcases List.mem_cons.1 hi with rfl | hi
        · exact absurd hpi hpj
        · exact k4 i hi hpi

/-- The record in a slot names a channel. -/
def namesChannel (c : ChannelNo) (o : Option Record) : Bool :=
  match o with
  | some r => r.names c
  | none => false

theorem cutNaming_eq (s : State) (c : ChannelNo) (i : SlotNo) :
    s.cutNaming c i = if namesChannel c s.slots[i] then s.cutAt i .channelLost else s := by
  unfold State.cutNaming namesChannel
  cases h : s.slots[i] <;> simp

/-- The coupled indications after they are brought up to date (R63). -/
theorem recouple_agrees (s : State) : s.recouple.CoupledAgree := by
  intro c; simp [State.recouple, State.coupledNow]

/-- Whether a channel is coupled depends on the slots alone. -/
theorem coupledNow_congr {s t : State} (h : t.slots = s.slots) (c : ChannelNo) : t.coupledNow c = s.coupledNow c := by
  simp only [State.coupledNow, h]

/-- No active record names a channel whose records have been cut. -/
theorem not_coupled_of_cut {s t : State} {c : ChannelNo}
    (h : ∀ (i : SlotNo) (r : Record), s.slots[i] = some r → r.names c = true → s.CutAt t i .channelLost .idle)
    (h' : ∀ i : SlotNo, (∀ r, s.slots[i] = some r → r.names c = false) → t.slots[i] = s.slots[i]) :
    t.coupledNow c = false := by
  rw [← Bool.not_eq_true, State.coupledNow, finRange_any]
  rintro ⟨i, hi⟩
  cases hs : s.slots[i] with
  | none => rw [h' i (by simp [hs])] at hi; simp [hs] at hi
  | some r =>
    by_cases hn : r.names c = true
    · obtain ⟨a, b, d, -⟩ := (h i r hs hn).2 r hs
      cases hr : r.state with
      | idle => rw [(a (by rw [hr]; rfl)).1] at hi; simp [hr, RecordState.isActive] at hi
      | broken _ => rw [(a (by rw [hr]; rfl)).1] at hi; simp [hr, RecordState.isActive] at hi
      | releasing m => rw [(d m hr).1] at hi; simp [RecordState.isActive] at hi
      | forming => rw [(b (by simp [hr])).1] at hi; simp [RecordState.isActive] at hi
      | held => rw [(b (by simp [hr])).1] at hi; simp [RecordState.isActive] at hi
      | slipping => rw [(b (by simp [hr])).1] at hi; simp [RecordState.isActive] at hi
    · rw [h' i (by intro q hq; rw [hs] at hq; cases hq; simpa using hn), hs] at hi
      simp [hn] at hi

/-- The channel-lost notice whole: the frame, and what R21 and R79 say of the rest. -/
theorem channelLost_spec (s u : State) (c : ChannelNo) (entry : Channel) (also : Flag → Prop)
    (h : s = { u with channels := u.channels.set c entry, faults := s.faults })
    (hf : u.faults.Raised s.faults also) :
    let t := s.channelLost c
    t = { s with
      channels := t.channels, slots := t.slots, completions := t.completions, faults := t.faults
      link := { s.link with slots := t.link.slots } } ∧
    u.LostAt t c entry also := by
  have hn : ∀ t : State, ∀ l : List SlotNo, l.foldl (fun t i => t.cutNaming c i) t =
      l.foldl (fun t i => if namesChannel c t.slots[i] then t.cutAt i .channelLost else t) t := by
    intro t l; congr 1; funext t i; exact cutNaming_eq t c i
  obtain ⟨k1, k2, k3, k4⟩ := cuts_spec .channelLost (namesChannel c) (List.finRange 16) (List.nodup_finRange 16) s
  rw [← hn] at k1 k2 k3 k4
  simp only at k1 k2 k3 k4
  generalize hv : (List.finRange 16).foldl (fun t i => t.cutNaming c i) s = v at k1 k2 k3 k4
  have hch : v.channels = u.channels.set c entry := by rw [k1, h]
  have hlk : v.link = u.link := by rw [k1, h]
  have hus : ∀ i : SlotNo, u.slots[i] = s.slots[i] ∧ u.completions[i] = s.completions[i] := by
    intro i; rw [h]; exact ⟨rfl, rfl⟩
  have hue : u.engine = s.engine := by rw [h]
  have ht : s.channelLost c = ((v.recouple).zeroWrite c).report (.lost c) := by rw [State.channelLost, hv]
  have keep : ∀ fl, v.faults.isSet fl = true → (s.channelLost c).faults.isSet fl = true := by
    intro fl hf; rw [ht]; exact report_keeps _ _ _ _ hf
  have hslots : (s.channelLost c).slots = v.slots := by rw [ht]; rfl
  have hcomp : (s.channelLost c).completions = v.completions := by rw [ht]; rfl
  have cut : ∀ (i : SlotNo) (r : Record), u.slots[i] = some r → r.names c = true →
      u.CutAt (s.channelLost c) i .channelLost .idle := by
    intro i r hr hc
    have := k4 i (List.mem_finRange i) (by rw [← (hus i).1, hr]; exact hc)
    exact CutAt.weaken this (hus i).1 (hus i).2 (by rw [hue]) (by rw [hslots]) (by rw [hcomp]) keep
  have rest : ∀ i : SlotNo, (∀ r, u.slots[i] = some r → r.names c = false) →
      (s.channelLost c).slots[i] = u.slots[i] ∧ (s.channelLost c).completions[i] = u.completions[i] := by
    intro i hi
    have : namesChannel c s.slots[i] = false := by
      rw [← (hus i).1]
      cases hh : u.slots[i] with
      | none => rfl
      | some r => exact hi r hh
    rw [hslots, hcomp, (hus i).1, (hus i).2]
    exact k3 i (.inr this)
  have chan : ∀ d : ChannelNo, (s.channelLost c).channels[d] =
      { (if d = c then { entry with posted := 0 } else u.channels[d]) with coupled := v.coupledNow d } := by
    intro d
    have : (s.channelLost c).channels =
        v.recouple.channels.set c { v.recouple.channels[c] with posted := 0 } := by rw [ht]; rfl
    rw [this, channels_get_set]
    have g : ∀ e : ChannelNo, v.recouple.channels[e] = { v.channels[e] with coupled := v.coupledNow e } := by
      intro e; simp [State.recouple]
    split
    · rename_i e; subst e
      rw [g, hch, channels_get_set, if_pos rfl]
    · rename_i e
      rw [g, hch, channels_get_set, if_neg e]
  refine ⟨?_, ?_, ?_, ?_, ?_, ?_, cut, rest⟩
  · rw [ht, k1]; rfl
  · intro d
    rw [chan d, coupledNow_congr hslots]
  · rw [ht]
    show v.link.slots.set c 0 = _
    rw [hlk]
  · have last : v.faults.Raised (s.channelLost c).faults (· = .lost c) := by
      rw [ht]; exact report_raised v.faults (.lost c) _
    refine Raised.congr (Raised.trans (Raised.trans hf k2) last) fun fl => ?_
    constructor
    · rintro ((e | ⟨i, r, -, e, hr, hp, hb⟩) | e)
      · exact .inl e
      · exact .inr (.inr ⟨i, r, e, (hus i).1.trans hr, hp, hb⟩)
      · exact .inr (.inl e)
    · rintro (e | e | ⟨i, r, e, hr, hp, hb⟩)
      · exact .inl (.inl e)
      · exact .inr e
      · exact .inl (.inr ⟨i, r, List.mem_finRange i, e, (hus i).1.symm.trans hr, hp, hb⟩)
  · rw [chan c, if_pos rfl]
    have : v.coupledNow c = false := by
      rw [← coupledNow_congr hslots]
      exact not_coupled_of_cut cut fun i hi => (rest i hi).1
    rw [this]
  · intro d hd
    rw [chan d, if_neg hd]

/-- Cut the records of every slot. -/
theorem cutAll_spec (s v : State) (hv : (List.finRange 16).foldl (fun t i => t.cutAt i .stop) s = v) :
    v = { s with slots := v.slots, completions := v.completions, faults := v.faults } ∧
    s.faults.Raised v.faults (fun fl => ∃ (i : SlotNo) (r : Record), fl = .broke i ∧ s.slots[i] = some r ∧
      r.state.Breaks .stop) ∧
    ∀ i : SlotNo, s.CutAt v i .stop .idle := by
  obtain ⟨k1, k2, -, k4⟩ := cuts_spec .stop (fun _ => true) (List.finRange 16) (List.nodup_finRange 16) s
  have e : (fun (t : State) (i : SlotNo) => if (fun _ => true) t.slots[i] = true then t.cutAt i .stop else t) =
      fun t i => t.cutAt i .stop := by
    funext t i; exact if_pos rfl
  rw [e, hv] at k1 k2 k4
  refine ⟨k1, Raised.congr k2 fun fl => ?_, fun i => k4 i (List.mem_finRange i) rfl⟩
  constructor
  · rintro ⟨i, r, -, e, hr, -, hb⟩
    exact ⟨i, r, e, hr, hb⟩
  · rintro ⟨i, r, e, hr, hb⟩
    exact ⟨i, r, List.mem_finRange i, e, hr, rfl, hb⟩

/-- STOP taken: the frame, and what R80 says of the rest. -/
theorem takeStop_spec (s : State) :
    s.takeStop = { s with
      engine := { s.engine with stopTaken := true }
      channels := Vector.ofFn fun c => { s.channels[c] with coupled := false, posted := 0 }
      link := { s.link with slots := Vector.replicate 8 0 }
      slots := s.takeStop.slots
      completions := s.takeStop.completions
      faults := s.takeStop.faults } ∧
    s.faults.Raised s.takeStop.faults (fun fl => fl = .stop ∨
      ∃ (i : SlotNo) (r : Record), fl = .broke i ∧ s.slots[i] = some r ∧ r.state.Breaks .stop) ∧
    s.takeStop.anyActive = false ∧ ∀ i : SlotNo, s.CutAt s.takeStop i .stop .idle := by
  have ht : s.takeStop = State.report { (List.finRange 16).foldl (fun t i => t.cutAt i .stop) s with
      engine := { ((List.finRange 16).foldl (fun t i => t.cutAt i .stop) s).engine with stopTaken := true }
      channels := Vector.ofFn fun c =>
        { ((List.finRange 16).foldl (fun t i => t.cutAt i .stop) s).channels[c] with coupled := false, posted := 0 }
      link := { ((List.finRange 16).foldl (fun t i => t.cutAt i .stop) s).link with
        slots := Vector.replicate 8 0 } } .stop := by
    unfold State.takeStop; rfl
  obtain ⟨v, hv⟩ : ∃ v, (List.finRange 16).foldl (fun t i => t.cutAt i .stop) s = v := ⟨_, rfl⟩
  rw [hv] at ht
  obtain ⟨k1, k2, k4⟩ := cutAll_spec s v hv
  clear hv
  generalize s.takeStop = w at ht ⊢
  have cut : ∀ i : SlotNo, s.CutAt w i .stop .idle := by
    intro i
    refine CutAt.weaken (k4 i) rfl rfl rfl ?_ ?_ ?_
    · rw [ht]; rfl
    · rw [ht]; rfl
    · intro fl hf; rw [ht]; exact report_keeps _ _ _ _ hf
  have e1 : w.slots = v.slots := by rw [ht]; rfl
  have e2 : w.completions = v.completions := by rw [ht]; rfl
  refine ⟨?_, ?_, ?_, cut⟩
  · rw [e1, e2]
    conv_lhs => rw [ht, k1]
    rw [ht]; rfl
  · have last : v.faults.Raised w.faults (· = .stop) := by
      rw [ht]; exact report_raised v.faults .stop _
    exact Raised.congr (Raised.trans k2 last) fun fl => or_comm
  · rw [← Bool.not_eq_true, State.anyActive, finRange_any]
    rintro ⟨i, hi⟩
    unfold State.activeAt at hi
    cases hs : s.slots[i] with
    | none => rw [((cut i).1 hs).1] at hi; simp at hi
    | some r =>
      obtain ⟨a, b, d, -⟩ := (cut i).2 r hs
      cases hr : r.state with
      | idle => rw [(a (by rw [hr]; rfl)).1] at hi; simp [hr, RecordState.isActive] at hi
      | broken _ => rw [(a (by rw [hr]; rfl)).1] at hi; simp [hr, RecordState.isActive] at hi
      | releasing m => rw [(d m hr).1] at hi; simp [RecordState.isActive] at hi
      | forming => rw [(b (by simp [hr])).1] at hi; simp [RecordState.isActive] at hi
      | held => rw [(b (by simp [hr])).1] at hi; simp [RecordState.isActive] at hi
      | slipping => rw [(b (by simp [hr])).1] at hi; simp [RecordState.isActive] at hi

end Sys2Proof.Machine
end

