-- ==== Sys2Proof/Laws/Channel.lean ====
section
/-! SUPPORT. What a channel event does at the Channel Table and, when it sends the channel-lost notice, beyond it. -/

namespace Sys2Proof.Machine

/-- A report that is made or not changes the flags alone. -/
theorem reportIf_eq (s : State) (b : Bool) (fl : Flag) :
    s.reportIf b fl = { s with faults := (s.reportIf b fl).faults } := by
  unfold State.reportIf
  split <;> rfl

/-- The state in which the notice of a channel event, if any, is sent. -/
def State.beforeNotice (s : State) (c : ChannelNo) (st : ChannelStep) : State :=
  (((s.setChannel c st.entry).reportIf st.suspect (.capture c)).reportIf st.overspeed (.overspeed c)).reportIf
    st.driveLimit (.driveLimit c)

theorem beforeNotice_eq (s : State) (c : ChannelNo) (st : ChannelStep) :
    s.beforeNotice c st =
      { s with channels := s.channels.set c st.entry, faults := (s.beforeNotice c st).faults } := by
  unfold State.beforeNotice
  rw [reportIf_eq _ st.driveLimit, reportIf_eq _ st.overspeed, reportIf_eq _ st.suspect]
  rfl

/-- The flags a channel event reports itself (R13, R17, R20). -/
def ChannelStep.Reports (st : ChannelStep) (c : ChannelNo) (fl : Flag) : Prop :=
  (fl = .capture c ∧ st.suspect = true) ∨ (fl = .overspeed c ∧ st.overspeed = true) ∨
    (fl = .driveLimit c ∧ st.driveLimit = true)

/-- The flags reported before the notice. -/
theorem beforeNotice_raised (s : State) (c : ChannelNo) (st : ChannelStep) :
    s.faults.Raised (s.beforeNotice c st).faults (st.Reports c) :=
  Raised.congr
    (Raised.trans (Raised.trans (reportIf_raised (s.setChannel c st.entry) _ _) (reportIf_raised _ _ _))
      (reportIf_raised _ _ _))
    fun _ => or_assoc

/-- A channel event whole: without the notice the entry and flags change; with it, as R21 and R79 say. -/
theorem takeChannelStep_spec (s : State) (c : ChannelNo) (st : ChannelStep) :
    let t := s.takeChannelStep c st
    (st.lost = false → t = { s with channels := s.channels.set c st.entry, faults := t.faults } ∧
      s.faults.Raised t.faults (st.Reports c)) ∧
    (st.lost = true → s.LostAt t c st.entry (st.Reports c) ∧
      t = { s with
        channels := t.channels, slots := t.slots, completions := t.completions, faults := t.faults
        link := { s.link with slots := t.link.slots } }) := by
  have e : s.takeChannelStep c st = if st.lost then (s.beforeNotice c st).channelLost c else s.beforeNotice c st := rfl
  have frame := beforeNotice_eq s c st
  constructor
  · intro h
    rw [e, if_neg (by simp [h])]
    exact ⟨frame, beforeNotice_raised s c st⟩
  · intro h
    rw [e, if_pos h]
    obtain ⟨k1, k3⟩ := channelLost_spec (s.beforeNotice c st) s c st.entry _ frame (beforeNotice_raised s c st)
    refine ⟨k3, ?_⟩
    generalize (s.beforeNotice c st).channelLost c = w at k1
    conv_lhs => rw [k1, frame]

end Sys2Proof.Machine
end

