-- ==== Sys2Proof/Laws/Compute.lean ====
section
/-! SUPPORT. What a computation leaves of the tables and the drive link. -/

namespace Sys2Proof.Machine

/-- Reporting one record's advance changes entries and flags alone. -/
theorem reportAdvance_eq (s : State) (i : SlotNo) (a : Option Advance) (n : Word) :
    s.reportAdvance i a n = { s with
      completions := (s.reportAdvance i a n).completions, faults := (s.reportAdvance i a n).faults } := by
  cases a with
  | none => rfl
  | some a =>
    simp only [State.reportAdvance, State.reportIf]
    have e : s.giveEnding i a.ending n = { s with completions := (s.giveEnding i a.ending n).completions } := by
      unfold State.giveEnding
      split
      · exact giveForm_eq _ _ _ _
      · exact giveForm_eq _ _ _ _
      · exact giveRelease_eq _ _ _ _
      · rfl
    rw [e]
    split <;> split <;> rfl

/-- The entries after one record's advance has been reported. -/
theorem reportAdvance_entries (s : State) (i j : SlotNo) (a : Option Advance) (n : Word) :
    (s.reportAdvance i a n).completions[j] =
      match a with
      | some a => (s.giveEnding i a.ending n).completions[j]
      | none => s.completions[j] := by
  cases a with
  | none => rfl
  | some a =>
    simp only [State.reportAdvance, State.reportIf]
    split <;> split <;> rfl

/-- The outcome of one record reaches its own entry alone. -/
theorem giveEnding_other (s : State) (i j : SlotNo) (e : Option Ending) (n : Word) (h : j ≠ i) :
    (s.giveEnding i e n).completions[j] = s.completions[j] := by
  unfold State.giveEnding
  split
  · rw [giveForm_get]; exact if_neg fun k => h k.1
  · rw [giveForm_get]; exact if_neg fun k => h k.1
  · rw [giveRelease_get]; exact if_neg fun k => h k.1
  · rfl

/-- The events that a record's advance reports (R69). -/
def Advance.Reports (a : Advance) (i : SlotNo) (fl : Flag) : Prop :=
  (fl = .slip i ∧ a.slipped = true) ∨ (fl = .broke i ∧ a.broke = true)

/-- Giving an outcome leaves the flags. -/
theorem giveEnding_faults (s : State) (i : SlotNo) (e : Option Ending) (n : Word) :
    (s.giveEnding i e n).faults = s.faults := by
  unfold State.giveEnding
  split
  · rw [giveForm_eq]
  · rw [giveForm_eq]
  · rw [giveRelease_eq]
  · rfl

/-- Reporting one record's advance sets its SLIP and BREAK flags (R69). -/
theorem reportAdvance_raised (s : State) (i : SlotNo) (a : Option Advance) (n : Word) :
    s.faults.Raised (s.reportAdvance i a n).faults fun fl => ∃ b, a = some b ∧ b.Reports i fl := by
  cases a with
  | none => exact Raised.congr (Raised.refl s.faults) fun fl => by simp
  | some a =>
    have h := Raised.trans (reportIf_raised (s.giveEnding i a.ending n) a.slipped (.slip i))
      (reportIf_raised _ a.broke (.broke i))
    rw [giveEnding_faults] at h
    exact Raised.congr h fun fl => ⟨fun h => ⟨a, rfl, h⟩, fun ⟨b, e, h⟩ => by cases e; exact h⟩

/-- Reporting the advances of a list of slots: the frame, and each slot's entry and flags. -/
theorem reportAdvances_spec (adv : SlotNo → Option Advance) (n : Word) (l : List SlotNo) (hl : l.Nodup) (s : State) :
    let t := l.foldl (fun t i => t.reportAdvance i (adv i) n) s
    t = { s with completions := t.completions, faults := t.faults } ∧
    s.faults.Raised t.faults (fun fl => ∃ i a, i ∈ l ∧ adv i = some a ∧ a.Reports i fl) ∧
    (∀ i ∉ l, t.completions[i] = s.completions[i]) ∧
    ∀ i ∈ l, t.completions[i] = match adv i with
      | some a => (s.giveEnding i a.ending n).completions[i]
      | none => s.completions[i] := by
  induction l generalizing s with
  | nil => exact ⟨rfl, Raised.congr (Raised.refl s.faults) (by simp), fun _ _ => rfl, fun i h => absurd h (by simp)⟩
  | cons j l ih =>
    obtain ⟨hj, hl⟩ := List.nodup_cons.1 hl
    simp only [List.foldl_cons]
    obtain ⟨k1, k2, k3, k4⟩ := ih hl (s.reportAdvance j (adv j) n)
    have other : ∀ i ≠ j, (s.reportAdvance j (adv j) n).completions[i] = s.completions[i] := by
      intro i h
      rw [reportAdvance_entries]
      split
      · exact giveEnding_other _ _ _ _ _ h
      · rfl
    have ending : ∀ i ≠ j, ∀ e, ((s.reportAdvance j (adv j) n).giveEnding i e n).completions[i] =
        (s.giveEnding i e n).completions[i] := by
      intro i h e
      have c : (s.reportAdvance j (adv j) n).collectAt n = s.collectAt n := by rw [reportAdvance_eq]; rfl
      unfold State.giveEnding
      split
      · rw [giveForm_get, giveForm_get, other i h, c]
      · rw [giveForm_get, giveForm_get, other i h, c]
      · rw [giveRelease_get, giveRelease_get, other i h, c]
      · exact other i h
    refine ⟨?_, Raised.congr (Raised.trans (reportAdvance_raised s j (adv j) n) k2) fun fl => ?_, ?_, ?_⟩
    · rw [k1, reportAdvance_eq s j (adv j) n]
    · constructor
      · rintro (⟨a, e, h⟩ | ⟨i, a, hi, e⟩)
        · exact ⟨j, a, List.mem_cons_self, e, h⟩
        · exact ⟨i, a, List.mem_cons_of_mem _ hi, e⟩
      · rintro ⟨i, a, hi, e⟩
        rcases List.mem_cons.1 hi with rfl | hi'
        · exact .inl ⟨a, e⟩
        · exact .inr ⟨i, a, hi', e⟩
    · intro i hi
      obtain ⟨a, b⟩ := not_or.1 (fun e => hi (List.mem_cons.2 e))
      rw [k3 i b, other i a]
    · intro i hi
      rcases List.mem_cons.1 hi with rfl | hi'
      · rw [k3 i hj, reportAdvance_entries]
      · have a : i ≠ j := by rintro rfl; exact hj hi'
        rw [k4 i hi']
        split
        · rename_i b hb; exact ending i a b.ending
        · exact other i a

/-- A post changes the link and the flags alone (R117, R123). -/
theorem takePost_eq (s : State) (v : Vector Int 8) (n : Word) :
    s.takePost v n = { s with link := (s.takePost v n).link, faults := (s.takePost v n).faults } ∧
    (s.takePost v n).link.slots = v ∧ (s.takePost v n).link.roundCapture = n := by
  unfold State.takePost
  split
  · unfold State.nextExchange
    split <;> exact ⟨rfl, rfl, rfl⟩
  · exact ⟨rfl, rfl, rfl⟩

/-- The state in which a computation makes its post. -/
def State.beforePost (s : State) (n : Word) : State :=
  (List.finRange 16).foldl (fun t i => t.reportAdvance i (s.advanceAt i) n) (s.computed n).recouple

theorem compute_eq (s : State) (n : Word) : s.compute n = (s.beforePost n).takePost (Vector.ofFn s.postFor) n := rfl

/-- What stands when the post is made: the frame, and each entry and flag (R69, R109, R110). -/
theorem beforePost_spec (s : State) (n : Word) :
    s.beforePost n = { s with
      slots := Vector.ofFn s.computedAt
      channels := (s.computed n).recouple.channels
      engine := { s.engine with lastComputed := some n }
      completions := (s.beforePost n).completions
      faults := (s.beforePost n).faults } ∧
    s.faults.Raised (s.beforePost n).faults (fun fl => ∃ i a, s.advanceAt i = some a ∧ a.Reports i fl) ∧
    ∀ i : SlotNo, (s.beforePost n).completions[i] = match s.advanceAt i with
      | some a => ((s.computed n).recouple.giveEnding i a.ending n).completions[i]
      | none => s.completions[i] := by
  obtain ⟨k1, k2, -, k4⟩ := reportAdvances_spec s.advanceAt n (List.finRange 16) (List.nodup_finRange 16)
    (s.computed n).recouple
  have e : s.beforePost n =
      (List.finRange 16).foldl (fun t i => t.reportAdvance i (s.advanceAt i) n) (s.computed n).recouple := rfl
  rw [← e] at k1 k2 k4
  generalize s.beforePost n = w at k1 k2 k4
  refine ⟨?_, Raised.congr k2 fun fl => ?_, fun i => k4 i (List.mem_finRange i)⟩
  case refine_2 => simp only [List.mem_finRange, true_and]
  conv_lhs => rw [k1]
  rfl

/-- A computation whole: the state it leaves, with what is said of its entries, flags and link. -/
theorem compute_spec (s : State) (n : Word) : ∃ (entries : Vector (Option Completion) 16) (f : FaultUnit) (l : Link),
    s.compute n = { s with
      slots := Vector.ofFn s.computedAt
      channels := Vector.ofFn fun c =>
        { s.channels[c] with
          limited := s.ceilingActs c, posted := s.postFor c, coupled := (s.computed n).coupledNow c }
      engine := { s.engine with lastComputed := some n }
      completions := entries
      faults := f
      link := l } ∧
    (∀ i : SlotNo, entries[i] = match s.advanceAt i with
      | some a => ((s.computed n).recouple.giveEnding i a.ending n).completions[i]
      | none => s.completions[i]) ∧
    s.faults.Raised f (fun fl => (∃ i a, s.advanceAt i = some a ∧ a.Reports i fl) ∨
      (fl = .linkOverrun ∧ s.link.round.isSome = true)) ∧
    l.slots = Vector.ofFn s.postFor ∧ l.roundCapture = n ∧
    (∀ rd, s.link.round = some rd → l = Link.countSkips { s.link with slots := Vector.ofFn s.postFor, roundCapture := n }) ∧
    (s.link.round = none → l.counts = s.link.counts ∧
      (s.enabledChannels = [] → l.round = none) ∧
      ∀ c rest, s.enabledChannels = c :: rest → l.round = some
        { earlier := []
          message := { channel := c, capture := n.setWidth 8, torque := s.postFor c
                       coupled := (s.computed n).coupledNow c }
          phase := .sending
          remaining := rest }) := by
  obtain ⟨b1, b2, b3⟩ := beforePost_spec s n
  obtain ⟨entries, hc⟩ : ∃ c, c = (s.beforePost n).completions := ⟨_, rfl⟩
  obtain ⟨g, hg⟩ : ∃ g, g = (s.beforePost n).faults := ⟨_, rfl⟩
  rw [← hc, ← hg] at b1
  rw [← hc] at b3
  rw [← hg] at b2
  have hch : (s.computed n).recouple.channels = Vector.ofFn fun c => { s.channels[c] with
      limited := s.ceilingActs c, posted := s.postFor c, coupled := (s.computed n).coupledNow c } := by
    simp [State.recouple, State.computed]
  rw [hch] at b1
  clear hc hg
  rw [compute_eq, b1]
  cases hr : s.link.round with
  | some rd =>
    simp only [State.takePost, hr]
    refine ⟨entries, g.report .linkOverrun .mismatch, _, rfl, b3,
      Raised.congr (Raised.trans b2 (report_raised g .linkOverrun .mismatch)) fun fl => by simp, rfl, rfl,
      fun _ _ => rfl, fun h => by cases h⟩
  | none =>
    have b2 := Raised.congr b2 (b := fun fl => (∃ i a, s.advanceAt i = some a ∧ a.Reports i fl) ∨
      (fl = .linkOverrun ∧ (none : Option Round).isSome = true)) fun fl => by simp
    have he : ∀ t : State, (∀ c : ChannelNo, t.channels[c].state = s.channels[c].state) →
        t.enabledChannels = s.enabledChannels := by
      intro t ht
      unfold State.enabledChannels
      congr 1
      funext c
      rw [ht c]
    simp only [State.takePost, hr]
    rw [he _ (by intro c; simp)]
    cases hen : s.enabledChannels with
    | nil =>
      refine ⟨entries, g, _, rfl, b3, b2, rfl, rfl, ?_, ?_⟩
      · intro _ h; cases h
      · intro _; exact ⟨rfl, fun _ => rfl, fun _ _ h => by cases h⟩
    | cons c rest =>
      refine ⟨entries, g, _, rfl, b3, b2, rfl, rfl, ?_, ?_⟩
      · intro _ h; cases h
      · intro _
        refine ⟨rfl, fun h => (by cases h), fun d tail h => ?_⟩
        cases h
        simp [State.correctionFor]

end Sys2Proof.Machine
end

