-- ==== Sys2Proof/Laws/Active.lean ====
section
/-! SUPPORT. What an edit does field by field, and what each change of the Coupling Table does to the active records. -/

namespace Sys2Proof.Machine

/-! ### Edits -/

/-- The written values replace the written fields and leave the others (R94, R96). -/
theorem over_field (b : EditBuffer) (cfg : RecordConfig) (f : RecordField) :
    (b.over cfg).field f = match b.written[f.place] with
      | some w => (cfg.setField f w).field f
      | none => cfg.field f := by
  have all : ∀ (l : List RecordField) (c : RecordConfig), l.Nodup →
      (l.foldl (fun k f => match b.written[f.place] with
        | some w => k.setField f w
        | none => k) c).field f =
        if f ∈ l then
          match b.written[f.place] with
          | some w => (c.setField f w).field f
          | none => c.field f
        else c.field f := by
    intro l
    induction l with
    | nil => exact fun _ _ => rfl
    | cons g l ih =>
      intro c hn
      rw [List.nodup_cons] at hn
      rw [List.foldl_cons, ih _ hn.2]
      by_cases hg : f = g
      · subst hg
        simp [hn.1]
        cases b.written[f.place] <;> rfl
      · have other : ∀ w, (c.setField g w).field f = c.field f := by
          intro w
          cases f <;> cases g <;> first | rfl | exact absurd rfl hg
        have written : ∀ w v, ((c.setField g w).setField f v).field f = (c.setField f v).field f := by
          intro w v
          cases f <;> cases g <;> rfl
        cases b.written[g.place] with
        | none => simp [hg]
        | some w => simp only [List.mem_cons, hg, false_or, other, written]
  exact (all RecordField.all cfg (by decide)).trans (if_pos (by cases f <;> decide))

/-- Edits of two configurations that give a field of one what the other has leave the other's field as it was. -/
theorem over_leaves (b : EditBuffer) (base cfg : RecordConfig) (f : RecordField)
    (h : (b.over base).field f = cfg.field f) : (b.over cfg).field f = cfg.field f := by
  rw [over_field] at h ⊢
  cases hw : b.written[f.place] with
  | none => rfl
  | some w =>
    rw [hw] at h
    simp only at h ⊢
    rw [← h]
    cases f <;> rfl

/-- An edit that passes validation leaves the pair of an active record (R24, R94). -/
theorem pair_of_accepted {b : EditBuffer} {slots : Slots} {i : SlotNo} {base : RecordConfig} {r : Record}
    (h : b.rejection slots = none) (ht : b.target = .existing i base) (hr : slots[i] = some r)
    (ha : r.state.isActive = true) :
    (b.over r.cfg).leaderNo = r.cfg.leaderNo ∧ (b.over r.cfg).followerNo = r.cfg.followerNo := by
  have still : movesActivePair slots b = false := by
    rw [← Bool.not_eq_true]
    intro moves
    unfold EditBuffer.rejection at h
    rw [if_pos moves] at h
    repeat' split at h
    all_goals cases h
  simp only [movesActivePair, ht, hr, ha, Bool.true_and, Bool.or_eq_false_iff, bne_eq_false_iff_eq, EditBuffer.result]
    at still
  have field8 : ∀ x y : Byte, x.setWidth 32 = y.setWidth 32 → x = y := by
    intro x y e
    have := congrArg (BitVec.setWidth 8) e
    simpa using this
  have l : ((b.over r.cfg).leader.setWidth 32) = r.cfg.leader.setWidth 32 :=
    over_leaves b b.base r.cfg .leader (congrArg (BitVec.setWidth 32) still.1)
  have f : ((b.over r.cfg).follower.setWidth 32) = r.cfg.follower.setWidth 32 :=
    over_leaves b b.base r.cfg .follower (congrArg (BitVec.setWidth 32) still.2)
  unfold RecordConfig.leaderNo RecordConfig.followerNo
  rw [field8 _ _ l, field8 _ _ f]
  exact ⟨rfl, rfl⟩

/-! ### Narrowing -/

/-- Every record active in `t` was active in `s` with the same pair. -/
def State.Narrows (s t : State) : Prop :=
  ∀ (i : SlotNo) (q : Record), t.slots[i] = some q → q.state.isActive = true →
    ∃ r, s.slots[i] = some r ∧ r.state.isActive = true ∧ r.cfg.leaderNo = q.cfg.leaderNo ∧
      r.cfg.followerNo = q.cfg.followerNo

theorem narrows_of_slots {s t : State} (h : t.slots = s.slots) : s.Narrows t :=
  fun _ q hq ha => ⟨q, h ▸ hq, ha, rfl, rfl⟩

theorem State.Narrows.trans {s t u : State} (h : s.Narrows t) (g : t.Narrows u) : s.Narrows u := by
  intro i q hq ha
  obtain ⟨p, hp, ap, lp, fp⟩ := g i q hq ha
  obtain ⟨r, hr, ar, lr, fr⟩ := h i p hp ap
  exact ⟨r, hr, ar, lr.trans lp, fr.trans fp⟩

/-- A record replaced by one that is active with its pair only if it was. -/
theorem narrows_set {s t : State} {i : SlotNo} {r q : Record} (hr : s.slots[i] = some r)
    (ht : t.slots = s.slots.set i (some q))
    (h : q.state.isActive = true → r.state.isActive = true ∧ r.cfg.leaderNo = q.cfg.leaderNo ∧
      r.cfg.followerNo = q.cfg.followerNo) : s.Narrows t := by
  intro j p hp ha
  rw [ht, slots_get_set] at hp
  split at hp
  · rename_i e
    subst e
    cases hp
    exact ⟨r, hr, h ha⟩
  · exact ⟨p, hp, ha, rfl, rfl⟩

/-- A slot that takes a record outside the active states, or none. -/
theorem narrows_clear {s t : State} {i : SlotNo} {o : Option Record} (ht : t.slots = s.slots.set i o)
    (h : ∀ q, o = some q → q.state.isActive = false) : s.Narrows t := by
  intro j p hp ha
  rw [ht, slots_get_set] at hp
  split at hp
  · rw [h p hp] at ha
    cases ha
  · exact ⟨p, hp, ha, rfl, rfl⟩

/-- A cut leaves no active record in its slot, and keeps the configuration and the phase error. -/
theorem CutAt.record {s t : State} {i : SlotNo} {reason : BreakReason} {e : RecordState} (h : s.CutAt t i reason e)
    (he : e.isActive = false) {q : Record} (hq : t.slots[i] = some q) :
    q.state.isActive = false ∧ ∃ r, s.slots[i] = some r ∧ q.cfg = r.cfg ∧ q.error = r.error := by
  cases hs : s.slots[i] with
  | none =>
    rw [(h.1 hs).1] at hq
    cases hq
  | some r =>
    obtain ⟨a, b, d, -⟩ := h.2 r hs
    have broken : r.state = .forming ∨ r.state = .held ∨ r.state = .slipping →
        q.state.isActive = false ∧ ∃ p, some r = some p ∧ q.cfg = p.cfg ∧ q.error = p.error := by
      intro hr
      rw [(b hr).1] at hq
      cases hq
      exact ⟨rfl, r, rfl, rfl, rfl⟩
    have same : r.state.isActive = false →
        q.state.isActive = false ∧ ∃ p, some r = some p ∧ q.cfg = p.cfg ∧ q.error = p.error := by
      intro hr
      rw [(a hr).1] at hq
      cases hq
      exact ⟨hr, q, rfl, rfl, rfl⟩
    cases hr : r.state with
    | idle => exact same (by rw [hr]; rfl)
    | broken _ => exact same (by rw [hr]; rfl)
    | releasing m =>
      rw [(d m hr).1] at hq
      cases hq
      exact ⟨he, r, rfl, rfl, rfl⟩
    | forming => exact broken (by simp [hr])
    | held => exact broken (by simp [hr])
    | slipping => exact broken (by simp [hr])

/-- After a channel loss the active records are those that do not name the channel. -/
theorem narrows_lost {s t : State} {c : ChannelNo} {entry : Channel} {also : Flag → Prop}
    (h : s.LostAt t c entry also) :
    s.Narrows t ∧
      ∀ (i : SlotNo) (q : Record), t.slots[i] = some q → q.state.isActive = true → q.names c = false := by
  obtain ⟨-, -, -, -, -, cut, rest⟩ := h
  have key : ∀ (i : SlotNo) (q : Record), t.slots[i] = some q → q.state.isActive = true →
      s.slots[i] = some q ∧ q.names c = false := by
    intro i q hq ha
    by_cases hn : ∀ r, s.slots[i] = some r → r.names c = false
    · have e := (rest i hn).1
      rw [hq] at e
      exact ⟨e.symm, hn q e.symm⟩
    · push Not at hn
      obtain ⟨r, hr, hn⟩ := hn
      have := (CutAt.record (cut i r hr (by simpa using hn)) rfl hq).1
      rw [ha] at this
      cases this
  exact ⟨fun i q hq ha => ⟨q, (key i q hq ha).1, ha, rfl, rfl⟩, fun i q hq ha => (key i q hq ha).2⟩

/-- A channel event narrows the active records. -/
theorem narrows_channelStep (s : State) (c : ChannelNo) (st : ChannelStep) : s.Narrows (s.takeChannelStep c st) := by
  obtain ⟨k1, k2⟩ := takeChannelStep_spec s c st
  cases hl : st.lost with
  | false => exact narrows_of_slots (by rw [(k1 hl).1])
  | true => exact (narrows_lost (k2 hl).1).1

theorem narrows_stop (s : State) : s.Narrows s.takeStop := by
  intro i q hq ha
  have := (CutAt.record ((takeStop_spec s).2.2.2 i) rfl hq).1
  rw [ha] at this
  cases this

/-- An applied edit gives no active record another pair, and makes none active. -/
theorem narrows_edit (s : State) (b : EditBuffer) (h : b.rejection s.slots = none) :
    s.Narrows { s with slots := b.applied s.slots } := by
  unfold EditBuffer.applied
  split
  · split
    · exact narrows_clear rfl fun q hq => by cases hq; rfl
    · exact narrows_of_slots rfl
  · rename_i i base ht
    split
    · rename_i r hr
      refine narrows_set hr rfl fun ha => ?_
      obtain ⟨l, f⟩ := pair_of_accepted h ht hr ha
      exact ⟨ha, l.symm, f.symm⟩
    · exact narrows_of_slots rfl

theorem narrows_release (s : State) (i : SlotNo) (r : Record) (hr : s.slots[i] = some r) :
    s.Narrows (s.releaseAt i r) := by
  have held : r.state = .held ∨ r.state = .slipping →
      s.Narrows (s.setRecord i (r.leave (.releasing { start := r.correction, step := 0 }))) :=
    fun h => narrows_set hr rfl fun _ => ⟨by rcases h with h | h <;> rw [h] <;> rfl, rfl, rfl⟩
  unfold State.releaseAt
  split
  · exact narrows_of_slots rfl
  · exact narrows_of_slots rfl
  · refine narrows_clear (i := i) (o := some (r.leave .idle)) ?_ fun q hq => by cases hq; rfl
    rw [giveForm_eq]
    rfl
  · exact held (.inl (by assumption))
  · exact held (.inr (by assumption))
  · exact narrows_clear rfl fun q hq => by cases hq; rfl

theorem narrows_recordCheck (s : State) (i : SlotNo) : s.Narrows (s.recordMismatch i) := by
  have slots : (s.recordMismatch i).slots = ((s.cutAt i .check).markFailed i).slots := rfl
  intro j q hq ha
  rw [slots] at hq
  have other : ∀ j : SlotNo, j ≠ i → ((s.cutAt i .check).markFailed i).slots[j] = s.slots[j] := by
    intro j h
    unfold State.markFailed
    split
    · exact (slots_get_set _ _ _ _).trans ((if_neg h).trans (cutAt_other s i j .check h).1)
    · exact (cutAt_other s i j .check h).1
  by_cases e : j = i
  · subst e
    exfalso
    unfold State.markFailed at hq
    split at hq
    · rename_i p hp
      have h := (CutAt.record (cutAt_own s j .check) rfl hp).1
      have hq := (slots_get_set _ _ _ _).symm.trans hq
      rw [if_pos rfl] at hq
      cases hq
      rw [show p.state.isActive = true from ha] at h
      cases h
    · have h := (CutAt.record (cutAt_own s j .check) rfl hq).1
      rw [ha] at h
      cases h
  · rw [other j e] at hq
    exact ⟨q, hq, ha, rfl, rfl⟩

/-- A record active after its advance was active before, with its configuration kept (R69). -/
theorem advance_active (p : CapturePeriod) (uL uF : Int) (up : Bool) (r : Record) :
    (r.advance p uL uF up).record.cfg = r.cfg ∧
      ((r.advance p uL uF up).record.state.isActive = true → r.state.isActive = true) := by
  unfold Record.advance
  split
  · split <;> exact ⟨rfl, id⟩
  · refine ⟨?_, fun _ => by simp [*, RecordState.isActive]⟩
    unfold Record.advanceForming
    simp only
    repeat' split
    all_goals rfl
  · refine ⟨?_, fun _ => by simp [*, RecordState.isActive]⟩
    unfold Record.advanceHeld
    simp only
    repeat' split
    all_goals rfl
  · refine ⟨?_, fun _ => by simp [*, RecordState.isActive]⟩
    unfold Record.advanceSlipping
    simp only
    repeat' split
    all_goals rfl
  · refine ⟨?_, fun _ => by simp [*, RecordState.isActive]⟩
    unfold Record.advanceReleasing
    simp only
    repeat' split
    all_goals rfl
  · exact ⟨rfl, id⟩

theorem corrected_keeps (p : CapturePeriod) (r : Record) :
    (r.corrected p).cfg = r.cfg ∧ (r.corrected p).state = r.state ∧ (r.corrected p).error = r.error := by
  unfold Record.corrected
  split <;> exact ⟨rfl, rfl, rfl⟩

theorem narrows_compute (s : State) (n : Word) : s.Narrows (s.compute n) := by
  intro i q hq ha
  obtain ⟨e, f, l, k, -⟩ := compute_spec s n
  rw [k] at hq
  simp only [Fin.getElem_fin, Vector.getElem_ofFn] at hq
  unfold State.computedAt State.correctedAt State.advanceAt at hq
  cases hs : s.slots[i] with
  | none =>
    rw [hs] at hq
    cases hq
  | some r =>
    rw [hs] at hq
    cases hq
    obtain ⟨cfg, act⟩ := advance_active s.engine.period s.channels[r.cfg.leaderNo].travel
      s.channels[r.cfg.followerNo].travel
      (s.channels[r.cfg.leaderNo].state.isUp && s.channels[r.cfg.followerNo].state.isUp) r
    obtain ⟨kc, ks, -⟩ := corrected_keeps s.engine.period (r.advance s.engine.period s.channels[r.cfg.leaderNo].travel
      s.channels[r.cfg.followerNo].travel
      (s.channels[r.cfg.leaderNo].state.isUp && s.channels[r.cfg.followerNo].state.isUp)).record
    refine ⟨r, rfl, act ?_, ?_, ?_⟩
    · rw [← ks]
      exact ha
    · show r.cfg.leaderNo = (Record.corrected _ _).cfg.leaderNo
      rw [kc, cfg]
    · show r.cfg.followerNo = (Record.corrected _ _).cfg.followerNo
      rw [kc, cfg]

/-- Where no slot holds an active record nothing is left to narrow. -/
theorem narrows_of_inactive {s t : State} (h : ∀ (i : SlotNo) (q : Record), t.slots[i] = some q →
    q.state.isActive = false) : s.Narrows t := by
  intro i q hq ha
  rw [h i q hq] at ha
  cases ha

theorem narrows_install (s : State) (p : Profile) : s.Narrows (s.install p) := by
  refine narrows_of_inactive fun i q hq => ?_
  simp only [State.install, Fin.getElem_fin, Vector.getElem_ofFn] at hq
  cases hp : p.savedRecords[i.val]? with
  | none =>
    rw [hp] at hq
    cases hq
  | some cfg =>
    rw [hp] at hq
    cases hq
    rfl

theorem narrows_reset (s : State) (held : Bool) (deaf : Nat) : s.Narrows (s.resetPart held deaf) := by
  refine narrows_of_inactive fun i q hq => ?_
  have : (s.resetPart held deaf).slots[i] = none := by simp [State.resetPart, State.reset]
  rw [this] at hq
  cases hq

/-- Narrowing keeps the forest of active couplings (R66). -/
theorem forest_of_narrows {s t : State} (h : s.Narrows t) (hf : s.Forest) : t.Forest := by
  have follows : ∀ c l, t.Follows c l → s.Follows c l := by
    rintro c l ⟨i, q, hq, ha, rfl, rfl⟩
    obtain ⟨r, hr, ar, lr, fr⟩ := h i q hq ha
    exact ⟨i, r, hr, ar, fr, lr⟩
  refine ⟨fun i j p q hp hq ap aq e => ?_, fun c chain => ?_⟩
  · obtain ⟨p', hp', ap', -, fp⟩ := h i p hp ap
    obtain ⟨q', hq', aq', -, fq⟩ := h j q hq aq
    exact hf.1 i j p' q' hp' hq' ap' aq' (fp.trans (e.trans fq.symm))
  · exact hf.2 c (Relation.TransGen.mono follows _ _ chain)

end Sys2Proof.Machine
end

