-- ==== Sys2Proof/Laws/Port.lean ====
section
/-! SUPPORT. What the rise of a frame and the service of a request do, and what the data output carries. -/

namespace Sys2Proof.Machine

theorem fallen_of_ne_high (s : State) (h : s.port.chipSelect ≠ .high) : s.fallen = s := by
  simp [State.fallen, h]

theorem ne_high_of_open {s : State} (h : s.FrameOpen) : s.port.chipSelect ≠ .high := by simp [h.1]

/-- A frame that is not overlapped is judged. -/
theorem frameRise_of_open (s : State) (f : State → State) (h : s.FrameOpen) (n : Nat := 20) :
    s.frameRise f n = f s.raised := by
  simp [State.frameRise, fallen_of_ne_high s (ne_high_of_open h), h.1]

/-- An overlapped frame is discarded. -/
theorem frameRise_of_overlapped (s : State) (f : State → State) (h : s.port.chipSelect = .low true) (n : Nat := 20) :
    s.frameRise f n = s.raised.report .portFrame := by
  have : s.fallen = s := fallen_of_ne_high s (by simp [h])
  simp [State.frameRise, this, h]

/-- A fall of chip select leaves it low. -/
theorem csFall_notHigh (s : State) : s.csFall.port.chipSelect ≠ .high := by
  unfold State.csFall
  split
  · simp [State.unheardFall]
  · split <;> simp [State.heardFall, State.unheardFall]

/-- A row that stands for a whole frame falls first. -/
theorem frameRise_of_high (s : State) (f : State → State) (h : s.port.chipSelect = .high) (n : Nat := 20) :
    s.frameRise f n = s.csFall.frameRise f n := by
  have h1 : s.fallen = s.csFall := by simp [State.fallen, h]
  have h2 : s.csFall.fallen = s.csFall := fallen_of_ne_high _ (csFall_notHigh s)
  simp [State.frameRise, h1, h2]

/-- What every end of a frame can be. -/
theorem frameRise_cases (s : State) (f : State → State) (n : Nat := 20) :
    s.frameRise f n = f s.fallen.raised ∨ s.frameRise f n = s.fallen.raised.report .portFrame ∨
      s.frameRise f n = s.fallen.unheardRise n := by
  unfold State.frameRise
  split <;> simp

/-- A request is handed to its owner. -/
theorem dispatch_of_ready (s : State) (code seq : Byte) (refused : Bool) (f : State → State)
    (h : s.startup = .ready) (h' : (refused && s.store.op.isLoading) = false) :
    s.dispatch code seq refused f = f s := by
  simp [State.dispatch, h, h']

theorem dispatch_of_starting (s : State) (code seq : Byte) (refused : Bool) (f : State → State)
    (h : s.startup ≠ .ready) :
    s.dispatch code seq refused f = s.replyWith code seq .untouched { result := .starting } := by
  simp [State.dispatch, h]

theorem dispatch_of_loading (s : State) (code seq : Byte) (f : State → State)
    (h : s.startup = .ready) (h' : s.store.op.isLoading = true) :
    s.dispatch code seq true f = s.replyWith code seq .untouched { result := .busy } := by
  simp [State.dispatch, h, h']

/-- What every dispatch can be. -/
theorem dispatch_cases (s : State) (code seq : Byte) (refused : Bool) (f : State → State) :
    s.dispatch code seq refused f = s.replyWith code seq .untouched { result := .starting } ∨
      s.dispatch code seq refused f = s.replyWith code seq .untouched { result := .busy } ∨
      s.dispatch code seq refused f = f s := by
  unfold State.dispatch
  split
  · simp
  · split <;> simp

/-- A reply with no values, formed at the rise. -/
theorem raised_replyWith (s : State) (code seq : Byte) (r : ResultCode) :
    s.raised.replyWith code seq .untouched { result := r } = s.replied (Reply.plain code seq r) := rfl

/-- A request answered at once. -/
theorem ask_of_listening (s : State) (code seq : Byte) (f : State → State × Answer) (h : s.Listening) :
    s.ask code seq f = State.answered code seq (f s.raised) := by
  rw [State.ask, frameRise_of_open _ _ h.1]
  exact dispatch_of_ready _ _ _ _ _ h.2 rfl

/-! ### The data output -/

/-- The bits of a reply frame, by byte and place. -/
theorem outputBits_at (p : Port) (k n : Nat) (b : Byte) (h : p.output[k]? = some b) (hn : n < 8) :
    p.outputBits[8 * k + n]? = some (b.getMsbD n) := by
  unfold Port.outputBits
  generalize p.output = l at h
  induction l generalizing k with
  | nil => cases h
  | cons c l ih =>
    rw [List.flatMap_cons]
    cases k with
    | zero =>
      rw [List.getElem?_append_left (by simpa using hn)]
      cases h
      simp [hn]
    | succ k =>
      rw [List.getElem?_append_right (by simp; omega)]
      simpa [show 8 * (k + 1) + n - 8 = 8 * k + n by omega] using ih k h

/-- With chip select high the output is not driven (R148). -/
theorem outputLevel_high (s : State) (bitTime : Nat) (h : s.port.chipSelect = .high) : s.outputLevel bitTime = none := by
  simp [State.outputLevel, h]

/-- In a frame that the port heard fall the output carries the reply frame (R148, R149). -/
theorem outputLevel_low (s : State) (overlapped : Bool) (bitTime : Nat) (level : Bool)
    (h : s.port.chipSelect = .low overlapped) (hl : s.port.outputBits[bitTime]? = some level) :
    s.outputLevel bitTime = some level := by
  simp [State.outputLevel, h, hl]

end Sys2Proof.Machine
end

