-- ==== Sys2Proof/Laws/Serve.lean ====
section
/-! SUPPORT. How the service of a request goes when the Coupling Table is free, and how an access ends when no event
waits. -/

namespace Sys2Proof.Machine

/-- The request in service at its judging. -/
def judging (code seq : Byte) (r : TableRequest) (e : EditOutcome) : Service where
  code := code
  seq := seq
  request := .table r
  phase := .judging
  edit := e

theorem channelChanged_service (s : State) (c : ChannelNo) : (s.channelChanged c).port.service = s.port.service := by
  unfold State.channelChanged
  split
  · split <;> rfl
  · rfl
  · rfl

theorem recordChanged_service (s : State) (i : SlotNo) : (s.recordChanged i).port.service = s.port.service := by
  unfold State.recordChanged
  split
  · split <;> rfl
  · rfl
  · rfl

theorem giveForm_port (s : State) (i : SlotNo) (o : FormOutcome) (n : Word) : (s.giveForm i o n).port = s.port := by
  unfold State.giveForm; split <;> rfl

theorem giveRelease_port (s : State) (i : SlotNo) (o : ReleaseOutcome) (n : Word) :
    (s.giveRelease i o n).port = s.port := by
  unfold State.giveRelease; split <;> rfl

theorem releaseAt_port (s : State) (i : SlotNo) (r : Record) : (s.releaseAt i r).port = s.port := by
  unfold State.releaseAt
  split <;> simp [giveForm_port]

theorem releaseMember_port (s : State) (i : SlotNo) : (s.releaseMember i).port = s.port := by
  unfold State.releaseMember
  split
  · exact releaseAt_port _ _ _
  · rfl

theorem releaseMembers_port (l : List SlotNo) (s : State) : (l.foldl State.releaseMember s).port = s.port := by
  induction l generalizing s with
  | nil => rfl
  | cons i l ih => rw [List.foldl_cons, ih, releaseMember_port]

/-- Judging a request leaves the service as it is. -/
theorem perform_service (s : State) (r : TableRequest) : (s.perform r).1.port.service = s.port.service := by
  cases r with
  | form name =>
    simp only [State.perform, State.form]
    split
    · rfl
    · simp only [State.formFound]
      repeat' split
      all_goals rfl
  | release name =>
    simp only [State.perform, State.release]
    split
    · rfl
    · simp only [State.releaseFound, State.releaseAnswer]
      repeat' split
      all_goals first | rfl | simp [releaseAt_port]
  | retire name =>
    simp only [State.perform, State.retire]
    repeat' split
    all_goals first | rfl | simp [State.vacate, recordChanged_service]
  | releaseGroup tag mask =>
    simp only [State.perform, State.releaseGroup]
    split
    · rfl
    · simp [releaseMembers_port]
  | offsetTest name offset =>
    simp only [State.perform, State.offsetTest]
    repeat' split
    all_goals rfl
  | checkTest name =>
    simp only [State.perform, State.checkTest]
    repeat' split
    all_goals rfl
  | setEngine a b c =>
    simp only [State.perform, State.setEngine]
    repeat' split
    all_goals rfl
  | writeChannel index item a =>
    simp only [State.perform, State.writeChannel]
    repeat' split
    all_goals first | rfl | simp [channelChanged_service]
  | lookupChannel index =>
    simp only [State.perform, State.lookupChannel]
    split <;> rfl

/-- The request in service is judged and answered. -/
theorem takeRequest_judging (s : State) (v : Service) (r : TableRequest) (h : s.port.service = some v)
    (hr : v.request = .table r) :
    s.takeRequest = (s.perform r).1.replyWith v.code v.seq v.edit (s.perform r).2 := by
  simp only [State.takeRequest, h, hr, State.finish, perform_service]

/-- An event that no access and no earlier event holds up is taken at once. -/
theorem raise_of_free (s : State) (e : TableEvent) (h : s.TableFree) : s.raise e = s.takeEvent e := by
  have : s.mustWait e = false := by
    cases e <;> simp [State.mustWait, State.behindCaptureSet, State.channelsHeld, show s.arbiter = _ from h]
  simp [State.raise, this]

/-- A request at its table, closing no edit, when the Coupling Table is free. -/
theorem begin_table_of_free (s : State) (code seq : Byte) (r : TableRequest) (h : s.TableFree) :
    s.begin code seq (.table r) [] =
      (({ s with port := { s.port with service := some (judging code seq r .untouched) } } : State).perform r).1.replyWith
        code seq .untouched
        (({ s with port := { s.port with service := some (judging code seq r .untouched) } } : State).perform r).2 := by
  have e : s.begin code seq (.table r) [] =
      ({ s with port := { s.port with service := some (judging code seq r .untouched) } } : State).raise .request :=
    rfl
  rw [e, raise_of_free _ _ (by exact h)]
  exact takeRequest_judging
    ({ s with port := { s.port with service := some (judging code seq r .untouched) } } : State) _ r rfl rfl

/-- A request at the Channel Table when no access holds that table. -/
theorem begin_channels_of_free (s : State) (code seq : Byte) (r : TableRequest) (hr : r.atChannels = true)
    (h : s.channelsHeld = false) :
    s.begin code seq (.table r) [] =
      (({ s with port := { s.port with service := some (judging code seq r .untouched) } } : State).perform r).1.replyWith
        code seq .untouched
        (({ s with port := { s.port with service := some (judging code seq r .untouched) } } : State).perform r).2 := by
  have e : s.begin code seq (.table r) [] =
      ({ s with port := { s.port with service := some (judging code seq r .untouched) } } : State).raise .request :=
    rfl
  have w : ({ s with port := { s.port with service := some (judging code seq r .untouched) } } : State).mustWait
      .request = false := by
    simp only [State.mustWait, State.behindCaptureSet, State.atChannelsOnly, State.requestAtChannels, judging, hr]
    simpa [State.channelsHeld] using h
  rw [e, State.raise, w]
  exact takeRequest_judging
    ({ s with port := { s.port with service := some (judging code seq r .untouched) } } : State) _ r rfl rfl

/-- A request at its table, from the frame to the reply. -/
theorem askTable_of_free (s : State) (code seq : Byte) (refused : Bool) (r : TableRequest) (h : s.Listening)
    (hb : (refused && s.store.op.isLoading) = false) (ht : s.TableFree) :
    s.askTable code seq refused r =
      ((s.serving (judging code seq r .untouched)).perform r).1.replyWith code seq .untouched
        ((s.serving (judging code seq r .untouched)).perform r).2 := by
  rw [State.askTable, frameRise_of_open _ _ h.1, dispatch_of_ready s.raised _ _ _ _ h.2 hb,
    begin_table_of_free _ _ _ _ (by exact ht)]
  rfl

/-- A request at the Channel Table, from the frame to the reply. -/
theorem askChannels_of_free (s : State) (code seq : Byte) (refused : Bool) (r : TableRequest) (h : s.Listening)
    (hb : (refused && s.store.op.isLoading) = false) (hr : r.atChannels = true) (ht : s.channelsHeld = false) :
    s.askTable code seq refused r =
      ((s.serving (judging code seq r .untouched)).perform r).1.replyWith code seq .untouched
        ((s.serving (judging code seq r .untouched)).perform r).2 := by
  rw [State.askTable, frameRise_of_open _ _ h.1, dispatch_of_ready s.raised _ _ _ _ h.2 hb,
    begin_channels_of_free _ _ _ _ hr (by exact ht)]
  rfl

/-- A request naming a record and closing no edit, from the frame to its own work. -/
theorem askNamed_of_free (s : State) (code seq : Byte) (refused : Bool) (name : RecordName) (q : PortRequest)
    (h : s.Listening) (hb : (refused && s.store.op.isLoading) = false) (hc : s.closedBy name = .ok []) :
    s.askNamed code seq refused name q = s.raised.begin code seq q [] := by
  have hc' : s.raised.closedBy name = .ok [] := hc
  rw [State.askNamed, frameRise_of_open _ _ h.1, dispatch_of_ready s.raised _ _ _ _ h.2 hb, State.beginNamed, hc']

/-- A request naming a record, judged at its table and closing no edit. -/
theorem askNamedTable_of_free (s : State) (code seq : Byte) (refused : Bool) (name : RecordName) (r : TableRequest)
    (h : s.Listening) (hb : (refused && s.store.op.isLoading) = false) (hc : s.closedBy name = .ok [])
    (ht : s.TableFree) :
    s.askNamed code seq refused name (.table r) =
      ((s.serving (judging code seq r .untouched)).perform r).1.replyWith code seq .untouched
        ((s.serving (judging code seq r .untouched)).perform r).2 := by
  rw [askNamed_of_free _ _ _ _ _ _ h hb hc, begin_table_of_free _ _ _ _ (by exact ht)]
  rfl

/-- An access ends with nothing waiting: the table is free. -/
theorem endAccess_of_quiet (s : State) (h : s.arbiter.waiting = []) (hd : s.arbiter.deferred = []) :
    s.endAccess = { s with arbiter := { inService := none, waiting := [], deferred := [] } } := by
  simp only [State.endAccess, hd, List.foldl_nil, State.serveNext, h]
  rfl

end Sys2Proof.Machine
end

