-- ==== Sys2Proof/Laws/Dress.lean ====
section
/-! SUPPORT. `State.dress`: what waits and what is in service replaced, and the operations that commute with it.
`of_dress` and `rest_of_dress` say what that gives. -/

namespace Sys2Proof.Machine

/-- The fields that the operations at the tables leave alone, and that those at the channels and records do not read:
what waits and what is in service. -/
structure Dress where
  arbiter : Arbiter
  edit : EditUnit
  chipSelect : ChipSelect
  service : Option Service

/-- The state with these fields replaced. -/
def State.dress (s : State) (d : Dress) : State :=
  { s with
    arbiter := d.arbiter
    edit := d.edit
    port := { s.port with chipSelect := d.chipSelect, service := d.service } }

/-- The fields as a state has them. -/
def State.own (s : State) : Dress where
  arbiter := s.arbiter
  edit := s.edit
  chipSelect := s.port.chipSelect
  service := s.port.service

/-! ### Records, entries, reports -/

@[simp] theorem dress_channels (s : State) (d : Dress) : (s.dress d).channels = s.channels := rfl
@[simp] theorem dress_encoders (s : State) (d : Dress) : (s.dress d).encoders = s.encoders := rfl
@[simp] theorem dress_captureTimer (s : State) (d : Dress) : (s.dress d).captureTimer = s.captureTimer := rfl
@[simp] theorem dress_captureNumber (s : State) (d : Dress) : (s.dress d).captureNumber = s.captureNumber := rfl
@[simp] theorem dress_slots (s : State) (d : Dress) : (s.dress d).slots = s.slots := rfl
@[simp] theorem dress_engine (s : State) (d : Dress) : (s.dress d).engine = s.engine := rfl
@[simp] theorem dress_completions (s : State) (d : Dress) : (s.dress d).completions = s.completions := rfl
@[simp] theorem dress_link (s : State) (d : Dress) : (s.dress d).link = s.link := rfl
@[simp] theorem dress_checker (s : State) (d : Dress) : (s.dress d).checker = s.checker := rfl
@[simp] theorem dress_faults (s : State) (d : Dress) : (s.dress d).faults = s.faults := rfl
@[simp] theorem dress_store (s : State) (d : Dress) : (s.dress d).store = s.store := rfl
@[simp] theorem dress_startup (s : State) (d : Dress) : (s.dress d).startup = s.startup := rfl
@[simp] theorem dress_resetHeld (s : State) (d : Dress) : (s.dress d).resetHeld = s.resetHeld := rfl
@[simp] theorem dress_stopLine (s : State) (d : Dress) : (s.dress d).stopLine = s.stopLine := rfl
@[simp] theorem dress_freeIndex (s : State) (d : Dress) : (s.dress d).freeIndex = s.freeIndex := rfl
@[simp] theorem dress_pending (s : State) (d : Dress) : (s.dress d).pending = s.pending := rfl
@[simp] theorem dress_arbiter (s : State) (d : Dress) : (s.dress d).arbiter = d.arbiter := rfl
@[simp] theorem dress_edit (s : State) (d : Dress) : (s.dress d).edit = d.edit := rfl
@[simp] theorem dress_service (s : State) (d : Dress) : (s.dress d).port.service = d.service := rfl
@[simp] theorem dress_snapshot (s : State) (d : Dress) : (s.dress d).port.snapshot = s.port.snapshot := rfl

theorem dress_report (s : State) (d : Dress) (fl : Flag) (k : CheckCause) :
    (s.dress d).report fl k = (s.report fl k).dress d := rfl

theorem dress_reportIf (s : State) (d : Dress) (b : Bool) (fl : Flag) :
    (s.dress d).reportIf b fl = (s.reportIf b fl).dress d := by
  cases b <;> rfl

theorem dress_setRecord (s : State) (d : Dress) (i : SlotNo) (r : Record) :
    (s.dress d).setRecord i r = (s.setRecord i r).dress d := rfl

theorem dress_setEntry (s : State) (d : Dress) (i : SlotNo) (e : Option Completion) :
    (s.dress d).setEntry i e = (s.setEntry i e).dress d := rfl

theorem dress_setChannel (s : State) (d : Dress) (c : ChannelNo) (ch : Channel) :
    (s.dress d).setChannel c ch = (s.setChannel c ch).dress d := rfl

theorem dress_recouple (s : State) (d : Dress) : (s.dress d).recouple = s.recouple.dress d := rfl

theorem dress_giveForm (s : State) (d : Dress) (i : SlotNo) (o : FormOutcome) (n : Word) :
    (s.dress d).giveForm i o n = (s.giveForm i o n).dress d := by
  unfold State.giveForm
  rw [dress_completions]
  rcases s.completions[i] with _ | (_ | _ | _ | _) <;> rfl

theorem dress_giveRelease (s : State) (d : Dress) (i : SlotNo) (o : ReleaseOutcome) (n : Word) :
    (s.dress d).giveRelease i o n = (s.giveRelease i o n).dress d := by
  unfold State.giveRelease
  rw [dress_completions]
  rcases s.completions[i] with _ | (_ | _ | _ | _) <;> rfl

theorem dress_resolve (s : State) (d : Dress) (name : RecordName) : (s.dress d).resolve name = s.resolve name := rfl

/-- Operations taken in turn. -/
theorem dress_foldl {α : Type} (f : State → α → State) (d : Dress) (h : ∀ s x, f (s.dress d) x = (f s x).dress d)
    (l : List α) (s : State) : l.foldl f (s.dress d) = (l.foldl f s).dress d := by
  induction l generalizing s with
  | nil => rfl
  | cons x l ih => rw [List.foldl_cons, h, ih, List.foldl_cons]

/-! ### Cuts, losses, STOP -/

theorem dress_breakAt (s : State) (d : Dress) (i : SlotNo) (r : Record) (b : BreakReason) :
    (s.dress d).breakAt i r b = (s.breakAt i r b).dress d := rfl

theorem dress_cutAt (s : State) (d : Dress) (i : SlotNo) (b : BreakReason) :
    (s.dress d).cutAt i b = (s.cutAt i b).dress d := by
  unfold State.cutAt
  rw [dress_slots]
  rcases s.slots[i] with _ | r
  · rfl
  · dsimp only
    rcases r.state with _ | _ | _ | _ | ramp | reason
    · rfl
    · exact dress_giveForm (s.breakAt i r b) d i (.broken b) s.lastCapture
    · rfl
    · rfl
    · by_cases h : b = .check
      · simp only [h, if_true]
        exact dress_giveRelease (s.breakAt i r .check) d i .releaseCut s.lastCapture
      · simp only [h, if_false]
        exact dress_giveRelease (s.setRecord i (r.leave .idle)) d i .releaseCut s.lastCapture
    · rfl

theorem dress_cutNaming (s : State) (d : Dress) (c : ChannelNo) (i : SlotNo) :
    (s.dress d).cutNaming c i = (s.cutNaming c i).dress d := by
  unfold State.cutNaming
  rw [dress_slots]
  rcases s.slots[i] with _ | r
  · rfl
  · dsimp only
    cases r.names c
    · rfl
    · exact dress_cutAt _ _ _ _

theorem dress_channelLost (s : State) (d : Dress) (c : ChannelNo) :
    (s.dress d).channelLost c = (s.channelLost c).dress d := by
  unfold State.channelLost
  rw [dress_foldl _ d fun s i => dress_cutNaming s d c i]
  generalize (List.finRange 16).foldl (fun t i => t.cutNaming c i) s = cut
  rfl

theorem dress_takeStop (s : State) (d : Dress) : (s.dress d).takeStop = s.takeStop.dress d := by
  unfold State.takeStop
  rw [dress_foldl _ d fun s i => dress_cutAt s d i .stop]
  generalize (List.finRange 16).foldl (fun t i => t.cutAt i .stop) s = cut
  rfl

theorem dress_takeChannelStep (s : State) (d : Dress) (c : ChannelNo) (st : ChannelStep) :
    (s.dress d).takeChannelStep c st = (s.takeChannelStep c st).dress d := by
  unfold State.takeChannelStep
  simp only [dress_setChannel, dress_reportIf]
  cases st.lost
  · rfl
  · exact dress_channelLost _ _ _

theorem dress_takeDriveStatus (s : State) (d : Dress) : (s.dress d).takeDriveStatus = s.takeDriveStatus.dress d := by
  unfold State.takeDriveStatus
  rw [dress_link]
  rcases s.link.round with _ | rd
  · rfl
  · dsimp only
    rcases rd.phase with _ | _ | _ | r | _
    · rfl
    · rfl
    · rfl
    · exact dress_takeChannelStep
        { s with
          link :=
            { s.link with
              counts := s.link.counts.set rd.message.channel (s.link.counts[rd.message.channel].afterJudgement r)
              round := some { rd with phase := .gap r.gap } } }
        d rd.message.channel (s.channels[rd.message.channel].takeDrive s.engine.missLimit r)
    · rfl

theorem dress_captureSteps (s : State) (d : Dress) (set : CaptureSet) :
    (List.finRange 8).foldl (fun t c => t.takeChannelStep c (t.captureStep set c)) (s.dress d) =
      ((List.finRange 8).foldl (fun t c => t.takeChannelStep c (t.captureStep set c)) s).dress d :=
  dress_foldl (fun t c => t.takeChannelStep c (t.captureStep set c)) d
    (fun s c => dress_takeChannelStep s d c (s.captureStep set c)) _ s

/-! ### Requests judged at their table -/

/-- Another edit unit holds the same edits open for records in group mode (R100). -/
def EditUnit.Agrees (e f : EditUnit) : Prop :=
  ∀ tag, (e.groupMode && (e.bufferFor tag).isSome) = (f.groupMode && (f.bufferFor tag).isSome)

theorem dress_editHolds (s : State) (d : Dress) (h : d.edit.Agrees s.edit) (tag : Half) :
    (s.dress d).editHolds tag = s.editHolds tag := h tag

theorem dress_recordChanged (s : State) (d : Dress) (i : SlotNo) :
    (s.dress d).recordChanged i = (s.recordChanged i).dress d := by
  unfold State.recordChanged
  rw [dress_snapshot]
  rcases s.port.snapshot with _ | ⟨j, _, _, _⟩ | ⟨j, _, _⟩
  · rfl
  · by_cases h : j = i <;> simp only [h, if_true, if_false]; all_goals rfl
  · rfl

theorem dress_channelChanged (s : State) (d : Dress) (c : ChannelNo) :
    (s.dress d).channelChanged c = (s.channelChanged c).dress d := by
  unfold State.channelChanged
  rw [dress_snapshot]
  rcases s.port.snapshot with _ | ⟨j, _, _, _⟩ | ⟨j, _, _⟩
  · rfl
  · rfl
  · by_cases h : j = c <;> simp only [h, if_true, if_false]; all_goals rfl

theorem dress_walkReaches (s : State) (d : Dress) (n : Nat) (t c : ChannelNo) :
    (s.dress d).walkReaches n t c = s.walkReaches n t c := by
  induction n generalizing c with
  | zero => rfl
  | succ n ih =>
    unfold State.walkReaches
    rw [show (s.dress d).leaderOf = s.leaderOf from rfl]
    rcases s.leaderOf c with _ | l
    · rfl
    · exact congrArg _ (ih l)

theorem dress_formRefusal (s : State) (d : Dress) (r : Record) : (s.dress d).formRefusal r = s.formRefusal r := by
  have leads : (s.dress d).leaderOf = s.leaderOf := rfl
  have full : (s.dress d).mapFull = s.mapFull := rfl
  simp only [State.formRefusal, State.conflicts, dress_walkReaches, leads, full, dress_engine, dress_channels]
  rfl

theorem dress_releaseAt (s : State) (d : Dress) (i : SlotNo) (r : Record) :
    (s.dress d).releaseAt i r = (s.releaseAt i r).dress d := by
  unfold State.releaseAt
  rcases r.state with _ | _ | _ | _ | _ | _
  · rfl
  · exact congrArg State.recouple (dress_giveForm (s.setRecord i (r.leave .idle)) d i .cancelled s.lastCapture)
  all_goals rfl

theorem dress_releaseMember (s : State) (d : Dress) (i : SlotNo) :
    (s.dress d).releaseMember i = (s.releaseMember i).dress d := by
  unfold State.releaseMember
  rw [dress_slots]
  rcases s.slots[i] with _ | r
  · rfl
  · exact dress_releaseAt _ _ _ _

theorem dress_memberEditOpen (s : State) (d : Dress) (h : d.edit.Agrees s.edit) (i : SlotNo) :
    (s.dress d).memberEditOpen i = s.memberEditOpen i := by
  unfold State.memberEditOpen
  rw [dress_slots]
  rcases s.slots[i] with _ | r
  · rfl
  · exact dress_editHolds s d h _

/-- A request is judged alike whatever waits. -/
theorem dress_perform (s : State) (d : Dress) (h : d.edit.Agrees s.edit) (r : TableRequest) :
    (s.dress d).perform r = ((s.perform r).1.dress d, (s.perform r).2) := by
  have holds := dress_editHolds s d h
  cases r with
  | form name =>
    simp only [State.perform, State.form, dress_resolve]
    split
    · rfl
    · simp only [State.formFound, holds, dress_formRefusal]
      split
      · rfl
      · rename_i i r _ _
        rw [dress_completions]
        rcases s.completions[i] with _ | (_ | _ | _ | _)
        case some.readyForm | some.readyRelease | some.waitingForm => rfl
        all_goals
          dsimp only
          split <;> rfl
  | release name =>
    simp only [State.perform, State.release, dress_resolve]
    split
    · rfl
    · rename_i i r _
      have answer : ∀ (t : State) st, (t.dress d).releaseAnswer i st =
          ((t.releaseAnswer i st).1.dress d, (t.releaseAnswer i st).2) := by
        intro t st
        unfold State.releaseAnswer
        split
        · rfl
        · rfl
        · rfl
        · rfl
        all_goals
          show (if t.mapFull || t.completions[i].isSome then _ else _) = _
          split <;> rfl
      simp only [State.releaseFound, holds]
      split
      · rfl
      · rw [dress_completions]
        rcases s.completions[i] with _ | (_ | _ | _ | _)
        case some.readyRelease => rfl
        all_goals
          dsimp only
          rw [dress_releaseAt, answer]
  | retire name =>
    simp only [State.perform, State.retire, dress_resolve]
    split
    · rfl
    · rename_i i r _
      simp only [holds]
      split
      · rfl
      · split
        · rfl
        · rw [dress_completions]
          split
          · rfl
          · simp only [State.vacate]
            exact congrArg (·, _) (dress_recordChanged
              { s with
                slots := s.slots.set i none
                checker := { s.checker with
                  pendingTest := if s.checker.pendingTest = some i then none else s.checker.pendingTest } } d i)
  | releaseGroup tag mask =>
    simp only [State.perform, State.releaseGroup]
    rw [show (s.dress d).groupMatch tag mask = s.groupMatch tag mask from rfl,
      show (s.dress d).memberEditOpen = s.memberEditOpen from funext (dress_memberEditOpen s d h),
      dress_foldl _ d fun s i => dress_releaseMember s d i]
    split <;> rfl
  | offsetTest name offset =>
    simp only [State.perform, State.offsetTest, dress_resolve]
    repeat' split
    all_goals rfl
  | checkTest name =>
    simp only [State.perform, State.checkTest, dress_resolve]
    repeat' split
    all_goals rfl
  | setEngine a b c =>
    simp only [State.perform, State.setEngine]
    split
    · rfl
    · rw [show (s.dress d).anyActive = s.anyActive from rfl, dress_engine]
      split
      · rfl
      · split <;> rfl
  | writeChannel index item a =>
    simp only [State.perform, State.writeChannel]
    split
    · rename_i c f _ _
      rw [dress_channels]
      rcases s.channels[c].writeRefusal f a with _ | _
      · exact congrArg (·, _) (dress_channelChanged (s.setChannel c (s.channels[c].written f a)) d c)
      · rfl
    · rfl
  | lookupChannel index =>
    simp only [State.perform, State.lookupChannel]
    split <;> rfl

/-! ### The accesses -/

theorem dress_giveEnding (s : State) (d : Dress) (i : SlotNo) (e : Option Ending) (n : Word) :
    (s.dress d).giveEnding i e n = (s.giveEnding i e n).dress d := by
  rcases e with _ | _ | _ | _
  · rfl
  · exact dress_giveForm s d _ _ _
  · exact dress_giveForm s d _ _ _
  · exact dress_giveRelease s d _ _ _

theorem dress_reportAdvance (s : State) (d : Dress) (i : SlotNo) (a : Option Advance) (n : Word) :
    (s.dress d).reportAdvance i a n = (s.reportAdvance i a n).dress d := by
  rcases a with _ | a
  · rfl
  · simp only [State.reportAdvance, dress_giveEnding, dress_reportIf]

theorem dress_nextExchange (s : State) (d : Dress) (earlier remaining : List ChannelNo) :
    (s.dress d).nextExchange earlier remaining = (s.nextExchange earlier remaining).dress d := by
  cases remaining <;> rfl

theorem dress_takePost (s : State) (d : Dress) (values : Vector Int 8) (n : Word) :
    (s.dress d).takePost values n = (s.takePost values n).dress d := by
  unfold State.takePost
  rw [dress_link]
  rcases s.link.round with _ | rd
  · exact dress_nextExchange { s with link := { s.link with slots := values, roundCapture := n } } d []
      s.enabledChannels
  · rfl

theorem dress_postFor (s : State) (d : Dress) : (s.dress d).postFor = s.postFor := rfl
theorem dress_advanceAt (s : State) (d : Dress) : (s.dress d).advanceAt = s.advanceAt := rfl
theorem dress_computed (s : State) (d : Dress) (n : Word) : (s.dress d).computed n = (s.computed n).dress d := rfl

theorem dress_compute (s : State) (d : Dress) (n : Word) : (s.dress d).compute n = (s.compute n).dress d := by
  have each (t : State) (i : SlotNo) : (t.dress d).reportAdvance i (s.advanceAt i) n =
      (t.reportAdvance i (s.advanceAt i) n).dress d := dress_reportAdvance t d i _ n
  simp only [State.compute, dress_postFor, dress_advanceAt, dress_computed, dress_recouple]
  rw [dress_foldl (fun t i => t.reportAdvance i (s.advanceAt i) n) d each, dress_takePost]

theorem dress_anyDue (s : State) (d : Dress) (n : Word) : (s.dress d).anyDue n = s.anyDue n := rfl
theorem dress_dueAt (s : State) (d : Dress) (n : Word) : (s.dress d).dueAt n = s.dueAt n := rfl

theorem dress_expire (s : State) (d : Dress) (n : Word) : (s.dress d).expire n = (s.expire n).dress d := by
  have removed (l : Vector (Option Completion) 16) :
      { s.dress d with completions := l } = ({ s with completions := l } : State).dress d := rfl
  simp only [State.expire, dress_anyDue, dress_dueAt, dress_completions]
  rw [removed, dress_reportIf]
  rfl

theorem dress_takeSaveSnapshot (s : State) (d : Dress) :
    (s.dress d).takeSaveSnapshot = s.takeSaveSnapshot.dress d := by
  unfold State.takeSaveSnapshot
  rw [dress_store]
  rcases s.store.op with _ | _ | _ | _ | _ <;> rfl

theorem dress_takeInstall (s : State) (d : Dress) : (s.dress d).takeInstall = s.takeInstall.dress d := by
  unfold State.takeInstall
  rw [dress_store]
  rcases s.store.op with _ | _ | _ | _ | _ <;> rfl

theorem dress_markFailed (s : State) (d : Dress) (i : SlotNo) :
    (s.dress d).markFailed i = (s.markFailed i).dress d := by
  unfold State.markFailed
  rw [dress_slots]
  rcases s.slots[i] with _ | _ <;> rfl

theorem dress_checkRecord (s : State) (d : Dress) (i : SlotNo) (r : Record) :
    (s.dress d).checkRecord i r = (s.checkRecord i r).dress d := by
  unfold State.checkRecord
  rw [dress_checker]
  by_cases h : r.cfg.checkValue = r.check
  · simp only [h, if_true]
    by_cases h' : s.checker.pendingTest = some i
    · simp only [h', if_true]; rfl
    · simp only [h', if_false]
  · simp only [h, if_false]
    unfold State.recordMismatch
    rw [show (s.dress d).consumeTest i = (s.consumeTest i).dress d from rfl, dress_cutAt, dress_markFailed]
    rfl

theorem dress_checkChannel (s : State) (d : Dress) (c : ChannelNo) :
    (s.dress d).checkChannel c = (s.checkChannel c).dress d := by
  unfold State.checkChannel State.channelMismatch
  rw [dress_channels, dress_takeChannelStep, dress_report]
  split <;> rfl

theorem dress_setScan (s : State) (d : Dress) (p : ScanPosition) :
    (s.dress d).setScan p = (s.setScan p).dress d := rfl

theorem dress_takeCheckStep (s : State) (d : Dress) : (s.dress d).takeCheckStep = s.takeCheckStep.dress d := by
  unfold State.takeCheckStep
  rw [show (s.dress d).checkItem = s.checkItem from rfl]
  rcases s.checkItem with c | i
  · dsimp only
    rw [dress_setScan, dress_checkChannel]
  · dsimp only
    rw [dress_slots]
    rcases s.slots[i] with _ | r
    · rfl
    · dsimp only
      rw [dress_setScan, dress_checkRecord]

/-! ### What commuting gives -/

/-- An operation that commutes with `dress` commutes with a change of the arbiter. -/
theorem of_dress {f : State → State} (h : ∀ s d, f (s.dress d) = (f s).dress d) (s : State) (x : Arbiter) :
    f { s with arbiter := x } = { f s with arbiter := x } := by
  have same : f s = (f s).dress _ := h s s.own
  have new := h s { s.own with arbiter := x }
  have e : (f s).edit = s.edit := (congrArg State.edit same :)
  have c : (f s).port.chipSelect = s.port.chipSelect := congrArg (·.port.chipSelect) same
  have v : (f s).port.service = s.port.service := congrArg (·.port.service) same
  refine new.trans ?_
  unfold State.dress State.own
  dsimp only
  rw [← e, ← c, ← v]

/-- What it leaves. -/
theorem rest_of_dress {f : State → State} (h : ∀ s d, f (s.dress d) = (f s).dress d) (s : State) :
    (f s).arbiter = s.arbiter ∧ (f s).edit = s.edit ∧ (f s).port.chipSelect = s.port.chipSelect ∧
      (f s).port.service = s.port.service := by
  have same : f s = (f s).dress _ := h s s.own
  exact ⟨(congrArg State.arbiter same :), (congrArg State.edit same :), congrArg (·.port.chipSelect) same,
    congrArg (·.port.service) same⟩

/-- And with a change of the request in service. -/
theorem of_dress_service {f : State → State} (h : ∀ s d, f (s.dress d) = (f s).dress d) (s : State)
    (v : Option Service) : f { s with port := { s.port with service := v } } =
      { f s with port := { (f s).port with service := v } } := by
  have new := h s { s.own with service := v }
  obtain ⟨a, e, c, -⟩ := rest_of_dress h s
  refine new.trans ?_
  unfold State.dress State.own
  dsimp only
  rw [← e, ← c, ← a]

theorem dress_noteApplied (s : State) (d : Dress) (b : EditBuffer) :
    (s.dress d).noteApplied b = (s.noteApplied b).dress d := by
  unfold State.noteApplied
  rcases b.target with _ | ⟨i, base⟩
  · rfl
  · exact dress_recordChanged s d i

/-- The captures of a set acting on the channels, before their computation is requested (R38). -/
def State.stepsOf (s : State) (set : CaptureSet) : State :=
  (List.finRange 8).foldl (fun t c => t.takeChannelStep c (t.captureStep set c)) s

theorem takeCaptureSet_eq (s : State) (set : CaptureSet) :
    s.takeCaptureSet set = (s.stepsOf set).request (.computation set.number) := rfl

theorem stepsOf_dress (set : CaptureSet) (s : State) (d : Dress) :
    (s.dress d).stepsOf set = (s.stepsOf set).dress d :=
  dress_captureSteps s d set

theorem stepsOf_service (s : State) (set : CaptureSet) : (s.stepsOf set).port.service = s.port.service := by
  have h := rest_of_dress (f := fun t => t.stepsOf set) (stepsOf_dress set) s
  beta_reduce at h
  exact h.2.2.2

end Sys2Proof.Machine
end

