-- ==== Sys2Proof/Laws/Forest.lean ====
section
/-! SUPPORT. The walk of the forest rule finds every chain of active couplings (R66), and an accepted Form keeps the
forest. -/

namespace Sys2Proof.Machine

/-- What the walk steps to is followed. -/
theorem follows_of_leaderOf {s : State} {c l : ChannelNo} (h : s.leaderOf c = some l) : s.Follows c l := by
  unfold State.leaderOf at h
  obtain ⟨j, -, hj⟩ := List.exists_of_findSome?_eq_some h
  split at hj
  · rename_i q hq
    split at hj
    · rename_i hc
      simp only [Bool.and_eq_true, beq_iff_eq] at hc
      cases hj
      exact ⟨j, q, hq, hc.1, hc.2, rfl⟩
    · cases hj
  · cases hj

/-- A channel that follows another has a leader to step to, and in a forest it is that one. -/
theorem leaderOf_of_follows {s : State} (hf : s.Forest) {c l : ChannelNo} (h : s.Follows c l) :
    s.leaderOf c = some l := by
  cases hl : s.leaderOf c with
  | none =>
    obtain ⟨i, r, hr, ha, hc, -⟩ := h
    unfold State.leaderOf at hl
    rw [List.findSome?_eq_none_iff] at hl
    have := hl i (List.mem_finRange i)
    simp [hr, ha, hc, -Fin.getElem_fin] at this
  | some m =>
    obtain ⟨i, r, hr, ha, hc, rfl⟩ := h
    obtain ⟨j, q, hq, aq, hcq, rfl⟩ := follows_of_leaderOf hl
    have := hf.1 j i q r hq hr aq ha (hcq.trans hc.symm)
    subst this
    rw [hq] at hr
    cases hr
    rfl

/-- The channels above a channel. -/
noncomputable def State.above (s : State) (c : ChannelNo) : Finset ChannelNo :=
  open Classical in Finset.univ.filter fun d => Relation.TransGen s.Follows c d

theorem mem_above (s : State) (c d : ChannelNo) : d ∈ s.above c ↔ Relation.TransGen s.Follows c d := by
  simp [State.above]

/-- With fuel for every channel above, the walk reaches what a chain reaches. -/
theorem walk_of_chain {s : State} (hf : s.Forest) (n : Nat) (target c : ChannelNo) (hn : (s.above c).card ≤ n)
    (h : c = target ∨ Relation.TransGen s.Follows c target) : s.walkReaches n target c = true := by
  induction n generalizing c with
  | zero =>
    rcases h with rfl | h
    · simp [State.walkReaches]
    · have : target ∈ s.above c := (mem_above s c target).2 h
      rw [Finset.card_eq_zero.1 (Nat.le_zero.1 hn)] at this
      simp at this
  | succ n ih =>
    rcases h with rfl | h
    · simp [State.walkReaches]
    · obtain ⟨l, hl, rest⟩ : ∃ l, s.Follows c l ∧ (l = target ∨ Relation.TransGen s.Follows l target) := by
        rcases Relation.TransGen.head'_iff.1 h with ⟨l, hl, path⟩
        exact ⟨l, hl, (Relation.reflTransGen_iff_eq_or_transGen.1 path).imp Eq.symm id⟩
      have fewer : (s.above l).card < (s.above c).card := by
        refine Finset.card_lt_card ⟨fun d hd => ?_, fun sub => ?_⟩
        · exact (mem_above s c d).2 (.head hl ((mem_above s l d).1 hd))
        · exact hf.2 l ((mem_above s l l).1 (sub ((mem_above s c l).2 (.single hl))))
      simp only [State.walkReaches, leaderOf_of_follows hf hl, Bool.or_eq_true]
      exact .inr (ih l (by omega) rest)

/-- What the walk reaches a chain reaches. -/
theorem chain_of_walk {s : State} (n : Nat) (target c : ChannelNo) (h : s.walkReaches n target c = true) :
    c = target ∨ Relation.TransGen s.Follows c target := by
  induction n generalizing c with
  | zero => exact .inl (by simpa [State.walkReaches] using h)
  | succ n ih =>
    simp only [State.walkReaches, Bool.or_eq_true, beq_iff_eq] at h
    rcases h with h | h
    · exact .inl h
    · split at h
      · rename_i l hl
        rcases ih l h with rfl | path
        · exact .inr (.single (follows_of_leaderOf hl))
        · exact .inr (.head (follows_of_leaderOf hl) path)
      · cases h

/-- The forest rule refuses exactly the pairs of R66. -/
theorem conflicts_iff {s : State} (hf : s.Forest) (leader follower : ChannelNo) :
    s.conflicts leader follower = true ↔
      (∃ l, s.Follows follower l) ∨ leader = follower ∨ Relation.TransGen s.Follows leader follower := by
  have room : (s.above leader).card ≤ 8 := by
    simpa using Finset.card_le_univ (s.above leader)
  simp only [State.conflicts, Bool.or_eq_true]
  constructor
  · rintro (h | h)
    · obtain ⟨l, hl⟩ := Option.isSome_iff_exists.1 h
      exact .inl ⟨l, follows_of_leaderOf hl⟩
    · exact .inr (chain_of_walk 8 follower leader h)
  · rintro (⟨l, hl⟩ | h)
    · exact .inl (by rw [leaderOf_of_follows hf hl]; rfl)
    · exact .inr (walk_of_chain hf 8 follower leader room h)

/-- A pair that conflicts with nothing joins the forest. -/
theorem forest_of_join {s t : State} {i : SlotNo} {r q : Record} (hf : s.Forest)
    (hc : s.conflicts r.cfg.leaderNo r.cfg.followerNo = false)
    (ht : t.slots = s.slots.set i (some q)) (hq : q.cfg = r.cfg) : t.Forest := by
  have clear : ¬ ((∃ l, s.Follows r.cfg.followerNo l) ∨ r.cfg.leaderNo = r.cfg.followerNo ∨
      Relation.TransGen s.Follows r.cfg.leaderNo r.cfg.followerNo) := by
    rw [← conflicts_iff hf]
    simp [hc]
  obtain ⟨free, apart, unreached⟩ := not_or.1 clear |>.imp id not_or.1
  have get : ∀ j : SlotNo, t.slots[j] = if j = i then some q else s.slots[j] := by
    intro j
    rw [ht, slots_get_set]
  have follows : ∀ c l, t.Follows c l → s.Follows c l ∨ (c = r.cfg.followerNo ∧ l = r.cfg.leaderNo) := by
    rintro c l ⟨j, p, hp, ap, rfl, rfl⟩
    rw [get j] at hp
    split at hp
    · cases hp
      rw [hq]
      exact .inr ⟨rfl, rfl⟩
    · exact .inl ⟨j, p, hp, ap, rfl, rfl⟩
  refine ⟨fun j k p p' hp hp' ap ap' e => ?_, ?_⟩
  · rw [get j] at hp
    rw [get k] at hp'
    split at hp <;> split at hp'
    · simp_all
    · cases hp
      rw [hq] at e
      exact absurd ⟨_, k, p', hp', ap', e.symm, rfl⟩ free
    · cases hp'
      rw [hq] at e
      exact absurd ⟨_, j, p, hp, ap, e, rfl⟩ free
    · exact hf.1 j k p p' hp hp' ap ap' e
  · -- a chain in `t` is one in `s`, or passes through the new pair
    have split : ∀ a b, Relation.TransGen t.Follows a b → Relation.TransGen s.Follows a b ∨
        (Relation.ReflTransGen s.Follows a r.cfg.followerNo ∧ Relation.ReflTransGen s.Follows r.cfg.leaderNo b) := by
      intro a b h
      induction h with
      | single h =>
        rcases follows _ _ h with h | ⟨rfl, rfl⟩
        · exact .inl (.single h)
        · exact .inr ⟨.refl, .refl⟩
      | tail _ h ih =>
        rcases follows _ _ h with h | ⟨rfl, rfl⟩
        · exact ih.imp (fun p => p.tail h) fun p => ⟨p.1, p.2.tail h⟩
        · rcases ih with p | p
          · exact .inr ⟨p.to_reflTransGen, .refl⟩
          · rcases Relation.reflTransGen_iff_eq_or_transGen.1 p.2 with e | path
            · exact absurd e.symm apart
            · exact absurd path unreached
    intro c chain
    rcases split c c chain with p | ⟨p, p'⟩
    · exact hf.2 c p
    · rcases Relation.reflTransGen_iff_eq_or_transGen.1 (p'.trans p) with e | path
      · exact apart e.symm
      · exact unreached path

end Sys2Proof.Machine
end

