-- ==== Sys2Proof/Laws/Step.lean ====
section
/-! SUPPORT. What a step can do to the tables, once: a property of the Channel Table, the Coupling Table, the completion
map, the posted-correction slots, the Fault Unit and the engine's STOP that every one of the changes listed in `Kept`
keeps is kept by every command. -/

namespace Sys2Proof.Machine

/-- Two states agree in what `Kept` is about. -/
structure State.SameTables (s t : State) : Prop where
  channels : t.channels = s.channels
  slots : t.slots = s.slots
  completions : t.completions = s.completions
  posts : t.link.slots = s.link.slots
  faults : t.faults = s.faults
  stopTaken : t.engine.stopTaken = s.engine.stopTaken

/-- The changes of the tables that a step is made of. -/
structure Kept (P : State → Prop) : Prop where
  same : ∀ s t, s.SameTables t → P s → P t
  report : ∀ s fl k, P s → P (s.report fl k)
  lastReject : ∀ (s : State) l, P s → P { s with faults := { s.faults with lastReject := l } }
  clearFlag : ∀ (s : State) fl, P s → P { s with faults := s.faults.clearFlag fl }
  dropSummary : ∀ (s : State) g, P s → P { s with faults := s.faults.dropSummary g }
  setMasks : ∀ (s : State) k l, P s → P { s with faults := s.faults.setMasks k l }
  capture : ∀ s c set, P s → P (s.takeChannelStep c (s.captureStep set c))
  drive : ∀ (s : State) (c : ChannelNo) limit r, P s → P (s.takeChannelStep c (s.channels[c].takeDrive limit r))
  channelCheck : ∀ (s : State) (c : ChannelNo), P s → P (s.takeChannelStep c s.channels[c].takeMismatch)
  written : ∀ (s : State) (c : ChannelNo) f w, s.channels[c].writeRefusal f w = none → P s → P (s.setChannel c (s.channels[c].written f w))
  stop : ∀ s, P s → P s.takeStop
  stopRelease : ∀ s, P s → P s.takeStopRelease
  edit : ∀ (s : State) (b : EditBuffer), b.rejection s.slots = none → P s → P { s with slots := b.applied s.slots }
  form : ∀ (s : State) (i : SlotNo) (r : Record), s.slots[i] = some r → s.formRefusal r = none → P s → P (s.acceptForm i r)
  collect : ∀ (s : State) (i : SlotNo) (e : Completion), s.completions[i] = some e → e.isReady = true → P s →
    P (s.setEntry i none)
  release : ∀ (s : State) (i : SlotNo) (r : Record), s.slots[i] = some r → P s → P (s.releaseAt i r)
  waitRelease : ∀ (s : State) (i : SlotNo) (r : Record) (ramp : Ramp), s.slots[i] = some r → r.state = .releasing ramp →
    s.mapFull = false → s.completions[i] = none → P s → P (s.setEntry i (some .waitingRelease))
  retire : ∀ (s : State) (i : SlotNo) (r : Record), s.slots[i] = some r → r.state.retirable = true → s.completions[i] = none → P s →
    P { s with slots := s.slots.set i none }
  offset : ∀ (s : State) (i : SlotNo) (r : Record) (o : Int), s.slots[i] = some r → P s → P (s.setRecord i { r with pendingOffset := some o })
  recordCheck : ∀ (s : State) (i : SlotNo) (r : Record), s.slots[i] = some r → P s → P (s.recordMismatch i)
  compute : ∀ s n, P s → P (s.compute n)
  expire : ∀ s n, P s → P (s.expire n)
  install : ∀ s p, P s → P (s.install p)
  reset : ∀ s held deaf, P s → P (s.resetPart held deaf)

/-! ### Operations that leave the tables -/

theorem State.SameTables.refl (s : State) : s.SameTables s := ⟨rfl, rfl, rfl, rfl, rfl, rfl⟩

theorem State.SameTables.trans {s t u : State} (h : s.SameTables t) (g : t.SameTables u) : s.SameTables u :=
  ⟨g.1.trans h.1, g.2.trans h.2, g.3.trans h.3, g.4.trans h.4, g.5.trans h.5, g.6.trans h.6⟩

theorem csFall_same (s : State) : s.SameTables s.csFall := by
  unfold State.csFall
  split
  · exact ⟨rfl, rfl, rfl, rfl, rfl, rfl⟩
  · split <;> exact ⟨rfl, rfl, rfl, rfl, rfl, rfl⟩

theorem unheardRise_same (s : State) (n : Nat) : s.SameTables (s.unheardRise n) := by
  unfold State.unheardRise
  split <;> exact ⟨rfl, rfl, rfl, rfl, rfl, rfl⟩

theorem fallen_same (s : State) : s.SameTables s.fallen := by
  unfold State.fallen
  split
  · exact csFall_same s
  · exact .refl s

theorem finish_same (s : State) (r : Answer) : s.SameTables (s.finish r) := by
  unfold State.finish
  split <;> exact ⟨rfl, rfl, rfl, rfl, rfl, rfl⟩

theorem request_same (s : State) (a : Access) : s.SameTables (s.request a) := by
  unfold State.request
  split <;> exact ⟨rfl, rfl, rfl, rfl, rfl, rfl⟩

theorem serveNext_same (s : State) : s.SameTables s.serveNext := by
  unfold State.serveNext
  split <;> exact ⟨rfl, rfl, rfl, rfl, rfl, rfl⟩

theorem nextExchange_same (s : State) (e r : List ChannelNo) : s.SameTables (s.nextExchange e r) := by
  unfold State.nextExchange
  split <;> exact ⟨rfl, rfl, rfl, rfl, rfl, rfl⟩

theorem recordChanged_same (s : State) (i : SlotNo) : s.SameTables (s.recordChanged i) := by
  unfold State.recordChanged
  split
  · split <;> exact ⟨rfl, rfl, rfl, rfl, rfl, rfl⟩
  · exact .refl s
  · exact .refl s

theorem channelChanged_same (s : State) (c : ChannelNo) : s.SameTables (s.channelChanged c) := by
  unfold State.channelChanged
  split
  · split <;> exact ⟨rfl, rfl, rfl, rfl, rfl, rfl⟩
  · exact .refl s
  · exact .refl s

theorem noteApplied_same (s : State) (b : EditBuffer) : s.SameTables (s.noteApplied b) := by
  unfold State.noteApplied
  split
  · exact .refl s
  · exact recordChanged_same s _

theorem noteAll_same (l : List (BufferNo × EditBuffer)) (s : State) :
    s.SameTables (l.foldl (fun t p => t.noteApplied p.2) s) := by
  induction l generalizing s with
  | nil => exact .refl s
  | cons p l ih => exact (noteApplied_same s p.2).trans (ih _)

theorem takeStartupLoad_same (s : State) : s.SameTables s.takeStartupLoad := by
  have started : ∀ (read : State) (load : StartupLoad), s.SameTables read →
      s.SameTables (if load = .done then
        ({ read.beginStore .startupLoading with startup := .loading } : State).request .install
        else { read with startup := .settled }) := by
    intro read load h
    split
    · exact .trans (t := { read.beginStore .startupLoading with startup := .loading }) ⟨h.1, h.2, h.3, h.4, h.5, h.6⟩
        (request_same _ _)
    · exact ⟨h.1, h.2, h.3, h.4, h.5, h.6⟩
  exact started _ _ ⟨rfl, rfl, rfl, rfl, rfl, rfl⟩

/-- The record that a name resolves to stands in its slot. -/
theorem resolve_found {s : State} {name : RecordName} {i : SlotNo} {r : Record} (h : s.resolve name = .ok (i, r)) :
    s.slots[i] = some r := by
  unfold State.resolve at h
  split at h
  · split at h
    · split at h
      · cases h
        assumption
      · cases h
    · cases h
  · split at h
    · split at h
      · cases h
        assumption
      · cases h
    · cases h

/-- The slots keep their occupancy through a release. -/
theorem releaseAt_slot (s : State) (i : SlotNo) (r : Record) (h : s.slots[i] = some r) :
    ∃ q, (s.releaseAt i r).slots[i] = some q := by
  unfold State.releaseAt
  split
  · exact ⟨r, h⟩
  · exact ⟨r, h⟩
  · refine ⟨r.leave .idle, ?_⟩
    show ((s.setRecord i (r.leave .idle)).giveForm i .cancelled s.lastCapture).slots[i] = _
    rw [giveForm_eq]
    exact (slots_get_set _ _ _ _).trans (if_pos rfl)
  · exact ⟨_, (slots_get_set _ _ _ _).trans (if_pos rfl)⟩
  · exact ⟨_, (slots_get_set _ _ _ _).trans (if_pos rfl)⟩
  · exact ⟨_, (slots_get_set _ _ _ _).trans (if_pos rfl)⟩

/-- A Release of a HELD or SLIPPING record starts its ramp (R75). -/
theorem releaseAt_ramp (s : State) (i : SlotNo) (r : Record) (h : r.state = .held ∨ r.state = .slipping) :
    (s.releaseAt i r).slots[i] = some (r.leave (.releasing { start := r.correction, step := 0 })) := by
  unfold State.releaseAt
  rcases h with h | h <;> rw [h] <;> exact (slots_get_set _ _ _ _).trans (if_pos rfl)

/-! ### Events and requests -/

section

variable {P : State → Prop} (K : Kept P)

include K

theorem Kept.reportIf {s : State} (b : Bool) (fl : Flag) (h : P s) : P (s.reportIf b fl) := by
  unfold State.reportIf
  split
  · exact K.report _ _ _ h
  · exact h

theorem Kept.captureSet {s : State} (set : CaptureSet) (h : P s) : P (s.takeCaptureSet set) := by
  have all : ∀ (l : List ChannelNo) (t : State), P t →
      P (l.foldl (fun t c => t.takeChannelStep c (t.captureStep set c)) t) := by
    intro l
    induction l with
    | nil => exact fun t ht => ht
    | cons c l ih => exact fun t ht => ih _ (K.capture t c set ht)
  exact K.same _ _ (request_same _ _) (all _ _ h)

theorem Kept.driveStatus {s : State} (h : P s) : P s.takeDriveStatus := by
  unfold State.takeDriveStatus
  split
  · split
    · exact K.drive _ _ _ _ (K.same s _ ⟨rfl, rfl, rfl, rfl, rfl, rfl⟩ h)
    · exact h
    · exact h
    · exact h
    · exact h
  · exact h

theorem Kept.releaseMember {s : State} (i : SlotNo) (h : P s) : P (s.releaseMember i) := by
  unfold State.releaseMember
  split
  · exact K.release _ _ _ (by assumption) h
  · exact h

theorem Kept.releaseMembers (l : List SlotNo) {s : State} (h : P s) : P (l.foldl State.releaseMember s) := by
  induction l generalizing s with
  | nil => exact h
  | cons i l ih => exact ih (K.releaseMember i h)

theorem Kept.vacate {s : State} {i : SlotNo} {r : Record} (hr : s.slots[i] = some r) (hq : r.state.retirable = true)
    (hc : s.completions[i] = none) (h : P s) : P (s.vacate i) :=
  K.same _ _ (recordChanged_same _ i)
    (K.same { s with slots := s.slots.set i none } _ ⟨rfl, rfl, rfl, rfl, rfl, rfl⟩ (K.retire s i r hr hq hc h))

/-- A request judged at its table. -/
theorem Kept.perform {s : State} (r : TableRequest) (h : P s) : P (s.perform r).1 := by
  cases r with
  | form name =>
    simp only [State.perform, State.form]
    split
    · exact h
    · rename_i i r hr
      simp only [State.formFound]
      repeat' split
      all_goals first
        | exact h
        | exact K.collect _ _ _ (by assumption) rfl h
        | exact K.form _ _ _ (resolve_found hr) (by assumption) h
  | release name =>
    simp only [State.perform, State.release]
    split
    · exact h
    · rename_i i r hr
      have hk := K.release s i r (resolve_found hr) h
      simp only [State.releaseFound, State.releaseAnswer]
      repeat' split
      all_goals first
        | exact h
        | exact hk
        | exact K.collect _ _ _ (by assumption) rfl h
        | skip
      all_goals
        rename_i state hn
        simp only [Bool.or_eq_true, not_or, Bool.not_eq_true, Option.isSome_eq_false_iff, Option.isNone_iff_eq_none]
          at hn
        exact K.waitRelease _ _ _ _ (releaseAt_ramp s i r (by simp [state])) rfl hn.1 hn.2 hk
  | retire name =>
    simp only [State.perform, State.retire]
    split
    · exact h
    · rename_i i r hr
      repeat' split
      all_goals first
        | exact h
        | exact K.vacate (resolve_found hr) (by simpa using ‹¬(!r.state.retirable) = true›)
            (by simpa using ‹¬s.completions[i].isSome = true›) h
  | releaseGroup tag mask =>
    simp only [State.perform, State.releaseGroup]
    split
    · exact h
    · exact K.releaseMembers _ h
  | offsetTest name offset =>
    simp only [State.perform, State.offsetTest]
    split
    · exact h
    · rename_i i r hr
      repeat' split
      all_goals first | exact h | exact K.offset _ _ _ _ (resolve_found hr) h
  | checkTest name =>
    simp only [State.perform, State.checkTest]
    split
    · exact h
    · split
      · exact h
      · exact K.same s _ ⟨rfl, rfl, rfl, rfl, rfl, rfl⟩ h
  | setEngine a b c =>
    simp only [State.perform, State.setEngine]
    repeat' split
    all_goals first | exact h | exact K.same s _ ⟨rfl, rfl, rfl, rfl, rfl, rfl⟩ h
  | writeChannel index item a =>
    simp only [State.perform, State.writeChannel]
    split
    · split
      · exact h
      · exact K.same _ _ (channelChanged_same _ _) (K.written _ _ _ _ (by assumption) h)
    · exact h
  | lookupChannel index =>
    simp only [State.perform, State.lookupChannel]
    split
    · exact h
    · exact K.same s _ ⟨rfl, rfl, rfl, rfl, rfl, rfl⟩ h

theorem Kept.takeEvent {s : State} (e : TableEvent) (h : P s) : P (s.takeEvent e) := by
  cases e with
  | request =>
    simp only [State.takeEvent, State.takeRequest]
    split
    · split
      · exact K.same _ _ (finish_same _ _) (K.perform _ h)
      all_goals exact h
    · exact h
  | captureSet set => exact K.captureSet set h
  | driveStatus => exact K.driveStatus h
  | stopAsserted => exact K.stop s h
  | stopDeasserted => exact K.stopRelease s h

theorem Kept.raise {s : State} (e : TableEvent) (h : P s) : P (s.raise e) := by
  unfold State.raise
  split
  · exact K.same s _ ⟨rfl, rfl, rfl, rfl, rfl, rfl⟩ h
  · exact K.takeEvent e h

theorem Kept.endAccess {s : State} (h : P s) : P s.endAccess := by
  have all : ∀ (l : List TableEvent) (t : State), P t → P (l.foldl State.takeEvent t) := by
    intro l
    induction l with
    | nil => exact fun t ht => ht
    | cons e l ih => exact fun t ht => ih _ (K.takeEvent e ht)
  exact K.same _ _ (serveNext_same _) (all _ _ (K.same s _ ⟨rfl, rfl, rfl, rfl, rfl, rfl⟩ h))

theorem Kept.serve {s : State} (v : Service) (h : P s) : P (s.serve v) := by
  have phase : ∀ p, P (s.setPhase p) := fun p => K.same s _ ⟨rfl, rfl, rfl, rfl, rfl, rfl⟩ h
  unfold State.serve
  split
  · exact K.raise _ (phase _)
  · split
    · exact K.same _ _ (request_same _ _) (phase _)
    · exact K.same _ _ (finish_same _ _) h
  · exact K.same _ _ (request_same _ _) (phase _)
  · unfold State.reopen
    split
    · exact K.same _ _ (finish_same _ _) (K.same s _ ⟨rfl, rfl, rfl, rfl, rfl, rfl⟩ h)
    · exact K.same _ _ (finish_same _ _) h
  · exact K.same _ _ (finish_same _ _) h
  · exact K.same _ _ (request_same _ _) (phase _)

theorem Kept.proceed {s : State} (h : P s) : P s.proceed := by
  unfold State.proceed
  split
  · split
    · exact K.same _ _ (request_same _ _) (K.same s _ ⟨rfl, rfl, rfl, rfl, rfl, rfl⟩ h)
    · exact K.serve _ h
    · exact h
    · exact h
  · exact h

theorem Kept.begin {s : State} (code seq : Byte) (q : PortRequest) (l : List BufferNo) (h : P s) :
    P (s.begin code seq q l) :=
  K.proceed (K.same s _ ⟨rfl, rfl, rfl, rfl, rfl, rfl⟩ h)

theorem Kept.replyWith {s : State} (code seq : Byte) (e : EditOutcome) (r : Answer) (h : P s) :
    P (s.replyWith code seq e r) := K.same s _ ⟨rfl, rfl, rfl, rfl, rfl, rfl⟩ h

theorem Kept.frameRise {s : State} {f : State → State} {n : Nat} (hf : ∀ t, P t → P (f t)) (h : P s) :
    P (s.frameRise f n) := by
  have raised : P s.fallen.raised :=
    K.same s _ ((fallen_same s).trans ⟨rfl, rfl, rfl, rfl, rfl, rfl⟩) h
  rcases frameRise_cases s f n with e | e | e <;> rw [e]
  · exact hf _ raised
  · exact K.report _ _ _ raised
  · exact K.same s _ ((fallen_same s).trans (unheardRise_same _ n)) h

theorem Kept.dispatch {s : State} (code seq : Byte) (refused : Bool) {f : State → State} (hf : ∀ t, P t → P (f t))
    (h : P s) : P (s.dispatch code seq refused f) := by
  rcases dispatch_cases s code seq refused f with e | e | e <;> rw [e]
  · exact K.replyWith _ _ _ _ h
  · exact K.replyWith _ _ _ _ h
  · exact hf _ h

theorem Kept.ask {s : State} (code seq : Byte) {f : State → State × Answer} (hf : ∀ t, P t → P (f t).1) (h : P s) :
    P (s.ask code seq f) :=
  K.frameRise (fun _ ht => K.dispatch _ _ _ (fun u hu => K.replyWith _ _ _ _ (hf u hu)) ht) h

theorem Kept.askTable {s : State} (code seq : Byte) (refused : Bool) (r : TableRequest) (h : P s) :
    P (s.askTable code seq refused r) :=
  K.frameRise (fun _ ht => K.dispatch _ _ _ (fun _ hu => K.begin _ _ _ _ hu) ht) h

theorem Kept.askNamed {s : State} (code seq : Byte) (refused : Bool) (name : RecordName) (q : PortRequest) (h : P s) :
    P (s.askNamed code seq refused name q) := by
  refine K.frameRise (fun _ ht => K.dispatch _ _ _ (fun u hu => ?_) ht) h
  unfold State.beginNamed
  split
  · exact K.begin _ _ _ _ hu
  · exact K.replyWith _ _ _ _ hu

theorem Kept.clearNamed {s : State} (l : List (Option Flag)) (h : P s) : P (l.foldl State.clearNamed s) := by
  induction l generalizing s with
  | nil => exact h
  | cons o l ih =>
    refine ih ?_
    unfold State.clearNamed
    split
    · split
      · exact h
      · exact K.clearFlag _ _ h
    · exact h

theorem Kept.rejectEdit {s : State} (reason : EditReason) (tag : Half) (h : P s) : P (s.rejectEdit reason tag) :=
  K.lastReject _ _ (K.report _ _ _ h)

theorem Kept.endStore {s : State} (r : StoreResult) (h : P s) : P (s.endStore r) :=
  K.reportIf _ _ (K.same s _ ⟨rfl, rfl, rfl, rfl, rfl, rfl⟩ h)

theorem Kept.applyEdit {s : State} (k : BufferNo) (b : EditBuffer) (h : P s) : P (s.applyEdit k b).1 := by
  unfold State.applyEdit
  split
  · exact K.rejectEdit _ _ (K.same s _ ⟨rfl, rfl, rfl, rfl, rfl, rfl⟩ h)
  · exact K.same _ _ (noteApplied_same _ _)
      (K.same { s with slots := b.applied s.slots } _ ⟨rfl, rfl, rfl, rfl, rfl, rfl⟩ (K.edit s b (by assumption) h))

theorem Kept.judgeGroup {s : State} (l : List (BufferNo × EditBuffer)) (slots : Slots)
    (hs : judgeGroup l s.slots = .ok slots) (h : P s) : P { s with slots := slots } := by
  induction l generalizing s with
  | nil =>
    cases hs
    exact h
  | cons p l ih =>
    unfold Machine.judgeGroup at hs
    split at hs
    · cases hs
    · exact ih (s := { s with slots := p.2.applied s.slots }) hs (K.edit s p.2 (by assumption) h)

theorem Kept.applyGroup {s : State} (h : P s) : P s.applyGroup.1 := by
  unfold State.applyGroup
  split
  · exact K.rejectEdit _ _ (K.same s _ ⟨rfl, rfl, rfl, rfl, rfl, rfl⟩ h)
  · rename_i slots hs
    have noted := noteAll_same s.edit.openBuffers s
    exact K.same { s with slots := slots } _
      ⟨noted.channels, rfl, noted.completions, noted.posts, noted.faults, noted.stopTaken⟩ (K.judgeGroup _ _ hs h)

theorem Kept.checkStep {s : State} (h : P s) : P s.takeCheckStep := by
  have scan : ∀ p, P (s.setScan p) := fun p => K.same s _ ⟨rfl, rfl, rfl, rfl, rfl, rfl⟩ h
  have test : ∀ (t : State) i, P t → P (t.consumeTest i) := fun t i ht => K.same t _ ⟨rfl, rfl, rfl, rfl, rfl, rfl⟩ ht
  unfold State.takeCheckStep
  split
  · unfold State.checkChannel
    split
    · exact scan _
    · exact K.report _ _ _ (K.channelCheck _ _ (scan _))
  · split
    · unfold State.checkRecord
      repeat' split
      · exact K.report _ _ _ (test _ _ (scan _))
      · exact scan _
      · exact K.recordCheck _ _ _ (by assumption) (test _ _ (scan _))
    · exact scan _

theorem Kept.passPhase {s : State} (old new : ExchangePhase) (h : P s) : P (s.passPhase old new) := by
  unfold State.passPhase
  split
  · exact K.same s _ ⟨rfl, rfl, rfl, rfl, rfl, rfl⟩ h
  · exact h

/-- A request of the store. -/
theorem Kept.storeRequests {s : State} (index item : Byte) (h : P s) :
    P (s.saveProfile index item).1 ∧ P (s.eraseProfile index).1 ∧ P (s.loadProfile index).1 := by
  refine ⟨?_, ?_, ?_⟩
  · unfold State.saveProfile
    repeat' split
    all_goals dsimp only
    all_goals first
      | exact h
      | exact K.endStore _ h
      | exact K.same _ _ (request_same _ _) (K.same s _ ⟨rfl, rfl, rfl, rfl, rfl, rfl⟩ h)
  · unfold State.eraseProfile
    repeat' split
    all_goals first | exact h | exact K.same s _ ⟨rfl, rfl, rfl, rfl, rfl, rfl⟩ h
  · unfold State.loadProfile
    repeat' split
    all_goals first
      | exact h
      | exact K.same _ _ (request_same _ _) (K.same s _ ⟨rfl, rfl, rfl, rfl, rfl, rfl⟩ h)
      | exact K.same s _ ⟨rfl, rfl, rfl, rfl, rfl, rfl⟩ h

theorem Kept.takeInstall {s : State} (h : P s) : P s.takeInstall := by
  unfold State.takeInstall
  split
  · exact K.endStore _ (K.install _ _ h)
  · exact K.same (s.install s.store.profiles[(0 : ProfileNo)]) _ ⟨rfl, rfl, rfl, rfl, rfl, rfl⟩ (K.install s _ h)
  all_goals exact h

theorem Kept.takePortSnapshot {s : State} (h : P s) : P s.takePortSnapshot := by
  unfold State.takePortSnapshot
  split
  · split
    · unfold State.takeLookup
      split
      · exact K.same _ _ (finish_same _ _) (K.same s _ ⟨rfl, rfl, rfl, rfl, rfl, rfl⟩ h)
      · exact K.same _ _ (finish_same _ _) h
    · exact K.same _ _ (finish_same _ _) h
    all_goals exact h
  · exact h

theorem Kept.writeField {s : State} (seq : Byte) (tag : Half) (item : Byte) (w : Word) (h : P s) :
    P (s.writeField seq tag item w) := by
  unfold State.writeField State.writeFieldTo
  repeat' split
  all_goals first
    | exact h
    | exact K.begin _ _ _ _ h
    | exact K.same s _ ⟨rfl, rfl, rfl, rfl, rfl, rfl⟩ h

/-- Every command keeps what the changes of `Kept` keep. -/
theorem Kept.exec {c : Instr} {s t : State} (h : P s) (he : Machine.exec c s = .next t) : P t := by
  have go : ∀ u, P u → Host.Outcome.next u = Machine.exec c s → P t := by
    intro u hu e
    have : (Host.Outcome.next u : Result) = .next t := e.trans he
    cases this
    exact hu
  have ends : ∀ u, P u → P u.endAccess := fun u hu => K.endAccess hu
  cases c with
  | noOp code seq =>
    refine go _ (K.frameRise (fun u hu => ?_) h) rfl
    split
    · exact K.dispatch _ _ _ (fun _ hv => K.replyWith _ _ _ _ hv) hu
    · exact K.replyWith _ _ _ _ hu
  | lookupRecord seq tag index => exact go _ (K.askNamed _ _ _ _ _ h) rfl
  | readSnapshot seq item => exact go _ (K.ask 0x03 seq (f := fun t => (t, t.readSnapshot item)) (fun _ hu => hu) h) rfl
  | lookupChannel seq index => exact go _ (K.askTable _ _ _ _ h) rfl
  | queryGroup seq tag a =>
    exact go _ (K.frameRise (fun _ hu => K.dispatch _ _ _ (fun _ hv => K.begin _ _ _ _ hv) hu) h) rfl
  | writeField seq tag item a =>
    exact go _ (K.frameRise (fun _ hu => K.dispatch _ _ _ (fun _ hv => K.writeField _ _ _ _ hv) hu) h) rfl
  | commit seq tag =>
    refine go _ (K.frameRise (fun _ hu => K.dispatch _ _ _ (fun v hv => ?_) hu) h) rfl
    unfold State.commit
    repeat' split
    all_goals first | exact K.begin _ _ _ _ hv | exact K.replyWith _ _ _ _ hv
  | beginGroup seq =>
    refine go _ (K.ask _ _ (fun u hu => ?_) h) rfl
    unfold State.beginGroup
    split
    · exact hu
    · exact K.same u _ ⟨rfl, rfl, rfl, rfl, rfl, rfl⟩ hu
  | commitGroup seq =>
    refine go _ (K.frameRise (fun _ hu => K.dispatch _ _ _ (fun v hv => ?_) hu) h) rfl
    unfold State.commitGroup
    repeat' split
    · exact K.replyWith _ _ _ _ hv
    · exact K.same v _ ⟨rfl, rfl, rfl, rfl, rfl, rfl⟩ hv
    · exact K.begin _ _ _ _ hv
  | abortGroup seq =>
    refine go _ (K.ask _ _ (fun u hu => ?_) h) rfl
    unfold State.abortGroup
    split
    · exact K.same u _ ⟨rfl, rfl, rfl, rfl, rfl, rfl⟩ hu
    · exact hu
  | form seq tag index => exact go _ (K.askNamed _ _ _ _ _ h) rfl
  | release seq tag index => exact go _ (K.askNamed _ _ _ _ _ h) rfl
  | retire seq tag index => exact go _ (K.askNamed _ _ _ _ _ h) rfl
  | releaseGroup seq tag a =>
    exact go _ (K.frameRise (fun _ hu => K.dispatch _ _ _ (fun _ hv => K.begin _ _ _ _ hv) hu) h) rfl
  | writeChannel seq index item a => exact go _ (K.askTable _ _ _ _ h) rfl
  | setEngine seq a b d => exact go _ (K.askTable _ _ _ _ h) rfl
  | offsetTest seq tag index a => exact go _ (K.askNamed _ _ _ _ _ h) rfl
  | checkTest seq tag index => exact go _ (K.askNamed _ _ _ _ _ h) rfl
  | readFaults seq index =>
    refine go _ (K.ask _ _ (fun u hu => ?_) h) rfl
    unfold State.readFaults
    split <;> exact hu
  | clearFaults seq index item a =>
    refine go _ (K.ask _ _ (fun u hu => ?_) h) rfl
    unfold State.clearFaults
    repeat' split
    all_goals first | exact hu | exact K.clearNamed _ hu
  | clearSummary seq index =>
    refine go _ (K.ask _ _ (fun u hu => ?_) h) rfl
    unfold State.clearSummary
    repeat' split
    all_goals first | exact hu | exact K.dropSummary _ _ hu
  | setMasks seq a b =>
    refine go _ (K.ask _ _ (fun u hu => ?_) h) rfl
    unfold State.setMasks
    split
    · exact hu
    · exact K.setMasks _ _ _ hu
  | saveProfile seq index item => exact go _ (K.ask _ _ (fun _ hu => (K.storeRequests index item hu).1) h) rfl
  | eraseProfile seq index => exact go _ (K.ask _ _ (fun _ hu => (K.storeRequests index 0 hu).2.1) h) rfl
  | loadProfile seq index => exact go _ (K.ask _ _ (fun _ hu => (K.storeRequests index 0 hu).2.2) h) rfl
  | storeStatus seq => exact go _ (K.ask 0x63 seq (f := fun t => (t, t.storeStatus)) (fun _ hu => hu) h) rfl
  | reset seq => exact go _ (K.frameRise (fun _ hu => K.reset _ _ _ hu) h) rfl
  | frameDiscarded w b => exact go _ (K.frameRise (fun _ hu => K.report _ _ _ hu) h) rfl
  | frameRejected code seq =>
    exact go _ (K.frameRise (fun _ hu => K.report _ _ _ (K.replyWith _ _ _ _ hu)) h) rfl
  | overlappedFrame =>
    refine go _ ?_ rfl
    split
    · exact K.report _ _ _ (K.same s _ ⟨rfl, rfl, rfl, rfl, rfl, rfl⟩ h)
    · exact h
  | resetLine => exact go _ (K.reset _ _ _ h) rfl
  | powerOn => exact go _ (K.reset _ _ _ h) rfl
  | startupLoad =>
    refine go _ ?_ rfl
    split
    · exact K.same _ _ (takeStartupLoad_same s) h
    · exact h
  | ready =>
    refine go _ ?_ rfl
    split
    · refine K.reportIf _ _ ?_
      have up : P s.becomeReady := K.same s _ ⟨rfl, rfl, rfl, rfl, rfl, rfl⟩ h
      unfold State.readStop
      split
      · exact K.stop _ up
      · exact up
    · exact h
  | quadratureEdge d a b =>
    cases he
    exact K.same s _ ⟨rfl, rfl, rfl, rfl, rfl, rfl⟩ h
  | capture =>
    refine go _ ?_ rfl
    split
    · exact h
    · exact K.raise _ (K.same s _ ⟨rfl, rfl, rfl, rfl, rfl, rfl⟩ h)
  | computation =>
    cases ha : s.arbiter.inService with
    | none => exact go s h (by simp [Machine.exec, execComputation, ha])
    | some a =>
      cases a with
      | computation n =>
        refine go ((s.compute n).closeComputation n) ?_ (by simp [Machine.exec, execComputation, ha])
        unfold State.closeComputation
        split
        · exact K.same (s.compute n) _ ⟨rfl, rfl, rfl, rfl, rfl, rfl⟩ (K.compute s n h)
        · exact ends _ (K.compute s n h)
      | _ => exact go s h (by simp [Machine.exec, execComputation, ha])
  | collectDeadlineExpiry =>
    cases ha : s.arbiter.inService with
    | none => exact go s h (by simp [Machine.exec, execCollectDeadlineExpiry, ha])
    | some a =>
      cases a with
      | expiry n =>
        exact go (s.expire n).endAccess (ends _ (K.expire s n h)) (by simp [Machine.exec, execCollectDeadlineExpiry, ha])
      | _ => exact go s h (by simp [Machine.exec, execCollectDeadlineExpiry, ha])
  | editApplication =>
    simp only [Machine.exec, execEditApplication] at he
    split at he
    · split at he
      · split at he
        · cases he
        · cases he
          exact K.proceed (ends _ (K.same (s.applyEdit _ _).1 _ ⟨rfl, rfl, rfl, rfl, rfl, rfl⟩ (K.applyEdit _ _ h)))
      · cases he
        exact K.proceed (ends _ h)
    all_goals
      cases he
      exact h
  | groupApplication =>
    simp only [Machine.exec, execGroupApplication] at he
    split at he
    · split at he
      · cases he
      · cases he
        exact ends _ (K.same _ _ (finish_same _ _)
          (K.same s.applyGroup.1 _ ⟨rfl, rfl, rfl, rfl, rfl, rfl⟩ (K.applyGroup h)))
    all_goals
      cases he
      exact h
  | portSnapshot =>
    refine go _ ?_ rfl
    split
    · exact ends _ (K.takePortSnapshot h)
    · exact h
  | saveSnapshot =>
    refine go _ ?_ rfl
    split
    · refine ends _ ?_
      unfold State.takeSaveSnapshot
      split
      · exact K.same s _ ⟨rfl, rfl, rfl, rfl, rfl, rfl⟩ h
      all_goals exact h
    · exact h
  | profileInstall =>
    refine go _ ?_ rfl
    split
    · exact ends _ (K.takeInstall h)
    · exact h
  | saveEnd agrees =>
    refine go (s.endSave agrees) ?_ rfl
    unfold State.endSave
    split
    · split
      all_goals exact K.endStore _ (K.same s _ ⟨rfl, rfl, rfl, rfl, rfl, rfl⟩ h)
    all_goals exact h
  | eraseEnd =>
    refine go s.endErase ?_ rfl
    unfold State.endErase
    split
    · exact K.endStore _ (K.same s _ ⟨rfl, rfl, rfl, rfl, rfl, rfl⟩ h)
    all_goals exact h
  | loadInvalidEnd =>
    refine go s.endInvalidLoad ?_ rfl
    unfold State.endInvalidLoad
    split
    · exact K.endStore _ h
    all_goals exact h
  | checkStepTimer =>
    refine go _ ?_ rfl
    split
    · exact K.same _ _ (request_same _ _) h
    · exact h
  | checkStep =>
    refine go _ ?_ rfl
    split
    · exact ends _ (K.checkStep h)
    · exact h
  | stopAsserted =>
    refine go _ ?_ rfl
    have seen : P { s with stopLine := true } := K.same s _ ⟨rfl, rfl, rfl, rfl, rfl, rfl⟩ h
    repeat' split
    · exact h
    · exact K.raise _ seen
    · exact seen
  | stopDeasserted =>
    refine go _ ?_ rfl
    have seen : P { s with stopLine := false } := K.same s _ ⟨rfl, rfl, rfl, rfl, rfl, rfl⟩ h
    repeat' split
    · exact K.raise _ seen
    · exact seen
    · exact h
  | correctionSent => exact go _ (K.passPhase _ _ h) rfl
  | driveStatus b0 b1 b2 b3 => exact go _ (K.passPhase _ _ h) rfl
  | brokenReply => exact go _ (K.passPhase _ _ h) rfl
  | replyWindowExpiry => exact go _ (K.passPhase _ _ h) rfl
  | gapEnd =>
    simp only [Machine.exec, execGapEnd] at he
    split at he
    · split at he
      · cases he
        exact K.same _ _ (nextExchange_same _ _ _) h
      all_goals
        cases he
        exact h
    · cases he
      exact h
  | driveStatusEvent =>
    refine go _ ?_ rfl
    split
    · exact K.raise _ h
    · exact h
  | replyStart => exact go _ (K.passPhase _ _ h) rfl
  | chipSelectFall =>
    refine go _ ?_ rfl
    split
    · exact K.same _ _ (csFall_same _) h
    · exact h
  | endOfReset =>
    exact go { s.recovered with resetHeld := false } (K.same s _ ⟨rfl, rfl, rfl, rfl, rfl, rfl⟩ h) rfl

/-- Every step keeps what the changes of `Kept` keep. -/
theorem Kept.step {s t : State} (h : P s) (hs : Machine.step s = .next t) : P t := by
  unfold Machine.step at hs
  split at hs
  · rename_i c rest _
    exact K.exec (K.same s (s.withPending rest) ⟨rfl, rfl, rfl, rfl, rfl, rfl⟩ h) hs
  · cases hs
    exact h

end

end Sys2Proof.Machine
end

