-- ==== Sys2Proof/Laws/Like.lean ====
section
/-! SUPPORT. What leaves the tags of the records, the edit unit, the service of the port, the store,
start-up and the arbiter: `Like`, and the operations whose result is like the state they began with. -/

namespace Sys2Proof.Machine

/-- The tag of the record in a slot. -/
def State.tagAt (s : State) (i : SlotNo) : Option Half := s.slots[i].map fun r => r.cfg.tag

/-- A slot has a tag when a record with it stands there. -/
theorem tagAt_some {s : State} {i : SlotNo} {h : Half} : s.tagAt i = some h ↔ ∃ r, s.slots[i] = some r ∧ r.cfg.tag = h := by
  unfold State.tagAt
  cases s.slots[i] <;> simp

/-- Two states agree in what soundness reads but the accesses. -/
structure Like (s t : State) : Prop where
  tags : ∀ i, t.tagAt i = s.tagAt i
  edit : t.edit = s.edit
  service : t.port.service = s.port.service
  chip : t.port.chipSelect = .low false → s.port.chipSelect = .low false
  op : t.store.op = s.store.op
  profiles : t.store.profiles = s.store.profiles
  startup : t.startup = s.startup
  arbiter : t.arbiter = s.arbiter

/-- A state agrees with itself. -/
theorem Like.refl (s : State) : Like s s := ⟨fun _ => rfl, rfl, rfl, id, rfl, rfl, rfl, rfl⟩

/-- Agreement is transitive. -/
theorem Like.trans {s t u : State} (h : Like s t) (g : Like t u) : Like s u :=
  ⟨fun i => (g.tags i).trans (h.tags i), g.edit.trans h.edit, g.service.trans h.service, h.chip ∘ g.chip,
   g.op.trans h.op, g.profiles.trans h.profiles, g.startup.trans h.startup, g.arbiter.trans h.arbiter⟩

/-- The record in a slot of the one has its tag in the other. -/
theorem slot_of_like {s t : State} (h : ∀ i, t.tagAt i = s.tagAt i) {i : SlotNo} {r : Record} (hr : t.slots[i] = some r) :
    ∃ q, s.slots[i] = some q ∧ q.cfg.tag = r.cfg.tag :=
  tagAt_some.1 ((h i).symm.trans (tagAt_some.2 ⟨r, hr, rfl⟩))

/-- The directory reads the tags alone. -/
theorem directory_congr {s t : State} (h : ∀ i, t.tagAt i = s.tagAt i) : t.directory = s.directory := by
  unfold State.directory
  congr 1
  funext i
  have := h i
  unfold State.tagAt at this
  revert this
  cases t.slots[i] <;> cases s.slots[i] <;> simp

/-- So does the finding of a tag. -/
theorem findTag_congr {s t : State} (h : ∀ i, t.tagAt i = s.tagAt i) (tag : Half) : t.findTag tag = s.findTag tag := by
  unfold State.findTag
  rw [directory_congr h]

/-- A name resolves to the same slot, to a record with the same tag. -/
theorem resolve_congr {s t : State} (h : ∀ i, t.tagAt i = s.tagAt i) {name : RecordName} {i : SlotNo} {r : Record}
    (hr : t.resolve name = .ok (i, r)) : ∃ q, s.resolve name = .ok (i, q) ∧ q.cfg.tag = r.cfg.tag := by
  have found := resolve_found hr
  obtain ⟨q, hq, e⟩ := slot_of_like h found
  refine ⟨q, ?_, e⟩
  cases name with
  | byTag tag =>
    simp only [State.resolve] at hr ⊢
    rw [findTag_congr h] at hr
    cases hf : s.findTag tag with
    | none => rw [hf] at hr; simp at hr
    | some j =>
      rw [hf] at hr
      simp only at hr ⊢
      cases hj : t.slots[j] with
      | none => rw [hj] at hr; simp at hr
      | some x =>
        rw [hj] at hr
        cases hr
        rw [hq]
  | bySlot index =>
    simp only [State.resolve] at hr ⊢
    split at hr
    · rename_i hlt
      cases hj : t.slots[(⟨index.toNat, hlt⟩ : SlotNo)] with
      | none => rw [hj] at hr; simp at hr
      | some x =>
        rw [hj] at hr
        cases hr
        simp only [dif_pos hlt]
        rw [hq]
    · cases hr

/-- A record put in the place of one with its tag. -/
theorem tagAt_setRecord {s : State} {i : SlotNo} {r q : Record} (hr : s.slots[i] = some r) (e : q.cfg.tag = r.cfg.tag)
    (j : SlotNo) : (s.setRecord i q).tagAt j = s.tagAt j := by
  unfold State.tagAt
  rw [setRecord_slots, slots_get_set]
  split
  · rename_i h; subst h; rw [hr]; simp [e]
  · rfl

/-- What leaves the tags, the edit unit, the port, the store, start-up and the arbiter. -/
theorem like_of_rest {s t : State} (tags : ∀ i, t.tagAt i = s.tagAt i) (he : t.edit = s.edit) (hp : t.port = s.port)
    (hst : t.store = s.store) (hu : t.startup = s.startup) (ha : t.arbiter = s.arbiter) : Like s t :=
  ⟨tags, he, by rw [hp], by rw [hp]; exact id, by rw [hst], by rw [hst], hu, ha⟩

/-- The tags of equal slots. -/
theorem tagAt_congr {s t : State} (h : t.slots = s.slots) (i : SlotNo) : t.tagAt i = s.tagAt i := by
  unfold State.tagAt; rw [h]

/-- A record put in the place of one with its tag. -/
theorem like_setRecord {s : State} {i : SlotNo} {r q : Record} (hr : s.slots[i] = some r) (e : q.cfg.tag = r.cfg.tag) :
    Like s (s.setRecord i q) := like_of_rest (tagAt_setRecord hr e) rfl rfl rfl rfl rfl

/-- A report. -/
theorem like_report (s : State) (fl : Flag) (k : CheckCause) : Like s (s.report fl k) :=
  like_of_rest (fun _ => rfl) rfl rfl rfl rfl rfl

/-- A report, or none. -/
theorem like_reportIf (s : State) (b : Bool) (fl : Flag) : Like s (s.reportIf b fl) := by
  unfold State.reportIf
  split
  · exact like_report _ _ _
  · exact .refl s

/-- The outcome of a Form. -/
theorem like_giveForm (s : State) (i : SlotNo) (o : FormOutcome) (n : Word) : Like s (s.giveForm i o n) := by
  rw [giveForm_eq]; exact like_of_rest (fun _ => rfl) rfl rfl rfl rfl rfl

/-- The outcome of a Release. -/
theorem like_giveRelease (s : State) (i : SlotNo) (o : ReleaseOutcome) (n : Word) : Like s (s.giveRelease i o n) := by
  rw [giveRelease_eq]; exact like_of_rest (fun _ => rfl) rfl rfl rfl rfl rfl

/-- A break. -/
theorem like_breakAt {s : State} {i : SlotNo} {r : Record} (hr : s.slots[i] = some r) (b : BreakReason) :
    Like s (s.breakAt i r b) :=
  Like.trans (t := s.setRecord i (r.leave (.broken b))) (like_setRecord hr rfl) (like_report _ _ _)

/-- A cut. -/
theorem like_cutAt (s : State) (i : SlotNo) (b : BreakReason) : Like s (s.cutAt i b) := by
  unfold State.cutAt
  split
  · rename_i r hr
    split
    · exact (like_breakAt hr b).trans (like_giveForm _ _ _ _)
    · exact like_breakAt hr b
    · exact like_breakAt hr b
    · split
      · exact (like_breakAt hr b).trans (like_giveRelease _ _ _ _)
      · exact Like.trans (t := s.setRecord i (r.leave .idle)) (like_setRecord hr rfl) (like_giveRelease _ _ _ _)
    · exact .refl s
    · exact .refl s
  · exact .refl s

/-- A walk of such changes. -/
theorem like_foldl {α} (f : State → α → State) (h : ∀ s a, Like s (f s a)) (l : List α) (s : State) :
    Like s (l.foldl f s) := by
  induction l generalizing s with
  | nil => exact .refl s
  | cons a l ih => exact (h s a).trans (ih _)

/-- A cut of a record that names a channel. -/
theorem like_cutNaming (s : State) (c : ChannelNo) (i : SlotNo) : Like s (s.cutNaming c i) := by
  unfold State.cutNaming
  split
  · split
    · exact like_cutAt _ _ _
    · exact .refl s
  · exact .refl s

/-- A zero write with its notice. -/
theorem like_zeroed (v : State) (c : ChannelNo) : Like v ((v.recouple.zeroWrite c).report (.lost c)) :=
  like_of_rest (fun _ => rfl) rfl rfl rfl rfl rfl

/-- A channel loss. -/
theorem like_channelLost (s : State) (c : ChannelNo) : Like s (s.channelLost c) :=
  (like_foldl (fun t i => State.cutNaming t c i) (fun t i => like_cutNaming t c i) (List.finRange 16) s).trans
    (like_zeroed _ c)

/-- A channel event. -/
theorem like_takeChannelStep (s : State) (c : ChannelNo) (st : ChannelStep) : Like s (s.takeChannelStep c st) := by
  have e : s.takeChannelStep c st = if st.lost then (s.beforeNotice c st).channelLost c else s.beforeNotice c st := rfl
  have : Like s (s.beforeNotice c st) := by
    rw [beforeNotice_eq]; exact like_of_rest (fun _ => rfl) rfl rfl rfl rfl rfl
  rw [e]
  split
  · exact this.trans (like_channelLost _ _)
  · exact this

/-- What STOP leaves after its cuts (R80). -/
def stopZeroed (cut : State) : State := (
  { cut with
      engine := { cut.engine with stopTaken := true }
      channels := Vector.ofFn fun c => { cut.channels[c] with coupled := false, posted := 0 }
      link := { cut.link with slots := Vector.replicate 8 0 } } : State).report .stop

/-- The zeroing by STOP. -/
theorem like_stopZeroed (v : State) : Like v (stopZeroed v) :=
  like_of_rest (fun _ => rfl) rfl rfl rfl rfl rfl

/-- STOP. -/
theorem like_takeStop (s : State) : Like s s.takeStop := by
  have h := like_foldl (fun t i => State.cutAt t i .stop) (fun t i => like_cutAt t i .stop) (List.finRange 16) s
  unfold State.takeStop
  revert h
  generalize (List.finRange 16).foldl (fun t i => State.cutAt t i .stop) s = v
  intro h
  exact h.trans (like_stopZeroed v)

/-- A drive status event. -/
theorem like_takeDriveStatus (s : State) : Like s s.takeDriveStatus := by
  unfold State.takeDriveStatus
  split
  · split
    · refine Like.trans ?_ (like_takeChannelStep _ _ _)
      exact like_of_rest (fun _ => rfl) rfl rfl rfl rfl rfl
    all_goals exact .refl s
  · exact .refl s

/-- A computation leaves the tags. -/
theorem advance_tag (p : CapturePeriod) (uL uF : Int) (up : Bool) (r : Record) :
    (r.advance p uL uF up).record.cfg = r.cfg := by
  simp only [Record.advance, Record.advanceForming, Record.advanceHeld, Record.advanceSlipping, Record.advanceReleasing]
  split
  all_goals repeat' (first | rfl | split)

/-- So does the correction. -/
theorem corrected_cfg (p : CapturePeriod) (r : Record) : (r.corrected p).cfg = r.cfg := by
  unfold Record.corrected; split <;> rfl

/-- A computation. -/
theorem like_compute (s : State) (n : Word) : Like s (s.compute n) := by
  obtain ⟨e, f, l, h, -⟩ := compute_spec s n
  rw [h]
  refine like_of_rest (fun i => ?_) rfl rfl rfl rfl rfl
  unfold State.tagAt
  simp only [Fin.getElem_fin, Vector.getElem_ofFn, State.computedAt, State.correctedAt, State.advanceAt, Option.map_map]
  congr 1
  funext r
  simp [corrected_cfg, advance_tag]

/-- An expiry. -/
theorem like_expire (s : State) (n : Word) : Like s (s.expire n) := by
  unfold State.expire
  refine Like.trans ?_ (like_reportIf _ _ _)
  exact like_of_rest (fun _ => rfl) rfl rfl rfl rfl rfl

/-- The check-failed mark. -/
theorem like_markFailed (s : State) (i : SlotNo) : Like s (s.markFailed i) := by
  unfold State.markFailed
  split
  · rename_i r hr; exact like_setRecord hr rfl
  · exact .refl s

/-- A mismatch of a record. -/
theorem like_recordMismatch (s : State) (i : SlotNo) : Like s (s.recordMismatch i) := by
  unfold State.recordMismatch
  exact ((like_cutAt _ _ _).trans (like_markFailed _ _)).trans (like_of_rest (fun _ => rfl) rfl rfl rfl rfl rfl)

/-- A check step. -/
theorem like_takeCheckStep (s : State) : Like s s.takeCheckStep := by
  have scan : ∀ p, Like s (s.setScan p) := fun p => like_of_rest (fun _ => rfl) rfl rfl rfl rfl rfl
  unfold State.takeCheckStep
  split
  · rename_i c _
    refine (scan (ScanPosition.channel c).after).trans ?_
    unfold State.checkChannel
    split
    · exact .refl _
    · exact (like_takeChannelStep _ _ _).trans (like_report _ _ _)
  · rename_i i _
    split
    · refine (scan (ScanPosition.slot i).after).trans ?_
      unfold State.checkRecord
      have test : ∀ (t : State) i, Like t (t.consumeTest i) := fun t i => like_of_rest (fun _ => rfl) rfl rfl rfl rfl rfl
      split
      · split
        · exact (test _ _).trans (like_report _ _ _)
        · exact .refl _
      · exact (test _ _).trans (like_recordMismatch _ _)
    · exact scan _

/-- A release. -/
theorem like_releaseAt {s : State} {i : SlotNo} {r : Record} (hr : s.slots[i] = some r) : Like s (s.releaseAt i r) := by
  unfold State.releaseAt
  split
  · exact .refl s
  · exact .refl s
  · refine Like.trans (t := s.setRecord i (r.leave .idle)) (like_setRecord hr rfl) ?_
    refine Like.trans (like_giveForm _ i .cancelled s.lastCapture) ?_
    exact like_of_rest (fun _ => rfl) rfl rfl rfl rfl rfl
  · exact like_setRecord hr rfl
  · exact like_setRecord hr rfl
  · exact like_setRecord hr rfl

/-- A release of a group member. -/
theorem like_releaseMember (s : State) (i : SlotNo) : Like s (s.releaseMember i) := by
  unfold State.releaseMember
  split
  · rename_i r hr; exact like_releaseAt hr
  · exact .refl s

/-- A request of an access changes the arbiter alone. -/
theorem request_eq (s : State) (a : Access) : s.request a = { s with arbiter := (s.request a).arbiter } := by
  unfold State.request; split <;> rfl

/-- It leaves the waiting events. -/
theorem request_deferred (s : State) (a : Access) : (s.request a).arbiter.deferred = s.arbiter.deferred := by
  unfold State.request; split <;> rfl

/-- A channel entry written. -/
theorem like_writeChannel (s : State) (c : ChannelNo) (ch : Channel) : Like s ((s.setChannel c ch).channelChanged c) := by
  refine Like.trans (t := s.setChannel c ch) (like_of_rest (fun _ => rfl) rfl rfl rfl rfl rfl) ?_
  unfold State.channelChanged
  split
  · split
    · exact ⟨fun _ => rfl, rfl, rfl, id, rfl, rfl, rfl, rfl⟩
    · exact .refl _
  · exact .refl _
  · exact .refl _

/-- Every request judged at its table but a Retire leaves the tags. -/
theorem like_perform {s : State} (r : TableRequest) (h : ∀ name, r ≠ .retire name) : Like s (s.perform r).1 := by
  have entry : ∀ i e, Like s (s.setEntry i e) := fun _ _ => like_of_rest (fun _ => rfl) rfl rfl rfl rfl rfl
  cases r with
  | form name =>
    simp only [State.perform, State.form]
    split
    · exact .refl s
    · rename_i i r hr
      simp only [State.formFound]
      have acc : Like s (s.acceptForm i r) := by
        unfold State.acceptForm
        refine Like.trans (t := s.setRecord i { r with state := .forming, error := 0, run := 0, elapsed := 0 })
          (like_setRecord (resolve_found hr) rfl) (like_of_rest (fun _ => rfl) rfl rfl rfl rfl rfl)
      repeat' split
      all_goals first
        | exact .refl s
        | exact entry _ _
        | exact acc
  | release name =>
    simp only [State.perform, State.release]
    split
    · exact .refl s
    · rename_i i r hr
      have hk : Like s (s.releaseAt i r) := like_releaseAt (resolve_found hr)
      simp only [State.releaseFound, State.releaseAnswer]
      repeat' split
      all_goals first
        | exact .refl s
        | exact hk
        | exact entry _ _
        | exact hk.trans (like_of_rest (fun _ => rfl) rfl rfl rfl rfl rfl)
  | retire name => exact absurd rfl (h name)
  | releaseGroup tag mask =>
    simp only [State.perform, State.releaseGroup]
    split
    · exact .refl s
    · exact like_foldl _ like_releaseMember _ s
  | offsetTest name offset =>
    simp only [State.perform, State.offsetTest]
    split
    · exact .refl s
    · rename_i i r hr
      repeat' split
      all_goals first | exact .refl s | exact like_setRecord (resolve_found hr) rfl
  | checkTest name =>
    simp only [State.perform, State.checkTest]
    split
    · exact .refl s
    · split
      · exact .refl s
      · exact like_of_rest (fun _ => rfl) rfl rfl rfl rfl rfl
  | setEngine a b c =>
    simp only [State.perform, State.setEngine]
    repeat' split
    all_goals first | exact .refl s | exact like_of_rest (fun _ => rfl) rfl rfl rfl rfl rfl
  | writeChannel index item a =>
    simp only [State.perform, State.writeChannel]
    split
    · split
      · exact .refl s
      · exact like_writeChannel _ _ _
    · exact .refl s
  | lookupChannel index =>
    simp only [State.perform, State.lookupChannel]
    split
    · exact .refl s
    · exact ⟨fun _ => rfl, rfl, rfl, id, rfl, rfl, rfl, rfl⟩

/-- A capture set leaves the tags. -/
theorem like_captureFold (set : CaptureSet) (s : State) :
    Like s ((List.finRange 8).foldl (fun t c => State.takeChannelStep t c (t.captureStep set c)) s) :=
  like_foldl (fun t c => State.takeChannelStep t c (t.captureStep set c)) (fun t c => like_takeChannelStep t c _) _ s

/-- Judging a request leaves the arbiter. -/
theorem perform_arbiter (s : State) (r : TableRequest) : (s.perform r).1.arbiter = s.arbiter := by
  by_cases h : ∃ n, r = .retire n
  · obtain ⟨n, rfl⟩ := h
    simp only [State.perform, State.retire]
    repeat' split
    all_goals first | rfl | skip
    all_goals (simp only [State.vacate, State.recordChanged]; repeat' split)
    all_goals rfl
  · exact (like_perform r (fun n e => h ⟨n, e⟩)).arbiter

/-- So does its reply. -/
theorem finish_arbiter (s : State) (r) : (s.finish r).arbiter = s.arbiter := by
  unfold State.finish; split <;> rfl

/-- So does a request judged and answered. -/
theorem takeRequest_arbiter (s : State) : s.takeRequest.arbiter = s.arbiter := by
  unfold State.takeRequest
  repeat' split
  all_goals first | rfl | rw [finish_arbiter, perform_arbiter]

/-- A capture set requests its computation. -/
theorem takeCaptureSet_request (s : State) (set) : ∃ v : State, v.arbiter = s.arbiter ∧ s.takeCaptureSet set = v.request (.computation set.number) := by
  exact ⟨_, (like_captureFold set s).arbiter, rfl⟩

end Sys2Proof.Machine
end

