-- ==== Sys2Proof/Laws/Meanwhile.lean ====
section
/-! SUPPORT. What happens between the ends of accesses: a property that the changes of
`KeptMeanwhile` keep is kept by every command but the ends of accesses, the resets and start-up. -/

namespace Sys2Proof.Machine

/-- What every change of a state between the ends of accesses keeps: a change that leaves the arbiter, the tables and
start-up, an event that arises, an access that is requested. -/
structure KeptMeanwhile (P : State → Prop) : Prop where
  same : ∀ s t : State, t.arbiter = s.arbiter → t.slots = s.slots → t.channels = s.channels → t.startup = s.startup → P s → P t
  raise : ∀ (s : State) e, P s → P (s.raise e)
  request : ∀ (s : State) a, P s → P (s.request a)

/-- The commands other than the ends of accesses, the resets and start-up. -/
def isMeanwhile : Instr → Bool
  | .reset _ | .resetLine | .powerOn | .startupLoad | .ready | .computation | .collectDeadlineExpiry | .editApplication
  | .groupApplication | .portSnapshot | .saveSnapshot | .profileInstall | .checkStep => false
  | _ => true

section

variable {P : State → Prop} (K : KeptMeanwhile P)

include K

/-- A fall of chip select. -/
theorem KeptMeanwhile.csFall {s} (h : P s) : P s.csFall := by
  unfold State.csFall; repeat' split
  all_goals exact K.same s _ rfl rfl rfl rfl h

/-- A fall, or none. -/
theorem KeptMeanwhile.fallen {s} (h : P s) : P s.fallen := by
  unfold State.fallen; split
  · exact K.csFall h
  · exact h

/-- A report. -/
theorem KeptMeanwhile.report {s} (h : P s) (fl k) : P (s.report fl k) := K.same s _ rfl rfl rfl rfl h

/-- A report, or none. -/
theorem KeptMeanwhile.reportIf {s} (h : P s) (b fl) : P (s.reportIf b fl) := by
  unfold State.reportIf; split
  · exact K.report h _ _
  · exact h

/-- The end of a frame. -/
theorem KeptMeanwhile.frameRise {s : State} {f : State → State} {n : Nat} (h : P s) (hf : ∀ u, P u → P (f u)) : P (s.frameRise f n) := by
  have g := K.fallen h
  have r : P s.fallen.raised := K.same s.fallen _ rfl rfl rfl rfl g
  rcases frameRise_cases s f n with e | e | e
  · rw [e]; exact hf _ r
  · rw [e]; exact K.report r _ _
  · rw [e]; unfold State.unheardRise; split
    all_goals exact K.same s.fallen _ rfl rfl rfl rfl g

/-- A reply. -/
theorem KeptMeanwhile.reply {s} (h : P s) (a b e r) : P (s.replyWith a b e r) := K.same s _ rfl rfl rfl rfl h

/-- The dispatch of a request. -/
theorem KeptMeanwhile.dispatch {s : State} (h : P s) (code seq b f) (hf : ∀ u, P u → P (f u)) : P (s.dispatch code seq b f) := by
  rcases dispatch_cases s code seq b f with e | e | e <;> rw [e]
  · exact K.reply h _ _ _ _
  · exact K.reply h _ _ _ _
  · exact hf _ h

/-- A request answered at once. -/
theorem KeptMeanwhile.ask {s : State} (h : P s) (code seq) (f : State → State × Answer) (hf : ∀ u, P u → P (f u).1) : P (s.ask code seq f) :=
  K.frameRise h fun _ hu => K.dispatch hu _ _ _ _ fun v hv => K.reply (hf v hv) _ _ _ _

/-- The end of a service. -/
theorem KeptMeanwhile.finish {s} (h : P s) (r) : P (s.finish r) := by
  unfold State.finish; split
  · exact K.reply h _ _ _ _
  · exact h

/-- The phase of a service. -/
theorem KeptMeanwhile.phase {s} (h : P s) (p) : P (s.setPhase p) := K.same s _ rfl rfl rfl rfl h

/-- A request's own work. -/
theorem KeptMeanwhile.serve {s} (h : P s) (v) : P (s.serve v) := by
  unfold State.serve
  split
  · exact K.raise _ _ (K.phase h _)
  · split
    · exact K.request _ _ (K.phase h _)
    · exact K.finish h _
  · exact K.request _ _ (K.phase h _)
  · unfold State.reopen; split
    · (refine K.finish ?_ _; exact K.same s _ rfl rfl rfl rfl h)
    · exact K.finish h _
  · exact K.finish h _
  · exact K.request _ _ (K.phase h _)

/-- A service going on. -/
theorem KeptMeanwhile.proceed {s} (h : P s) : P s.proceed := by
  unfold State.proceed
  repeat' split
  · exact K.request _ _ (K.phase h _)
  · exact K.serve h _
  all_goals exact h

/-- A request entering service. -/
theorem KeptMeanwhile.begin {s} (h : P s) (a b c d) : P (s.begin a b c d) := K.proceed (K.same s _ rfl rfl rfl rfl h)

/-- One that names a record. -/
theorem KeptMeanwhile.beginNamed {s} (h : P s) (a b c d) : P (s.beginNamed a b c d) := by
  unfold State.beginNamed; split
  · exact K.begin h _ _ _ _
  · exact K.reply h _ _ _ _

/-- The frame of one that names a record. -/
theorem KeptMeanwhile.askNamed {s : State} (h : P s) (a b c d e) : P (s.askNamed a b c d e) :=
  K.frameRise h fun _ hu => K.dispatch hu _ _ _ _ fun _ hv => K.beginNamed hv _ _ _ _

/-- The frame of a request judged at its table. -/
theorem KeptMeanwhile.askTable {s : State} (h : P s) (a b c d) : P (s.askTable a b c d) :=
  K.frameRise h fun _ hu => K.dispatch hu _ _ _ _ fun _ hv => K.begin hv _ _ _ _

/-- The edit unit replaced. -/
theorem KeptMeanwhile.edit {s : State} (h : P s) (e) : P ({ s with edit := e } : State) := K.same s _ rfl rfl rfl rfl h

/-- A phase of an exchange. -/
theorem KeptMeanwhile.pass {s} (h : P s) (a b) : P (s.passPhase a b) := by
  unfold State.passPhase; split
  · exact K.same s _ rfl rfl rfl rfl h
  · exact h

/-- The end of a store operation. -/
theorem KeptMeanwhile.endStore {s} (h : P s) (r) : P (s.endStore r) := by
  unfold State.endStore; (refine K.reportIf ?_ _ _; exact K.same s _ rfl rfl rfl rfl h)

/-- Every command of these keeps what is kept meanwhile. -/
theorem KeptMeanwhile.exec {s t : State} (c : Instr) (hp : isMeanwhile c = true) (h : P s) (he : Machine.exec c s = .next t) : P t := by
  have go : ∀ u, P u → Machine.exec c s = .next u → P t := by
    intro u hu hx
    rw [hx] at he; cases he; exact hu
  have named : ∀ (l : List (Option Flag)) (v : State), (l.foldl State.clearNamed v) = { v with faults := (l.foldl State.clearNamed v).faults } := by
      intro l
      induction l with
      | nil => exact fun v => rfl
      | cons x l ih =>
        intro v
        rw [List.foldl_cons, ih]
        have : v.clearNamed x = { v with faults := (v.clearNamed x).faults } := by
          unfold State.clearNamed; repeat' split
          all_goals rfl
        rw [this]
  cases c with
  | noOp code seq =>
    refine go _ (K.frameRise h fun u hu => ?_) rfl
    split
    · exact K.dispatch hu _ _ _ _ fun v hv => K.reply hv _ _ _ _
    · exact K.reply hu _ _ _ _
  | lookupRecord seq tag index => exact go _ (K.askNamed h _ _ _ _ _) rfl
  | readSnapshot seq item => exact go _ (K.ask h _ _ _ fun u hu => hu) rfl
  | lookupChannel seq index => exact go _ (K.askTable h _ _ _ _) rfl
  | queryGroup seq tag a =>
    exact go _ (K.frameRise h fun _ hu => K.dispatch hu _ _ _ _ fun _ hv => K.begin hv _ _ _ _) rfl
  | writeField seq tag item a =>
    refine go _ (K.frameRise h fun _ hu => K.dispatch hu _ _ _ _ fun v hv => ?_) rfl
    unfold State.writeField State.writeFieldTo
    repeat' split
    all_goals first
      | exact K.reply hv _ _ _ _
      | exact hv
      | exact K.begin hv _ _ _ _
      | exact K.same v _ rfl rfl rfl rfl hv
  | commit seq tag =>
    refine go _ (K.frameRise h fun _ hu => K.dispatch hu _ _ _ _ fun v hv => ?_) rfl
    unfold State.commit
    repeat' split
    all_goals first
      | exact K.reply hv _ _ _ _
      | exact hv
      | exact K.begin hv _ _ _ _
  | beginGroup seq =>
    refine go _ (K.ask h _ _ _ fun u hu => ?_) rfl
    unfold State.beginGroup; split
    · exact hu
    · exact K.edit hu _
  | commitGroup seq =>
    refine go _ (K.frameRise h fun _ hu => K.dispatch hu _ _ _ _ fun v hv => ?_) rfl
    unfold State.commitGroup
    repeat' split
    all_goals first
      | exact K.reply hv _ _ _ _
      | exact K.begin hv _ _ _ _
      | exact K.same v _ rfl rfl rfl rfl hv
  | abortGroup seq =>
    refine go _ (K.ask h _ _ _ fun u hu => ?_) rfl
    unfold State.abortGroup; split
    · exact K.edit hu _
    · exact hu
  | form seq tag index => exact go _ (K.askNamed h _ _ _ _ _) rfl
  | release seq tag index => exact go _ (K.askNamed h _ _ _ _ _) rfl
  | retire seq tag index => exact go _ (K.askNamed h _ _ _ _ _) rfl
  | releaseGroup seq tag a =>
    exact go _ (K.frameRise h fun _ hu => K.dispatch hu _ _ _ _ fun _ hv => K.begin hv _ _ _ _) rfl
  | writeChannel seq index item a => exact go _ (K.askTable h _ _ _ _) rfl
  | setEngine seq a b c => exact go _ (K.askTable h _ _ _ _) rfl
  | offsetTest seq tag index a => exact go _ (K.askNamed h _ _ _ _ _) rfl
  | checkTest seq tag index => exact go _ (K.askNamed h _ _ _ _ _) rfl
  | readFaults seq index =>
    refine go _ (K.ask h _ _ _ fun u hu => ?_) rfl
    unfold State.readFaults; split <;> exact hu
  | clearFaults seq index item a =>
    refine go _ (K.ask h _ _ _ fun u hu => ?_) rfl
    unfold State.clearFaults
    repeat' split
    all_goals first | exact hu | skip
    dsimp only; rw [named]; exact K.same u _ rfl rfl rfl rfl hu
  | clearSummary seq index =>
    refine go _ (K.ask h _ _ _ fun u hu => ?_) rfl
    unfold State.clearSummary
    repeat' split
    all_goals first | exact hu | exact K.same u _ rfl rfl rfl rfl hu
  | setMasks seq a b =>
    refine go _ (K.ask h _ _ _ fun u hu => ?_) rfl
    unfold State.setMasks
    repeat' split
    all_goals first | exact hu | exact K.same u _ rfl rfl rfl rfl hu
  | saveProfile seq index item =>
    refine go _ (K.ask h _ _ _ fun u hu => ?_) rfl
    unfold State.saveProfile
    repeat' split
    all_goals dsimp only
    all_goals first | exact hu | skip
    · show P (State.endStore _ _)
      refine K.endStore ?_ _
      exact K.same u _ rfl rfl rfl rfl hu
    · refine K.request _ _ ?_
      exact K.same u _ rfl rfl rfl rfl hu
  | eraseProfile seq index =>
    refine go _ (K.ask h _ _ _ fun u hu => ?_) rfl
    unfold State.eraseProfile
    repeat' split
    all_goals first | exact hu | exact K.same u _ rfl rfl rfl rfl hu
  | loadProfile seq index =>
    refine go _ (K.ask h _ _ _ fun u hu => ?_) rfl
    unfold State.loadProfile
    repeat' split
    all_goals first | exact hu | (refine K.request _ _ ?_; exact K.same u _ rfl rfl rfl rfl hu) | exact K.same u _ rfl rfl rfl rfl hu
  | storeStatus seq => exact go _ (K.ask h _ _ _ fun u hu => hu) rfl
  | frameDiscarded n part => exact go _ (K.frameRise h fun u hu => K.report hu _ _) rfl
  | frameRejected code seq => exact go _ (K.frameRise h fun u hu => K.report (K.reply hu _ _ _ _) _ _) rfl
  | overlappedFrame =>
    refine go _ ?_ rfl
    split
    · exact K.same s _ rfl rfl rfl rfl h
    · exact h
  | quadratureEdge c a b => refine go _ ?_ rfl; exact K.same s _ rfl rfl rfl rfl h
  | capture =>
    refine go _ ?_ rfl
    split
    · exact h
    · (refine K.raise _ _ ?_; exact K.same s _ rfl rfl rfl rfl h)
  | saveEnd agrees =>
    refine go (s.endSave agrees) ?_ rfl
    unfold State.endSave
    split
    · split <;> (refine K.endStore ?_ _; exact K.same s _ rfl rfl rfl rfl h)
    all_goals exact h
  | eraseEnd =>
    refine go s.endErase ?_ rfl
    unfold State.endErase
    split
    · (refine K.endStore ?_ _; exact K.same s _ rfl rfl rfl rfl h)
    all_goals exact h
  | loadInvalidEnd =>
    refine go s.endInvalidLoad ?_ rfl
    unfold State.endInvalidLoad
    split
    · exact K.endStore h _
    all_goals exact h
  | checkStepTimer =>
    refine go _ ?_ rfl
    split
    · exact K.request _ _ h
    · exact h
  | stopAsserted =>
    refine go _ ?_ rfl
    repeat' split
    · exact h
    · (refine K.raise _ _ ?_; exact K.same s _ rfl rfl rfl rfl h)
    · exact K.same s _ rfl rfl rfl rfl h
  | stopDeasserted =>
    refine go _ ?_ rfl
    repeat' split
    · (refine K.raise _ _ ?_; exact K.same s _ rfl rfl rfl rfl h)
    · exact K.same s _ rfl rfl rfl rfl h
    · exact h
  | correctionSent => exact go _ (K.pass h _ _) rfl
  | driveStatus b0 b1 b2 b3 => exact go _ (K.pass h _ _) rfl
  | brokenReply => exact go _ (K.pass h _ _) rfl
  | replyWindowExpiry => exact go _ (K.pass h _ _) rfl
  | replyStart => exact go _ (K.pass h _ _) rfl
  | gapEnd =>
    simp only [Machine.exec, execGapEnd] at he
    split at he
    · split at he
      · cases he; unfold State.nextExchange
        split <;> exact K.same s _ rfl rfl rfl rfl h
      all_goals (cases he; exact h)
    · cases he; exact h
  | driveStatusEvent =>
    refine go _ ?_ rfl
    split
    · exact K.raise _ _ h
    · exact h
  | chipSelectFall =>
    refine go _ ?_ rfl
    split
    · exact K.csFall h
    · exact h
  | endOfReset => exact go { s.recovered with resetHeld := false } (K.same s _ rfl rfl rfl rfl h) rfl
  | _ => cases hp

end

end Sys2Proof.Machine
end

