-- ==== Sys2Proof/Laws/PerInstr.lean ====
section
/-! SUPPORT. For every command: the frame that sends it, where it is a request, is twenty bytes long (R148). -/

namespace Sys2Proof.Laws

/-- Every request frame has 20 bytes. -/
theorem requestFrame_length (code seq : Byte) (tag : Half) (index item : Byte) (a b c : Word) :
    (requestFrame code seq tag index item a b c).length = 20 := rfl

namespace FrameLength

/-- The frame of a command, if it has one, has 20 bytes. -/
def Statement (i : Instr) : Prop := ∀ frame, encodeFrame i = some frame → frame.length = 20

/-- A command sent by a request frame has one of 20 bytes. -/
theorem of_request {i : Instr} {code seq : Byte} {tag : Half} {index item : Byte} {a b c : Word}
    (h : encodeFrame i = some (requestFrame code seq tag index item a b c)) : Statement i := by
  intro frame hf
  rw [h] at hf
  cases hf
  exact requestFrame_length ..

/-- A command that is no request has no frame. -/
theorem of_none {i : Instr} (h : encodeFrame i = none) : Statement i := by
  intro frame hf
  rw [h] at hf
  cases hf

theorem noOp (code seq : Byte) : Statement (.noOp code seq) := of_request rfl
theorem lookupRecord (seq : Byte) (tag : Half) (index : Byte) : Statement (.lookupRecord seq tag index) := of_request rfl
theorem readSnapshot (seq item : Byte) : Statement (.readSnapshot seq item) := of_request rfl
theorem lookupChannel (seq index : Byte) : Statement (.lookupChannel seq index) := of_request rfl
theorem queryGroup (seq : Byte) (tag : Half) (a : Word) : Statement (.queryGroup seq tag a) := of_request rfl
theorem writeField (seq : Byte) (tag : Half) (item : Byte) (a : Word) : Statement (.writeField seq tag item a) := of_request rfl
theorem commit (seq : Byte) (tag : Half) : Statement (.commit seq tag) := of_request rfl
theorem beginGroup (seq : Byte) : Statement (.beginGroup seq) := of_request rfl
theorem commitGroup (seq : Byte) : Statement (.commitGroup seq) := of_request rfl
theorem abortGroup (seq : Byte) : Statement (.abortGroup seq) := of_request rfl
theorem form (seq : Byte) (tag : Half) (index : Byte) : Statement (.form seq tag index) := of_request rfl
theorem release (seq : Byte) (tag : Half) (index : Byte) : Statement (.release seq tag index) := of_request rfl
theorem retire (seq : Byte) (tag : Half) (index : Byte) : Statement (.retire seq tag index) := of_request rfl
theorem releaseGroup (seq : Byte) (tag : Half) (a : Word) : Statement (.releaseGroup seq tag a) := of_request rfl
theorem writeChannel (seq index item : Byte) (a : Word) : Statement (.writeChannel seq index item a) := of_request rfl
theorem setEngine (seq : Byte) (a b c : Word) : Statement (.setEngine seq a b c) := of_request rfl
theorem offsetTest (seq : Byte) (tag : Half) (index : Byte) (a : Word) : Statement (.offsetTest seq tag index a) := of_request rfl
theorem checkTest (seq : Byte) (tag : Half) (index : Byte) : Statement (.checkTest seq tag index) := of_request rfl
theorem readFaults (seq index : Byte) : Statement (.readFaults seq index) := of_request rfl
theorem clearFaults (seq index item : Byte) (a : Word) : Statement (.clearFaults seq index item a) := of_request rfl
theorem clearSummary (seq index : Byte) : Statement (.clearSummary seq index) := of_request rfl
theorem setMasks (seq : Byte) (a b : Word) : Statement (.setMasks seq a b) := of_request rfl
theorem saveProfile (seq index item : Byte) : Statement (.saveProfile seq index item) := of_request rfl
theorem eraseProfile (seq index : Byte) : Statement (.eraseProfile seq index) := of_request rfl
theorem loadProfile (seq index : Byte) : Statement (.loadProfile seq index) := of_request rfl
theorem storeStatus (seq : Byte) : Statement (.storeStatus seq) := of_request rfl
theorem reset (seq : Byte) : Statement (.reset seq) := of_request rfl
theorem frameDiscarded (wholeBytes : Nat) (partByte : Bool) : Statement (.frameDiscarded wholeBytes partByte) := of_none rfl
theorem frameRejected (code seq : Byte) : Statement (.frameRejected code seq) := of_none rfl
theorem overlappedFrame : Statement .overlappedFrame := of_none rfl
theorem resetLine : Statement .resetLine := of_none rfl
theorem powerOn : Statement .powerOn := of_none rfl
theorem startupLoad : Statement .startupLoad := of_none rfl
theorem ready : Statement .ready := of_none rfl
theorem quadratureEdge (channel : ChannelNo) (phaseA phaseB : Bool) : Statement (.quadratureEdge channel phaseA phaseB) := of_none rfl
theorem capture : Statement .capture := of_none rfl
theorem computation : Statement .computation := of_none rfl
theorem collectDeadlineExpiry : Statement .collectDeadlineExpiry := of_none rfl
theorem editApplication : Statement .editApplication := of_none rfl
theorem groupApplication : Statement .groupApplication := of_none rfl
theorem portSnapshot : Statement .portSnapshot := of_none rfl
theorem saveSnapshot : Statement .saveSnapshot := of_none rfl
theorem profileInstall : Statement .profileInstall := of_none rfl
theorem saveEnd (agrees : Bool) : Statement (.saveEnd agrees) := of_none rfl
theorem eraseEnd : Statement .eraseEnd := of_none rfl
theorem loadInvalidEnd : Statement .loadInvalidEnd := of_none rfl
theorem checkStepTimer : Statement .checkStepTimer := of_none rfl
theorem checkStep : Statement .checkStep := of_none rfl
theorem stopAsserted : Statement .stopAsserted := of_none rfl
theorem stopDeasserted : Statement .stopDeasserted := of_none rfl
theorem correctionSent : Statement .correctionSent := of_none rfl
theorem driveStatus (byte0 byte1 byte2 byte3 : Byte) : Statement (.driveStatus byte0 byte1 byte2 byte3) := of_none rfl
theorem brokenReply : Statement .brokenReply := of_none rfl
theorem replyWindowExpiry : Statement .replyWindowExpiry := of_none rfl
theorem gapEnd : Statement .gapEnd := of_none rfl
theorem driveStatusEvent : Statement .driveStatusEvent := of_none rfl
theorem replyStart : Statement .replyStart := of_none rfl
theorem chipSelectFall : Statement .chipSelectFall := of_none rfl
theorem endOfReset : Statement .endOfReset := of_none rfl

end FrameLength

end Sys2Proof.Laws
end

