-- ==== Sys2Proof/Laws/Sound.lean ====
section
/-! SUPPORT. What keeps the edits sound: events, the end of an access, and the service of a request. -/

namespace Sys2Proof.Machine

/-- Accesses that soundness counts. -/
def Access.counts (a : Access) : Bool := a.ofPort || a == .install

/-- What soundness reads, with the accesses given. -/
def State.SoundWith (s : State) (A : List Access) : Prop :=
  s.TagsDistinct ∧ s.BuffersSound ∧ s.InstallSound A ∧ s.ServiceSound A ∧ s.ClosingSound A

/-- The tags stay distinct. -/
theorem tags_like {s t : State} (h : ∀ i, t.tagAt i = s.tagAt i) (hs : s.TagsDistinct) : t.TagsDistinct := by
  refine ⟨fun i r hr => ?_, fun i j r q hr hq e => ?_⟩
  · obtain ⟨x, hx, e⟩ := slot_of_like h hr
    exact e ▸ hs.1 i x hx
  · obtain ⟨x, hx, e1⟩ := slot_of_like h hr
    obtain ⟨y, hy, e2⟩ := slot_of_like h hq
    exact hs.2 i j x y hx hy (e1.trans (e.trans e2.symm))

/-- The buffers stay sound. -/
theorem buffers_like {s t : State} (h : ∀ i, t.tagAt i = s.tagAt i) (he : t.edit = s.edit) (hs : s.BuffersSound) :
    t.BuffersSound := by
  intro k b hb
  rw [he] at hb
  obtain ⟨a, v, u, tgt⟩ := hs k b hb
  refine ⟨a, v, fun j c hc => u j c (he ▸ hc), fun i base hbase => ?_⟩
  exact tagAt_some.1 ((h i).trans (tagAt_some.2 (tgt i base hbase)))

/-- Counted accesses are the same in two lists that agree in them. -/
theorem mem_counts {A B : List Access} (h : (B.filter Access.counts).Perm (A.filter Access.counts)) {a : Access}
    (ha : a.counts = true) : a ∈ B ↔ a ∈ A := by
  have := h.mem_iff (a := a)
  simpa [List.mem_filter, ha] using this

/-- So are their numbers. -/
theorem count_counts {A B : List Access} (h : (B.filter Access.counts).Perm (A.filter Access.counts)) {a : Access}
    (ha : a.counts = true) : B.count a = A.count a := by
  have := h.count_eq a
  rwa [List.count_filter ha, List.count_filter ha] at this

/-- So is the number of the port's. -/
theorem countP_counts {A B : List Access} (h : (B.filter Access.counts).Perm (A.filter Access.counts)) :
    B.countP Access.ofPort = A.countP Access.ofPort := by
  have := h.countP_eq Access.ofPort
  have e : ∀ L : List Access, (L.filter Access.counts).countP Access.ofPort = L.countP Access.ofPort := by
    intro L
    rw [List.countP_filter]
    congr 1
    funext a
    cases a <;> rfl
  rwa [e, e] at this

/-- Soundness goes over to a state that agrees, with the same counted accesses. -/
theorem Like.sound {s t : State} (h : Like s t) {A B : List Access}
    (hp : (B.filter Access.counts).Perm (A.filter Access.counts)) (hs : s.SoundWith A) : t.SoundWith B := by
  obtain ⟨h1, h2, h3, h4, h5⟩ := hs
  refine ⟨tags_like h.tags h1, buffers_like h.tags h.edit h2, ?_, ?_, ?_⟩
  · obtain ⟨a, b, c, d, e⟩ := h3
    refine ⟨by rw [count_counts hp rfl]; exact a, ?_, ?_, ?_, ?_⟩
    · rw [mem_counts hp rfl, h.op, h.profiles]; exact b
    · rw [h.op, h.startup]; exact c
    · rw [h.op, h.startup]; exact d
    · rw [h.op, h.edit]; exact e
  · obtain ⟨a, b, c, d, e, f⟩ := h4
    refine ⟨?_, ?_, ?_, ?_, ?_, ?_⟩
    · rw [h.service]; exact a ∘ h.chip
    · rw [h.startup, h.service, h.edit]; exact b
    · rw [countP_counts hp]; exact c
    · intro k; rw [mem_counts hp rfl, h.service]; exact d k
    · rw [mem_counts hp rfl, mem_counts hp rfl, h.service]; exact e
    · rw [h.service, h.arbiter]; exact f
  · intro v hv
    rw [h.service] at hv
    obtain ⟨a, b⟩ := h5 v hv
    refine ⟨fun tag f w hr => ?_, fun name hr hg k b' i base r hb ht hres => ?_⟩
    · obtain ⟨x, y, z, u⟩ := a tag f w hr
      refine ⟨x, y, h.op ▸ z, fun k b hb ht => ?_⟩
      rw [h.edit] at hb
      rw [mem_counts hp rfl]
      exact u k b hb ht
    · rw [h.edit] at hg hb
      obtain ⟨q, hq, _⟩ := resolve_congr h.tags hres
      rw [mem_counts hp rfl]
      exact b name hr hg k b' i base q hb ht hq

/-- Soundness reads of the arbiter the waiting requests alone. -/
theorem arbiter_sound {s : State} {A : List Access} (a : Arbiter)
    (h : TableEvent.request ∈ a.deferred → TableEvent.request ∈ s.arbiter.deferred) (hs : s.SoundWith A) :
    ({ s with arbiter := a } : State).SoundWith A := by
  obtain ⟨h1, h2, h3, h4, h5⟩ := hs
  exact ⟨h1, h2, h3, ⟨h4.1, h4.2.1, h4.2.2.1, h4.2.2.2.1, h4.2.2.2.2.1, h4.2.2.2.2.2 ∘ h⟩, h5⟩

/-- Soundness goes over to accesses that agree in the counted ones. -/
theorem perm_sound {s : State} {A B : List Access} (hp : (B.filter Access.counts).Perm (A.filter Access.counts))
    (hs : s.SoundWith A) : s.SoundWith B := (Like.refl s).sound hp hs

/-- It adds the access to those outstanding. -/
theorem request_outstanding (s : State) (a : Access) :
    (s.request a).arbiter.outstanding.Perm (a :: s.arbiter.outstanding) := by
  unfold State.request
  split
  · rename_i h; simp [Arbiter.outstanding, h]
  · simp only [Arbiter.outstanding, ← List.append_assoc]
    exact List.perm_append_singleton a _

/-- It adds the access to those waiting, or to none. -/
theorem request_waiting (s : State) (a : Access) :
    (s.request a).arbiter.waiting = s.arbiter.waiting ∨ (s.request a).arbiter.waiting = s.arbiter.waiting ++ [a] := by
  unfold State.request; split <;> simp

/-- A request of an access that does not count. -/
theorem request_sound_waiting {s : State} {a : Access} (ha : a.counts = false) (hs : s.SoundWith s.arbiter.waiting) :
    (s.request a).SoundWith (s.request a).arbiter.waiting := by
  have : (s.request a).SoundWith s.arbiter.waiting := by
    rw [request_eq]; exact arbiter_sound _ (by rw [request_deferred]; exact id) hs
  refine perm_sound ?_ this
  rcases request_waiting s a with e | e <;> rw [e]
  simp [List.filter_append, ha]

/-- The service ends, with none of the port's accesses outstanding. -/
theorem reply_sound {s : State} {A : List Access} (code seq : Byte) (e : EditOutcome) (r : Answer)
    (hs : s.SoundWith A) (hA : ∀ a ∈ A, a.ofPort = false) (hd : TableEvent.request ∉ s.arbiter.deferred) :
    (s.replyWith code seq e r).SoundWith A := by
  obtain ⟨h1, h2, h3, h4, h5⟩ := hs
  refine ⟨h1, h2, h3, ⟨fun _ => rfl, fun h => ⟨rfl, (h4.2.1 h).2⟩, h4.2.2.1, fun k hk => absurd (hA _ hk) (by simp [Access.ofPort]),
    fun hk => ?_, fun h => absurd h hd⟩, fun v hv => by simp [State.replyWith] at hv⟩
  rcases hk with hk | hk <;> exact absurd (hA _ hk) (by simp [Access.ofPort])

/-- While a request is to be judged none of the port's accesses is outstanding. -/
theorem noPort_of_judging {s : State} {A : List Access} (hs : s.SoundWith A) {v : Service} (hv : s.port.service = some v)
    (hp : v.phase = .judging) : ∀ a ∈ A, a.ofPort = false := by
  obtain ⟨-, -, -, h4, -⟩ := hs
  intro a ha
  cases a with
  | edit k => obtain ⟨x, l, e1, e2⟩ := h4.2.2.2.1 k ha; rw [hv] at e1; cases e1; rw [hp] at e2; cases e2
  | group => obtain ⟨x, e1, e2⟩ := h4.2.2.2.2.1 (.inl ha); rw [hv] at e1; cases e1; rw [hp] at e2; cases e2
  | portSnapshot => obtain ⟨x, e1, e2⟩ := h4.2.2.2.2.1 (.inr ha); rw [hv] at e1; cases e1; rw [hp] at e2; cases e2
  | _ => rfl

/-- Nor is one while no request is in service. -/
theorem noPort_of_idle {s : State} {A : List Access} (hs : s.SoundWith A) (hv : s.port.service = none) :
    ∀ a ∈ A, a.ofPort = false := by
  obtain ⟨-, -, -, h4, -⟩ := hs
  intro a ha
  cases a with
  | edit k => obtain ⟨x, l, e1, e2⟩ := h4.2.2.2.1 k ha; rw [hv] at e1; cases e1
  | group => obtain ⟨x, e1, e2⟩ := h4.2.2.2.2.1 (.inl ha); rw [hv] at e1; cases e1
  | portSnapshot => obtain ⟨x, e1, e2⟩ := h4.2.2.2.2.1 (.inr ha); rw [hv] at e1; cases e1
  | _ => rfl

/-- Nor does a request wait then. -/
theorem noRequest_of_idle {s : State} {A : List Access} (hs : s.SoundWith A) (hv : s.port.service = none) :
    TableEvent.request ∉ s.arbiter.deferred := by
  intro h
  obtain ⟨x, e1, e2⟩ := hs.2.2.2.1.2.2.2.2.2 h
  rw [hv] at e1; cases e1

/-- An open buffer is found for its tag. -/
theorem bufferFor_ne_none {e : EditUnit} {k : BufferNo} {b : EditBuffer} (h : e.buffers[k] = some b) :
    e.bufferFor b.tag ≠ none := by
  unfold EditUnit.bufferFor
  intro hn
  have := List.find?_eq_none.1 hn k (List.mem_finRange k)
  rw [h] at this
  simp at this

/-- The buffer found for a tag has it. -/
theorem bufferFor_some {e : EditUnit} {k : BufferNo} {tag : Half} (h : e.bufferFor tag = some k) :
    ∃ b, e.buffers[k] = some b ∧ b.tag = tag := by
  unfold EditUnit.bufferFor at h
  have := List.find?_some h
  cases hb : e.buffers[k] with
  | none => rw [hb] at this; simp at this
  | some b => rw [hb] at this; exact ⟨b, rfl, by simpa using this⟩

/-- A Retire of a record whose tag has no open buffer. -/
theorem vacate_sound {s : State} {A : List Access} {v : Service} {name : RecordName} {i : SlotNo} {r : Record}
    (hs : s.SoundWith A) (hd : TableEvent.request ∉ s.arbiter.deferred) (hv : s.port.service = some v)
    (hr : v.request = .table (.retire name)) (hp : v.phase = .judging) (hres : s.resolve name = .ok (i, r))
    (hold : s.editHolds r.cfg.tag = false) (code seq : Byte) (e : EditOutcome) (ans : Answer) :
    ((s.vacate i).replyWith code seq e ans).SoundWith A := by
  have hA := noPort_of_judging hs hv hp
  obtain ⟨h1, h2, h3, h4, h5⟩ := hs
  have found := resolve_found hres
  have free : ∀ (k : BufferNo) (b : EditBuffer) base, s.edit.buffers[k] = some b → b.target ≠ .existing i base := by
    intro k b base hb ht
    obtain ⟨-, -, -, tgt⟩ := h2 k b hb
    obtain ⟨q, hq, etag⟩ := tgt i base ht
    rw [found] at hq; cases hq
    by_cases hg : s.edit.groupMode = true
    · simp only [State.editHolds, hg, Bool.true_and] at hold
      rw [etag] at hold
      have := bufferFor_ne_none hb
      cases hx : s.edit.bufferFor b.tag with
      | none => exact this hx
      | some _ => rw [hx] at hold; cases hold
    · have := ((h5 v hv).2 name hr (by simpa using hg) k b i base r hb ht hres).1
      rw [hp] at this; cases this
  have e1 : (s.vacate i).slots = s.slots.set i none := by
    unfold State.vacate State.recordChanged; split
    · split <;> rfl
    · rfl
    · rfl
  have e2 : (s.vacate i).edit = s.edit ∧ (s.vacate i).store = s.store ∧ (s.vacate i).startup = s.startup ∧
      (s.vacate i).arbiter = s.arbiter ∧ (s.vacate i).port.chipSelect = s.port.chipSelect := by
    unfold State.vacate State.recordChanged; split
    · split <;> exact ⟨rfl, rfl, rfl, rfl, rfl⟩
    · exact ⟨rfl, rfl, rfl, rfl, rfl⟩
    · exact ⟨rfl, rfl, rfl, rfl, rfl⟩
  obtain ⟨e3, e4, e5, e6, e7⟩ := e2
  have get : ∀ j : SlotNo, (s.vacate i).slots[j] = if j = i then none else s.slots[j] := fun j => by
    rw [e1, slots_get_set]
  refine ⟨⟨fun j q hq => ?_, fun j l q q' hq hq' e => ?_⟩, fun k b hb => ?_, ⟨?_, ?_, ?_, ?_, ?_⟩,
    ⟨fun _ => rfl, fun h => ⟨rfl, ?_⟩, h4.2.2.1, fun k hk => absurd (hA _ hk) (by simp [Access.ofPort]),
    fun hk => by rcases hk with hk | hk <;> exact absurd (hA _ hk) (by simp [Access.ofPort]), fun h => ?_⟩,
    fun v hv => by simp [State.replyWith] at hv⟩
  · have hq' : (s.vacate i).slots[j] = some q := hq
    rw [get] at hq'
    split at hq'
    · cases hq'
    · exact h1.1 j q hq'
  · have a : (s.vacate i).slots[j] = some q := hq
    have b : (s.vacate i).slots[l] = some q' := hq'
    rw [get] at a b
    split at a
    · cases a
    · split at b
      · cases b
      · exact h1.2 j l q q' a b e
  · have hb' : s.edit.buffers[k] = some b := by
      have : (s.vacate i).edit.buffers[k] = some b := hb
      rwa [e3] at this
    obtain ⟨a, v', u, tgt⟩ := h2 k b hb'
    refine ⟨a, v', fun j c hc => u j c ?_, fun j base ht => ?_⟩
    · have : (s.vacate i).edit.buffers[j] = some c := hc
      rwa [e3] at this
    · obtain ⟨q, hq, et⟩ := tgt j base ht
      refine ⟨q, ?_, et⟩
      show (s.vacate i).slots[j] = some q
      rw [get, if_neg]
      · exact hq
      · rintro rfl; exact free k b base hb' ht
  · exact h3.1
  · have : ∀ x : Store, (s.vacate i).store = x → ((s.vacate i).replyWith code seq e ans).store = x := fun x h => h
    rw [this _ e4]; exact h3.2.1
  · have : ∀ x : Store, (s.vacate i).store = x → ((s.vacate i).replyWith code seq e ans).store = x := fun x h => h
    have g : ∀ x, (s.vacate i).startup = x → ((s.vacate i).replyWith code seq e ans).startup = x := fun x h => h
    rw [this _ e4, g _ e5]; exact h3.2.2.1
  · have : ∀ x : Store, (s.vacate i).store = x → ((s.vacate i).replyWith code seq e ans).store = x := fun x h => h
    have g : ∀ x, (s.vacate i).startup = x → ((s.vacate i).replyWith code seq e ans).startup = x := fun x h => h
    rw [this _ e4, g _ e5]; exact h3.2.2.2.1
  · have : ∀ x : Store, (s.vacate i).store = x → ((s.vacate i).replyWith code seq e ans).store = x := fun x h => h
    have g : ∀ x, (s.vacate i).edit = x → ((s.vacate i).replyWith code seq e ans).edit = x := fun x h => h
    rw [this _ e4, g _ e3]; exact h3.2.2.2.2
  · have g : ∀ x, (s.vacate i).edit = x → ((s.vacate i).replyWith code seq e ans).edit = x := fun x h => h
    rw [g _ e3]
    have g : ∀ x, (s.vacate i).startup = x → ((s.vacate i).replyWith code seq e ans).startup = x := fun x h => h
    rw [g _ e5] at h
    exact (h4.2.1 h).2
  · have g : ∀ x, (s.vacate i).arbiter = x → ((s.vacate i).replyWith code seq e ans).arbiter = x := fun x h => h
    rw [g _ e6] at h
    exact absurd h hd

/-- A request judged keeps soundness and the arbiter. -/
theorem takeRequest_sound {s : State} {A : List Access} (hs : s.SoundWith A) (hd : TableEvent.request ∉ s.arbiter.deferred)
    (hj : ∀ v, s.port.service = some v → v.phase = .judging) :
    s.takeRequest.SoundWith A ∧ s.takeRequest.arbiter = s.arbiter := by
  cases hv : s.port.service with
  | none =>
    have e : s.takeRequest = s := by simp only [State.takeRequest, hv]
    rw [e]; exact ⟨hs, rfl⟩
  | some v =>
    have hp := hj v hv
    have hA := noPort_of_judging hs hv hp
    cases hr : v.request with
    | table r =>
      rw [takeRequest_judging s v r hv hr]
      by_cases hname : ∃ name, r = .retire name
      · obtain ⟨name, rfl⟩ := hname
        simp only [State.perform, State.retire]
        have same : ∀ ans, (s.replyWith v.code v.seq v.edit ans).SoundWith A := fun ans => reply_sound _ _ _ _ hs hA hd
        split
        · exact ⟨same _, rfl⟩
        · rename_i i q hq
          split
          · exact ⟨same _, rfl⟩
          · split
            · exact ⟨same _, rfl⟩
            · split
              · exact ⟨same _, rfl⟩
              · refine ⟨vacate_sound hs hd hv hr hp hq (by simpa using ‹¬s.editHolds q.cfg.tag = true›) _ _ _ _, ?_⟩
                show (s.vacate i).arbiter = s.arbiter
                unfold State.vacate State.recordChanged; split
                · split <;> rfl
                · rfl
                · rfl
      · have L := like_perform (s := s) r (fun name h => hname ⟨name, h⟩)
        exact ⟨reply_sound _ _ _ _ (L.sound (.refl _) hs) hA (by rw [L.arbiter]; exact hd), L.arbiter⟩
    | _ =>
      have e : s.takeRequest = s := by simp only [State.takeRequest, hv, hr]
      rw [e]; exact ⟨hs, rfl⟩

/-- A request judged ends its service, or nothing is judged. -/
theorem takeRequest_service {s : State} : s.takeRequest.port.service = none ∨ s.takeRequest.port.service = s.port.service := by
  cases hv : s.port.service with
  | none => left; simp only [State.takeRequest, hv]
  | some v =>
    cases hr : v.request with
    | table r => rw [takeRequest_judging s v r hv hr]; left; rfl
    | _ => right; simp only [State.takeRequest, hv, hr]

/-- What every event keeps while an access ends. -/
def AtAccessEnd (s : State) : Prop := s.SoundWith s.arbiter.waiting ∧ TableEvent.request ∉ s.arbiter.deferred

/-- Every event keeps soundness while an access ends. -/
theorem takeEvent_sound {s : State} (e : TableEvent) (h : AtAccessEnd s)
    (hj : e = .request → ∀ v, s.port.service = some v → v.phase = .judging) :
    AtAccessEnd (s.takeEvent e) ∧
      ((s.takeEvent e).port.service = none ∨ (s.takeEvent e).port.service = s.port.service) ∧
      (s.takeEvent e).arbiter.inService.isSome = (s.arbiter.inService.isSome || (s.takeEvent e).arbiter.inService.isSome) := by
  obtain ⟨hs, hd⟩ := h
  have of_like : ∀ t, Like s t → AtAccessEnd t ∧ (t.port.service = none ∨ t.port.service = s.port.service) ∧ t.arbiter.inService.isSome = (s.arbiter.inService.isSome || t.arbiter.inService.isSome) := by
    intro t L
    exact ⟨⟨L.sound (by rw [L.arbiter]) hs, by rw [L.arbiter]; exact hd⟩, .inr L.service, by rw [L.arbiter]; simp⟩
  cases e with
  | request =>
    obtain ⟨a, b⟩ := takeRequest_sound hs hd (hj rfl)
    refine ⟨⟨?_, ?_⟩, takeRequest_service, ?_⟩
    · show s.takeRequest.SoundWith s.takeRequest.arbiter.waiting
      rw [b]; exact a
    · show _ ∉ s.takeRequest.arbiter.deferred
      rw [b]; exact hd
    · show s.takeRequest.arbiter.inService.isSome = (_ || s.takeRequest.arbiter.inService.isSome)
      rw [b]; simp
  | captureSet set =>
    have L := like_captureFold set s
    have e : s.takeEvent (.captureSet set) = ((List.finRange 8).foldl (fun t c => State.takeChannelStep t c (t.captureStep set c)) s).request (.computation set.number) := by
      simp only [State.takeEvent, State.takeCaptureSet]
    rw [e]
    revert L
    generalize (List.finRange 8).foldl (fun t c => State.takeChannelStep t c (t.captureStep set c)) s = v
    intro L
    obtain ⟨⟨a, b⟩, c, d⟩ := of_like v L
    refine ⟨⟨request_sound_waiting rfl a, by rw [request_deferred]; exact b⟩, ?_, ?_⟩
    · rw [request_eq]; exact c
    · rw [← L.arbiter]
      unfold State.request
      split
      · rename_i h; simp [h]
      · simp
  | driveStatus => exact of_like _ (like_takeDriveStatus s)
  | stopAsserted => exact of_like _ (like_takeStop s)
  | stopDeasserted => exact of_like _ (like_of_rest (fun _ => rfl) rfl rfl rfl rfl rfl)

/-- So do the events that waited, in their order. -/
theorem takeEvents_sound (l : List TableEvent) (s : State) (h : AtAccessEnd s)
    (hj : TableEvent.request ∈ l → ∀ v, s.port.service = some v → v.phase = .judging) :
    AtAccessEnd (l.foldl State.takeEvent s) ∧ ((l.foldl State.takeEvent s).port.service = none ∨
      (l.foldl State.takeEvent s).port.service = s.port.service) := by
  induction l generalizing s with
  | nil => exact ⟨h, .inr rfl⟩
  | cons e l ih =>
    obtain ⟨a, b, -⟩ := takeEvent_sound e h (fun he => hj (he ▸ List.mem_cons_self))
    obtain ⟨c, d⟩ := ih (s.takeEvent e) a (fun hl v hv => by
      rcases b with b | b
      · rw [b] at hv; cases hv
      · rw [b] at hv; exact hj (List.mem_cons_of_mem _ hl) v hv)
    refine ⟨c, ?_⟩
    rcases d with d | d
    · exact .inl d
    · rcases b with b | b
      · exact .inl (d.trans b)
      · exact .inr (d.trans b)

/-- There are six ranks (R35). -/
theorem rank_lt (a : Access) : a.rank < 6 := by cases a <;> simp [Access.rank]

/-- None is served next when none waits. -/
theorem nextAccess_none {l : List Access} (h : nextAccess l = none) : l = [] := by
  cases l with
  | nil => rfl
  | cons a l =>
    unfold nextAccess at h
    rw [List.findSome?_eq_none_iff] at h
    have := h a.rank (List.mem_range.2 (rank_lt a))
    rw [List.find?_eq_none] at this
    exact absurd (beq_self_eq_true a.rank) (this a List.mem_cons_self)

/-- The access served next was waiting. -/
theorem nextAccess_mem {l : List Access} {a : Access} (h : nextAccess l = some a) : a ∈ l := by
  unfold nextAccess at h
  obtain ⟨k, -, hk⟩ := List.exists_of_findSome?_eq_some h
  exact List.mem_of_find?_eq_some hk

/-- The next access is served soundly. -/
theorem serveNext_sound {s : State} (h : AtAccessEnd s) :
    s.serveNext.EditsSound ∧ s.serveNext.arbiter.outstanding.Perm s.arbiter.waiting ∧
      s.serveNext = { s with arbiter := s.serveNext.arbiter } ∧ s.serveNext.arbiter.deferred = s.arbiter.deferred := by
  have key : s.serveNext.arbiter.outstanding.Perm s.arbiter.waiting ∧
      s.serveNext = { s with arbiter := s.serveNext.arbiter } ∧ s.serveNext.arbiter.deferred = s.arbiter.deferred := by
    unfold State.serveNext
    split
    · rename_i a ha
      exact ⟨by simpa [Arbiter.outstanding] using (List.perm_cons_erase (nextAccess_mem ha)).symm, rfl, rfl⟩
    · rename_i ha
      have := nextAccess_none ha
      exact ⟨by simp [Arbiter.outstanding, this], rfl, rfl⟩
  obtain ⟨k1, k2, k3⟩ := key
  refine ⟨?_, k1, k2, k3⟩
  show s.serveNext.SoundWith s.serveNext.arbiter.outstanding
  refine perm_sound (A := s.arbiter.waiting) (k1.filter _) ?_
  rw [k2]
  exact arbiter_sound _ (by rw [k3]; exact id) h.1

/-- The end of an access. -/
theorem endAccess_sound {s : State} (h : s.SoundWith s.arbiter.waiting)
    (hj : TableEvent.request ∈ s.arbiter.deferred → ∀ v, s.port.service = some v → v.phase = .judging) :
    s.endAccess.EditsSound ∧ TableEvent.request ∉ s.endAccess.arbiter.deferred ∧
    (s.endAccess.port.service = none ∨ s.endAccess.port.service = s.port.service) := by
  obtain ⟨a, b⟩ := takeEvents_sound s.arbiter.deferred { s with arbiter := { s.arbiter with deferred := [] } }
    ⟨arbiter_sound _ (by simp) h, by simp⟩ hj
  have e : s.endAccess = (s.arbiter.deferred.foldl State.takeEvent { s with arbiter := { s.arbiter with deferred := [] } }).serveNext := rfl
  rw [e]
  revert a b
  generalize s.arbiter.deferred.foldl State.takeEvent { s with arbiter := { s.arbiter with deferred := [] } } = w
  intro a b
  obtain ⟨c, d, e, f⟩ := serveNext_sound a
  refine ⟨c, by rw [f]; exact a.2, ?_⟩
  rw [e]
  exact b

/-- The buffers that a request in service must not find open are those it is about to close. -/
def ReadyFor (u : State) (v : Service) : Prop :=
  (∀ tag f w, v.request = .writeField tag f w →
      tag ≠ 0 ∧ f.inRange w = true ∧ u.store.op.isLoading = false ∧
      ∀ (k : BufferNo) (b : EditBuffer), u.edit.buffers[k] = some b → b.tag = tag → v.phase = .closing [k]) ∧
  (∀ name, v.request = .table (.retire name) → u.edit.groupMode = false →
      ∀ (k : BufferNo) (b : EditBuffer) (i : SlotNo) (base : RecordConfig) (r : Record),
        u.edit.buffers[k] = some b → b.target = .existing i base → u.resolve name = .ok (i, r) → v.phase = .closing [k])

/-- One buffer written. -/
theorem buffers_get_set (v : Vector (Option EditBuffer) 4) (i j : BufferNo) (x : Option EditBuffer) :
    (v.set i x)[j] = if j = i then x else v[j] := by
  rcases eq_or_ne j i with rfl | h
  · simp
  · have : ¬ i.val = j.val := fun e => h (Fin.ext e.symm)
    simp [h, this]

/-- The slot found for a tag has it. -/
theorem findTag_some {s : State} {tag : Half} {i : SlotNo} (h : s.findTag tag = some i) :
    ∃ r, s.slots[i] = some r ∧ r.cfg.tag = tag := by
  unfold State.findTag at h
  obtain ⟨p, hp, rfl⟩ := Option.map_eq_some_iff.1 h
  have h1 := List.find?_some hp
  have h2 := List.mem_of_find?_eq_some hp
  unfold State.directory at h2
  obtain ⟨j, -, hj⟩ := List.mem_filterMap.1 h2
  obtain ⟨r, hr, rfl⟩ := Option.map_eq_some_iff.1 hj
  exact ⟨r, hr, by simpa using h1⟩

/-- Where the tags are distinct the slot of a tag is found. -/
theorem findTag_of {s : State} (hd : s.TagsDistinct) {i : SlotNo} {r : Record} (hr : s.slots[i] = some r) :
    s.findTag r.cfg.tag = some i := by
  cases h : s.findTag r.cfg.tag with
  | none =>
    unfold State.findTag at h
    have := List.find?_eq_none.1 (Option.map_eq_none_iff.1 h) (r.cfg.tag, i)
      (List.mem_filterMap.2 ⟨i, List.mem_finRange i, by simp [hr]⟩)
    simp at this
  | some j =>
    obtain ⟨q, hq, e⟩ := findTag_some h
    rw [hd.2 i j r q hr hq e.symm]

/-- A buffer opened for a tag that no open buffer has. -/
theorem openBuffer_sound {s : State} {k : BufferNo} {tag : Half} {f : RecordField} {w : Word} (h : s.BuffersSound)
    (ht : tag ≠ 0) (hw : f.inRange w = true)
    (hu : ∀ (j : BufferNo) (b : EditBuffer), s.edit.buffers[j] = some b → b.tag ≠ tag) :
    (s.openBuffer k tag f w).BuffersSound := by
  intro j b hb
  have hb' : (s.edit.buffers.set k _)[j] = some b := hb
  rw [buffers_get_set] at hb'
  split at hb'
  · rename_i e
    cases hb'
    refine ⟨ht, fun g x hx => ?_, fun l c hc hct => ?_, fun i base hi => ?_⟩
    · have : (Vector.replicate 15 none |>.set f.place (some w))[g.place] = some x := hx
      rw [Fin.getElem_fin, Vector.getElem_set] at this
      split at this
      · rename_i e
        cases this
        have : f = g := by
          have : f.place = g.place := Fin.ext e
          revert this; cases f <;> cases g <;> simp [RecordField.place]
        exact this ▸ hw
      · simp at this
    · have hc' : (s.edit.buffers.set k _)[l] = some c := hc
      rw [buffers_get_set] at hc'
      split at hc'
      · rename_i e'; exact e'.trans e.symm
      · exact absurd hct (hu l c hc')
    · dsimp only at hi
      split at hi
      · rename_i i' hf
        split at hi
        · rename_i r hr
          cases hi
          obtain ⟨q, hq, et⟩ := findTag_some hf
          exact ⟨q, hq, et⟩
        · cases hi
      · cases hi
  · obtain ⟨a, v, u, tgt⟩ := h j b hb'
    refine ⟨a, v, fun l c hc hct => ?_, tgt⟩
    have hc' : (s.edit.buffers.set k _)[l] = some c := hc
    rw [buffers_get_set] at hc'
    split at hc'
    · cases hc'
      exact absurd hct.symm (hu j b hb')
    · exact u l c hc' hct

/-- A value written into an open buffer. -/
theorem writeInto_sound {s : State} {k : BufferNo} {b : EditBuffer} {f : RecordField} {w : Word} (h : s.BuffersSound)
    (hb : s.edit.buffers[k] = some b) (hw : f.inRange w = true) : (s.writeInto k b f w).BuffersSound := by
  have orig : ∀ (l : BufferNo) (c : EditBuffer), (s.writeInto k b f w).edit.buffers[l] = some c →
      ∃ d, s.edit.buffers[l] = some d ∧ c.tag = d.tag ∧ c.target = d.target ∧
        (∀ (g : RecordField) x, c.written[g.place] = some x → d.written[g.place] = some x ∨ (g = f ∧ x = w)) := by
    intro l c hc
    have hc' : (s.edit.buffers.set k _)[l] = some c := hc
    rw [buffers_get_set] at hc'
    split at hc'
    · rename_i e
      cases hc'
      refine ⟨b, e ▸ hb, rfl, rfl, fun g x hx => ?_⟩
      rw [Fin.getElem_fin, Vector.getElem_set] at hx
      split at hx
      · rename_i e
        cases hx
        right
        refine ⟨?_, rfl⟩
        have : f.place = g.place := Fin.ext e
        revert this; cases f <;> cases g <;> simp [RecordField.place]
      · exact .inl hx
    · exact ⟨c, hc', rfl, rfl, fun g x hx => .inl hx⟩
  intro j c hc
  obtain ⟨d, hd, e1, e2, e3⟩ := orig j c hc
  obtain ⟨a, v, u, tgt⟩ := h j d hd
  refine ⟨e1 ▸ a, fun g x hx => ?_, fun l x hx ht => ?_, fun i base hi => ?_⟩
  · rcases e3 g x hx with hx | ⟨rfl, rfl⟩
    · exact v g x hx
    · exact hw
  · obtain ⟨y, hy, e4, -, -⟩ := orig l x hx
    exact u l y hy (e4.symm.trans (ht.trans e1))
  · rw [e1]; exact tgt i base (e2 ▸ hi)

/-- A request in service that has none of its accesses outstanding, and is sound. -/
structure ServiceParts (s : State) (A : List Access) (v : Service) : Prop where
  tags : s.TagsDistinct
  buffers : s.BuffersSound
  install : s.InstallSound A
  ready : s.startup = .ready
  noPort : ∀ a ∈ A, a.ofPort = false
  noRequest : TableEvent.request ∉ s.arbiter.deferred
  service : s.port.service = some v
  chip : s.port.chipSelect ≠ .low false
  readyFor : ReadyFor s v

/-- None of the port's accesses among these. -/
theorem countP_of_noPort {A : List Access} (h : ∀ a ∈ A, a.ofPort = false) : A.countP Access.ofPort = 0 := by
  rw [List.countP_eq_zero]
  intro a ha; simp [h a ha]

/-- The service ended. -/
theorem ServiceParts.reply {s : State} {A : List Access} {v : Service} (h : ServiceParts s A v) (code seq : Byte) (e : EditOutcome)
    (r : Answer) : (s.replyWith code seq e r).SoundWith A := by
  refine ⟨h.tags, h.buffers, h.install, ⟨fun _ => rfl, fun x => absurd h.ready x, ?_, fun k hk => ?_, fun hk => ?_,
    fun x => absurd x h.noRequest⟩, fun v hv => by simp [State.replyWith] at hv⟩
  · rw [countP_of_noPort h.noPort]; omega
  · exact absurd (h.noPort _ hk) (by simp [Access.ofPort])
  · rcases hk with hk | hk <;> exact absurd (h.noPort _ hk) (by simp [Access.ofPort])

/-- The request is answered. -/
theorem ServiceParts.finish {s : State} {A : List Access} {v : Service} (h : ServiceParts s A v) (r : Answer) :
    (s.finish r).SoundWith A ∧ (s.finish r).arbiter = s.arbiter := by
  unfold State.finish
  rw [h.service]
  exact ⟨h.reply _ _ _ _, rfl⟩

/-- After READY no start-up load is in progress. -/
theorem isLoading_of_ready {s : State} {A : List Access} (h : s.InstallSound A) (hr : s.startup = .ready) :
    s.store.op ≠ .startupLoading := fun e => by
  have := h.2.2.1 e; rw [hr] at this; cases this

/-- One of the port's accesses is requested, for which the phase is set. -/
theorem ServiceParts.ask {s : State} {v : Service} (h : ServiceParts s s.arbiter.outstanding v) (p : ServicePhase) (a : Access)
    (ha : a.ofPort = true)
    (h1 : ∀ k, a = .edit k → ∃ l, p = .closing l) (h2 : a = .group ∨ a = .portSnapshot → p = .access)
    (h3 : ∀ k l, v.phase = .closing [k] → v.phase = .closing l → p = .closing [] ∧ a = .edit k) 
    (hc : ∃ l, v.phase = .closing l) :
    ((s.setPhase p).request a).EditsSound := by
  have A := h.noPort
  show ((s.setPhase p).request a).SoundWith _
  have perm := request_outstanding (s.setPhase p) a
  have po : (s.setPhase p).arbiter.outstanding = s.arbiter.outstanding := rfl
  rw [po] at perm
  refine perm_sound (A := a :: s.arbiter.outstanding) (perm.filter _) ?_
  rw [request_eq]
  refine arbiter_sound (s := s.setPhase p) _ (by rw [request_deferred]; exact id) ?_
  have hserv : (s.setPhase p).port.service = some { v with phase := p } := by simp [State.setPhase, h.service]
  have mem : ∀ b : Access, b ∈ a :: s.arbiter.outstanding → b.ofPort = true → b = a := by
    intro b hb hp
    rcases List.mem_cons.1 hb with e | hb
    · exact e
    · rw [A b hb] at hp; cases hp
  have inst : a ≠ .install := by rintro rfl; cases ha
  obtain ⟨l0, hl0⟩ := hc
  refine ⟨h.tags, h.buffers, ⟨?_, fun hm => h.install.2.1 (by simpa [Ne.symm inst] using hm), h.install.2.2.1, h.install.2.2.2.1,
      h.install.2.2.2.2⟩, ⟨fun x => absurd x h.chip, fun x => absurd h.ready x, ?_, fun k hk => ?_, fun hk => ?_,
      fun x => absurd x h.noRequest⟩, fun x hx => ?_⟩
  · rw [List.count_cons_of_ne inst]; exact h.install.1
  · rw [List.countP_cons, countP_of_noPort A]; split <;> omega
  · obtain ⟨l, hl⟩ := h1 k (mem _ hk rfl).symm
    exact ⟨_, l, hserv, hl⟩
  · refine ⟨_, hserv, h2 ?_⟩
    rcases hk with hk | hk
    · exact .inl (mem _ hk rfl).symm
    · exact .inr (mem _ hk rfl).symm
  · rw [hserv] at hx
    cases hx
    refine ⟨fun tag f w hr => ?_, fun name hr hg k b i base r hb ht hres => ?_⟩
    · obtain ⟨a1, a2, a3, a4⟩ := h.readyFor.1 tag f w hr
      refine ⟨a1, a2, a3, fun k b hb ht => ?_⟩
      obtain ⟨e1, e2⟩ := h3 k l0 (a4 k b hb ht) hl0
      exact ⟨e1, by rw [e2]; exact List.mem_cons_self⟩
    · obtain ⟨e1, e2⟩ := h3 k l0 (h.readyFor.2 name hr hg k b i base r hb ht hres) hl0
      exact ⟨e1, by rw [e2]; exact List.mem_cons_self⟩

/-- The service goes on soundly. -/
theorem ServiceParts.proceed {u : State} {v : Service} (h : ServiceParts u u.arbiter.outstanding v) (hc : ∃ l, v.phase = .closing l) :
    u.proceed.EditsSound := by
  obtain ⟨l, hl⟩ := hc
  unfold State.proceed
  rw [h.service]
  simp only [hl]
  cases l with
  | cons k rest =>
    refine h.ask _ _ rfl (fun _ _ => ⟨_, rfl⟩) (by simp) (fun j l e e' => ?_) ⟨_, hl⟩
    rw [hl] at e
    cases e
    exact ⟨rfl, rfl⟩
  | nil =>
    have none1 : ∀ k, v.phase ≠ .closing [k] := fun k e => by rw [hl] at e; cases e
    have other : ∀ p a, a.ofPort = true → (∀ k, a ≠ Access.edit k) → p = ServicePhase.access →
        ((u.setPhase p).request a).EditsSound := fun p a ha hk hp =>
      h.ask p a ha (fun k e => absurd e (hk k)) (fun _ => hp) (fun k l e _ => absurd e (none1 k)) ⟨_, hl⟩
    have fin : ∀ ans, (u.finish ans).EditsSound := fun ans => by
      obtain ⟨a, b⟩ := h.finish ans
      show State.SoundWith _ (u.finish ans).arbiter.outstanding
      rw [b]; exact a
    show (u.serve v).EditsSound
    unfold State.serve
    split
    · rename_i r hr
      have hserv : (u.setPhase .judging).port.service = some { v with phase := .judging } := by
        simp [State.setPhase, h.service]
      have judged : (u.setPhase .judging).SoundWith u.arbiter.outstanding := by
        refine ⟨h.tags, h.buffers, h.install, ⟨fun x => absurd x h.chip, fun x => absurd h.ready x, ?_, fun k hk => ?_,
          fun hk => ?_, fun x => absurd x h.noRequest⟩, fun x hx => ?_⟩
        · rw [countP_of_noPort h.noPort]; omega
        · exact absurd (h.noPort _ hk) (by simp [Access.ofPort])
        · rcases hk with hk | hk <;> exact absurd (h.noPort _ hk) (by simp [Access.ofPort])
        · rw [hserv] at hx
          cases hx
          refine ⟨fun tag f w e => ?_, fun name e hg k b i base r' hb ht hres => ?_⟩
          · rw [show v.request = _ from hr] at e; cases e
          · exact absurd (h.readyFor.2 name e hg k b i base r' hb ht hres) (none1 k)
      unfold State.raise
      split
      · obtain ⟨h1, h2, h3, h4, h5⟩ := judged
        exact ⟨h1, h2, h3, ⟨h4.1, h4.2.1, h4.2.2.1, h4.2.2.2.1, h4.2.2.2.2.1, fun _ => ⟨_, hserv, rfl⟩⟩, h5⟩
      · obtain ⟨a, b⟩ := takeRequest_sound judged h.noRequest (fun x hx => by rw [hserv] at hx; cases hx; rfl)
        show State.SoundWith _ (State.takeRequest _).arbiter.outstanding
        rw [b]; exact a
    · split
      · exact other _ _ rfl (by simp) rfl
      · exact fin _
    · exact other _ _ rfl (by simp) rfl
    · rename_i tag f w hr
      unfold State.reopen
      split
      · rename_i k hk
        obtain ⟨a1, a2, a3, a4⟩ := h.readyFor.1 tag f w hr
        have opened : ServiceParts (u.openBuffer k tag f w) u.arbiter.outstanding
            { v with request := .commit tag } → True := fun _ => trivial
        have hs : (u.openBuffer k tag f w).port.service = some v := h.service
        unfold State.finish
        rw [hs]
        refine ⟨h.tags, openBuffer_sound h.buffers a1 a2 fun j b hb e => none1 _ (a4 j b hb e),
          ⟨h.install.1, h.install.2.1, h.install.2.2.1, h.install.2.2.2.1, fun x => ?_⟩,
          ⟨fun _ => rfl, fun x => absurd h.ready x, ?_, fun k hk => ?_, fun hk => ?_, fun x => absurd x h.noRequest⟩,
          fun v hv => by simp [State.replyWith] at hv⟩
        · have : u.store.op.isLoading = true := x
          rw [a3] at this; cases this
        · show u.arbiter.outstanding.countP _ ≤ 1
          rw [countP_of_noPort h.noPort]; omega
        · exact absurd (h.noPort _ hk) (by simp [Access.ofPort])
        · rcases hk with hk | hk <;> exact absurd (h.noPort _ hk) (by simp [Access.ofPort])
      · exact fin _
    · exact fin _
    · exact other _ _ rfl (by simp) rfl

/-- A request enters service soundly. -/
theorem begin_sound {u : State} (h : u.EditsSound) (hn : u.port.service = none) (hr : u.startup = .ready)
    (hc : u.port.chipSelect ≠ .low false) (code seq : Byte) (q : PortRequest) (l : List BufferNo)
    (hf : ReadyFor u { code := code, seq := seq, request := q, phase := .closing l, edit := .untouched }) :
    (u.begin code seq q l).EditsSound := by
  refine ServiceParts.proceed (v := { code := code, seq := seq, request := q, phase := .closing l, edit := .untouched })
    ⟨h.1, h.2.1, h.2.2.1, hr, ?_, ?_, rfl, hc, hf⟩ ⟨l, rfl⟩
  · exact fun a ha => noPort_of_idle (s := u) (A := u.arbiter.outstanding) h hn a ha
  · exact fun e => noRequest_of_idle (s := u) (A := u.arbiter.outstanding) h hn e

end Sys2Proof.Machine
end

