-- ==== Sys2Proof/Laws/SoundEdits.lean ====
section
/-! SUPPORT. What keeps the edits sound: the application of edits, the rise of a frame, the ends of accesses and
resets. -/

namespace Sys2Proof.Machine

/-- A tag held nowhere else stands in the edited slot alone (R94). -/
theorem tagHeld_false {slots : Slots} {b : EditBuffer} {tag : Half} (h : tagHeldElsewhere slots b tag = false) {i : SlotNo}
    {r : Record} (hr : slots[i] = some r) (ht : r.cfg.tag = tag) : b.edits i = true := by
  unfold tagHeldElsewhere at h
  rw [List.any_eq_false] at h
  have := h i (List.mem_finRange i)
  rw [hr] at this
  simpa [ht] using this

/-- The slot found is VACANT. -/
theorem lowestVacant_some {slots : Slots} {i : SlotNo} (h : lowestVacant slots = some i) : slots[i] = none := by
  unfold lowestVacant at h
  simpa using List.find?_some h

/-- The tag after a field is written. -/
theorem setField_tag (cfg : RecordConfig) (f : RecordField) (w : Word) :
    (cfg.setField f w).tag = if f = .tag then w.setWidth 16 else cfg.tag := by
  cases f <;> rfl

/-- The tag after fields other than it are written. -/
theorem foldl_tag (g : RecordConfig → RecordField → RecordConfig) (hg : ∀ k f, f ≠ .tag → (g k f).tag = k.tag)
    (l : List RecordField) (cfg : RecordConfig) (h : RecordField.tag ∉ l) : (l.foldl g cfg).tag = cfg.tag := by
  induction l generalizing cfg with
  | nil => rfl
  | cons f l ih =>
    rw [List.foldl_cons, ih _ (fun e => h (List.mem_cons_of_mem _ e)), hg]
    rintro rfl; exact h List.mem_cons_self

/-- The tag of an edited configuration. -/
theorem over_tag (b : EditBuffer) (cfg : RecordConfig) :
    (b.over cfg).tag = match b.written[(0 : Fin 15)] with
      | some w => w.setWidth 16
      | none => cfg.tag := by
  unfold EditBuffer.over RecordField.all
  rw [List.foldl_cons, foldl_tag]
  · show (match b.written[(0 : Fin 15)] with | some w => cfg.setField .tag w | none => cfg).tag = _
    cases b.written[(0 : Fin 15)] <;> rfl
  · intro k f hf
    split
    · rw [setField_tag, if_neg hf]
    · rfl
  · decide

/-- What soundness asks of a buffer alone. -/
def EditBuffer.Fine (b : EditBuffer) : Prop :=
  b.tag ≠ 0 ∧ ∀ (f : RecordField) (w : Word), b.written[f.place] = some w → f.inRange w = true

/-- No edit makes a tag 0. -/
theorem EditBuffer.Fine.tag_ne {b : EditBuffer} (h : b.Fine) {cfg : RecordConfig} (hc : cfg.tag ≠ 0) :
    (b.over cfg).tag ≠ 0 := by
  rw [over_tag]
  split
  · rename_i w hw
    have := h.2 .tag w hw
    simp only [RecordField.inRange, Bool.and_eq_true, decide_eq_true_eq] at this
    intro e
    have e := congrArg BitVec.toNat e
    simp only [BitVec.toNat_setWidth] at e
    have : w.toNat % 65536 = w.toNat := Nat.mod_eq_of_lt (by omega)
    simp at e
    omega
  · exact hc

/-- An accepted edit takes no tag held elsewhere (R94). -/
theorem rejection_none {b : EditBuffer} {slots : Slots} (h : b.rejection slots = none) :
    tagHeldElsewhere slots b b.result.tag = false := by
  unfold EditBuffer.rejection at h
  repeat' split at h
  all_goals first | (cases h; done) | skip
  all_goals simp_all

/-- The tags of these slots are other than 0 and distinct (R28). -/
def DistinctSlots (slots : Slots) : Prop :=
  (∀ (i : SlotNo) (r : Record), slots[i] = some r → r.cfg.tag ≠ 0) ∧
  ∀ (i j : SlotNo) (r q : Record), slots[i] = some r → slots[j] = some q → r.cfg.tag = q.cfg.tag → i = j

/-- A record with a tag of its own placed in a slot. -/
theorem distinct_set {slots : Slots} {i : SlotNo} {r : Record} (h : DistinctSlots slots) (h0 : r.cfg.tag ≠ 0)
    (hu : ∀ (j : SlotNo) (q : Record), slots[j] = some q → q.cfg.tag = r.cfg.tag → j = i) :
    DistinctSlots (slots.set i (some r)) := by
  refine ⟨fun j q hq => ?_, fun j l q x hq hx e => ?_⟩
  · rw [slots_get_set] at hq
    split at hq
    · cases hq; exact h0
    · exact h.1 j q hq
  · rw [slots_get_set] at hq hx
    split at hq
    · rename_i e1
      cases hq
      split at hx
      · rename_i e2; exact e1.trans e2.symm
      · exact e1.trans (hu l x hx e.symm).symm
    · split at hx
      · rename_i e2
        cases hx
        exact (hu j q hq e).trans e2.symm
      · exact h.2 j l q x hq hx e

/-- An applied edit keeps the tags distinct. -/
theorem applied_distinct {b : EditBuffer} {slots : Slots} (hf : b.Fine) (h : DistinctSlots slots)
    (hr : b.rejection slots = none) : DistinctSlots (b.applied slots) := by
  have held := rejection_none hr
  unfold EditBuffer.applied
  split
  · rename_i ht
    split
    · rename_i i hi
      have base : b.base = RecordConfig.defaults b.tag := by unfold EditBuffer.base; rw [ht]
      refine distinct_set h ?_ fun j q hq e => ?_
      · show (b.over b.base).tag ≠ 0
        rw [base]
        exact hf.tag_ne hf.1
      · have := tagHeld_false held hq e
        unfold EditBuffer.edits at this
        rw [ht] at this; cases this
    · exact h
  · rename_i i base ht
    split
    · rename_i r hri
      refine distinct_set h (hf.tag_ne (h.1 i r hri)) fun j q hq e => ?_
      have e' : q.cfg.tag = (b.over r.cfg).tag := e
      rw [over_tag] at e'
      split at e'
      · rename_i w hw
        have : b.result.tag = w.setWidth 16 := by
          unfold EditBuffer.result; rw [over_tag, hw]
        have := tagHeld_false held hq (e'.trans this.symm)
        unfold EditBuffer.edits at this
        rw [ht] at this
        exact (beq_iff_eq.1 this)
      · exact h.2 j i q r hq hri e'
    · exact h

/-- An applied group keeps the tags distinct. -/
theorem judgeGroup_distinct (l : List (BufferNo × EditBuffer)) (slots out : Slots) (hl : ∀ p ∈ l, p.2.Fine)
    (h : DistinctSlots slots) (hj : judgeGroup l slots = .ok out) : DistinctSlots out := by
  induction l generalizing slots with
  | nil => cases hj; exact h
  | cons p l ih =>
    obtain ⟨k, b⟩ := p
    simp only [judgeGroup] at hj
    split at hj
    · cases hj
    · rename_i hr
      exact ih _ (fun p hp => hl p (List.mem_cons_of_mem _ hp)) (applied_distinct (hl _ List.mem_cons_self) h hr) hj

/-- A slot that an applied edit does not edit stays. -/
theorem applied_other {b : EditBuffer} {slots : Slots} {i : SlotNo} {r : Record} (hr : slots[i] = some r)
    (hb : ∀ base, b.target ≠ .existing i base) : (b.applied slots)[i] = some r := by
  unfold EditBuffer.applied
  split
  · split
    · rename_i j hj
      rw [slots_get_set, if_neg]
      · exact hr
      · rintro rfl
        rw [lowestVacant_some hj] at hr; cases hr
    · exact hr
  · rename_i j base ht
    split
    · rw [slots_get_set, if_neg]
      · exact hr
      · rintro rfl; exact hb base ht
    · exact hr

/-- The buffers after one has become FREE, over slots in which the targets of the others stand. -/
theorem buffers_freed {s t : State} {k : BufferNo} (h : s.BuffersSound) (he : t.edit.buffers = s.edit.buffers.set k none)
    (hs : ∀ (j : BufferNo) (c : EditBuffer) (i : SlotNo) base r, j ≠ k → s.edit.buffers[j] = some c → c.target = .existing i base →
      s.slots[i] = some r → t.slots[i] = some r) : t.BuffersSound := by
  have orig : ∀ (l : BufferNo) (c : EditBuffer), t.edit.buffers[l] = some c → l ≠ k ∧ s.edit.buffers[l] = some c := by
    intro l c hc
    rw [he, buffers_get_set] at hc
    split at hc
    · cases hc
    · exact ⟨by assumption, hc⟩
  intro j c hc
  obtain ⟨hn, hc'⟩ := orig j c hc
  obtain ⟨a, v, u, tgt⟩ := h j c hc'
  refine ⟨a, v, fun l x hx => u l x (orig l x hx).2, fun i base ht => ?_⟩
  obtain ⟨r, hr, et⟩ := tgt i base ht
  exact ⟨r, hs j c i base r hn hc' ht hr, et⟩

/-- What the application of an edit leaves. -/
theorem applyEdit_rest (s : State) (k : BufferNo) (b : EditBuffer) :
    (s.applyEdit k b).1.edit = { s.edit with buffers := s.edit.buffers.set k none } ∧
    (s.applyEdit k b).1.slots = (match b.rejection s.slots with | some _ => s.slots | none => b.applied s.slots) ∧
    (s.applyEdit k b).1.port.service = s.port.service ∧ (s.applyEdit k b).1.port.chipSelect = s.port.chipSelect ∧
    (s.applyEdit k b).1.store = s.store ∧ (s.applyEdit k b).1.startup = s.startup ∧
    (s.applyEdit k b).1.arbiter = s.arbiter := by
  unfold State.applyEdit
  split
  · rename_i hr; simp only [hr]; exact ⟨rfl, rfl, rfl, rfl, rfl, rfl, rfl⟩
  · rename_i hr
    simp only [hr]
    unfold State.noteApplied
    split
    · exact ⟨rfl, rfl, rfl, rfl, rfl, rfl, rfl⟩
    · unfold State.recordChanged
      split
      · split <;> exact ⟨rfl, rfl, rfl, rfl, rfl, rfl, rfl⟩
      · exact ⟨rfl, rfl, rfl, rfl, rfl, rfl, rfl⟩
      · exact ⟨rfl, rfl, rfl, rfl, rfl, rfl, rfl⟩

/-- An event adds computations alone to the waiting accesses. -/
theorem takeEvent_waiting (s : State) (e : TableEvent) : ∀ a ∈ (s.takeEvent e).arbiter.waiting,
    a ∈ s.arbiter.waiting ∨ ∃ n, a = .computation n := by
  have same : ∀ t : State, t.arbiter = s.arbiter → ∀ a ∈ t.arbiter.waiting,
    a ∈ s.arbiter.waiting ∨ ∃ n, a = .computation n := fun t h a ha => .inl (h ▸ ha)
  cases e with
  | request => exact same _ (takeRequest_arbiter s)
  | captureSet set =>
    have L := like_captureFold set s
    have e : s.takeEvent (.captureSet set) = ((List.finRange 8).foldl (fun t c => State.takeChannelStep t c (t.captureStep set c)) s).request (.computation set.number) := by
      simp only [State.takeEvent, State.takeCaptureSet]
    rw [e]
    revert L
    generalize (List.finRange 8).foldl (fun t c => State.takeChannelStep t c (t.captureStep set c)) s = v
    intro L a ha
    rw [← L.arbiter]
    rcases request_waiting v (.computation set.number) with h | h <;> rw [h] at ha
    · exact .inl ha
    · rcases List.mem_append.1 ha with ha | ha
      · exact .inl ha
      · exact .inr ⟨_, List.mem_singleton.1 ha⟩
  | driveStatus => exact same _ (like_takeDriveStatus s).arbiter
  | stopAsserted => exact same _ (like_takeStop s).arbiter
  | stopDeasserted => exact same _ rfl

/-- So do the events that waited. -/
theorem takeEvents_waiting (l : List TableEvent) (s : State) : ∀ a ∈ (l.foldl State.takeEvent s).arbiter.waiting,
    a ∈ s.arbiter.waiting ∨ ∃ n, a = .computation n := by
  induction l generalizing s with
  | nil => exact fun a ha => .inl ha
  | cons e l ih =>
    intro a ha
    rcases ih _ a ha with h | h
    · exact takeEvent_waiting s e a h
    · exact .inr h

/-- The accesses after one has ended. -/
theorem endAccess_outstanding (s : State) : ∀ a ∈ s.endAccess.arbiter.outstanding,
    a ∈ s.arbiter.waiting ∨ ∃ n, a = .computation n := by
  have e : s.endAccess = (s.arbiter.deferred.foldl State.takeEvent { s with arbiter := { s.arbiter with deferred := [] } }).serveNext := rfl
  have h := takeEvents_waiting s.arbiter.deferred { s with arbiter := { s.arbiter with deferred := [] } }
  rw [e]
  revert h
  generalize s.arbiter.deferred.foldl State.takeEvent { s with arbiter := { s.arbiter with deferred := [] } } = w
  intro h a ha
  refine h a ?_
  unfold State.serveNext at ha
  split at ha
  · rename_i x hx
    simp only [Arbiter.outstanding, Option.toList_some, List.singleton_append, List.mem_cons] at ha
    rcases ha with rfl | ha
    · exact nextAccess_mem hx
    · exact List.mem_of_mem_erase ha
  · simpa [Arbiter.outstanding] using ha

/-- The access in service is the first of those outstanding. -/
theorem outstanding_of {s : State} {a : Access} (h : s.arbiter.inService = some a) :
    s.arbiter.outstanding = a :: s.arbiter.waiting := by simp [Arbiter.outstanding, h]

/-- The state in which an edit access ends: no buffer is left that the request must not find open. -/
theorem edit_ends {s y : State} {k : BufferNo} (h : s.EditsSound) (ha : s.arbiter.inService = some (.edit k))
    (tags : y.TagsDistinct) (he : y.edit = { s.edit with buffers := s.edit.buffers.set k none })
    (stay : ∀ (j : BufferNo) (c : EditBuffer) (i : SlotNo) base r, j ≠ k → s.edit.buffers[j] = some c → c.target = .existing i base →
      s.slots[i] = some r → y.slots[i] = some r)
    (hv : ∃ v o, s.port.service = some v ∧ y.port.service = some { v with edit := o })
    (hc : y.port.chipSelect = s.port.chipSelect) (hst : y.store = s.store) (hu : y.startup = s.startup)
    (hab : y.arbiter = s.arbiter) : (y.endAccess.proceed).EditsSound := by
  obtain ⟨h1, h2, h3, h4, h5⟩ := h
  rw [outstanding_of ha] at h3 h4 h5
  obtain ⟨v, o, hv, hyv⟩ := hv
  have noPort : ∀ a ∈ s.arbiter.waiting, a.ofPort = false := by
    have := h4.2.2.1
    rw [List.countP_cons_of_pos rfl] at this
    have z : s.arbiter.waiting.countP Access.ofPort = 0 := by omega
    rw [List.countP_eq_zero] at z
    intro a ha; simpa using z a ha
  obtain ⟨v', l, hv', hl⟩ := h4.2.2.2.1 k List.mem_cons_self
  rw [hv] at hv'; cases hv'
  have noReq : TableEvent.request ∉ s.arbiter.deferred := by
    intro hm
    obtain ⟨v', hv', hp⟩ := h4.2.2.2.2.2 hm
    rw [hv] at hv'; cases hv'
    rw [hl] at hp; cases hp
  have only : ∀ j, .edit j ∈ Access.edit k :: s.arbiter.waiting → j = k := by
    intro j hj
    rcases List.mem_cons.1 hj with e | e
    · cases e; rfl
    · have := noPort _ e; cases this
  have open_ : ∀ (j : BufferNo) (c : EditBuffer), y.edit.buffers[j] = some c → j ≠ k ∧ s.edit.buffers[j] = some c := by
    intro j c hc
    rw [he] at hc
    have hc' : (s.edit.buffers.set k none)[j] = some c := hc
    rw [buffers_get_set] at hc'
    split at hc'
    · cases hc'
    · exact ⟨by assumption, hc'⟩
  have bufs : y.BuffersSound := buffers_freed h2 (by rw [he]) stay
  -- the request finds none open
  have free : ReadyFor y { v with edit := o } ∧ (∀ (p : ServicePhase), ReadyFor y { v with edit := o, phase := p }) := by
    have main : ∀ p : ServicePhase, ReadyFor y { v with edit := o, phase := p } := by
      intro p
      refine ⟨fun tag f w hr => ?_, fun name hr hg j c i base r hb ht hres => ?_⟩
      · obtain ⟨a1, a2, a3, a4⟩ := (h5 v hv).1 tag f w hr
        refine ⟨a1, a2, hst ▸ a3, fun j c hc ht => ?_⟩
        obtain ⟨hn, hc'⟩ := open_ j c hc
        exact absurd (only j (a4 j c hc' ht).2) hn
      · obtain ⟨hn, hb'⟩ := open_ j c hb
        have hg' : s.edit.groupMode = false := by rw [he] at hg; exact hg
        obtain ⟨q, hq, et⟩ := (h2 j c hb').2.2.2 i base ht
        have hy := stay j c i base q hn hb' ht hq
        have : s.resolve name = .ok (i, q) := by
          cases name with
          | byTag tag =>
            have hf : y.findTag tag = some i := by
              simp only [State.resolve] at hres
              cases hf : y.findTag tag with
              | none => rw [hf] at hres; cases hres
              | some x =>
                rw [hf] at hres
                simp only at hres
                split at hres
                · cases hres; rfl
                · cases hres
            obtain ⟨z, hz, ez⟩ := findTag_some hf
            rw [hy] at hz; cases hz
            have := findTag_of h1 hq
            rw [ez] at this
            simp only [State.resolve, this, hq]
          | bySlot index =>
            simp only [State.resolve] at hres ⊢
            split at hres
            · rename_i hlt
              split at hres
              · cases hres
                simp only [dif_pos hlt]
                rw [hq]
              · cases hres
            · cases hres
        exact absurd (only j ((h5 v hv).2 name hr hg' j c i base q hb' ht this).2) hn
    exact ⟨main v.phase, main⟩
  have instW : s.InstallSound s.arbiter.waiting := by
    refine ⟨?_, fun hm => h3.2.1 (List.mem_cons_of_mem _ hm), h3.2.2.1, h3.2.2.2.1, h3.2.2.2.2⟩
    have := h3.1
    rwa [List.count_cons_of_ne (by simp)] at this
  have instY : y.InstallSound s.arbiter.waiting := by
    refine ⟨instW.1, by rw [hst]; exact instW.2.1, by rw [hst, hu]; exact instW.2.2.1, by rw [hst, hu]; exact instW.2.2.2.1, fun hlo j => ?_⟩
    rw [he]
    show (s.edit.buffers.set k none)[j] = none
    rw [buffers_get_set]
    split
    · rfl
    · exact instW.2.2.2.2 (hst ▸ hlo) j
  have ready : s.startup = .ready := by
    by_contra hne
    rw [(h4.2.1 hne).1] at hv; cases hv
  have chip : s.port.chipSelect ≠ .low false := fun e => by rw [h4.1 e] at hv; cases hv
  have soundY : y.SoundWith y.arbiter.waiting := by
    rw [hab]
    refine ⟨tags, bufs, instY, ⟨fun e => absurd (hc ▸ e) chip, fun e => absurd (hu.trans ready) e, ?_, fun j hj => ?_, fun hj => ?_,
      fun e => absurd (hab ▸ e) noReq⟩, fun x hx => ?_⟩
    · rw [countP_of_noPort noPort]; omega
    · have := noPort _ hj; cases this
    · rcases hj with hj | hj <;> (have := noPort _ hj; cases this)
    · rw [hyv] at hx; cases hx
      obtain ⟨f1, f2⟩ := free.1
      refine ⟨fun tag f w hr => ?_, fun name hr hg j c i base r hb ht hres => ?_⟩
      · obtain ⟨a1, a2, a3, -⟩ := f1 tag f w hr
        refine ⟨a1, a2, a3, fun j c hcj htj => ?_⟩
        have e1 := ((free.2 .judging).1 tag f w hr).2.2.2 j c hcj htj
        cases e1
      · have e1 := (free.2 .judging).2 name hr hg j c i base r hb ht hres
        cases e1
  obtain ⟨u1, u2, u3⟩ := endAccess_sound soundY (by rw [hab]; exact fun e => absurd e noReq)
  have uout := endAccess_outstanding y
  rw [hab] at uout
  generalize y.endAccess = u at u1 u2 u3 uout
  rcases u3 with e | e
  · have : u.proceed = u := by unfold State.proceed; rw [e]
    rw [this]; exact u1
  · rw [hyv] at e
    have up : ∀ a ∈ u.arbiter.outstanding, a.ofPort = false := by
      intro a ha
      rcases uout a ha with h | ⟨n, rfl⟩
      · exact noPort a h
      · rfl
    refine ServiceParts.proceed (v := { v with edit := o }) ⟨u1.1, u1.2.1, u1.2.2.1, ?_, up, u2, e, ?_, ?_⟩ ⟨l, hl⟩
    · by_contra hne
      rw [(u1.2.2.2.1.2.1 hne).1] at e; cases e
    · intro x
      rw [u1.2.2.2.1.1 x] at e; cases e
    · obtain ⟨a, b⟩ := u1.2.2.2.2 _ e
      refine ⟨fun tag f w hr => ?_, fun name hr hg j c i base r hb ht hres => ?_⟩
      · obtain ⟨a1, a2, a3, a4⟩ := a tag f w hr
        exact ⟨a1, a2, a3, fun j c hc ht => by have := up _ (a4 j c hc ht).2; cases this⟩
      · have := up _ (b name hr hg j c i base r hb ht hres).2; cases this

/-- The edit outcome is gathered in the request in service. -/
theorem gatherEdit_service {s : State} {v : Service} (h : s.port.service = some v) (o : EditOutcome) :
    (s.gatherEdit o).port.service = some { v with edit := v.edit.also o } := by
  simp [State.gatherEdit, h]

/-- An edit application keeps the edits sound. -/
theorem editApplication_sound {s t : State} (h : s.EditsSound) (he : exec .editApplication s = .next t) : t.EditsSound := by
  simp only [Machine.exec, execEditApplication] at he
  split at he
  · rename_i k ha
    have hk : ∃ v l, s.port.service = some v ∧ v.phase = .closing l := by
      refine h.2.2.2.1.2.2.2.1 k ?_
      rw [outstanding_of ha]; exact List.mem_cons_self
    obtain ⟨v, l, hv, hl⟩ := hk
    split at he
    · rename_i b hb
      split at he
      · cases he
      · cases he
        obtain ⟨e1, e2, e3, e4, e5, e6, e7⟩ := applyEdit_rest s k b
        obtain ⟨fine1, fine2, uniq, tgt⟩ := h.2.1 k b hb
        refine edit_ends (y := (s.applyEdit k b).1.gatherEdit (s.applyEdit k b).2) h ha ?_ e1 ?_
          ⟨v, _, hv, gatherEdit_service (e3.trans hv) _⟩ e4 e5 e6 e7
        · show DistinctSlots (s.applyEdit k b).1.slots
          rw [e2]
          split
          · exact h.1
          · rename_i hr; exact applied_distinct ⟨fine1, fine2⟩ h.1 hr
        · intro j c i base r hn hc ht hr
          show (s.applyEdit k b).1.slots[i] = some r
          rw [e2]
          split
          · exact hr
          · refine applied_other hr fun base' ht' => hn ?_
            obtain ⟨q, hq, et⟩ := tgt i base' ht'
            obtain ⟨q', hq', et'⟩ := (h.2.1 j c hc).2.2.2 i base ht
            rw [hq] at hq'; cases hq'
            exact uniq j c hc (et'.symm.trans et)
    · rename_i hb
      cases he
      refine edit_ends (y := s) h ha h.1 ?_ (fun _ _ _ _ _ _ _ _ hr => hr) ⟨v, v.edit, hv, hv⟩ rfl rfl rfl rfl
      have : s.edit.buffers.set k none = s.edit.buffers := by
        apply Vector.ext
        intro n hn
        have := buffers_get_set s.edit.buffers k ⟨n, hn⟩ none
        simp only [Fin.getElem_fin] at this
        rw [this]
        split
        · rename_i e; rw [← hb]; simp [← e]
        · rfl
      rw [this]
  all_goals
    cases he
    exact h

/-- Only the port's chip select, its reply place or snapshot, or nothing soundness reads, changed. -/
theorem same_sound {s t : State} (h : s.EditsSound) (hs : t.slots = s.slots) (he : t.edit = s.edit)
    (hv : t.port.service = s.port.service) (hc : t.port.chipSelect = .low false → s.port.service = none)
    (hst : t.store.op = s.store.op) (hpr : t.store.profiles = s.store.profiles) (hu : t.startup = s.startup)
    (ha : t.arbiter = s.arbiter) : t.EditsSound := by
  show t.SoundWith t.arbiter.outstanding
  rw [ha]
  have h' : s.SoundWith s.arbiter.outstanding := h
  obtain ⟨h1, h2, h3, h4, h5⟩ := h'
  refine ⟨tags_like (s := s) (fun i => tagAt_congr hs i) h1, buffers_like (fun i => tagAt_congr hs i) he h2, ?_, ?_, ?_⟩
  · obtain ⟨a, b, c, d, e⟩ := h3
    refine ⟨a, ?_, ?_, ?_, ?_⟩
    · rw [hst, hpr]; exact b
    · rw [hst, hu]; exact c
    · rw [hst, hu]; exact d
    · rw [hst, he]; exact e
  · obtain ⟨a, b, c, d, e, f⟩ := h4
    refine ⟨?_, ?_, c, ?_, ?_, ?_⟩
    · rw [hv]; exact hc
    · rw [hu, hv, he]; exact b
    · rw [hv]; exact d
    · rw [hv]; exact e
    · rw [hv, ha]; exact f
  · intro v hvv
    rw [hv] at hvv
    obtain ⟨a, b⟩ := h5 v hvv
    refine ⟨fun tag f w hr => ?_, fun name hr hg k b' i base r hb ht hres => ?_⟩
    · obtain ⟨x, y, z, u⟩ := a tag f w hr
      exact ⟨x, y, hst ▸ z, fun k b hb ht => u k b (he ▸ hb) ht⟩
    · obtain ⟨q, hq, _⟩ := resolve_congr (s := s) (fun i => tagAt_congr hs i) hres
      exact b name hr (he ▸ hg) k b' i base q (he ▸ hb) ht hq

/-- No request is in service in a frame that is not overlapped. -/
theorem idle_like {s : State} (h : s.EditsSound) (hv : s.port.chipSelect = .low false) : s.port.service = none := h.2.2.2.1.1 hv

/-- Chip select, the unheard falls and the output bytes. -/
theorem chip_sound {s : State} (h : s.EditsSound) (c : ChipSelect) (n : Nat) (o : List Byte)
    (hc : c = .low false → s.port.service = none) :
    ({ s with port := { s.port with chipSelect := c, deafFalls := n, output := o } } : State).EditsSound :=
  same_sound h rfl rfl rfl hc rfl rfl rfl rfl

/-- A fall of chip select. -/
theorem csFall_sound {s : State} (h : s.EditsSound) : s.csFall.EditsSound := by
  unfold State.csFall
  split
  · exact chip_sound h _ _ _ (by simp)
  · split
    · exact chip_sound h _ _ _ (fun e => by simpa using e)
    · exact chip_sound h _ _ _ (by simp)

/-- A fall of chip select, or none. -/
theorem fallen_sound {s : State} (h : s.EditsSound) : s.fallen.EditsSound := by
  unfold State.fallen
  split
  · exact csFall_sound h
  · exact h

/-- A rise of chip select. -/
theorem raised_sound {s : State} (h : s.EditsSound) : s.raised.EditsSound := chip_sound h _ _ _ (by simp)

/-- A report. -/
theorem report_sound {s : State} (h : s.EditsSound) (fl : Flag) (k : CheckCause) : (s.report fl k).EditsSound :=
  same_sound h rfl rfl rfl (idle_like h) rfl rfl rfl rfl

/-- A report, or none. -/
theorem reportIf_sound {s : State} (h : s.EditsSound) (b : Bool) (fl : Flag) : (s.reportIf b fl).EditsSound := by
  unfold State.reportIf; split
  · exact report_sound h _ _
  · exact h

/-- The end of a frame. -/
theorem frameRise_sound {s : State} {f : State → State} {n : Nat} (h : s.EditsSound)
    (hf : ∀ u, u.EditsSound → u.port.service = none → u.port.chipSelect = .high → (f u).EditsSound) :
    (s.frameRise f n).EditsSound := by
  have g := fallen_sound h
  unfold State.frameRise
  split
  · rename_i e
    exact hf s.fallen.raised (raised_sound g) (show s.fallen.port.service = none from idle_like g e) rfl
  · exact report_sound (raised_sound g) _ _
  · unfold State.unheardRise; split
    · exact chip_sound (raised_sound g) _ 0 _ (by simp [State.raised])
    · exact raised_sound g
  · unfold State.unheardRise; split
    · exact chip_sound (raised_sound g) _ 0 _ (by simp [State.raised])
    · exact raised_sound g

/-- The port idles between a rise and what is asked then. -/
structure Asked (u : State) : Prop where
  sound : u.EditsSound
  idle : u.port.service = none
  chip : u.port.chipSelect = .high
  ready : u.startup = .ready

/-- A reply while no request is in service. -/
theorem reply_idle {u : State} (h : u.EditsSound) (hi : u.port.service = none) (code seq : Byte) (e : EditOutcome) (r : Answer) :
    (u.replyWith code seq e r).EditsSound :=
  same_sound h rfl rfl hi.symm (fun _ => hi) rfl rfl rfl rfl

/-- The dispatch of a request. -/
theorem dispatch_sound {u : State} (h : u.EditsSound) (hi : u.port.service = none) (hc : u.port.chipSelect = .high)
    (code seq : Byte) (b : Bool) (f : State → State)
    (hf : Asked u → (b = true → u.store.op.isLoading = false) → (f u).EditsSound) :
    (u.dispatch code seq b f).EditsSound := by
  unfold State.dispatch
  split
  · exact reply_idle h hi _ _ _ _
  · rename_i hr
    split
    · exact reply_idle h hi _ _ _ _
    · rename_i hb
      exact hf ⟨h, hi, hc, by simpa using hr⟩ (fun e => by simpa [e] using hb)

/-- A request answered at once. -/
theorem ask_sound {s : State} (h : s.EditsSound) (code seq : Byte) (f : State → State × Answer)
    (hf : ∀ u, Asked u → (f u).1.EditsSound ∧ (f u).1.port.service = none) : (s.ask code seq f).EditsSound :=
  frameRise_sound h fun u hu hi hc => dispatch_sound hu hi hc _ _ _ _ fun hr _ =>
    reply_idle (hf u hr).1 (hf u hr).2 _ _ _ _

/-- A request that is neither a Write Field nor a Retire. -/
theorem readyFor_other (u : State) (v : Service) (h1 : ∀ tag f w, v.request ≠ .writeField tag f w)
    (h2 : ∀ name, v.request ≠ .table (.retire name)) : ReadyFor u v :=
  ⟨fun _ _ _ e => absurd e (h1 _ _ _), fun _ e => absurd e (h2 _)⟩

/-- A request enters service at the end of its frame. -/
theorem Asked.begin {u : State} (h : Asked u) (code seq : Byte) (q : PortRequest) (l : List BufferNo)
    (hf : ReadyFor u { code := code, seq := seq, request := q, phase := .closing l, edit := .untouched }) :
    (u.begin code seq q l).EditsSound :=
  begin_sound h.sound h.idle h.ready (by rw [h.chip]; simp) code seq q l hf

/-- So does one that names a record. -/
theorem Asked.beginNamed {u : State} (h : Asked u) (code seq : Byte) (name : RecordName) (q : PortRequest)
    (h1 : ∀ tag f w, q ≠ .writeField tag f w) (h2 : ∀ n, q = .table (.retire n) → n = name) :
    (u.beginNamed code seq name q).EditsSound := by
  unfold State.beginNamed
  split
  · rename_i l hl
    refine h.begin _ _ _ _ ⟨fun _ _ _ e => absurd e (h1 _ _ _), fun n hn hg k b i base r hb ht hres => ?_⟩
    cases h2 n hn
    obtain ⟨-, -, -, tgt⟩ := h.sound.2.1 k b hb
    obtain ⟨q', hq', et⟩ := tgt i base ht
    have found := resolve_found hres
    rw [hq'] at found; cases found
    have buf : u.edit.bufferFor r.cfg.tag = some k := by
      cases hx : u.edit.bufferFor r.cfg.tag with
      | none => rw [et] at hx; exact absurd hx (bufferFor_ne_none hb)
      | some j =>
        obtain ⟨c, hc, ec⟩ := bufferFor_some hx
        rw [(h.sound.2.1 k b hb).2.2.1 j c hc (ec.trans et)]
    show ServicePhase.closing l = .closing [k]
    unfold State.closedBy at hl
    rw [if_neg (by simp [hg])] at hl
    cases name with
    | byTag tag =>
      have : tag = r.cfg.tag := by
        simp only [State.resolve] at hres
        cases hf : u.findTag tag with
        | none => rw [hf] at hres; cases hres
        | some x =>
          rw [hf] at hres
          obtain ⟨z, hz, ez⟩ := findTag_some hf
          simp only [hz] at hres
          cases hres
          exact ez.symm
      simp only [this, buf] at hl
      cases hl; rfl
    | bySlot index =>
      simp only [hres, buf] at hl
      cases hl; rfl
  · exact reply_idle h.sound h.idle _ _ _ _

/-- A request that names a record. -/
theorem askNamed_sound {s : State} (h : s.EditsSound) (code seq : Byte) (b : Bool) (name : RecordName) (q : PortRequest)
    (h1 : ∀ tag f w, q ≠ .writeField tag f w) (h2 : ∀ n, q = .table (.retire n) → n = name) :
    (s.askNamed code seq b name q).EditsSound :=
  frameRise_sound h fun _ hu hi hc => dispatch_sound hu hi hc _ _ _ _ fun hr _ => hr.beginNamed _ _ _ _ h1 h2

/-- A request judged at its table. -/
theorem askTable_sound {s : State} (h : s.EditsSound) (code seq : Byte) (b : Bool) (r : TableRequest)
    (h2 : ∀ n, r ≠ .retire n) : (s.askTable code seq b r).EditsSound :=
  frameRise_sound h fun u hu hi hc => dispatch_sound hu hi hc _ _ _ _ fun hr _ =>
    hr.begin _ _ _ _ (readyFor_other _ _ (by simp) (by simpa using h2))

/-- The edit unit replaced while no request is in service. -/
theorem edit_sound {u : State} (h : Asked u) (e : EditUnit)
    (hb : ({ u with edit := e } : State).BuffersSound) (hl : u.store.op.isLoading = true → ∀ k : BufferNo, e.buffers[k] = none) :
    ({ u with edit := e } : State).EditsSound := by
  obtain ⟨h1, h2, h3, h4, h5⟩ := h.sound
  refine ⟨h1, hb, ⟨h3.1, h3.2.1, h3.2.2.1, h3.2.2.2.1, hl⟩, ⟨h4.1, fun x => absurd h.ready x, h4.2.2.1, h4.2.2.2.1, h4.2.2.2.2.1,
    h4.2.2.2.2.2⟩, fun v hv => ?_⟩
  have : u.port.service = some v := hv
  rw [h.idle] at this; cases this

/-- The Profile Store and start-up replaced. -/
theorem store_sound {u : State} (h : u.EditsSound) (st : Store) (x : Startup)
    (h1 : .install ∈ u.arbiter.outstanding → ∃ p : ProfileNo, st.profiles[p].isValid = true ∧
        (st.op = .loading p true ∨ (st.op = .startupLoading ∧ p = 0)))
    (h2 : st.op = .startupLoading → x = .loading) (h3 : x = .begun → st.op = .idle)
    (h4 : st.op.isLoading = true → ∀ k : BufferNo, u.edit.buffers[k] = none)
    (h5 : x ≠ .ready → u.port.service = none ∧ ∀ k : BufferNo, u.edit.buffers[k] = none)
    (h6 : ∀ v tag f w, u.port.service = some v → v.request = .writeField tag f w → st.op.isLoading = false) :
    ({ u with store := st, startup := x } : State).EditsSound := by
  obtain ⟨a, b, c, d, e⟩ := h
  refine ⟨a, b, ⟨c.1, h1, h2, h3, h4⟩, ⟨d.1, h5, d.2.2.1, d.2.2.2.1, d.2.2.2.2.1, d.2.2.2.2.2⟩, fun v hv => ?_⟩
  obtain ⟨e1, e2⟩ := e v hv
  exact ⟨fun tag f w hr => ⟨(e1 tag f w hr).1, (e1 tag f w hr).2.1, h6 v tag f w hv hr, (e1 tag f w hr).2.2.2⟩, e2⟩

/-- No install is outstanding but during a load. -/
theorem not_install {u : State} (h : u.EditsSound) (hop : ∀ p, u.store.op ≠ .loading p true)
    (hs : u.store.op ≠ .startupLoading) : .install ∉ u.arbiter.outstanding := by
  intro hm
  obtain ⟨p, -, e | ⟨e, -⟩⟩ := h.2.2.1.2.1 hm
  · exact hop p e
  · exact hs e

/-- An access that is not the port's is requested. -/
theorem request_sound {s : State} {a : Access} (h : s.EditsSound) (ha : a.ofPort = false)
    (hi : a = .install → .install ∉ s.arbiter.outstanding ∧ ∃ p : ProfileNo, s.store.profiles[p].isValid = true ∧
        (s.store.op = .loading p true ∨ (s.store.op = .startupLoading ∧ p = 0))) : (s.request a).EditsSound := by
  show (s.request a).SoundWith _
  refine perm_sound (A := a :: s.arbiter.outstanding) ((request_outstanding s a).filter _) ?_
  rw [request_eq]
  refine arbiter_sound (s := s) _ (by rw [request_deferred]; exact id) ?_
  obtain ⟨h1, h2, h3, h4, h5⟩ := h
  refine ⟨h1, h2, ⟨?_, fun hm => ?_, h3.2.2⟩, ⟨h4.1, h4.2.1, ?_, fun k hk => ?_, fun hk => ?_, h4.2.2.2.2.2⟩, fun v hv => ?_⟩
  · by_cases e : a = .install
    · subst e
      have : s.arbiter.outstanding.count .install = 0 := List.count_eq_zero.2 (hi rfl).1
      rw [List.count_cons_self, this]
    · rw [List.count_cons_of_ne e]; exact h3.1
  · rcases List.mem_cons.1 hm with e | hm
    · exact (hi e.symm).2
    · exact h3.2.1 hm
  · rw [List.countP_cons_of_neg (by simp [ha])]; exact h4.2.2.1
  · rcases List.mem_cons.1 hk with e | hk
    · rw [← e] at ha; cases ha
    · exact h4.2.2.2.1 k hk
  · refine h4.2.2.2.2.1 ?_
    rcases hk with hk | hk
    · rcases List.mem_cons.1 hk with e | hk
      · rw [← e] at ha; cases ha
      · exact .inl hk
    · rcases List.mem_cons.1 hk with e | hk
      · rw [← e] at ha; cases ha
      · exact .inr hk
  · obtain ⟨e1, e2⟩ := h5 v hv
    refine ⟨fun tag f w hr => ?_, fun name hr hg k b i base r hb ht hres => ?_⟩
    · obtain ⟨a1, a2, a3, a4⟩ := e1 tag f w hr
      exact ⟨a1, a2, a3, fun k b hb ht => ⟨(a4 k b hb ht).1, List.mem_cons_of_mem _ (a4 k b hb ht).2⟩⟩
    · obtain ⟨x, y⟩ := e2 name hr hg k b i base r hb ht hres
      exact ⟨x, List.mem_cons_of_mem _ y⟩

/-- An access that neither is the port's nor an install ends after what it did to the tables. -/
theorem table_ends {s y : State} {a : Access} (h : s.EditsSound) (ha : s.arbiter.inService = some a)
    (hc : a.counts = false) (L : Like s y) : y.endAccess.EditsSound := by
  refine (endAccess_sound (s := y) ?_ ?_).1
  · rw [L.arbiter]
    refine L.sound (A := s.arbiter.outstanding) ?_ h
    rw [outstanding_of ha]
    simp [hc]
  · intro hm v hv
    rw [L.arbiter] at hm
    rw [L.service] at hv
    obtain ⟨v', hv', hp⟩ := h.2.2.2.1.2.2.2.2.2 hm
    rw [hv] at hv'; cases hv'; exact hp

/-- Before the reply no port access stands, after the one in service is gone. -/
theorem noPort_after {s : State} {a : Access} (h : s.EditsSound) (ha : s.arbiter.inService = some a)
    (hp : a.ofPort = true) : ∀ b ∈ s.arbiter.waiting, b.ofPort = false := by
  have := h.2.2.2.1.2.2.1
  rw [outstanding_of ha, List.countP_cons_of_pos hp] at this
  have z : s.arbiter.waiting.countP Access.ofPort = 0 := by omega
  rw [List.countP_eq_zero] at z
  intro b hb; simpa using z b hb

/-- The install in service is the one outstanding. -/
theorem drop_install {s : State} {a : Access} (h : s.EditsSound) (ha : s.arbiter.inService = some a)
    (hi : a ≠ .install) : s.InstallSound s.arbiter.waiting := by
  have c := h.2.2.1
  rw [outstanding_of ha] at c
  refine ⟨?_, fun hm => c.2.1 (List.mem_cons_of_mem _ hm), c.2.2⟩
  have := c.1
  rwa [List.count_cons_of_ne hi] at this

/-- An access of the port's request ends. -/
theorem access_ends {s : State} {a : Access} (h : s.EditsSound) (ha : s.arbiter.inService = some a)
    (hg : a = .group ∨ a = .portSnapshot) (y : State) (tags : DistinctSlots y.slots) (bufs : y.BuffersSound)
    (hst : y.store = s.store) (hu : y.startup = s.startup) (hab : y.arbiter = s.arbiter)
    (hc : y.port.chipSelect = s.port.chipSelect)
    (he : ∀ k : BufferNo, s.edit.buffers[k] = none → y.edit.buffers[k] = none)
    (hv : y.port.service = none ∨ (y.port.service = s.port.service ∧ y.edit = s.edit ∧ y.slots = s.slots)) : y.endAccess.EditsSound := by
  have hp : a.ofPort = true := by rcases hg with rfl | rfl <;> rfl
  have noPort := noPort_after h ha hp
  obtain ⟨v, hsv, hph⟩ : ∃ v, s.port.service = some v ∧ v.phase = .access := by
    refine h.2.2.2.1.2.2.2.2.1 ?_
    rw [outstanding_of ha]
    rcases hg with rfl | rfl
    · exact .inl List.mem_cons_self
    · exact .inr List.mem_cons_self
  have noReq : TableEvent.request ∉ s.arbiter.deferred := by
    intro hm
    obtain ⟨v', hv', hp⟩ := h.2.2.2.1.2.2.2.2.2 hm
    rw [hsv] at hv'; cases hv'; rw [hph] at hp; cases hp
  have inst := drop_install h ha (by rcases hg with rfl | rfl <;> simp)
  refine (endAccess_sound (s := y) ?_ (fun hm => absurd (hab ▸ hm) noReq)).1
  rw [hab]
  have chip : s.port.chipSelect ≠ .low false := fun e => by rw [h.2.2.2.1.1 e] at hsv; cases hsv
  have ready : s.startup = .ready := by
    by_contra hne
    rw [(h.2.2.2.1.2.1 hne).1] at hsv; cases hsv
  refine ⟨tags, bufs, ⟨inst.1, by rw [hst]; exact inst.2.1, by rw [hst, hu]; exact inst.2.2.1, by rw [hst, hu]; exact inst.2.2.2.1,
    fun hlo k => he k (inst.2.2.2.2 (hst ▸ hlo) k)⟩, ⟨fun e => absurd (hc ▸ e) chip, fun e => absurd (hu.trans ready) e, ?_, fun k hk => ?_, fun hk => ?_,
    fun hm => absurd (hab ▸ hm) noReq⟩, fun x hx => ?_⟩
  · rw [countP_of_noPort noPort]; omega
  · have := noPort _ hk; cases this
  · rcases hk with hk | hk <;> (have := noPort _ hk; cases this)
  · rcases hv with hv | ⟨hv, he', hsl⟩
    · rw [hv] at hx; cases hx
    · rw [hv] at hx
      obtain ⟨e1, e2⟩ := h.2.2.2.2 x hx
      rw [hsv] at hx; cases hx
      refine ⟨fun tag f w hr => ?_, fun name hr hg k b i base r hb ht hres => ?_⟩
      · obtain ⟨a1, a2, a3, a4⟩ := e1 tag f w hr
        refine ⟨a1, a2, hst ▸ a3, fun k b hb ht => ?_⟩
        have := (a4 k b (he' ▸ hb) ht).1
        rw [hph] at this; cases this
      · obtain ⟨q, hq, _⟩ := resolve_congr (s := s) (fun i => tagAt_congr hsl i) hres
        have := (e2 name hr (he' ▸ hg) k b i base q (he' ▸ hb) ht hq).1
        rw [hph] at this; cases this

/-- A part with VACANT slots, FREE buffers and nothing outstanding. -/
theorem blank_sound {s : State} (h1 : ∀ i : SlotNo, s.slots[i] = none) (h2 : ∀ k : BufferNo, s.edit.buffers[k] = none)
    (h3 : s.store.op = .idle) (_ : s.startup = .begun) (h5 : s.port.service = none)
    (h6 : s.arbiter = { inService := none, waiting := [], deferred := [] }) : s.EditsSound := by
  have no : s.arbiter.outstanding = [] := by rw [h6]; rfl
  refine ⟨⟨fun i r hr => ?_, fun i j r q hr => ?_⟩, fun k b hb => ?_, ?_, ?_, fun v hv => ?_⟩
  · rw [h1] at hr; cases hr
  · rw [h1] at hr; cases hr
  · rw [h2] at hb; cases hb
  · rw [no]
    exact ⟨by simp, by simp, by simp [h3], fun _ => h3, fun _ => h2⟩
  · rw [no]
    exact ⟨fun _ => h5, fun _ => ⟨h5, h2⟩, by simp, by simp, by simp, by simp [h6]⟩
  · rw [h5] at hv; cases hv

/-- The slots and buffers after a reset. -/
theorem reset_get (i : SlotNo) : State.reset.slots[i] = none := by simp [State.reset]

/-- A reset. -/
theorem resetPart_sound (s : State) (b : Bool) (n : Nat) : (s.resetPart b n).EditsSound :=
  blank_sound (fun i => by simp [State.resetPart, State.reset]) (fun k => by simp [State.resetPart, State.reset]) rfl rfl rfl rfl

/-- What the application of a group leaves. -/
theorem applyGroup_rest (s : State) :
    (∀ k : BufferNo, s.applyGroup.1.edit.buffers[k] = none) ∧
    (s.applyGroup.1.slots = s.slots ∨ judgeGroup s.edit.openBuffers s.slots = .ok s.applyGroup.1.slots) ∧
    s.applyGroup.1.port.service = s.port.service ∧ s.applyGroup.1.port.chipSelect = s.port.chipSelect ∧
    s.applyGroup.1.store = s.store ∧ s.applyGroup.1.startup = s.startup ∧
    s.applyGroup.1.arbiter = s.arbiter := by
  have note : ∀ (l : List (BufferNo × EditBuffer)) (t : State),
      (l.foldl (fun t p => t.noteApplied p.2) t).port.service = t.port.service ∧
      (l.foldl (fun t p => t.noteApplied p.2) t).port.chipSelect = t.port.chipSelect ∧
      (l.foldl (fun t p => t.noteApplied p.2) t).store = t.store ∧ (l.foldl (fun t p => t.noteApplied p.2) t).startup = t.startup ∧
      (l.foldl (fun t p => t.noteApplied p.2) t).arbiter = t.arbiter := by
    intro l
    induction l with
    | nil => exact fun t => ⟨rfl, rfl, rfl, rfl, rfl⟩
    | cons p l ih =>
      intro t
      rw [List.foldl_cons]
      obtain ⟨a, b, c, d, e⟩ := ih (t.noteApplied p.2)
      rw [a, b, c, d, e]
      unfold State.noteApplied
      split
      · exact ⟨rfl, rfl, rfl, rfl, rfl⟩
      · unfold State.recordChanged; split
        · split <;> exact ⟨rfl, rfl, rfl, rfl, rfl⟩
        · exact ⟨rfl, rfl, rfl, rfl, rfl⟩
        · exact ⟨rfl, rfl, rfl, rfl, rfl⟩
  unfold State.applyGroup
  split
  · exact ⟨fun k => by simp [State.rejectEdit, State.endGroup, State.report], .inl rfl, rfl, rfl, rfl, rfl, rfl⟩
  · rename_i out hj
    obtain ⟨a, b, c, d, e⟩ := note s.edit.openBuffers s
    exact ⟨fun k => by simp [State.endGroup], .inr hj, a, b, c, d, e⟩

/-- A buffer among the open ones. -/
theorem open_mem {e : EditUnit} {p : BufferNo × EditBuffer} (h : p ∈ e.openBuffers) : e.buffers[p.1] = some p.2 := by
  unfold EditUnit.openBuffers at h
  obtain ⟨k, -, hk⟩ := List.mem_filterMap.1 h
  obtain ⟨b, hb, rfl⟩ := Option.map_eq_some_iff.1 hk
  exact hb

/-- The records of a valid profile have distinct tags (R160). -/
theorem profile_distinct {p : Profile} (h : p.isValid = true) :
    DistinctSlots (Vector.ofFn fun i : SlotNo => p.savedRecords[i.val]?.map Record.fresh) := by
  simp only [Profile.isValid, Bool.and_eq_true, Profile.tagsDistinct, decide_eq_true_eq] at h
  obtain ⟨⟨-, hr⟩, hd⟩ := h
  have got : ∀ (i : SlotNo) (r : Record), (Vector.ofFn fun i : SlotNo => p.savedRecords[i.val]?.map Record.fresh)[i] = some r →
      ∃ cfg, p.savedRecords[i.val]? = some cfg ∧ r = Record.fresh cfg := by
    intro i r hr
    simp only [Fin.getElem_fin, Vector.getElem_ofFn] at hr
    obtain ⟨c, hc, rfl⟩ := Option.map_eq_some_iff.1 hr
    exact ⟨c, hc, rfl⟩
  refine ⟨fun i r hi => ?_, fun i j r q hi hj e => ?_⟩
  · obtain ⟨c, hc, rfl⟩ := got i r hi
    have := List.all_eq_true.1 hr c (List.mem_of_getElem? hc)
    simp only [RecordConfig.inRange, Bool.and_eq_true, List.all_eq_true] at this
    have := this.1.1 .tag (by decide)
    intro e
    have e : c.tag = 0 := e
    simp [RecordField.inRange, RecordConfig.field, e] at this
  · obtain ⟨c, hc, rfl⟩ := got i r hi
    obtain ⟨d, hd', rfl⟩ := got j q hj
    have e : c.tag = d.tag := e
    have h1 : (p.savedRecords.map RecordConfig.tag)[i.val]? = some c.tag := by rw [List.getElem?_map, hc]; rfl
    have h2 : (p.savedRecords.map RecordConfig.tag)[j.val]? = some c.tag := by rw [List.getElem?_map, hd', e]; rfl
    obtain ⟨l1, h1⟩ := List.getElem?_eq_some_iff.1 h1
    obtain ⟨l2, h2⟩ := List.getElem?_eq_some_iff.1 h2
    exact Fin.ext ((List.Nodup.getElem_inj_iff hd).1 (h1.trans h2.symm))

/-- The buffers after a group has ended. -/
theorem blank_get (k : BufferNo) : (Vector.replicate 4 (none : Option EditBuffer))[k] = none := by simp

end Sys2Proof.Machine
end

