-- ==== Sys2Proof/Laws/Store.lean ====
section
/-! SUPPORT. The CRC-16 tells lists apart that differ in one byte, and what a save that did not verify leaves:
`unverified_disagrees`, `unverified_count`, and a lemma for each of its items. -/

namespace Sys2Proof.Machine

/-! ### The CRC-16 -/

/-- A bit time of the register loses nothing. -/
theorem crc16Bit_injective {r q : Half} (h : crc16Bit r = crc16Bit q) : r = q := by
  have low (x : Half) : (crc16Bit x).getLsbD 0 = x.msb := by
    unfold crc16Bit
    cases x.msb <;> simp
  have top : r.msb = q.msb := by rw [← low, ← low, h]
  have shifted : r <<< 1 = q <<< 1 := by
    unfold crc16Bit at h
    rw [top] at h
    cases hq : q.msb <;> simp only [hq, if_true, Bool.false_eq_true, if_false] at h
    · exact h
    · exact BitVec.xor_right_inj (0x1021 : Half) |>.mp (by rwa [BitVec.xor_comm, BitVec.xor_comm _ (q <<< 1)])
  apply BitVec.eq_of_getLsbD_eq
  intro n hn
  by_cases last : n = 15
  · subst last
    simpa [BitVec.msb_eq_getLsbD_last] using top
  · have := congrArg (fun x : Half => x.getLsbD (n + 1)) shifted
    simpa [BitVec.getLsbD_shiftLeft, show n + 1 < 16 by omega, BitVec.getLsbD_eq_getElem hn] using this

/-- Nor do eight. -/
theorem repeat_crc16Bit_injective (n : Nat) {r q : Half} (h : Nat.repeat crc16Bit n r = Nat.repeat crc16Bit n q) :
    r = q := by
  induction n with
  | zero => exact h
  | succ n ih => exact ih (crc16Bit_injective h)

/-- A byte into different registers leaves different registers. -/
theorem crc16Byte_injective {r q : Half} {b : Byte} (h : crc16Byte r b = crc16Byte q b) : r = q :=
  BitVec.xor_left_inj _ |>.mp (repeat_crc16Bit_injective 8 h)

/-- So do different bytes into one register. -/
theorem crc16Byte_injective_byte {r : Half} {b c : Byte} (h : crc16Byte r b = crc16Byte r c) : b = c := by
  have shifted := BitVec.xor_right_inj r |>.mp (repeat_crc16Bit_injective 8 h)
  apply BitVec.eq_of_getLsbD_eq
  intro n hn
  have := congrArg (fun x : Half => x.getLsbD (n + 8)) shifted
  simpa [BitVec.getLsbD_shiftLeft, show n + 8 < 16 by omega] using this

/-- And the same bytes in turn into different registers. -/
theorem foldl_crc16Byte_injective (l : List Byte) {r q : Half} (h : l.foldl crc16Byte r = l.foldl crc16Byte q) :
    r = q := by
  induction l generalizing r q with
  | nil => exact h
  | cons b l ih => exact crc16Byte_injective (ih h)

/-- Lists that differ in one byte have different CRCs. -/
theorem crc16_of_one_byte (before after : List Byte) {b c : Byte}
    (h : crc16 (before ++ b :: after) = crc16 (before ++ c :: after)) : b = c := by
  unfold crc16 at h
  rw [List.foldl_append, List.foldl_append, List.foldl_cons, List.foldl_cons] at h
  exact crc16Byte_injective_byte (foldl_crc16Byte_injective after h)

/-! ### What is partly programmed -/

/-- A field of a loosened channel configuration keeps the bits at one. -/
theorem channel_loosen_ones (cfg : ChannelConfig) (bits : Nat → Word) (f : ChannelField) (n : Nat)
    (h : (cfg.field f).getLsbD n = true) : ((cfg.loosen bits).field f).getLsbD n = true := by
  cases f <;>
    simp [ChannelConfig.loosen, ChannelField.all, List.zipIdx, ChannelConfig.field, ChannelConfig.setField] at h ⊢ <;>
    simp_all

/-- And of a record configuration. -/
theorem record_loosen_ones (cfg : RecordConfig) (bits : Nat → Word) (f : RecordField) (n : Nat)
    (h : (cfg.field f).getLsbD n = true) : ((cfg.loosen bits).field f).getLsbD n = true := by
  cases f <;>
    simp [RecordConfig.loosen, RecordField.all, List.zipIdx, RecordConfig.field, RecordConfig.setField] at h ⊢ <;>
    simp_all

/-! ### A save that did not verify -/

/-- `disagreeing` changes the record count alone. -/
theorem disagreeing_rest (p : Profile) : ∃ count, p.disagreeing = p.withCount count := by
  unfold Profile.disagreeing
  split
  · exact ⟨_, rfl⟩
  · dsimp only
    split
    · exact ⟨_, rfl⟩
    · exact ⟨_, rfl⟩

/-- The saved records of a count of at least 16 are those of every place. -/
theorem savedRecords_of_tall (p : Profile) (h : 16 ≤ p.recordCount.toNat) : p.savedRecords = p.records.toList :=
  List.take_of_length_le (by simpa using h)

/-- Contents whose counts are at least 16, and differ, have different CRCs. -/
theorem contentCrc_of_tall (p : Profile) {a b : Byte} (ha : 16 ≤ a.toNat) (hb : 16 ≤ b.toNat)
    (h : (p.withCount a).contentCrc = (p.withCount b).contentCrc) : a = b := by
  have sa := savedRecords_of_tall (p.withCount a) ha
  have sb := savedRecords_of_tall (p.withCount b) hb
  have bytes (c : Byte) (s : (p.withCount c).savedRecords = p.records.toList) : (p.withCount c).contentCrc =
      crc16 ([markByte p.validMark, markByte p.autoLoad] ++ c ::
        (p.channels.toList.flatMap ChannelConfig.bytes ++ p.records.toList.flatMap RecordConfig.bytes)) := by
    unfold Profile.contentCrc Profile.bytes
    rw [s]
    simp [Profile.withCount]
  rw [bytes a sa, bytes b sb] at h
  exact crc16_of_one_byte _ _ h

/-- The contents that `disagreeing` leaves have a CRC other than zero. -/
theorem disagreeing_contentCrc (p : Profile) : p.disagreeing.contentCrc ≠ 0 := by
  unfold Profile.disagreeing
  split
  · assumption
  · rename_i hp
    dsimp only
    split
    · assumption
    · rename_i ht
      intro h
      have zero := not_not.mp ht
      have tall : ∀ c : Byte, 16 ≤ (c ||| 0x80).toNat ∧ 16 ≤ ((c ||| 0x80) ^^^ 0x40).toNat ∧
          (c ||| 0x80) ≠ (c ||| 0x80) ^^^ 0x40 := by decide
      obtain ⟨ha, hb, ne⟩ := tall p.recordCount
      exact ne (contentCrc_of_tall p ha hb (zero.trans h.symm))

/-- The CRC that an unverified save programs does not agree with the contents it leaves (R159). -/
theorem unverified_disagrees (copy : Profile) (bits : Nat → Word) :
    crc16 (copy.unverified bits).bytes ≠ 0 := disagreeing_contentCrc _

/-- Its items but the record count. -/
theorem unverified_items (copy : Profile) (bits : Nat → Word) :
    (copy.unverified bits).validMark = false ∧ (copy.unverified bits).crc = 0 ∧
      (copy.unverified bits).autoLoad = (copy.autoLoad && (bits 0).getLsbD 0) ∧
      (copy.unverified bits).channels = (copy.loosen bits).channels ∧
      (copy.unverified bits).records = (copy.loosen bits).records := by
  unfold Profile.unverified
  obtain ⟨count, h⟩ := disagreeing_rest { copy.loosen bits with crc := 0 }
  rw [h]
  exact ⟨rfl, rfl, rfl, rfl, rfl⟩

/-- Its record count has the ones of a count of 0 to 16. -/
theorem unverified_count (copy : Profile) (bits : Nat → Word) (h : copy.recordCount.toNat ≤ 16) (n : Nat)
    (hn : copy.recordCount.getLsbD n = true) : (copy.unverified bits).recordCount.getLsbD n = true := by
  have small : ∀ m : Fin 8, copy.recordCount.getLsbD m = true → m.val < 6 := by
    have all : ∀ c : Byte, c.toNat ≤ 16 → ∀ m : Fin 8, c.getLsbD m = true → m.val < 6 := by decide
    exact all _ h
  have lt : n < 8 := by
    by_contra ge
    rw [BitVec.getLsbD_of_ge _ _ (by omega)] at hn
    cases hn
  have six := small ⟨n, lt⟩ hn
  unfold Profile.unverified Profile.disagreeing
  have flip : (0x40 : Byte).getLsbD n = false := by
    have : ∀ m : Fin 8, m.val < 6 → (0x40 : Byte).getLsbD m = false := by decide
    exact this ⟨n, lt⟩ six
  split
  · simp [Profile.loosen, hn]
  · dsimp only
    split
    · simp [Profile.withCount, Profile.loosen, hn]
    · simp only [Profile.withCount, Profile.loosen, BitVec.getLsbD_xor, BitVec.getLsbD_or, hn, flip]
      rfl

end Sys2Proof.Machine
end

