-- ==== Sys2Proof/Laws/Wait.lean ====
section
/-! SUPPORT. What the end of an access does with the events and accesses that waited (`endAccess_endsTo`), and what
proceeding with the request in service does (`goesOn_proceed`). -/

namespace Sys2Proof.Machine

/-- Asking for an access changes the arbiter alone. -/
theorem request_asked (s : State) (a : Access) : s.request a = { s with arbiter := s.arbiter.asked a } := by
  unfold State.request Arbiter.asked; split <;> rfl

/-! ### Events taken at the end of an access -/

/-- Each edit unit agrees with itself. -/
theorem agrees_refl (e : EditUnit) : e.Agrees e := fun _ => rfl

/-- `perform` leaves what it does not concern. -/
theorem perform_rest (s : State) (r : TableRequest) :
    (s.perform r).1.arbiter = s.arbiter ∧ (s.perform r).1.edit = s.edit ∧
      (s.perform r).1.port.chipSelect = s.port.chipSelect := by
  have same : (s.perform r).1 = (s.perform r).1.dress _ := congrArg Prod.fst (dress_perform s
    s.own (agrees_refl s.edit) r)
  exact ⟨(congrArg State.arbiter same :), (congrArg State.edit same :), congrArg (·.port.chipSelect) same⟩

/-- What waits has no part in the judgement of a request. -/
theorem takeRequest_arbiter_irrelevant (s : State) (x : Arbiter) :
    ({ s with arbiter := x } : State).takeRequest = { s.takeRequest with arbiter := x } := by
  unfold State.takeRequest
  show (match s.port.service with | _ => _) = _
  rcases hv : s.port.service with _ | v
  · rfl
  · dsimp only
    cases hr : v.request with
    | table r =>
      have e := dress_perform s
        { s.own with arbiter := x } (agrees_refl s.edit) r
      have e' : ({ s with arbiter := x } : State).perform r =
          ({ (s.perform r).1 with arbiter := x }, (s.perform r).2) := by
        refine e.trans ?_
        obtain ⟨-, h2, h3⟩ := perform_rest s r
        have h4 := perform_service s r
        unfold State.dress State.own
        dsimp only
        rw [← h2, ← h3, ← h4]
      dsimp only
      rw [e']
      show State.finish { (s.perform r).1 with arbiter := x } _ = _
      unfold State.finish
      show (match (s.perform r).1.port.service with | _ => _) = _
      rcases (s.perform r).1.port.service with _ | _ <;> rfl
    | lookupRecord _ | queryGroup _ _ | writeField _ _ _ | commit _ | commitGroup => rfl

/-- What taking an event does, whatever waits: it requests a computation at most. -/
theorem takeEvent_requests (s : State) (e : TableEvent) :
    ∃ (t : State) (asked : List Access), (∀ b ∈ asked, b.rank = 0) ∧
      ∀ x : Arbiter, ({ s with arbiter := x } : State).takeEvent e =
        { t with arbiter := asked.foldl Arbiter.asked x } := by
  cases e with
  | request => exact ⟨s.takeRequest, [], nofun, takeRequest_arbiter_irrelevant s⟩
  | captureSet set =>
    refine ⟨s.stepsOf set, [.computation set.number], by simp [Access.rank], fun x => ?_⟩
    show State.takeCaptureSet { s with arbiter := x } set = _
    rw [takeCaptureSet_eq, of_dress (f := fun s => s.stepsOf set) (fun s d => dress_captureSteps s d set) s x]
    unfold State.request
    simp only [List.foldl_cons, List.foldl_nil, Arbiter.asked]
    split <;> rfl
  | driveStatus => exact ⟨s.takeDriveStatus, [], nofun, fun x => of_dress dress_takeDriveStatus s x⟩
  | stopAsserted => exact ⟨s.takeStop, [], nofun, fun x => of_dress dress_takeStop s x⟩
  | stopDeasserted => exact ⟨s.takeStopRelease, [], nofun, fun x => rfl⟩

/-- Events taken in turn request computations at most, whatever waits. -/
theorem takeEvents_request (events : List TableEvent) (s : State) :
    ∃ (t : State) (asked : List Access), (∀ b ∈ asked, b.rank = 0) ∧
      ∀ x : Arbiter, events.foldl State.takeEvent { s with arbiter := x } =
        { t with arbiter := asked.foldl Arbiter.asked x } := by
  induction events generalizing s with
  | nil => exact ⟨s, [], nofun, fun x => rfl⟩
  | cons e events ih =>
    obtain ⟨t, l, hl, h⟩ := takeEvent_requests s e
    obtain ⟨u, m, hm, g⟩ := ih t
    refine ⟨u, l ++ m, fun b hb => (List.mem_append.mp hb).elim (hl b) (hm b), fun x => ?_⟩
    rw [List.foldl_cons, h, g, List.foldl_append]

/-- Accesses asked of a table in use wait in the order asked. -/
theorem asked_busy (l : List Access) (a : Access) (ws : List Access) (ds : List TableEvent) :
    l.foldl Arbiter.asked { inService := some a, waiting := ws, deferred := ds } =
      { inService := some a, waiting := ws ++ l, deferred := ds } := by
  induction l generalizing ws with
  | nil => simp
  | cons b l ih =>
    rw [List.foldl_cons]
    have : Arbiter.asked { inService := some a, waiting := ws, deferred := ds } b =
        { inService := some a, waiting := ws ++ [b], deferred := ds } := by simp [Arbiter.asked]
    rw [this, ih, List.append_assoc]; rfl

/-- Of accesses asked of a free table the first is served and the others wait. -/
theorem asked_free (l : List Access) :
    l.foldl Arbiter.asked { inService := none, waiting := [], deferred := [] } =
      { inService := l.head?, waiting := l.tail, deferred := [] } := by
  cases l with
  | nil => rfl
  | cons b l => rw [List.foldl_cons]; exact asked_busy l b [] []

/-- The access served next is the first of those with the lowest rank. -/
theorem nextAccess_of_split (next : Access) (before after : List Access) (hb : ∀ b ∈ before, next.rank < b.rank)
    (ha : ∀ b ∈ after, next.rank ≤ b.rank) : nextAccess (before ++ next :: after) = some next := by
  have lower : ∀ k < next.rank, (before ++ next :: after).find? (fun a => a.rank == k) = none := by
    intro k hk
    rw [List.find?_eq_none]
    intro b hm
    have : next.rank ≤ b.rank := by
      rcases List.mem_append.mp hm with h | h
      · exact (hb b h).le
      · rcases List.mem_cons.mp h with rfl | h
        · exact le_rfl
        · exact ha b h
    simp; omega
  have at_ : (before ++ next :: after).find? (fun a => a.rank == next.rank) = some next := by
    rw [List.find?_append, List.find?_eq_none.mpr]
    · simp
    · intro b h; have := hb b h; simp; omega
  unfold nextAccess
  have h6 := rank_lt next
  generalize next.rank = n at *
  rw [show List.range 6 = [0,1,2,3,4,5] from rfl]
  interval_cases n <;> simp [List.findSome?, at_, lower]

/-- What waits when the access served next is taken out. -/
theorem erase_of_split (next : Access) (before after : List Access) (hb : ∀ b ∈ before, next.rank < b.rank) :
    (before ++ next :: after).erase next = before ++ after := by
  rw [List.erase_append_right _ fun h => absurd (hb next h) (lt_irrefl _)]
  simp

/-- Nothing waits, nothing is served next. -/
theorem nextAccess_nil : nextAccess [] = none := by decide

/-- The end of an access: the events that waited, in their order, then the next access (R38). -/
theorem endAccess_endsTo (s : State) (a : Access) (waiting : List Access) (events : List TableEvent)
    (hs : s.arbiter = { inService := some a, waiting := waiting, deferred := events }) :
    State.EndsTo { s with arbiter := { inService := none, waiting := [], deferred := [] } } s.endAccess events
      waiting := by
  obtain ⟨t, l, hl, h⟩ := takeEvents_request events s
  have busy : s.endAccess =
      State.serveNext { t with arbiter := { inService := some a, waiting := waiting ++ l, deferred := [] } } := by
    unfold State.endAccess
    rw [hs]
    dsimp only
    rw [h, asked_busy]
  have free := h { inService := none, waiting := [], deferred := [] }
  rw [asked_free] at free
  have served : ∀ next before after, waiting ++ l = before ++ next :: after → (∀ b ∈ before, next.rank < b.rank) →
      (∀ b ∈ after, next.rank ≤ b.rank) →
      s.endAccess = { t with arbiter := { inService := some next, waiting := before ++ after, deferred := [] } } := by
    intro next before after hw hb ha
    rw [busy]
    unfold State.serveNext
    dsimp only
    rw [hw, nextAccess_of_split next before after hb ha]
    dsimp only
    rw [erase_of_split next before after hb]
  unfold State.EndsTo
  dsimp only
  rw [free]
  constructor
  · rintro rfl
    cases l with
    | nil =>
      rw [busy]
      unfold State.serveNext
      simp [nextAccess_nil]
    | cons c l =>
      rw [served c [] l rfl nofun fun b hb => by rw [hl c (by simp), hl b (by simp [hb])]]
      rfl
  · intro next before after hw hb ha
    apply served next before after _ hb ha
    rw [← hw]
    cases l <;> rfl

/-! ### Accesses -/

/-- An access with nothing waiting leaves the table free, and with events and accesses waiting what `EndsTo` says. -/
theorem ends_of_quiet (y : State) (a : Access) (waiting : List Access) (events : List TableEvent)
    (hy : y.arbiter = { inService := some a, waiting := waiting, deferred := events }) :
    State.endAccess { y with arbiter := { inService := some a, waiting := [], deferred := [] } } =
      { y with arbiter := { inService := none, waiting := [], deferred := [] } } ∧
    State.EndsTo { y with arbiter := { inService := none, waiting := [], deferred := [] } } y.endAccess events
      waiting :=
  ⟨endAccess_of_quiet _ rfl rfl, endAccess_endsTo y a waiting events hy⟩

/-- `finish` leaves the arbiter alone and does not read it; so the operations at the snapshot and the edit below. -/
theorem finish_arb (s : State) (x : Arbiter) (r : Answer) :
    ({ s with arbiter := x } : State).finish r = { s.finish r with arbiter := x } := by
  unfold State.finish
  dsimp only
  rcases s.port.service with _ | _ <;> rfl

/-- A Lookup Record at its snapshot. -/
theorem takeLookup_arb (s : State) (x : Arbiter) (name : RecordName) :
    ({ s with arbiter := x } : State).takeLookup name = { s.takeLookup name with arbiter := x } := by
  unfold State.takeLookup
  rw [show ({ s with arbiter := x } : State).resolve name = s.resolve name from rfl]
  rcases s.resolve name with _ | ⟨i, r⟩
  · exact finish_arb s x _
  · exact finish_arb (s.copyRecord i r) x (s.lookupAnswer i r)

/-- A snapshot of the port. -/
theorem takePortSnapshot_arb (s : State) (x : Arbiter) :
    ({ s with arbiter := x } : State).takePortSnapshot = { s.takePortSnapshot with arbiter := x } := by
  unfold State.takePortSnapshot
  rcases hv : s.port.service with _ | v
  · rfl
  · dsimp only
    cases v.request with
    | lookupRecord name => exact takeLookup_arb s x name
    | queryGroup tag mask =>
      dsimp only
      unfold State.finish
      simp only [hv]; rfl
    | _ => rfl

/-- A snapshot marked changed by an edit. -/
theorem noteApplied_arb (s : State) (x : Arbiter) (b : EditBuffer) :
    ({ s with arbiter := x } : State).noteApplied b = { s.noteApplied b with arbiter := x } := by
  unfold State.noteApplied
  rcases b.target with _ | ⟨i, base⟩
  · rfl
  · exact of_dress (f := fun s => s.recordChanged i) (fun s d => dress_recordChanged s d i) s x

/-- A snapshot marked changed by the edits of a group. -/
theorem notes_arb (l : List (BufferNo × EditBuffer)) (s : State) (x : Arbiter) :
    l.foldl (fun t p => t.noteApplied p.2) { s with arbiter := x } =
      { l.foldl (fun t p => t.noteApplied p.2) s with arbiter := x } := by
  induction l generalizing s with
  | nil => rfl
  | cons p l ih => rw [List.foldl_cons, noteApplied_arb, ih, List.foldl_cons]

/-- The application of a group. -/
theorem applyGroup_arb (s : State) (x : Arbiter) :
    ({ s with arbiter := x } : State).applyGroup = ({ s.applyGroup.1 with arbiter := x }, s.applyGroup.2) := by
  unfold State.applyGroup
  rcases h : judgeGroup s.edit.openBuffers s.slots with ⟨reason, tag⟩ | slots
  · rfl
  · dsimp only
    rw [notes_arb]
    generalize s.edit.openBuffers.foldl (fun t p => t.noteApplied p.2) s = noted
    rfl

/-- The end of the application of a group. -/
theorem endGroupService_arb (s : State) (x : Arbiter) (o : EditOutcome) (r : Answer) :
    ({ s with arbiter := x } : State).endGroupService o r = { s.endGroupService o r with arbiter := x } := by
  unfold State.endGroupService State.gatherEdit State.finish
  dsimp only
  rcases s.port.service with _ | _ <;> rfl

/-- The application of one edit. -/
theorem applyEdit_arb (s : State) (x : Arbiter) (k : BufferNo) (b : EditBuffer) :
    ({ s with arbiter := x } : State).applyEdit k b =
      ({ (s.applyEdit k b).1 with arbiter := x }, (s.applyEdit k b).2) := by
  unfold State.applyEdit
  dsimp only
  rcases b.rejection s.slots with _ | reason
  · exact congrArg (·, _) (noteApplied_arb ({ s with slots := b.applied s.slots }.setBuffer k none) x b)
  · rfl

/-- The application of an edit reads nothing of the request in service. -/
theorem applyEdit_service (s : State) (v : Option Service) (k : BufferNo) (b : EditBuffer) :
    ({ s with port := { s.port with service := v } } : State).applyEdit k b =
      ({ (s.applyEdit k b).1 with port := { (s.applyEdit k b).1.port with service := v } }, (s.applyEdit k b).2) := by
  unfold State.applyEdit
  dsimp only
  rcases b.rejection s.slots with _ | reason
  · exact congrArg (·, _) (of_dress_service (f := fun s => s.noteApplied b) (fun s d => dress_noteApplied s d b)
      ({ s with slots := b.applied s.slots }.setBuffer k none) v)
  · rfl

/-- The mark of a changed snapshot leaves the reply place. -/
theorem noteApplied_reply (s : State) (b : EditBuffer) : (s.noteApplied b).port.reply = s.port.reply := by
  unfold State.noteApplied
  rcases b.target with _ | ⟨i, base⟩
  · rfl
  · dsimp only
    unfold State.recordChanged
    split
    · split <;> rfl
    · rfl
    · rfl

/-- The outcome of the application of one edit. -/
theorem applyEdit_outcome (s : State) (k : BufferNo) (b : EditBuffer) :
    (s.applyEdit k b).2 = match b.rejection s.slots with
      | some reason => .rejected reason
      | none => .applied := by
  unfold State.applyEdit
  rcases b.rejection s.slots with _ | _ <;> rfl

/-- It leaves the service and the reply place. -/
theorem applyEdit_port (s : State) (k : BufferNo) (b : EditBuffer) :
    (s.applyEdit k b).1.port.service = s.port.service ∧ (s.applyEdit k b).1.port.reply = s.port.reply ∧
      (s.applyEdit k b).1.arbiter = s.arbiter := by
  unfold State.applyEdit
  rcases b.rejection s.slots with _ | _
  · have h := rest_of_dress (f := fun s => s.noteApplied b) (fun s d => dress_noteApplied s d b)
      ({ s with slots := b.applied s.slots }.setBuffer k none)
    exact ⟨h.2.2.2, noteApplied_reply _ _, h.1⟩
  · exact ⟨rfl, rfl, rfl⟩

/-- No event but the judgement of the request changes the request in service. -/
theorem takeEvent_keeps_service (s : State) (e : TableEvent) (h : e ≠ .request) :
    (s.takeEvent e).port.service = s.port.service := by
  cases e with
  | request => exact absurd rfl h
  | captureSet set =>
    have e : s.takeEvent (.captureSet set) = (s.stepsOf set).request (.computation set.number) := rfl
    have g := stepsOf_service s set
    rw [e, request_asked]
    generalize s.stepsOf set = t at g
    exact g
  | driveStatus => exact (rest_of_dress dress_takeDriveStatus s).2.2.2
  | stopAsserted => exact (rest_of_dress dress_takeStop s).2.2.2
  | stopDeasserted => rfl

/-- Nor do events taken in turn. -/
theorem takeEvents_keep_service (l : List TableEvent) (s : State) (h : .request ∉ l) :
    (l.foldl State.takeEvent s).port.service = s.port.service := by
  induction l generalizing s with
  | nil => rfl
  | cons e l ih =>
    rw [List.foldl_cons, ih _ fun m => h (List.mem_cons_of_mem _ m),
      takeEvent_keeps_service _ _ fun m => h (m ▸ List.mem_cons_self)]

/-- Nor does the end of an access behind which no request waits. -/
theorem endAccess_service (s : State) (h : .request ∉ s.arbiter.deferred) :
    s.endAccess.port.service = s.port.service := by
  unfold State.endAccess State.serveNext
  dsimp only
  split
  · exact takeEvents_keep_service _ _ h
  · exact takeEvents_keep_service _ _ h

/-! ### A request that waited or goes on -/

/-- The request in service is judged as it would be with another edit outcome, another level of chip select
and another edit unit that holds the same edits open. -/
theorem takeRequest_asServed (u : State) (v : Service) (r : TableRequest) (e : EditUnit) (c : ChipSelect)
    (x : Arbiter) (hv : u.port.service = some v) (hr : v.request = .table r) (he : e.Agrees u.edit)
    (hx : x = u.arbiter) :
    u.takeRequest = ((u.dress
      { arbiter := x, edit := e, chipSelect := c
        service := some (judging v.code v.seq r .untouched) }).takeRequest).asServed u v.edit := by
  subst hx
  rw [takeRequest_judging u v r hv hr, takeRequest_judging (u.dress _) (judging v.code v.seq r .untouched) r rfl rfl,
    dress_perform u _ he]
  obtain ⟨h1, h2, h3⟩ := perform_rest u r
  generalize (u.perform r).1 = t at h1 h2 h3
  simp only [State.asServed, State.replyWith, State.dress, judging, Option.map_none, if_true, ← h1, ← h2, ← h3]

/-- The buffers a request closes, or its refusal. -/
def State.closes (s : State) : PortRequest → Except ResultCode (List BufferNo)
  | .lookupRecord name | .table (.form name) | .table (.release name) | .table (.retire name)
  | .table (.offsetTest name _) | .table (.checkTest name) => s.closedBy name
  | .queryGroup tag mask | .table (.releaseGroup tag mask) => .ok (s.closedByGroup tag mask)
  | _ => .ok []

/-- A request heard with nothing to wait for begins, or is refused. -/
theorem exec_asks (i : Instr) (code seq : Byte) (q : PortRequest) (x : State) (h : x.Listening)
    (hl : x.store.op.isLoading = false) (hh : i.requestHead = some (code, seq)) (ha : i.asksFor = some q) :
    (∀ l, x.closes q = .ok l → exec i x = .next (x.raised.begin code seq q l)) ∧
    ∀ refusal, x.closes q = .error refusal → exec i x = .next (x.replied (Reply.plain code seq refusal)) := by
  have ready : ∀ code seq b f, x.raised.dispatch code seq b f = f x.raised := by
    intro code seq b f
    exact dispatch_of_ready x.raised _ _ _ _ h.2 (by show (b && x.store.op.isLoading) = false; simp [hl])
  have named : ∀ code seq b name q,
      (∀ l, x.closedBy name = .ok l → x.askNamed code seq b name q = x.raised.begin code seq q l) ∧
      ∀ refusal, x.closedBy name = .error refusal →
        x.askNamed code seq b name q = x.replied (Reply.plain code seq refusal) := by
    intro code seq b name q
    have e : x.askNamed code seq b name q = x.raised.beginNamed code seq name q := by
      rw [State.askNamed, frameRise_of_open _ _ h.1, ready]
    have c : x.raised.closedBy name = x.closedBy name := rfl
    constructor
    · intro l hl
      rw [e, State.beginNamed, c, hl]
    · intro l hl
      rw [e, State.beginNamed, c, hl]
      rfl
  have table : ∀ code seq b r, x.askTable code seq b r = x.raised.begin code seq (.table r) [] := by
    intro code seq b r
    rw [State.askTable, frameRise_of_open _ _ h.1, ready]
  cases i <;> simp only [Instr.asksFor, Option.some.injEq, reduceCtorEq] at ha <;> subst ha <;>
    simp only [Instr.requestHead, Option.some.injEq, Prod.mk.injEq] at hh <;> obtain ⟨rfl, rfl⟩ := hh
  case lookupRecord | form | release | retire | offsetTest | checkTest =>
    exact ⟨fun l hl => congrArg _ ((named _ _ _ _ _).1 l hl), fun l hl => congrArg _ ((named _ _ _ _ _).2 l hl)⟩
  case setEngine => exact ⟨fun l hl => by cases hl; exact congrArg _ (table _ _ _ _), nofun⟩
  case writeChannel => exact ⟨fun l hl => by cases hl; exact congrArg _ (table _ _ _ _), nofun⟩
  case lookupChannel => exact ⟨fun l hl => by cases hl; exact congrArg _ (table _ _ _ _), nofun⟩
  case queryGroup =>
    refine ⟨fun l hl => ?_, nofun⟩
    cases hl
    show Host.Outcome.next (x.frameRise _ _) = _
    rw [frameRise_of_open _ _ h.1, ready]; rfl
  case releaseGroup =>
    refine ⟨fun l hl => ?_, nofun⟩
    cases hl
    show Host.Outcome.next (x.frameRise _ _) = _
    rw [frameRise_of_open _ _ h.1, ready]; rfl

/-- With no edit open no record has one. -/
theorem bufferFor_empty (e : EditUnit) (h : e.buffers = Vector.replicate 4 none) (tag : Half) :
    e.bufferFor tag = none := by
  unfold EditUnit.bufferFor
  rw [h]; simp

/-- With no edit open no group has one. -/
theorem matching_empty (e : EditUnit) (h : e.buffers = Vector.replicate 4 none) (tag mask : Half) :
    e.matching tag mask = [] := by
  unfold EditUnit.matching EditUnit.openBuffers
  rw [h]; simp

/-- In group mode, or with no edit open, a named request closes none: it is refused only for its slot. -/
theorem closedBy_quiet (x : State) (h : x.edit.groupMode = true ∨ x.edit.buffers = Vector.replicate 4 none)
    (name : RecordName) :
    x.closedBy name = .ok [] ∨ ∃ index refusal, name = .bySlot index ∧ x.edit.groupMode = false ∧
      x.closedBy name = .error refusal ∧ x.resolve (.bySlot index) = .error refusal := by
  unfold State.closedBy
  rcases h with h | h
  · simp [h]
  · by_cases hg : x.edit.groupMode = true
    · simp [hg]
    · simp only [hg, bufferFor_empty _ h]
      rcases name with tag | index
      · exact .inl rfl
      · dsimp only
        rcases hr : x.resolve (.bySlot index) with refusal | found
        · exact .inr ⟨index, refusal, rfl, trivial, rfl, hr⟩
        · exact .inl rfl

/-- Nor does a request naming a group. -/
theorem closedByGroup_quiet (x : State) (h : x.edit.groupMode = true ∨ x.edit.buffers = Vector.replicate 4 none)
    (tag mask : Half) :
    x.closedByGroup tag mask = [] := by
  unfold State.closedByGroup
  rcases h with h | h
  · simp [h]
  · simp [matching_empty _ h]

/-- So for any request. -/
theorem closes_quiet (x : State) (h : x.edit.groupMode = true ∨ x.edit.buffers = Vector.replicate 4 none)
    (q : PortRequest) :
    x.closes q = .ok [] ∨ ∃ index refusal, q.slotNamed = some index ∧ x.edit.groupMode = false ∧
      x.closes q = .error refusal ∧ x.resolve (.bySlot index) = .error refusal := by
  have named := closedBy_quiet x h
  have group : ∀ tag mask, (.ok (x.closedByGroup tag mask) : Except ResultCode (List BufferNo)) = .ok [] :=
    fun t m => by rw [closedByGroup_quiet x h]
  cases q with
  | lookupRecord name =>
    rcases named name with a | ⟨i, f, rfl, g, b, c⟩
    · exact .inl a
    · exact .inr ⟨i, f, rfl, g, b, c⟩
  | queryGroup t m => exact .inl (group t m)
  | table r =>
    cases r with
    | form name | release name | retire name | checkTest name | offsetTest name _ =>
      rcases named name with a | ⟨i, f, rfl, g, b, c⟩
      · exact .inl a
      · exact .inr ⟨i, f, rfl, g, b, c⟩
    | releaseGroup t m => exact .inl (group t m)
    | setEngine _ _ _ | writeChannel _ _ _ | lookupChannel _ => exact .inl rfl
  | writeField _ _ _ | commit _ | commitGroup => exact .inl rfl

/-- A request whose slot does not resolve is refused and changes nothing. -/
theorem perform_unresolved (s : State) (r : TableRequest) (index : Byte) (refusal : ResultCode)
    (h : PortRequest.slotNamed (.table r) = some index) (hr : s.resolve (.bySlot index) = .error refusal) :
    s.perform r = (s, { result := refusal }) := by
  cases r with
  | form name | release name | retire name | checkTest name | offsetTest name _ =>
    rcases name with tag | j
    · cases h
    · cases h
      simp only [State.perform, State.form, State.release, State.retire, State.checkTest, State.offsetTest, hr]
  | releaseGroup _ _ | setEngine _ _ _ | writeChannel _ _ _ | lookupChannel _ => cases h

/-- The first number with a property. -/
theorem find_finRange {n} {p : Fin n → Bool} (k : Fin n) (hk : p k = true)
    (h : ∀ j < k, p j = false) :
    (List.finRange n).find? p = some k := by
  rw [List.find?_eq_some_iff_append]
  refine ⟨hk, (List.finRange n).take k, (List.finRange n).drop (k+1), ?_, ?_⟩
  · have : (List.finRange n)[k.val]'(by simp) = k := by simp
    conv_lhs => rw [← List.take_append_drop k (List.finRange n)]
    congr 1
    rw [List.drop_eq_getElem_cons (by simp)]
    simp
  · intro a ha
    rw [List.mem_iff_getElem] at ha
    obtain ⟨i, hi, rfl⟩ := ha
    simp only [List.length_take, List.length_finRange] at hi
    have : ((List.finRange n).take k)[i] < k := by
      simp [List.getElem_take, Fin.lt_def]; omega
    have h3 := h _ this
    simp only [List.getElem_take] at h3 ⊢
    simpa using h3

/-- What proceeding with the request in service does: all that `State.GoesOn` says. -/
theorem goesOn_proceed (u : State) (v : Service) (hv : u.port.service = some v) : u.GoesOn u.proceed v := by
  constructor
  · intro k rest hp
    unfold State.proceed
    rw [hv]; dsimp only; rw [hp]; dsimp only
    rw [request_asked]
    simp only [State.setPhase, hv, Option.map_some]
  intro hp
  have goes : u.proceed = u.serve v := by
    unfold State.proceed
    rw [hv]; dsimp only; rw [hp]
  rw [goes]
  refine ⟨?_, ?_, ?_⟩
  · intro tag hr
    unfold State.serve State.finish
    rw [hr]; dsimp only; rw [hv]; dsimp only
    unfold State.replyWith EditOutcome.commitResult
    rfl
  · intro tag f w k hr hk hj
    have free : u.edit.freeBuffer = some k := by
      unfold EditUnit.freeBuffer
      rw [find_finRange k (by simp [hk]) fun j h => by
        have := hj j h
        revert this
        cases u.edit.buffers[j] <;> simp]
    unfold State.serve
    rw [hr]; dsimp only
    unfold State.reopen
    rw [free]; dsimp only
    unfold State.openBuffer
    rcases hf : u.findTag tag with _ | i
    · refine ⟨.new, by simp, fun _ => rfl, ?_⟩
      unfold State.finish
      simp only [State.setBuffer, hv, State.replyWith]
    · dsimp only
      rcases hs : u.slots[i] with _ | r
      · refine ⟨.new, ?_, by simp, ?_⟩
        · intro j q hj' hq; cases hj'; rw [hs] at hq; cases hq
        · unfold State.finish
          simp only [State.setBuffer, hv, State.replyWith]
      · refine ⟨.existing i r.cfg, ?_, by simp, ?_⟩
        · intro j q hj' hq; cases hj'; rw [hs] at hq; cases hq; rfl
        · unfold State.finish
          simp only [State.setBuffer, hv, State.replyWith]
  · intro hu hl hg hn i w hh ha hw
    obtain ⟨ok, error⟩ := exec_asks i v.code v.seq v.request u.asIfAsked ⟨⟨rfl, rfl⟩, hu⟩ hl hh ha
    have agrees : ({ u.edit with buffers := Vector.replicate 4 none } : EditUnit).Agrees u.edit :=
      fun tag => by simp [hg]
    rcases closes_quiet u.asIfAsked (.inr rfl) v.request with hc | ⟨index, refusal, hs, -, hc, hres⟩
    · have := (ok _ hc).symm.trans hw
      injection this with this
      subst this
      cases hq : v.request with
      | writeField _ _ _ | commit _ | commitGroup => rw [hq] at ha; cases i <;> simp [Instr.asksFor] at ha
      | queryGroup tag mask =>
        simp only [State.serve, hq, request_asked, State.begin, State.proceed, State.setPhase, hv, Option.map_some,
          State.asServed, State.asIfAsked, State.raised]
        simp
      | lookupRecord name =>
        have res : ∀ v', State.resolve
            { u.asIfAsked.raised with port := { u.asIfAsked.raised.port with service := some v' } } name =
              u.resolve name := fun _ => rfl
        unfold State.begin State.proceed State.serve
        simp only [hq, res]
        rcases u.resolve name with refusal | found
        · simp only [State.finish, hv, State.replyWith, State.asServed, State.asIfAsked, State.raised]
          simp
        · simp only [request_asked, State.setPhase, hv, Option.map_some, State.asServed, State.asIfAsked, State.raised]
          simp
          exact hq
      | table r =>
        have s1 : u.serve v = (u.setPhase .judging).raise .request := by unfold State.serve; rw [hq]
        set worn : Dress :=
          { arbiter := u.arbiter
            edit := { u.edit with buffers := Vector.replicate 4 none }
            chipSelect := .high
            service := some (judging v.code v.seq r .untouched) } with hworn
        have s2 : u.asIfAsked.raised.begin v.code v.seq (.table r) [] =
            (u.dress worn).raise .request := rfl
        rw [s1, s2]
        have wait : (u.setPhase .judging).mustWait .request =
            (u.dress worn).mustWait .request := by
          simp only [State.mustWait, State.behindCaptureSet, State.atChannelsOnly, State.requestAtChannels,
            State.setPhase, hv, Option.map_some, hq, dress_service, judging, State.channelsHeld, dress_arbiter, hworn]
        unfold State.raise
        rw [wait]
        split
        · simp only [State.defer, State.setPhase, hv, Option.map_some, State.asServed, State.dress, judging,
            ← hq, hworn]
          simp
        · exact takeRequest_asServed (u.setPhase .judging) { v with phase := .judging } r worn.edit .high u.arbiter
            (by simp [State.setPhase, hv]) hq agrees rfl
    · have := (error _ hc).symm.trans hw
      injection this with this
      subst this
      have hres' : u.resolve (.bySlot index) = .error refusal := hres
      have idle : u.arbiter.inService = none := by
        rcases hn with h | h
        · exact h
        · obtain ⟨found, h⟩ := h index hs; rw [hres'] at h; cases h
      cases hq : v.request with
      | writeField _ _ _ | commit _ | commitGroup | queryGroup _ _ => rw [hq] at hs; cases hs
      | lookupRecord name =>
        rw [hq] at hs
        rcases name with _ | j
        · cases hs
        · cases hs
          simp only [State.serve, hq, hres', State.finish, hv, State.replyWith, State.asServed, State.replied,
            Reply.plain, State.asIfAsked]
          simp
      | table r =>
        rw [hq] at hs
        have s1 : u.serve v = (u.setPhase .judging).raise .request := by unfold State.serve; rw [hq]
        have now : (u.setPhase .judging).mustWait .request = false := by
          show (_ || (if _ then u.channelsHeld else u.arbiter.inService.isSome)) = false
          simp [State.behindCaptureSet, State.channelsHeld, idle]
        rw [s1, State.raise, now]
        show (u.setPhase .judging).takeRequest = _
        rw [takeRequest_judging (u.setPhase .judging) { v with phase := .judging } r
            (by simp [State.setPhase, hv]) hq,
          perform_unresolved (u.setPhase .judging) r index refusal hs hres']
        simp only [State.setPhase, hv, State.replyWith, State.asServed, State.replied, Reply.plain, State.asIfAsked]
        simp

end Sys2Proof.Machine
end

