-- ==== Sys2Proof/Tests/Slice0.lean ====
section
/-! SUPPORT. Tests: ill-formed commands, known values of the handbook, and for every statement with hypotheses a state
and operands that meet them. -/

namespace Sys2Proof.Tests

set_option Elab.async false
set_option maxRecDepth 8000

open Sys2Proof.Machine

/-! ### States to test on -/

/-- The part in normal operation, with a heard frame in progress. -/
def ready : State :=
  { State.reset with
    startup := .ready
    captureTimer := .running .p500
    checker := { State.reset.checker with timerRunning := true }
    port := { State.reset.port with chipSelect := .low false } }

/-- A running channel with the reset configuration. -/
def running : Channel := { Channel.initial ChannelConfig.reset .running with seedPending := false }

/-- A configuration that couples channel 1 to channel 0. -/
def pair : RecordConfig := { RecordConfig.defaults 0x1234 with leader := 0, follower := 1 }

/-- A record of that pair in a state. -/
def record (state : RecordState) : Record := { Record.fresh pair with state := state }

/-- Normal operation with channels 0 and 1 running, coupled or not, and the record in slot 3. -/
def holding (coupled : Bool) (r : Record) : State :=
  { ready with
    channels := (State.reset.channels.set 0 { running with coupled := coupled }).set 1
      { running with coupled := coupled }
    slots := State.reset.slots.set 3 (some r) }

/-- The part with an access in service. -/
def inAccess (a : Access) (s : State) : State :=
  { s with arbiter := { inService := some a, waiting := [], deferred := [] } }

/-- The part with a store operation under way. -/
def inStore (op : StoreOp) (s : State) : State := { s with store := { s.store with op := op } }

/-- The part with an edit buffer open. -/
def editing (k : BufferNo) (b : EditBuffer) (s : State) : State :=
  { s with edit := { s.edit with buffers := s.edit.buffers.set k (some b) } }

/-- The part with a request in service. -/
def inService (v : Service) (s : State) : State := { s with port := { s.port with service := some v } }

/-- A round with one exchange in a phase, for channel 0, and channel 1 to come. -/
def round (phase : ExchangePhase) (remaining : List ChannelNo) : Round where
  earlier := []
  message := { channel := 0, capture := 5, torque := 0, coupled := true }
  phase := phase
  remaining := remaining

/-- The part with that round in progress. -/
def inRound (phase : ExchangePhase) (remaining : List ChannelNo) (s : State) : State :=
  { s with link := { s.link with round := some (round phase remaining) } }

/-- Group mode. -/
def grouped (s : State) : State := { s with edit := { s.edit with groupMode := true } }

/-- What a test asks of every record is asked of each slot. -/
theorem every_record {s : State} {p : Record → Bool} (h : ∀ i : SlotNo, s.slots[i].all p = true) (i : SlotNo)
    (r : Record) (hr : s.slots[i] = some r) : p r = true := by
  have := h i
  rw [hr] at this
  exact this

/-- Where no record is active no channel follows another. -/
theorem none_follows {s : State} (h : ∀ i : SlotNo, (s.slots[i].all fun r => !r.state.isActive) = true)
    (c l : ChannelNo) : ¬ s.Follows c l := by
  rintro ⟨i, r, hr, active, -⟩
  have := every_record h i r hr
  rw [active] at this
  cases this

/-- Where no channel follows another the active couplings form a forest. -/
theorem forest_of_none {s : State} (h : ∀ i : SlotNo, (s.slots[i].all fun r => !r.state.isActive) = true) :
    s.Forest := by
  refine ⟨fun i j r q hr _ active _ _ => ?_, fun c chain => ?_⟩
  · have := every_record h i r hr
    rw [active] at this
    cases this
  · cases chain with
    | single one => exact none_follows h _ _ one
    | tail _ one => exact none_follows h _ _ one

/-! ### Ill-formed commands -/

theorem test_noOp_with_code_of_another_request : (Instr.noOp 0x02 7).wellFormed = false := by decide

theorem test_discarded_frame_of_twenty_bytes : (Instr.frameDiscarded 20 false).wellFormed = false := by decide

/-! ### Values of the handbook -/

/-- The check value of CRC-16/CCITT-FALSE. -/
theorem test_crc16_of_123456789 :
    crc16 [0x31, 0x32, 0x33, 0x34, 0x35, 0x36, 0x37, 0x38, 0x39] = 0x29B1 := by decide +kernel

theorem test_travel_per_count_at_reset : ChannelConfig.reset.travelPerCount = 64000000 := by decide +kernel

/-- A frame of a Form is taken as that Form. -/
theorem test_form_frame :
    decodeFrame (requestFrame 0x20 7 0x1234 0 0 0 0 0) false = .form 7 0x1234 0 := by decide +kernel

/-- The same frame with one bit wrong is rejected. -/
theorem test_form_frame_damaged :
    decodeFrame ((requestFrame 0x20 7 0x1234 0 0 0 0 0).set 3 0x35) false = .frameRejected 0x20 7 := by decide +kernel

/-- The byte 0xA5 on the drive link: a low start bit, the bits from the least significant on, a high stop bit. -/
theorem test_byte_on_the_link :
    byteLevels 0xA5 = [false, true, false, true, false, false, true, false, true, true] := by decide

/-- The levels of a reply are read as its bytes, and as a broken reply with an idle bit where a start bit is due. -/
theorem test_reply_on_the_link :
    replyCommand (messageLevels [0x52, 0x17, 0x01, 0x99]) = .driveStatus 0x52 0x17 0x01 0x99 ∧
      replyCommand (messageLevels [0x52, 0x17] ++ true :: messageLevels [0x01, 0x99]) = .brokenReply := by
  decide +kernel

/-- Bits of a frame come most significant first; five of them are a part byte. -/
theorem test_frame_bits :
    frameBytes [true, false, true, false, false, false, false, true] = ([0xA1], false) ∧
      frameCommand [true, false, true, false, false] = .frameDiscarded 0 true := by decide +kernel

/-- Channel 0 of the worked capture of 3.9. -/
def channel0 : Channel :=
  { running with
    cfg := { ChannelConfig.reset with counts := 16384, circumference := 4712389 }
    travelPerCount := 18849556, latched := 500000 }

/-- The first two captures of 1.9: a good one, then a suspect one that holds the increment and speed. -/
theorem test_worked_captures_of_1_9 :
    let first := channel0.takeCapture .p500 1001 500039 false
    let second := first.entry.takeCapture .p500 1002 500079 true
    channel0.cfg.travelPerCount = 18849556 ∧ first.suspect = false ∧ first.entry.travel = 735132684 ∧
      first.entry.speed = 22434 ∧ second.suspect = true ∧ second.entry.travel = 735132684 ∧
      second.entry.speed = 22434 ∧ second.entry.state = .stale ∧ second.entry.suspectRun = 1 := by decide +kernel

/-- The fourth suspect capture in a row of 1.9. -/
theorem test_fourth_suspect_capture :
    let st := { channel0 with state := .stale, latched := 452076, suspectRun := 3 }.takeCapture .p500 1007 452114 true
    st.entry.state = .lost .capture ∧ st.lost = true ∧ st.entry.goodRun = 0 := by decide +kernel

/-- Record 0x0102 of the worked capture of 3.9. -/
def worked : Record :=
  { Record.fresh
      { RecordConfig.defaults 0x0102 with
        leader := 0, follower := 2, ratio := 1500, stiffness := 800, damping := 16, filterShift := 2, limit := 500
        share := 4, slipWindow := 5000, breakWindow := 50000, slipCount := 8 } with
    state := .held, error := 20000000, rate := 4000000 }

/-- The worked capture of 3.9: update, correction and terms. -/
theorem test_worked_capture_of_3_9 :
    let after := worked.advance .p500 735132684 741194712 true
    let formed := after.record.corrected .p500
    after.record.rate = 4239832 ∧ after.record.error = 24959329 ∧ after.record.run = 0 ∧ after.record.state = .held ∧
      formed.correction = -148 ∧ formed.limited = false ∧ formed.leaderTerm = 37 ∧ formed.followerTerm = -111 ∧
      inMicrometres formed.error = 381 ∧ rateInMmPerS .p500 formed.rate = 129 := by decide +kernel

/-- The second computation of the ramp of 3.10, its limit lowered to 60. -/
theorem test_worked_ramp_of_3_10 :
    let found : Record :=
      { worked with
        cfg := { worked.cfg with ramp := 4, limit := 60 }, state := .releasing { start := -148, step := 1 } }
    let formed := (found.advance .p500 0 0 true).record.corrected .p500
    formed.state = .releasing { start := -148, step := 2 } ∧ formed.correction = -60 ∧ formed.limited = true ∧
      formed.leaderTerm = 15 ∧ formed.followerTerm = -45 := by decide +kernel

/-- An edit of a VACANT slot, which no run makes, stops (assumption 22). -/
theorem test_dangling_edit_stops :
    exec .editApplication
      (inAccess (.edit 0)
        (editing 0 { tag := 5, target := .existing 2 pair, written := Vector.replicate 15 none } ready))
      = .fault (.danglingEdit 2) := rfl

/-! ### States that meet the hypotheses of the statements -/

theorem hyps_StepRunsFrontCommand :
    ∃ (c : Instr) (rest : List Instr) (s t : State), s.pending = c :: rest ∧ t.pending = [] :=
  ⟨.ready, [], { State.reset with pending := [.ready] }, State.reset, rfl, rfl⟩

theorem hyps_ExecKeepsQueue : ∃ (c : Instr) (s t : State), exec c s = .next t := ⟨.ready, ready, _, rfl⟩

/-- A HELD record on two coupled channels, with a command waiting. -/
def held : State := { holding true (record .held) with pending := [.checkStepTimer] }

/-- In `held` channel 1 follows channel 0, and no other follows any. -/
theorem held_follows {c l : ChannelNo} (h : held.Follows c l) : c = 1 ∧ l = 0 := by
  obtain ⟨i, r, hr, -, rfl, rfl⟩ := h
  have := every_record (s := held) (p := fun r => r.cfg.followerNo = 1 ∧ r.cfg.leaderNo = 0) (by decide +kernel) i r hr
  simpa using this

theorem held_forest : held.Forest := by
  refine ⟨fun i j r q hi hj _ _ _ => ?_, fun c chain => ?_⟩
  · have three : ∀ k : SlotNo, held.slots[k].isSome = true → k = 3 := by decide +kernel
    rw [three i (by rw [hi]; rfl), three j (by rw [hj]; rfl)]
  · have ends : ∀ a b : ChannelNo, Relation.TransGen held.Follows a b → a = 1 ∧ b = 0 := by
      intro a b h
      induction h with
      | single h => exact held_follows h
      | tail _ h ih => exact ⟨ih.1, (held_follows h).2⟩
    exact absurd ((ends c c chain).1.symm.trans (ends c c chain).2) (by decide)

/-- A state that has every invariant at once, with a step from it. -/
theorem hyps_of_every_invariant :
    held.LineAgrees ∧ held.PostsAgree ∧ held.ErrorsBounded ∧
      (held.MapBounded ∧ held.EntriesOwned ∧ held.EntriesFollow) ∧
      (held.CoupledAgree ∧ held.ActiveUp ∧ held.StopEmpties) ∧ held.TableQuiet ∧ held.CountsBounded ∧ held.Forest ∧
      ∃ t, step held = .next t := by
  refine ⟨rfl, ?_, ?_, ⟨?_, ?_, ?_⟩, ⟨?_, ?_, ?_⟩, ?_, ?_, held_forest, ⟨_, rfl⟩⟩
  · show ∀ c : ChannelNo, held.channels[c].posted = held.link.slots[c]
    decide +kernel
  · intro i r hr
    simpa using every_record (p := fun r => r.error.natAbs ≤ 65536000000) (by decide +kernel) i r hr
  · show held.entryCount ≤ 8
    decide +kernel
  · show ∀ i : SlotNo, held.completions[i].isSome = true → held.slots[i].isSome = true
    decide +kernel
  · intro i
    have none : held.completions[i] = none := (show ∀ i : SlotNo, held.completions[i] = none by decide +kernel) i
    refine ⟨⟨fun h => ?_, fun ⟨r, hr, forming⟩ => ?_⟩, fun h => ?_⟩
    · cases none.symm.trans h
    · have := every_record (p := fun r => r.state ≠ .forming) (by decide +kernel) i r hr
      simp [forming] at this
    · cases none.symm.trans h
  · show ∀ c : ChannelNo, held.channels[c].coupled = held.coupledNow c
    decide +kernel
  · intro i r hr _
    simpa using every_record (p := fun r => held.channels[r.cfg.leaderNo].state.isUp ∧
      held.channels[r.cfg.followerNo].state.isUp) (by decide +kernel) i r hr
  · intro stopped
    cases stopped
  · exact fun _ => ⟨rfl, rfl⟩
  · show ∀ c : ChannelNo, held.channels[c].suspectRun ≤ 4 ∧ held.channels[c].goodRun ≤ 8 ∧
      held.channels[c].missRun ≤ 15 ∧ held.channels[c].standstillRun ≤ 16 ∧ held.channels[c].speed.natAbs ≤ 100000
    decide +kernel

theorem hyps_RequestFramesDecode :
    ∃ (i : Instr) (frame : List Byte), i.wellFormed = true ∧ encodeFrame i = some frame :=
  ⟨.form 7 0x1234 0, _, rfl, rfl⟩

theorem ready_listens : ready.Listening := ⟨⟨rfl, rfl⟩, rfl⟩

theorem hyps_PortAnswersBeforeDispatch :
    (∃ s : State, (Instr.noOp 0x01 5).requestHead = some (0x01, 5) ∧ 0x01#8 ∈ requestCodes ∧
      (Instr.noOp 0x01 5).wellFormed = true ∧ s.FrameOpen ∧ s.startup ≠ .ready) ∧
    (∃ s : State, (Instr.commit 5 1).requestHead = some (0x11, 5) ∧ 0x11#8 ∈ codesRefusedInLoad ∧
      (Instr.commit 5 1).wellFormed = true ∧ s.Listening ∧ s.store.op.isLoading = true) ∧
    ready.Listening ∧ ready.FrameOpen ∧ 0x77#8 ∉ requestCodes :=
  ⟨⟨{ ready with startup := .settled }, rfl, by decide, rfl, ⟨rfl, rfl⟩, by decide⟩,
    ⟨inStore (.loading 0 true) ready, rfl, by decide, rfl, ⟨⟨rfl, rfl⟩, rfl⟩, rfl⟩, ready_listens, ⟨rfl, rfl⟩,
    by decide⟩

theorem hyps_ResetsReachEveryBlock (op : StoreOp) : ∃ s : State, s.FrameOpen ∧ s.store.op = op :=
  ⟨inStore op ready, ⟨rfl, rfl⟩, rfl⟩

theorem hyps_FaultyFramesReportPortFrame :
    (∃ s : State, s.port.chipSelect = .low true) ∧ (Instr.noOp 0x01 5).endsFrame = true ∧
      (Instr.frameDiscarded 19 true).endsFrame = true ∧ ready.FrameOpen :=
  ⟨⟨{ ready with port := { ready.port with chipSelect := .low true } }, rfl⟩, rfl, rfl, ⟨rfl, rfl⟩⟩

theorem hyps_ChipSelectFallShiftsOutReply :
    (State.reset.port.chipSelect = .high ∧ State.reset.resetHeld = false ∧ State.reset.port.deafFalls = 0 ∧
      State.reset.MapBounded) ∧
    (∃ s : State, s.port.chipSelect = .high ∧ s.resetHeld = true) ∧
    (∀ falls, ∃ s : State, s.port.chipSelect = .high ∧ s.resetHeld = false ∧ s.port.deafFalls = falls + 1) ∧
    (∃ s : State, s.port.chipSelect = .lowUnheard ∧ (Instr.frameDiscarded 12 true).endsFrame = true ∧
      (Instr.frameDiscarded 13 false).endsFrame = true ∧ (Instr.noOp 0x01 5).endsFrame = true) ∧
    State.reset.csFall.port.chipSelect = .low false ∧ State.reset.csFall.port.output[19]?.isSome :=
  ⟨⟨rfl, rfl, rfl, show State.reset.entryCount ≤ 8 by decide +kernel⟩, ⟨{ State.reset with resetHeld := true }, rfl, rfl⟩,
    fun falls => ⟨{ State.reset with port := { State.reset.port with deafFalls := falls + 1 } }, rfl, rfl, rfl⟩,
    ⟨{ State.reset with port := { State.reset.port with chipSelect := .lowUnheard } }, rfl, rfl, rfl, rfl⟩,
    rfl, by decide +kernel⟩

theorem hyps_WholeFrameIsFallThenRise : (Instr.reset 1).endsFrame = true ∧ State.reset.port.chipSelect = .high :=
  ⟨rfl, rfl⟩

/-- A channel copy of three fields: absent, and the two ends of the signed 64-bit range. -/
def copied : State :=
  { ready with
    port := { ready.port with snapshot := .channel 0 [none, some (-2 ^ 63), some (2 ^ 63 - 1)] true } }

theorem hyps_ReadSnapshotGivesField :
    (ready.Listening ∧ ready.port.snapshot = .empty) ∧ copied.Listening ∧
      ∃ (fields : List (Option Int)) (changed : Bool), copied.port.snapshot.contents = some (fields, changed) ∧
        fields.length < (4 : Byte).toNat ∧ fields[(1 : Byte).toNat - 1]? = some none ∧
        (∃ v : Int, fields[(2 : Byte).toNat - 1]? = some (some v) ∧ -2 ^ 63 ≤ v ∧ v < 2 ^ 63) ∧
        ∃ v : Int, fields[(3 : Byte).toNat - 1]? = some (some v) ∧ -2 ^ 63 ≤ v ∧ v < 2 ^ 63 :=
  ⟨⟨ready_listens, rfl⟩, ⟨⟨rfl, rfl⟩, rfl⟩, _, _, rfl, by decide, rfl, ⟨_, rfl, by decide, by decide⟩,
    _, rfl, by decide, by decide⟩

theorem hyps_LookupChannelCopiesEntry :
    (ready.Listening ∧ ready.channelsHeld = false ∧ (7 : Byte).toNat = (7 : ChannelNo).val ∧ 8 ≤ (8 : Byte).toNat) ∧
    (inAccess .checkStep ready).Listening ∧ (inAccess .checkStep ready).channelsHeld = true :=
  ⟨⟨ready_listens, rfl, rfl, by decide⟩, ⟨⟨rfl, rfl⟩, rfl⟩, rfl⟩

/-- The part with an IDLE record in slot 3 and nothing waiting. -/
def idle : State := holding false (record .idle)

/-- A request naming slot 3 or tag 0x1234 finds that record. -/
theorem idle_finds : idle.Finds 0x1234 0 3 (record .idle) ∧ idle.Finds 0 3 3 (record .idle) :=
  ⟨⟨⟨⟨rfl, rfl⟩, rfl⟩, rfl, rfl, rfl⟩, ⟨⟨⟨rfl, rfl⟩, rfl⟩, rfl, rfl, rfl⟩⟩

/-- For the statements that say what a name is answered that finds no record. In `idle` a tag that no record has, a VACANT slot and a slot number above 15 find nothing; in group mode a slot
number is refused by its resolution alone. -/
theorem idle_finds_none : idle.FindsNone 9 0 .unknown ∧ idle.FindsNone 0 15 .unknown ∧ idle.FindsNone 0 16 .range ∧
    (grouped idle).FindsNone 0 16 .range :=
  ⟨⟨⟨⟨rfl, rfl⟩, rfl⟩, rfl, .inr ⟨rfl, rfl⟩⟩, ⟨⟨⟨rfl, rfl⟩, rfl⟩, rfl, .inl rfl⟩, ⟨⟨⟨rfl, rfl⟩, rfl⟩, rfl, .inl rfl⟩,
    ⟨⟨⟨rfl, rfl⟩, rfl⟩, rfl, .inr ⟨rfl, rfl⟩⟩⟩

/-- A request in service at its access. -/
def atAccess (request : PortRequest) : Service :=
  { code := 0x02, seq := 1, request := request, phase := .access, edit := .untouched }

theorem hyps_LookupRecordCopiesTheRecord :
    (ready.Listening ∧ ready.closedBy (RecordName.ofFrame 9 0) = .ok [] ∧
      ready.resolve (RecordName.ofFrame 9 0) = .error .unknown) ∧
    (ready.Listening ∧ ready.closedBy (RecordName.ofFrame 0 15) = .error .unknown) ∧
    ((inAccess .checkStep idle).Listening ∧ (inAccess .checkStep idle).closedBy (RecordName.ofFrame 0 3) = .ok [] ∧
      (inAccess .checkStep idle).resolve (RecordName.ofFrame 0 3) = .ok (3, record .idle) ∧
      (inAccess .checkStep idle).arbiter.inService = some .checkStep) ∧
    idle.Finds 0x1234 0 3 (record .idle) ∧ idle.FindsNone 0 16 .range ∧
    (∃ (s : State) (v : Service),
      s.arbiter = { inService := some .portSnapshot, waiting := [], deferred := [] } ∧ s.port.service = some v ∧
      v.request = .lookupRecord (.byTag 0x1234) ∧ s.resolve (.byTag 0x1234) = .ok (3, record .idle)) ∧
    (∃ (s : State) (v : Service),
      s.arbiter = { inService := some .portSnapshot, waiting := [], deferred := [] } ∧ s.port.service = some v ∧
      v.request = .lookupRecord (.byTag 9) ∧ s.resolve (.byTag 9) = .error .unknown) ∧
    (idle.findTag 0x1234 = some 3 ∧ idle.slots[3] = some (record .idle) ∧ idle.findTag 9 = none) ∧
    (16 ≤ (16 : Byte).toNat ∧ (15 : Byte).toNat = (15 : SlotNo).val ∧ idle.slots[15] = none) :=
  ⟨⟨ready_listens, rfl, rfl⟩, ⟨ready_listens, rfl⟩, ⟨⟨⟨rfl, rfl⟩, rfl⟩, rfl, rfl, rfl⟩, idle_finds.1,
    idle_finds_none.2.2.1,
    ⟨inAccess .portSnapshot (inService (atAccess (.lookupRecord (.byTag 0x1234))) idle), _, rfl, rfl, rfl, rfl⟩,
    ⟨inAccess .portSnapshot (inService (atAccess (.lookupRecord (.byTag 9))) idle), _, rfl, rfl, rfl, rfl⟩,
    ⟨rfl, rfl, rfl⟩, by decide, rfl, rfl⟩

theorem hyps_QueryGroupReportsMatch :
    (idle.Listening ∧ idle.closedByGroup 0x1200 0xFF00 = []) ∧
    ((inAccess .checkStep idle).Listening ∧ (inAccess .checkStep idle).closedByGroup 0x1200 0xFF00 = [] ∧
      (inAccess .checkStep idle).arbiter.inService = some .checkStep) ∧
    (∃ (s : State) (v : Service),
      s.arbiter = { inService := some .portSnapshot, waiting := [], deferred := [] } ∧ s.port.service = some v ∧
      v.request = .queryGroup 0x1200 0xFF00) ∧
    idle.slots[3] = some (record .idle) ∧ idle.slots[15] = none :=
  ⟨⟨⟨⟨rfl, rfl⟩, rfl⟩, by decide +kernel⟩, ⟨⟨⟨rfl, rfl⟩, rfl⟩, by decide +kernel, rfl⟩,
    ⟨inAccess .portSnapshot (inService (atAccess (.queryGroup 0x1200 0xFF00)) idle), _, rfl, rfl, rfl⟩, rfl, rfl⟩

/-- An edit buffer for a tag, with the leader, the follower and the limit written. -/
def buffer (tag : Half) (target : EditTarget) (leader follower : Word) : EditBuffer where
  tag := tag
  target := target
  written := (((Vector.replicate 15 none).set 1 (some leader)).set 2 (some follower)).set 7 (some 60)

/-- An edit of tag 9, which no record has. -/
def newEdit : EditBuffer := buffer 9 .new 2 3

/-- An edit of the record in slot 3 that leaves its pair. -/
def oldEdit : EditBuffer := buffer 0x1234 (.existing 3 pair) 0 1

/-- An open buffer with neither leader nor follower written. -/
def bareEdit : EditBuffer := { newEdit with written := Vector.replicate 15 none }

/-- All four buffers open. -/
def allOpen : State := { ready with edit := { ready.edit with buffers := Vector.replicate 4 (some newEdit) } }

theorem hyps_WriteFieldAndCommitRefusals :
    (ready.Listening ∧ ready.store.op.isLoading = false ∧ 15 < (16 : Byte).toNat ∧
      ∃ f, RecordField.ofId 9 = some f ∧ f.inRange 17 = false) ∧
    (allOpen.Listening ∧ allOpen.store.op.isLoading = false ∧
      (∃ f, RecordField.ofId 15 = some f ∧ f.inRange 1 = true) ∧ allOpen.edit.bufferFor 5 = none ∧
      ∀ k : BufferNo, allOpen.edit.buffers[k].isSome) ∧
    ((grouped ready).Listening ∧ (grouped ready).store.op.isLoading = false ∧ (grouped ready).edit.groupMode = true) ∧
    ready.edit.groupMode = false ∧ ready.edit.bufferFor 5 = none :=
  ⟨⟨ready_listens, rfl, by decide, _, rfl, rfl⟩,
    ⟨⟨⟨rfl, rfl⟩, rfl⟩, rfl, ⟨_, rfl, rfl⟩, rfl, by decide +kernel⟩, ⟨⟨⟨rfl, rfl⟩, rfl⟩, rfl, rfl⟩, rfl, rfl⟩

theorem hyps_WriteFieldStoresValue :
    (∃ f, RecordField.ofId 1 = some f ∧ f.inRange 1 = true) ∧
    (∃ s : State, s.Listening ∧ s.store.op.isLoading = false ∧ s.edit.bufferFor 0x1234 = none ∧
      s.edit.buffers[(1 : BufferNo)] = none ∧ (∀ j : BufferNo, j < 1 → s.edit.buffers[j].isSome) ∧
      s.findTag 0x1234 = some 3 ∧ s.slots[3] = some (record .idle) ∧ s.findTag 5 = none) ∧
    (∃ s : State, s.Listening ∧ s.store.op.isLoading = false ∧ s.edit.bufferFor 9 = some 3 ∧
      s.edit.buffers[(3 : BufferNo)] = some newEdit ∧ newEdit.wrote .leader = true ∧ newEdit.wrote .tag = false ∧
      s.edit.groupMode = true) :=
  ⟨⟨_, rfl, rfl⟩, ⟨editing 0 newEdit idle, ⟨⟨rfl, rfl⟩, rfl⟩, rfl, rfl, rfl, by decide +kernel, rfl, rfl, rfl⟩,
    grouped (editing 3 newEdit ready), ⟨⟨rfl, rfl⟩, rfl⟩, rfl, rfl, rfl, rfl, rfl, rfl⟩

/-- The edit of the record in slot 3 in buffer 0, and one of a NEW record of the same group in buffer 3. -/
def twoOpen : State := editing 3 (buffer 0x12FF .new 2 3) (editing 0 oldEdit idle)

theorem hyps_ClosingRequestsApplyTheEditFirst :
    (∀ inService ∈ [none, some Access.checkStep], ∃ (s : State) (b : EditBuffer), s.Listening ∧
      s.arbiter.inService = inService ∧ s.store.op.isLoading = false ∧ s.edit.groupMode = false ∧ s.edit.bufferFor 0x1234 = some 0 ∧ s.edit.buffers[(0 : BufferNo)] = some b ∧
      RecordField.ofId 2 = some .leader ∧ RecordField.leader.inRange 7 = true ∧ b.wrote .leader = true) ∧
    (twoOpen.Listening ∧ twoOpen.store.op.isLoading = false ∧ twoOpen.edit.groupMode = false ∧
      (3 : Byte).toNat = (3 : SlotNo).val ∧ twoOpen.slots[3] = some (record .idle) ∧
      twoOpen.edit.bufferFor (record .idle).cfg.tag = some 0 ∧ twoOpen.edit.bufferFor 0x12FF = some 3 ∧
      (Instr.releaseGroup 1 0x1200 0xFF00).asksFor = some (.table (.releaseGroup 0x1200 0xFF00)) ∧
      [(0 : BufferNo), 3].Pairwise (· < ·) ∧
      ∀ j : BufferNo, (j ∈ [(0 : BufferNo), 3] ↔ ∃ b, twoOpen.edit.buffers[j] = some b ∧
        ∀ n < 16, (0xFF00 : Word).getLsbD n = true → b.tag.getLsbD n = (0x1200 : Half).getLsbD n)) ∧
    (grouped twoOpen).edit.groupMode = true ∧
    (twoOpen.edit.bufferFor 9 = none ∧ twoOpen.slots[15] = none ∧ 16 ≤ (16 : Byte).toNat ∧ ∀ (j : BufferNo) (b : EditBuffer),
      twoOpen.edit.buffers[j] = some b →
        ∃ n < 16, (0x00FF : Half).getLsbD n = true ∧ b.tag.getLsbD n ≠ (0x0000 : Half).getLsbD n) ∧
    ∃ s : State, s.Listening ∧ s.store.op.isLoading = false ∧ s.arbiter.inService.isSome = true ∧
      s.channelsHeld = true ∧ s.closedBy (RecordName.ofFrame 0x1234 0) = .ok [] ∧
      s.closedByGroup 0x1200 0xFF00 = [] := by
  refine ⟨fun a _ => ⟨{ editing 0 oldEdit idle with arbiter := { idle.arbiter with inService := a } }, _,
      ⟨⟨rfl, rfl⟩, rfl⟩, rfl, rfl, rfl, rfl, rfl, rfl, rfl, rfl⟩,
    ⟨⟨⟨rfl, rfl⟩, rfl⟩, rfl, rfl, rfl, rfl, rfl, rfl, rfl, by decide, ?_⟩, rfl, ⟨rfl, rfl, by decide, ?_⟩,
    inAccess .checkStep idle, ⟨⟨rfl, rfl⟩, rfl⟩, rfl, rfl, rfl, rfl, by decide +kernel⟩
  · intro j
    fin_cases j
    · exact ⟨fun _ => ⟨oldEdit, rfl, by decide⟩, fun _ => by decide⟩
    · exact ⟨fun h => absurd h (by decide), fun ⟨_, h, _⟩ => nomatch h⟩
    · exact ⟨fun h => absurd h (by decide), fun ⟨_, h, _⟩ => nomatch h⟩
    · exact ⟨fun _ => ⟨_, rfl, by decide⟩, fun _ => by decide⟩
  · intro j b hb
    fin_cases j
    · cases hb
      exact ⟨2, by decide, by decide, by decide⟩
    · exact nomatch hb
    · exact nomatch hb
    · cases hb
      exact ⟨2, by decide, by decide, by decide⟩

/-- Sixteen records. -/
def fullSlots : Slots := Vector.replicate 16 (some (record .held))

theorem hyps_EditRejectionInOrder :
    (bareEdit.target = .new ∧ bareEdit.written[(1 : Fin 15)] = none) ∧
    (newEdit.written[(1 : Fin 15)] ≠ none ∧ newEdit.written[(2 : Fin 15)] ≠ none ∧
      newEdit.result.follower ≠ newEdit.result.leader ∧
      newEdit.result.slipWindow.toNat ≤ newEdit.result.breakWindow.toNat) ∧
    (buffer 9 .new 2 2).result.follower = (buffer 9 .new 2 2).result.leader ∧
    (idle.slots[3] = some (record .idle) ∧ (record .idle).cfg.tag = (buffer 0x1234 .new 2 3).result.tag ∧
      ∀ base, (buffer 0x1234 .new 2 3).target ≠ .existing 3 base) ∧
    ((∀ (i : SlotNo) (r : Record), fullSlots[i] = some r → r.cfg.tag ≠ newEdit.result.tag) ∧
      ∀ i : SlotNo, fullSlots[i].isSome) ∧
    ((buffer 0x1234 (.existing 3 pair) 0 2).target = .existing 3 pair ∧ held.slots[3] = some (record .held) ∧
      (record .held).state.isActive = true ∧
      (buffer 0x1234 (.existing 3 pair) 0 2).result.follower ≠ (record .held).cfg.follower) ∧
    newEdit.rejection State.reset.slots = none := by
  refine ⟨⟨rfl, rfl⟩, ?_, rfl, ⟨rfl, rfl, nofun⟩, ⟨?_, ?_⟩, ⟨rfl, rfl, rfl, ?_⟩, rfl⟩
  · decide +kernel
  · intro i r hr
    have all : ∀ i : SlotNo, (fullSlots[i].all fun r => r.cfg.tag ≠ newEdit.result.tag) = true := by decide +kernel
    have := all i
    rw [hr] at this
    simpa using this
  · decide +kernel
  · decide +kernel

/-- A Commit in service whose edit is being applied. -/
def committing (tag : Half) : Service :=
  { code := 0x11, seq := 1, request := .commit tag, phase := .closing [], edit := .untouched }

/-- A request in service whose edits are being closed, the rest of them still to come. -/
def closing (code : Byte) (request : PortRequest) (toClose : List BufferNo) : Service :=
  { code := code, seq := 1, request := request, phase := .closing toClose, edit := .untouched }

/-- What `GoesOn` asks of the part and of the request: more buffers to close, a Write Field with a buffer FREE, and a
request that is served as if it came now, with an access in service where it names no VACANT slot. -/
theorem hyps_GoesOn :
    (closing 0x23 (.table (.releaseGroup 0x1200 0xFF00)) [3]).phase = .closing [3] ∧
    (closing 0x10 (.writeField 9 .leader 5) []).phase = .closing [] ∧
    ((editing 0 newEdit ready).edit.buffers[(1 : BufferNo)] = none ∧
      ∀ j : BufferNo, j < 1 → (editing 0 newEdit ready).edit.buffers[j].isSome) ∧
    (ready.startup = .ready ∧ ready.store.op.isLoading = false ∧ ready.edit.groupMode = false) ∧
    (∃ (i : Instr) (w : State), i.requestHead = some (0x21, 1) ∧ i.asksFor = some (.table (.release (.byTag 0x1234))) ∧
      idle.arbiter.inService = none ∧ exec i idle.asIfAsked = .next w) ∧
    ∃ (i : Instr) (w : State), i.requestHead = some (0x21, 1) ∧ i.asksFor = some (.table (.release (.bySlot 3))) ∧
      (PortRequest.table (.release (.bySlot 3))).slotNamed = some 3 ∧
      (inAccess .checkStep idle).resolve (.bySlot 3) = .ok (3, record .idle) ∧
      exec i (inAccess .checkStep idle).asIfAsked = .next w :=
  ⟨rfl, rfl, ⟨rfl, by decide +kernel⟩, ⟨rfl, rfl, rfl⟩, ⟨.release 1 0x1234 0, _, rfl, rfl, rfl, rfl⟩,
    .release 1 0 3, _, rfl, rfl, rfl, rfl, rfl⟩

theorem hyps_RejectedEditLeavesTheTable (v : Service) :
    ∃ (s : State) (b : EditBuffer),
      s.arbiter = { inService := some (.edit 0), waiting := [], deferred := [] } ∧
      s.edit.buffers[(0 : BufferNo)] = some b ∧ (∀ i base, b.target = .existing i base → s.slots[i].isSome) ∧
      b.rejection s.slots = some .incomplete ∧ s.port.service = some v ∧
      ((committing 9).request = .commit 9 ∧ (committing 9).phase = .closing [] ∧ (committing 9).edit = .untouched) :=
  ⟨inAccess (.edit 0) (inService v (editing 0 bareEdit ready)), _, rfl, rfl, nofun, rfl, rfl, rfl, rfl, rfl⟩

theorem hyps_AppliedEditWritesTheRecord (v : Service) (capture : Word) (fields : List (Option Int)) (changed : Bool) :
    ∃ (s : State) (b : EditBuffer) (r : Record),
      s.arbiter = { inService := some (.edit 0), waiting := [], deferred := [] } ∧
      s.edit.buffers[(0 : BufferNo)] = some b ∧ b.target = .existing 3 pair ∧ s.slots[3] = some r ∧
      b.rejection s.slots = none ∧ s.port.service = some v ∧ s.port.snapshot = .record 3 capture fields changed :=
  ⟨inAccess (.edit 0) (inService v (editing 0 oldEdit
    { idle with port := { idle.port with snapshot := .record 3 capture fields changed } })), _, _, rfl, rfl, rfl, rfl,
    rfl, rfl, rfl⟩

theorem hyps_NewEditCreatesARecord (v : Service) :
    ∃ (s : State) (b : EditBuffer),
      s.arbiter = { inService := some (.edit 0), waiting := [], deferred := [] } ∧
      s.edit.buffers[(0 : BufferNo)] = some b ∧ b.target = .new ∧ b.rejection s.slots = none ∧ s.slots[15] = none ∧
      (∀ j : SlotNo, j < 15 → s.slots[j].isSome) ∧ s.port.service = some v :=
  ⟨{ inAccess (.edit 0) (inService v (editing 0 newEdit ready)) with slots := fullSlots.set 15 none },
    _, rfl, rfl, rfl, rfl, rfl, show ∀ j : SlotNo, j < 15 → (fullSlots.set 15 none)[j].isSome by decide +kernel, rfl⟩

/-- A Commit whose edit of the record in slot 3 is being applied, with chip select high. -/
def applying : State :=
  inAccess (.edit 0) (inService (committing 0x1234) (editing 0 oldEdit
    { idle with port := { idle.port with chipSelect := .high }, pending := [.editApplication] }))

/-- The one open buffer of `applying`. -/
theorem applying_open {k : BufferNo} {b : EditBuffer} (h : applying.edit.buffers[k] = some b) : k = 0 ∧ b = oldEdit := by
  fin_cases k
  · cases h
    exact ⟨rfl, rfl⟩
  · exact nomatch h
  · exact nomatch h
  · exact nomatch h

/-- The one record of `applying`. -/
theorem applying_record {i : SlotNo} {r : Record} (h : applying.slots[i] = some r) : i = 3 ∧ r = record .idle := by
  have one : ∀ i : SlotNo, applying.slots[i] = none ∨ (i = 3 ∧ applying.slots[i] = some (record .idle)) := by
    decide +kernel
  rcases one i with none | ⟨rfl, some⟩
  · cases none.symm.trans h
  · exact ⟨rfl, Option.some.inj (h.symm.trans some)⟩

/-- The part with an access in service for which accesses and events wait. -/
def waitedFor (a : Access) (accesses : List Access) (events : List TableEvent) (s : State) : State :=
  { s with arbiter := { inService := some a, waiting := accesses, deferred := events } }

/-- What waits in the tests: two events, and accesses among which a computation is the first of the lowest rank. -/
def someEvents : List TableEvent := [.stopAsserted, .driveStatus]

/-- See `someEvents`. -/
def someAccesses : List Access := [.portSnapshot] ++ .computation 5 :: [.computation 6]

/-- The part while events and accesses wait for a check step. -/
def waiting : State := waitedFor .checkStep someAccesses someEvents ready

/-- The part while they wait for a computation with an entry due, and for an edit application that closes the first of
two edits. -/
def expiring : State :=
  waitedFor (.computation 5) someAccesses someEvents
    { idle with completions := idle.completions.set 3 (some (.readyForm .formed { capture := 1, deadline := some 5 })) }

/-- See `expiring`. -/
def closingTwo : State :=
  waitedFor (.edit 0) someAccesses someEvents
    (inService (closing 0x23 (.table (.releaseGroup 0x1200 0xFF00)) [3]) twoOpen)

/-- At the end of an access with these waiting: one of lowest rank, the earliest of its kind, is served next. -/
theorem hyps_EndsTo :
    someAccesses ++ (someEvents.foldl State.takeEvent ready).arbiter.outstanding =
      [.portSnapshot] ++ .computation 5 :: [.computation 6] ∧
    (∀ b ∈ [Access.portSnapshot], (Access.computation 5).rank < b.rank) ∧
    ∀ b ∈ [Access.computation 6], (Access.computation 5).rank ≤ b.rank :=
  ⟨rfl, by decide, by decide⟩

theorem hyps_NothingWaitsOnAFreeTable :
    (∃ t, waiting.startup = .ready ∧ waiting.arbiter.inService = some .checkStep ∧
      Instr.stopAsserted ≠ Access.checkStep.row ∧ Instr.stopAsserted.isReset = false ∧
      step { waiting with pending := [.stopAsserted] } = .next t) ∧
    (∃ u, waiting.arbiter = { inService := some .checkStep, waiting := someAccesses, deferred := someEvents } ∧
      exec Access.checkStep.row (inAccess .checkStep waiting) = .next u ∧
      u.arbiter = { inService := none, waiting := [], deferred := [] }) ∧
    (∃ u, expiring.arbiter = { inService := some (.computation 5), waiting := someAccesses, deferred := someEvents } ∧
      exec (Access.computation 5).row (inAccess (.computation 5) expiring) = .next u ∧
      u.arbiter = { inService := some (.expiry 5), waiting := [], deferred := [] }) ∧
    (∃ v w, closingTwo.arbiter = { inService := some (.edit 0), waiting := someAccesses, deferred := someEvents } ∧
      closingTwo.edit.buffers[(0 : BufferNo)] = some oldEdit ∧ closingTwo.port.service = some v ∧
      v.phase = .closing [3] ∧ .request ∉ someEvents ∧
      (committing 9).request = .commit 9 ∧ (committing 9).phase = .closing [] ∧
      exec .editApplication (inAccess (.edit 0) (inService (committing 9) closingTwo)) = .next w) ∧
    (held.TableFree ∧ held.startup = .ready ∧ held.stopLine = false ∧ held.captureTimer = .running .p500) ∧
    (∃ s : State, s.TableFree ∧ s.startup = .ready ∧ s.stopLine = true ∧ s.link.isJudged = true) ∧
    (∃ s : State, s.TableFree ∧ s.startup = .ready ∧ s.Listening ∧ s.store.op.isLoading = false ∧
      (Instr.form 1 0x1234 0).requestHead = some (0x20, 1) ∧
      (Instr.form 1 0x1234 0).asksFor = some (.table (.form (.byTag 0x1234))) ∧ s.edit.groupMode = true) ∧
    (ready.TableFree ∧ ready.startup = .ready ∧ ready.Listening ∧ ready.store.op.isLoading = false ∧
      (Instr.setEngine 1 0 8 0).requestHead = some (0x31, 1) ∧
      (Instr.setEngine 1 0 8 0).asksFor = some (.table (.setEngine 0 8 0))) := by
  refine ⟨⟨_, rfl, rfl, by decide, rfl, rfl⟩, ⟨_, rfl, rfl, rfl⟩, ⟨_, rfl, rfl, rfl⟩,
    ⟨_, _, rfl, rfl, rfl, rfl, by decide, rfl, rfl, rfl⟩, ⟨rfl, rfl, rfl, rfl⟩,
    ⟨{ inRound (.judged .miss) [] ready with stopLine := true }, rfl, rfl, rfl, rfl⟩,
    ⟨grouped ready, rfl, rfl, ⟨⟨rfl, rfl⟩, rfl⟩, rfl, rfl, rfl, rfl⟩, rfl, rfl, ready_listens, rfl, rfl, rfl⟩

/-- A request that waited for its judgement, outside group mode and in it: a Set Engine, a Write Channel, a Lookup
Channel, a Release and a Release Group. -/
theorem hyps_NothingWaitsOnAFreeTable_request (edit : EditOutcome) :
    ∀ i ∈ [Instr.setEngine 1 0 8 0, .writeChannel 1 0 0x10 1000, .lookupChannel 1 0, .release 1 0x1234 0,
      .releaseGroup 1 0x1200 0xFF00],
      ∃ (code : Byte) (r : TableRequest), i.requestHead = some (code, 1) ∧ i.asksFor = some (.table r) ∧
        ∀ u ∈ [idle, grouped twoOpen], ∃ (s w x : State) (v : Service),
          s = inService v u ∧ s.TableFree ∧ s.startup = .ready ∧ s.store.op.isLoading = false ∧
          s.port.service = some v ∧ v.request = .table r ∧ v.code = code ∧ v.seq = 1 ∧ v.edit = edit ∧
          exec i s.asIfAsked = .next w ∧
          exec i { s with port := { s.port with chipSelect := .low false, service := none } } = .next x := by
  intro i hi
  simp only [List.mem_cons, List.not_mem_nil, or_false] at hi
  rcases hi with rfl | rfl | rfl | rfl | rfl <;> refine ⟨_, _, rfl, rfl, fun u hu => ?_⟩ <;>
    rcases List.mem_pair.mp hu with rfl | rfl <;>
    exact ⟨_, _, _, { code := _, seq := 1, request := .table _, phase := .judging, edit := edit }, rfl, rfl, rfl, rfl,
      rfl, rfl, rfl, rfl, rfl, rfl, rfl⟩

/-- A state in which the edits are sound while one is applied, with a step from it. -/
theorem hyps_StopsOnlyOnDanglingEdit : applying.EditsSound ∧ ∃ t, step applying = .next t := by
  refine ⟨⟨⟨?_, ?_⟩, ?_, ⟨by decide, by decide, nofun, nofun, nofun⟩,
    ⟨nofun, fun h => absurd rfl h, by decide, ?_, by decide, by decide⟩, ?_⟩, _, rfl⟩
  · intro i r hr
    obtain ⟨-, rfl⟩ := applying_record hr
    decide +kernel
  · intro i j r q hi hj _
    exact (applying_record hi).1.trans (applying_record hj).1.symm
  · intro k b hb
    obtain ⟨rfl, rfl⟩ := applying_open hb
    refine ⟨by decide, ?_, fun j c hc _ => (applying_open hc).1, fun i base ht => ?_⟩
    · intro f w hw
      have all : ∀ f : RecordField, oldEdit.written[f.place].all f.inRange = true := by
        intro f
        cases f <;> rfl
      have := all f
      rw [hw] at this
      exact this
    · cases ht
      exact ⟨_, rfl, rfl⟩
  · intro k hk
    exact ⟨_, [], rfl, rfl⟩
  · intro v hv
    cases hv
    exact ⟨nofun, nofun⟩

theorem hyps_BeginGroupTurnsGroupModeOn :
    (ready.Listening ∧ ready.edit.groupMode = false) ∧
      (grouped ready).Listening ∧ (grouped ready).edit.groupMode = true :=
  ⟨⟨ready_listens, rfl⟩, ⟨⟨rfl, rfl⟩, rfl⟩, rfl⟩

theorem hyps_AbortGroupFreesBuffers :
    ((grouped allOpen).Listening ∧ (grouped allOpen).edit.groupMode = true) ∧
      ready.Listening ∧ ready.edit.groupMode = false :=
  ⟨⟨⟨⟨rfl, rfl⟩, rfl⟩, rfl⟩, ready_listens, rfl⟩

/-- A Commit Group in service at its access. -/
def groupService : Service := { code := 0x13, seq := 1, request := .commitGroup, phase := .access, edit := .untouched }

theorem hyps_CommitGroupAppliesAllOrNothing :
    (ready.Listening ∧ ready.store.op.isLoading = false ∧ ready.edit.groupMode = false) ∧
    ((grouped ready).edit.groupMode = true ∧ ∀ k : BufferNo, (grouped ready).edit.buffers[k] = none) ∧
    (∀ inService ∈ [none, some Access.checkStep], ∃ s : State, s.Listening ∧ s.store.op.isLoading = false ∧
      s.edit.groupMode = true ∧ s.edit.buffers[(3 : BufferNo)].isSome ∧ s.arbiter.inService = inService) ∧
    ∀ b ∈ [newEdit, bareEdit], ∃ (s : State) (v : Service),
      s.arbiter = { inService := some .group, waiting := [], deferred := [] } ∧ s.port.service = some v ∧
      v.request = .commitGroup ∧ v.edit = .untouched ∧
      (∀ (k : BufferNo) (c : EditBuffer) (i : SlotNo) (base : RecordConfig), s.edit.buffers[k] = some c →
        c.target = .existing i base → s.slots[i].isSome) ∧
      if b = newEdit then judgeGroup s.edit.openBuffers s.slots = .ok (newEdit.applied s.slots)
        else judgeGroup s.edit.openBuffers s.slots = .error (.incomplete, 9) := by
  have only : ∀ (b : EditBuffer), (∀ i base, b.target ≠ .existing i base) → ∀ (k : BufferNo) (c : EditBuffer)
      (i : SlotNo) (base : RecordConfig),
      (inAccess .group (inService groupService (grouped (editing 0 b ready)))).edit.buffers[k] = some c →
      c.target = .existing i base → ready.slots[i].isSome := by
    intro b hb k c i base hc ht
    have hk : ∀ k : BufferNo, (State.reset.edit.buffers.set 0 (some b))[k] = if k = 0 then some b else none := by
      intro k
      fin_cases k <;> rfl
    have := (hk k).symm.trans hc
    split at this
    · cases this
      exact absurd ht (hb i base)
    · cases this
  refine ⟨⟨ready_listens, rfl, rfl⟩, ⟨rfl, by decide +kernel⟩,
    fun a _ => ⟨{ grouped (editing 3 newEdit ready) with arbiter := { ready.arbiter with inService := a } },
      ⟨⟨rfl, rfl⟩, rfl⟩, rfl, rfl, rfl, rfl⟩, ?_⟩
  intro b hb
  refine ⟨inAccess .group (inService groupService (grouped (editing 0 b ready))), groupService, rfl, rfl, rfl, rfl, ?_⟩
  rcases List.mem_pair.mp hb with rfl | rfl
  · exact ⟨only _ nofun, by rw [if_pos rfl]; rfl⟩
  · exact ⟨only _ nofun, by rw [if_neg (by decide +kernel)]; rfl⟩

/-- A group that edits the record of which the snapshot buffer holds a copy. -/
theorem hyps_CommitGroupAppliesAllOrNothing_snapshot (capture : Word) (fields : List (Option Int)) (changed : Bool) :
    ∃ s : State, s.arbiter = { inService := some .group, waiting := [], deferred := [] } ∧
      s.port.service = some groupService ∧ s.edit.buffers[(0 : BufferNo)] = some oldEdit ∧
      oldEdit.target = .existing 3 pair ∧ s.port.snapshot = .record 3 capture fields changed ∧
      judgeGroup s.edit.openBuffers s.slots = .ok (oldEdit.applied s.slots) :=
  ⟨inAccess .group (inService groupService (grouped (editing 0 oldEdit
    { idle with port := { idle.port with snapshot := .record 3 capture fields changed } }))), rfl, rfl, rfl, rfl, rfl,
    rfl⟩

/-- A completion map entry for slot 3. -/
def withEntry (e : Completion) (s : State) : State := { s with completions := s.completions.set 3 (some e) }

theorem idle_follows_none (c l : ChannelNo) : ¬ idle.Follows c l := none_follows (by decide +kernel) c l

theorem idle_follows_no_chain (c l : ChannelNo) : ¬ Relation.TransGen idle.Follows c l := by
  intro chain
  cases chain with
  | single one => exact idle_follows_none _ _ one
  | tail _ one => exact idle_follows_none _ _ one

theorem hyps_FormPutsRecordIntoForming :
    let r := record .idle
    idle.Finds 0x1234 0 3 r ∧ idle.store.op.isLoading = false ∧ idle.CoupledAgree ∧
      (idle.edit.groupMode = true → idle.edit.bufferFor r.cfg.tag = none) ∧ idle.completions[3] = none ∧
      r.state = .idle ∧ r.checkFailed = false ∧ idle.engine.stopTaken = false ∧
      idle.channels[r.cfg.leaderNo].state.isUp = true ∧ idle.channels[r.cfg.followerNo].state.isUp = true ∧
      (∀ l, ¬ idle.Follows r.cfg.followerNo l) ∧ r.cfg.leaderNo ≠ r.cfg.followerNo ∧
      ¬ Relation.TransGen idle.Follows r.cfg.leaderNo r.cfg.followerNo ∧ idle.entryCount < 8 :=
  ⟨idle_finds.1, rfl, show ∀ c : ChannelNo, idle.channels[c].coupled = idle.coupledNow c by decide +kernel,
    fun _ => rfl, rfl, rfl, rfl, rfl, rfl, rfl, idle_follows_none _, by decide +kernel, idle_follows_no_chain _ _,
    by decide +kernel⟩

/-- The IDLE record in slot 3, with an active one of the same pair in slot 4. -/
def clashing : State := { idle with slots := idle.slots.set 4 (some { record .held with cfg := { pair with tag := 7 } }) }

/-- The two slots of `clashing` that hold records. -/
theorem clashing_slots (i : SlotNo) : i = 3 ∨ i = 4 ∨ clashing.slots[i] = none := by
  fin_cases i <;> decide +kernel

/-- In `clashing` channel 1 follows channel 0, and no other follows any. -/
theorem clashing_follows {c l : ChannelNo} (h : clashing.Follows c l) : c = 1 ∧ l = 0 := by
  obtain ⟨i, r, hr, -, rfl, rfl⟩ := h
  have := every_record (s := clashing) (p := fun r => r.cfg.followerNo = 1 ∧ r.cfg.leaderNo = 0) (by decide +kernel)
    i r hr
  simpa using this

theorem clashing_forest : clashing.Forest := by
  refine ⟨fun i j r q hi hj ai aj _ => ?_, fun c chain => ?_⟩
  · have four : ∀ k : SlotNo, (clashing.slots[k].any fun r => r.state.isActive) = true → k = 4 := by decide +kernel
    rw [four i (by rw [hi]; exact ai), four j (by rw [hj]; exact aj)]
  · have ends : ∀ a b : ChannelNo, Relation.TransGen clashing.Follows a b → a = 1 ∧ b = 0 := by
      intro a b h
      induction h with
      | single h => exact clashing_follows h
      | tail _ h ih => exact ⟨ih.1, (clashing_follows h).2⟩
    exact absurd ((ends c c chain).1.symm.trans (ends c c chain).2) (by decide)

/-- The IDLE record in slot 3 and eight entries of other slots. -/
def full : State :=
  { idle with
    completions := Vector.ofFn fun i => if i.val < 3 ∨ 10 < i.val then some .waitingRelease else none }

theorem full_inactive : ∀ i : SlotNo, (full.slots[i].all fun r => !r.state.isActive) = true := by decide +kernel

/-- States that each check of a Form answers, and the one premise it needs beyond `Finds`. -/
theorem hyps_FormAnswersInOrder :
    (ready.Listening ∧ ready.TableFree ∧ ready.closedBy (.bySlot 16) = .error .range) ∧
    (∃ s : State, s.Finds 0x1234 0 3 (record .idle) ∧ s.edit.groupMode = true ∧
      (s.edit.bufferFor 0x1234).isSome = true) ∧
    (∀ e : Completion, ∃ s : State, s.Finds 0x1234 0 3 (record .idle) ∧ s.edit.groupMode = false ∧
      s.completions[3] = some e) ∧
    (∀ state : RecordState, (holding false (record state)).Finds 0x1234 0 3 (record state) ∧
      (holding false (record state)).completions[3] = none) ∧
    (∃ s : State, s.Finds 0x1234 0 3 { record .idle with checkFailed := true }) ∧
    (∃ s : State, s.Finds 0x1234 0 3 (record .idle) ∧ s.engine.stopTaken = true) ∧
    (∃ s : State, s.Finds 0x1234 0 3 (record .idle) ∧ s.engine.stopTaken = false ∧
      s.channels[pair.leaderNo].state.isUp = false) ∧
    (clashing.Finds 0x1234 0 3 (record .idle) ∧ clashing.Forest ∧ clashing.Follows pair.followerNo 0) ∧
    ∃ s : State, s.Finds 0x1234 0 3 (record .idle) ∧ s.completions[3] = none ∧ s.Forest ∧
      (∀ l, ¬ s.Follows pair.followerNo l) ∧ 8 ≤ s.entryCount := by
  refine ⟨⟨ready_listens, rfl, rfl⟩, ⟨grouped (editing 0 oldEdit idle), ⟨⟨⟨rfl, rfl⟩, rfl⟩, rfl, rfl, rfl⟩, rfl, rfl⟩,
    fun e => ⟨withEntry e idle, ⟨⟨⟨rfl, rfl⟩, rfl⟩, rfl, rfl, rfl⟩, rfl, rfl⟩,
    fun state => ⟨⟨⟨⟨rfl, rfl⟩, rfl⟩, rfl, rfl, rfl⟩, rfl⟩,
    ⟨holding false { record .idle with checkFailed := true }, ⟨⟨rfl, rfl⟩, rfl⟩, rfl, rfl, rfl⟩,
    ⟨{ idle with engine := { idle.engine with stopTaken := true } }, ⟨⟨⟨rfl, rfl⟩, rfl⟩, rfl, rfl, rfl⟩, rfl⟩,
    ⟨{ idle with channels := State.reset.channels }, ⟨⟨⟨rfl, rfl⟩, rfl⟩, rfl, rfl, rfl⟩, rfl, rfl⟩,
    ⟨⟨⟨⟨rfl, rfl⟩, rfl⟩, rfl, rfl, rfl⟩, clashing_forest, ⟨4, _, rfl, rfl, rfl, rfl⟩⟩, ?_⟩
  exact ⟨full, ⟨⟨⟨rfl, rfl⟩, rfl⟩, rfl, rfl, rfl⟩, rfl, forest_of_none full_inactive, none_follows full_inactive _,
    by decide +kernel⟩

/-- A record in any state, with any entry, or with an edit open in group mode, for Release and Retire. -/
theorem hyps_ReleaseActsByState_and_RetireVacatesSlot :
    (∀ state : RecordState, (holding true (record state)).Finds 0x1234 0 3 (record state) ∧
      (holding true (record state)).store.op.isLoading = false ∧ (holding true (record state)).completions[3] = none ∧
      (holding true (record state)).entryCount < 8) ∧
    (∀ (state : RecordState) (e : Completion), ∃ s : State, s.Finds 0x1234 0 3 (record state) ∧
      s.store.op.isLoading = false ∧ s.completions[3] = some e) ∧
    ∃ s : State, s.Finds 0x1234 0 3 (record .idle) ∧ s.store.op.isLoading = false ∧ s.edit.groupMode = true ∧
      (s.edit.bufferFor 0x1234).isSome = true :=
  ⟨fun state => ⟨⟨⟨⟨rfl, rfl⟩, rfl⟩, rfl, rfl, rfl⟩, rfl, rfl, show State.reset.entryCount < 8 by decide +kernel⟩,
    fun state e => ⟨withEntry e (holding true (record state)), ⟨⟨⟨rfl, rfl⟩, rfl⟩, rfl, rfl, rfl⟩, rfl, rfl⟩,
    grouped (editing 0 oldEdit idle), ⟨⟨⟨rfl, rfl⟩, rfl⟩, rfl, rfl, rfl⟩, rfl, rfl, rfl⟩

/-- A group of one record in each state, and one whose member has an edit open in group mode. -/
theorem hyps_ReleaseGroupReleasesEveryMember :
    (∀ state : RecordState, let s := holding state.isActive (record state)
      s.Listening ∧ s.TableFree ∧ s.store.op.isLoading = false ∧ s.closedByGroup 0x1200 0xFF00 = [] ∧
        s.CoupledAgree ∧ s.inGroup 0x1200 0xFF00 3 = true) ∧
    ∃ s : State, s.Listening ∧ s.TableFree ∧ s.store.op.isLoading = false ∧ s.closedByGroup 0x1200 0xFF00 = [] ∧
      s.CoupledAgree ∧ s.inGroup 0x1200 0xFF00 3 = true ∧ s.edit.groupMode = true ∧
      (s.edit.bufferFor 0x1234).isSome = true := by
  refine ⟨fun state => ⟨⟨⟨rfl, rfl⟩, rfl⟩, rfl, rfl, ?_, ?_, ?_⟩,
    grouped (editing 0 oldEdit idle), ⟨⟨rfl, rfl⟩, rfl⟩, rfl, rfl, rfl, ?_, rfl, rfl, rfl⟩
  · rfl
  · intro c
    cases state <;> fin_cases c <;> rfl
  · show tagMatches 0x1200 0xFF00 0x1234 = true
    decide
  · exact show ∀ c : ChannelNo, idle.channels[c].coupled = idle.coupledNow c by decide +kernel

theorem hyps_SetEngineWritesSettings :
    (ready.Listening ∧ ready.TableFree) ∧ (held.Listening ∧ held.TableFree) ∧ (65535 : Word).toNat ≤ 65535 ∧
      (2000 : Word).toNat = CapturePeriod.p2000.micros ∧
      (held.slots[3] = some (record .held) ∧ (record .held).state.isActive = true) ∧
      ∀ (i : SlotNo) (r : Record), ready.slots[i] ≠ some r :=
  ⟨⟨ready_listens, rfl⟩, ⟨⟨⟨rfl, rfl⟩, rfl⟩, rfl⟩, by decide, rfl, ⟨rfl, rfl⟩, by
    intro i r h
    have none : ∀ i : SlotNo, ready.slots[i].isNone = true := by decide +kernel
    have := none i
    rw [h] at this
    cases this⟩

theorem hyps_CommissioningTestsSetTheirPendingValue :
    (∃ s : State, s.Finds 0x1234 0 3 (record .held) ∧ s.store.op.isLoading = false) ∧
    (idle.Finds 0x1234 0 3 (record .idle) ∧ idle.store.op.isLoading = false) ∧
    (-500000 ≤ (BitVec.ofInt 32 (-500000)).toInt ∧ (500001 : Word).toInt > 500000) :=
  ⟨⟨holding true (record .held), ⟨⟨⟨rfl, rfl⟩, rfl⟩, rfl, rfl, rfl⟩, rfl⟩, ⟨idle_finds.1, rfl⟩, by decide, by decide⟩

theorem hyps_WriteChannelIsJudgedAndStored :
    (ready.Listening ∧ ready.channelsHeld = false ∧ ready.store.op.isLoading = false ∧
      (7 : Byte).toNat = (7 : ChannelNo).val ∧ ChannelField.ofId 7 = some .overspeed ∧
      ready.channels[7].coupled = false ∧ ready.channels[7].state = .off ∧ ChannelField.enabled.inRange 1 = true ∧
      ChannelField.enabled.inRange 2 = false) ∧
    (held.Listening ∧ held.channelsHeld = false ∧ held.store.op.isLoading = false ∧ held.channels[0].coupled = true) ∧
    (idle.Listening ∧ idle.channels[0].coupled = false ∧ idle.channels[0].state ≠ .off ∧
      idle.channels[0].standstill = false) ∧
    ChannelConfig.reset.counts ≠ 0 ∧ 8 ≤ (8 : Byte).toNat :=
  ⟨⟨ready_listens, rfl, rfl, rfl, rfl, rfl, rfl, rfl, rfl⟩, ⟨⟨⟨rfl, rfl⟩, rfl⟩, rfl, rfl, rfl⟩,
    ⟨⟨⟨rfl, rfl⟩, rfl⟩, rfl, by decide +kernel, rfl⟩, by decide, by decide⟩

theorem hyps_ReadFaultsReportsAGroup : ready.Listening ∧ 2 < (3 : Byte).toNat := ⟨ready_listens, by decide⟩

theorem hyps_ClearFaultsClearsNamedFlags :
    ready.Listening ∧ FlagGroup.ofByte 3 = none ∧
    (∃ (g : FlagGroup) (flags : List Flag), FlagGroup.ofByte 0 = some g ∧ g.instances 4 = some flags ∧
      (g = .channel → (255 : Word).toNat < 256) ∧ (g = .coupling → (255 : Word).toNat < 65536)) ∧
    (∃ (g : FlagGroup) (flags : List Flag), FlagGroup.ofByte 1 = some g ∧ g.instances 2 = some flags ∧
      (g = .channel → (65535 : Word).toNat < 256) ∧ (g = .coupling → (65535 : Word).toNat < 65536)) ∧
    (∃ (g : FlagGroup) (flags : List Flag), FlagGroup.ofByte 2 = some g ∧ g.instances 5 = some flags ∧
      (g = .channel → (0 : Word).toNat < 256) ∧ (g = .coupling → (0 : Word).toNat < 65536)) :=
  ⟨ready_listens, rfl, ⟨_, _, rfl, rfl, by decide, by decide⟩, ⟨_, _, rfl, rfl, nofun, by decide⟩,
    ⟨_, _, rfl, rfl, nofun, nofun⟩⟩

/-- The STOP flag set and unmasked, so that its group's summary cannot be cleared. -/
def stopFlagged : State := { ready with faults := { ready.faults with stop := true, summaries := 4, line := true } }

theorem hyps_ClearSummaryClearsOneSummary :
    (ready.Listening ∧ (2 : Byte).toNat = FlagGroup.service.index.val ∧
      ∀ fl : Flag, fl.group = .service → ready.faults.isSet fl = true → ready.faults.masked fl = true) ∧
    stopFlagged.Listening ∧
      ∃ fl : Flag, fl.group = .service ∧ stopFlagged.faults.isSet fl = true ∧ stopFlagged.faults.masked fl = false :=
  ⟨⟨ready_listens, rfl, by
      intro fl hg hs
      have clear : ready.faults.isSet fl = false := by
        cases fl <;> first | rfl | cases hg
      rw [clear] at hs
      cases hs⟩,
    ⟨⟨rfl, rfl⟩, rfl⟩, .stop, rfl, rfl, rfl⟩

theorem hyps_SetMasksWritesEveryMask :
    ready.Listening ∧ (2 ^ 14 ≤ (0x4000 : Word).toNat ∧ (0x3FFF : Word).toNat < 2 ^ 14) ∧
      2 ^ 3 ≤ (8 : Word).toNat ∧ (7 : Word).toNat < 2 ^ 3 :=
  ⟨ready_listens, by decide, by decide, by decide⟩

/-- A saved profile: the reset configurations, and the one record of `pair`. -/
def unsealed (autoLoad : Bool) : Profile :=
  { Profile.blank with
    validMark := true, autoLoad := autoLoad, recordCount := 1
    channels := Vector.replicate 8 ChannelConfig.reset
    records := Profile.blank.records.set 0 pair }

/-- The same profile with its CRC. -/
def saved (autoLoad : Bool) : Profile := { unsealed autoLoad with crc := crc16 (unsealed autoLoad).bytes }

/-- A profile in place 0. -/
def stored (p : Profile) (s : State) : State := { s with store := { s.store with profiles := s.store.profiles.set 0 p } }

theorem test_saved_profile_is_valid : (saved true).isValid = true ∧ (saved false).isValid = true := by decide +kernel

theorem test_blank_profile_is_not_valid : Profile.blank.isValid = false := by decide +kernel

theorem hyps_StoreRequestsBeginOperations :
    (ready.Listening ∧ ready.TableFree ∧ ready.store.op = .idle ∧ (3 : Byte).toNat = (3 : ProfileNo).val ∧
      ready.store.profiles[3] = Profile.blank ∧ ready.store.profiles[3].isValid = false ∧ 4 ≤ (4 : Byte).toNat ∧
      2 ≤ (2 : Byte).toNat) ∧
    (∀ op : StoreOp, (inStore op ready).Listening ∧ (inStore op ready).store.op = op) ∧
    (held.Listening ∧ held.slots[3] = some (record .held) ∧ (record .held).state.isActive = true) ∧
    (allOpen.Listening ∧ allOpen.edit.buffers[(0 : BufferNo)].isSome = true) ∧
    ((stored (saved false) ready).Listening ∧ (stored (saved false) ready).TableFree ∧
      (stored (saved false) ready).store.profiles[0] ≠ Profile.blank ∧
      (stored (saved false) ready).store.profiles[0].isValid = true ∧
      ¬ ((∃ (i : SlotNo) (r : Record), (stored (saved false) ready).slots[i] = some r ∧ r.state.isActive = true) ∨
        ∃ k : BufferNo, (stored (saved false) ready).edit.buffers[k].isSome = true)) := by
  refine ⟨⟨ready_listens, rfl, rfl, rfl, rfl, by decide +kernel, by decide, by decide⟩,
    fun op => ⟨⟨⟨rfl, rfl⟩, rfl⟩, rfl⟩, ⟨⟨⟨rfl, rfl⟩, rfl⟩, rfl, rfl⟩, ⟨⟨⟨rfl, rfl⟩, rfl⟩, rfl⟩,
    ⟨⟨rfl, rfl⟩, rfl⟩, rfl, by decide +kernel, test_saved_profile_is_valid.2, ?_⟩
  rintro (⟨i, r, hr, -⟩ | ⟨k, hk⟩)
  · have none : ∀ i : SlotNo, ready.slots[i].isNone = true := by decide +kernel
    have := none i
    rw [show ready.slots[i] = some r from hr] at this
    cases this
  · have none : ∀ k : BufferNo, (stored (saved false) ready).edit.buffers[k].isSome = false := by decide +kernel
    rw [none k] at hk
    cases hk

theorem hyps_StoreOperationsEnd (op : StoreOp) :
    ∃ s : State, s.store.op = op ∧ s.arbiter = { inService := some .saveSnapshot, waiting := [], deferred := [] } :=
  ⟨inAccess .saveSnapshot (inStore op ready), rfl, rfl⟩

/-- A copy with bits at one in each kind of item, no auto-load, and places without a saved record. -/
theorem hyps_StoreOperationsEnd_copy :
    (saved false).autoLoad = false ∧ (saved false).recordCount.toNat ≤ 16 ∧
      (saved false).recordCount.getLsbD 0 = true ∧
      ((saved false).channels[(7 : ChannelNo)].field .counts).getLsbD 12 = true ∧
      ((saved false).records[(15 : SlotNo)].field .ramp).getLsbD 15 = true ∧
      (saved false).savedRecords.length ≤ (15 : SlotNo).val := by decide +kernel

theorem hyps_ProfileInstallWritesTheTables (op : StoreOp) :
    ∃ s : State, s.arbiter = { inService := some .install, waiting := [], deferred := [] } ∧ s.store.op = op :=
  ⟨inAccess .install (inStore op (stored (saved false) ready)), rfl, rfl⟩

theorem hyps_StartUpGoesToReady :
    (State.reset.startup = .begun ∧ State.reset.resetHeld = false ∧ State.reset.store.profiles[0] = Profile.blank) ∧
    (saved false).autoLoad = false ∧
    (∃ s : State, s.startup = .begun ∧ s.resetHeld = false ∧ s.store.profiles[0] ≠ Profile.blank ∧
      s.store.profiles[0].autoLoad = true ∧ s.store.profiles[0].isValid = false) ∧
    (∃ s : State, s.startup = .begun ∧ s.resetHeld = false ∧ s.store.profiles[0] ≠ Profile.blank ∧
      s.store.profiles[0].autoLoad = true ∧ s.store.profiles[0].isValid = true ∧ s.TableFree) ∧
    (∀ level : Bool, ∃ s : State, s.startup = .settled ∧ s.stopLine = level ∧ s.store.lastResult = .interrupted) ∧
    (∃ s : State, s.startup = .settled ∧ s.stopLine = false ∧
      ¬ (s.store.lastResult = .interrupted ∨ s.store.startupLoad = .invalid)) ∧
    ∃ s : State, s.resetHeld = true :=
  ⟨⟨rfl, rfl, rfl⟩, rfl,
    ⟨stored { saved true with crc := 0 } State.reset, rfl, rfl, by decide +kernel, rfl, by decide +kernel⟩,
    ⟨stored (saved true) State.reset, rfl, rfl, by decide +kernel, rfl, test_saved_profile_is_valid.1, rfl⟩,
    fun level =>
      ⟨{ State.reset with
          startup := .settled, stopLine := level, store := { State.reset.store with lastResult := .interrupted } },
        rfl, rfl, rfl⟩,
    ⟨{ State.reset with startup := .settled }, rfl, rfl, by decide⟩, { State.reset with resetHeld := true }, rfl⟩

theorem hyps_QuadratureEdgesCount (held : Bool) : ∃ s : State, s.resetHeld = held ∧
    s.encoders[(0 : ChannelNo)].phaseA = false ∧ s.encoders[(0 : ChannelNo)].phaseB = false :=
  ⟨{ State.reset with resetHeld := held }, rfl, rfl, rfl⟩

/-- A coupled pair whose channel 0 stands at its third suspect capture, with an illegal transition since the last. -/
def losing : State :=
  { held with
    channels := held.channels.set 0 { running with coupled := true, state := .stale, suspectRun := 3 }
    encoders := held.encoders.set 0 { count := 5, illegal := true, phaseA := false, phaseB := false } }

theorem losing_loses : (losing.channels[(0 : ChannelNo)].takeCapture losing.engine.period (losing.captureNumber + 1)
    losing.encoders[(0 : ChannelNo)].count losing.encoders[(0 : ChannelNo)].illegal).lost = true := rfl

theorem hyps_CaptureAppliesItsSet :
    State.reset.captureTimer = .stopped ∧
    (idle.captureTimer = .running .p500 ∧ (¬ ∃ set, TableEvent.captureSet set ∈ idle.arbiter.deferred) ∧
      idle.channelsHeld = false ∧ ∀ c : ChannelNo, (idle.channels[c].takeCapture idle.engine.period
        (idle.captureNumber + 1) idle.encoders[c].count idle.encoders[c].illegal).lost = false) ∧
    (losing.captureTimer = .running .p500 ∧ (¬ ∃ set, TableEvent.captureSet set ∈ losing.arbiter.deferred) ∧
      losing.arbiter.inService = none ∧ losing.CoupledAgree) ∧
    (∃ s : State, s.captureTimer = .running .p500 ∧ s.channelsHeld = true) ∧
    (∃ (s : State) (set : CaptureSet), s.captureTimer = .running .p500 ∧
      TableEvent.captureSet set ∈ s.arbiter.deferred) ∧
    ∃ s : State, s.captureTimer = .running .p500 ∧ s.channelsHeld = false ∧ s.arbiter.inService.isSome = true ∧
      s.channels[(0 : ChannelNo)] = losing.channels[(0 : ChannelNo)] :=
  ⟨rfl, ⟨rfl, nofun, rfl, by decide +kernel⟩,
    ⟨rfl, nofun, rfl, show ∀ c : ChannelNo, losing.channels[c].coupled = losing.coupledNow c by decide +kernel⟩,
    ⟨inAccess .install ready, rfl, rfl⟩,
    ⟨{ ready with arbiter := { inService := some .checkStep, waiting := [], deferred := [.captureSet
        { number := 1, counts := Vector.replicate 8 0, illegal := Vector.replicate 8 false }] } }, _, rfl, .head _⟩,
    inAccess .portSnapshot losing, rfl, rfl, rfl, rfl⟩

theorem hyps_CapturesAreSeedSuspectOrGood :
    (Channel.initial ChannelConfig.reset .off).state = .off ∧
    (∃ ch : Channel, ch.state ≠ .off ∧ ch.seedPending = true) ∧
    (∀ state : ChannelState, state ≠ .off → ∃ ch : Channel, ch.state = state ∧ ch.seedPending = false ∧
      ch.cfg.direction.toNat ≤ 1 ∧ 32767 < ((32768 : Word) - ch.latched).toInt.natAbs ∧
      ¬ 32767 < ((32767 : Word) - ch.latched).toInt.natAbs ∧ ch.standstillRun < 15) ∧
    ∃ ch : Channel, ch.state ≠ .off ∧ ch.seedPending = false ∧ ch.cfg.direction.toNat ≤ 1 ∧ 15 ≤ ch.standstillRun ∧
      (clampTo 100000 (roundDiv (0 * ch.travelPerCount * 1000) (65536 * CapturePeriod.p500.micros))).natAbs ≤
        ch.cfg.standstill.toNat :=
  ⟨rfl, ⟨Channel.initial ChannelConfig.reset .waiting, by decide, rfl⟩,
    fun state _ => ⟨{ running with state := state }, rfl, rfl, show running.cfg.direction.toNat ≤ 1 by decide,
      show 32767 < ((32768 : Word) - running.latched).toInt.natAbs by decide +kernel,
      show ¬ 32767 < ((32767 : Word) - running.latched).toInt.natAbs by decide +kernel,
      show running.standstillRun < 15 by decide⟩,
    { running with standstillRun := 15 }, by decide, rfl, by decide, by decide, by decide +kernel⟩

theorem hyps_StopEmptiesTheActiveStates :
    (State.reset.stopLine = false ∧ State.reset.startup ≠ .ready) ∧
    (held.stopLine = false ∧ held.startup = .ready ∧ held.TableFree) ∧
    (∃ s : State, s.stopLine = true ∧ s.startup ≠ .ready) ∧
    (∃ s : State, s.stopLine = true ∧ s.startup = .ready ∧ s.TableFree) ∧
    ∀ level : Bool, ∃ s : State, s.startup = .ready ∧ s.arbiter.inService.isSome = true ∧ s.stopLine = level :=
  ⟨⟨rfl, by decide⟩, ⟨rfl, rfl, rfl⟩, ⟨{ State.reset with stopLine := true }, rfl, by decide⟩,
    ⟨{ ready with stopLine := true }, rfl, rfl, rfl⟩,
    fun level => ⟨{ inAccess .portSnapshot ready with stopLine := level }, rfl, rfl, rfl⟩⟩

/-- The part in a check step at a scan position. -/
def scanning (at_ : ScanPosition) (s : State) : State :=
  { inAccess .checkStep s with checker := { s.checker with scan := at_ } }

theorem hyps_CheckScanStepsAndTests :
    State.reset.checker.timerRunning = false ∧
    (ready.checker.timerRunning = true ∧ ready.arbiter.inService ≠ some .checkStep ∧
      Access.checkStep ∉ ready.arbiter.waiting) ∧
    (∃ s : State, s.arbiter = { inService := some .checkStep, waiting := [], deferred := [] } ∧
      s.checker.scan = .channel 7 ∧ crc16 s.channels[(7 : ChannelNo)].cfg.bytes = s.channels[(7 : ChannelNo)].check) ∧
    (∃ s : State, s.arbiter = { inService := some .checkStep, waiting := [], deferred := [] } ∧
      s.checker.scan = .slot 4 ∧ (∀ j : SlotNo, 4 ≤ j → s.slots[j] = none) ∧
      crc16 s.channels[(0 : ChannelNo)].cfg.bytes = s.channels[(0 : ChannelNo)].check) ∧
    ∀ test : Option SlotNo, ∃ s : State, s.arbiter = { inService := some .checkStep, waiting := [], deferred := [] } ∧
      s.checker.scan = .slot 0 ∧ s.slots[(3 : SlotNo)] = some (record .idle) ∧
      (∀ k : SlotNo, 0 ≤ k → k < 3 → s.slots[k] = none) ∧ crc16 (record .idle).cfg.bytes = (record .idle).check ∧
      s.checker.pendingTest = test :=
  ⟨rfl, ⟨rfl, nofun, nofun⟩, ⟨scanning (.channel 7) ready, rfl, rfl, by decide +kernel⟩,
    ⟨scanning (.slot 4) idle, rfl, rfl, by decide +kernel, by decide +kernel⟩,
    fun test => ⟨{ scanning (.slot 0) idle with checker := { idle.checker with scan := .slot 0, pendingTest := test } },
      rfl, rfl, rfl, show ∀ k : SlotNo, 0 ≤ k → k < 3 → idle.slots[k] = none by decide +kernel, by decide +kernel, rfl⟩⟩

/-- A record whose check value no longer agrees. -/
def decayed (state : RecordState) : Record := { record state with check := ~~~(record state).check }

/-- A mismatch on the channel of the scan position, on channel 0 from a slot with no record left, on the record of the
scan position and on one reached past VACANT slots. -/
theorem hyps_CheckMismatchTakesOutOfService :
    (∀ state : ChannelState, ∃ s : State,
      s.arbiter = { inService := some .checkStep, waiting := [], deferred := [] } ∧ s.CoupledAgree ∧
      s.checker.scan = .channel 5 ∧
      crc16 s.channels[(5 : ChannelNo)].cfg.bytes ≠ s.channels[(5 : ChannelNo)].check ∧
      s.channels[(5 : ChannelNo)].state = state) ∧
    (∀ state : ChannelState, ∃ s : State,
      s.arbiter = { inService := some .checkStep, waiting := [], deferred := [] } ∧ s.CoupledAgree ∧
      s.checker.scan = .slot 4 ∧ (∀ j : SlotNo, 4 ≤ j → s.slots[j] = none) ∧
      crc16 s.channels[(0 : ChannelNo)].cfg.bytes ≠ s.channels[(0 : ChannelNo)].check ∧
      s.channels[(0 : ChannelNo)].state = state) ∧
    ∀ i ∈ [(3 : SlotNo), 1],
      ∃ s : State, s.arbiter = { inService := some .checkStep, waiting := [], deferred := [] } ∧ s.CoupledAgree ∧
        s.checker.scan = .slot i ∧ i ≤ 3 ∧ s.slots[(3 : SlotNo)] = some (decayed .held) ∧
        (∀ k : SlotNo, i ≤ k → k < 3 → s.slots[k] = none) ∧ crc16 (decayed .held).cfg.bytes ≠ (decayed .held).check := by
  have reset : crc16 ChannelConfig.reset.bytes ≠ 0 := by decide +kernel
  have agrees : ∀ c : ChannelNo, (holding true (decayed .held)).channels[c].coupled =
      (holding true (decayed .held)).coupledNow c := by decide +kernel
  refine ⟨fun state => ⟨{ scanning (.channel 5) ready with
      channels := State.reset.channels.set 5 { Channel.initial ChannelConfig.reset state with check := 0 } },
      rfl, fun c => ?_, rfl, reset, rfl⟩,
    fun state => ⟨{ scanning (.slot 4) ready with
      channels := State.reset.channels.set 0 { Channel.initial ChannelConfig.reset state with check := 0 } },
      rfl, fun c => ?_, rfl, show ∀ j : SlotNo, 4 ≤ j → ready.slots[j] = none by decide +kernel, reset, rfl⟩,
    fun i hi => ⟨scanning (.slot i) (holding true (decayed .held)), rfl, agrees, rfl, ?_, rfl, ?_, by decide +kernel⟩⟩
  · fin_cases c <;> rfl
  · fin_cases c <;> rfl
  · rcases List.mem_pair.mp hi with rfl | rfl <;> decide
  · show ∀ k : SlotNo, i ≤ k → k < 3 → (holding true (decayed .held)).slots[k] = none
    rcases List.mem_pair.mp hi with rfl | rfl <;> decide +kernel

theorem hyps_ArithmeticOfTheLaw_and_StateHandlingByStateFound (state : RecordState) :
    (record state).state = state ∧ (record state).cfg.share.toNat ≤ 8 := ⟨rfl, show pair.share.toNat ≤ 8 by decide +kernel⟩

theorem hyps_ComputationUpdatesAndPosts :
    (∀ state : RecordState, ∃ s : State,
      s.arbiter = { inService := some (.computation 5), waiting := [], deferred := [] } ∧
      s.slots[(3 : SlotNo)] = some (record state) ∧ s.slots[(4 : SlotNo)] = none ∧ s.link.round = none) ∧
    ∃ s : State, s.arbiter = { inService := some (.computation 5), waiting := [], deferred := [] } ∧
      s.link.round = some (round .sending [1]) :=
  ⟨fun state => ⟨inAccess (.computation 5) (holding true (record state)), rfl, rfl, rfl, rfl⟩,
    inAccess (.computation 5) (inRound .sending [1] held), rfl, rfl⟩

theorem hyps_DueEntriesExpire :
    ∃ s : State, s.arbiter = { inService := some (.expiry 5), waiting := [], deferred := [] } ∧
      s.completions[(3 : SlotNo)] = some (.readyForm .formed { capture := 1, deadline := some 5 }) :=
  ⟨inAccess (.expiry 5) (withEntry (.readyForm .formed { capture := 1, deadline := some 5 }) idle), rfl, rfl⟩

theorem hyps_ExchangesPassThroughTheirPhases (phase : ExchangePhase) (remaining : List ChannelNo) :
    (∃ (s : State) (rd : Round), s.link.round = some rd ∧ rd.phase = phase ∧ rd.remaining = remaining) ∧
    State.reset.link.round = none ∧ (List.replicate 40 true)[10 * 3]? = some true ∧
    (List.replicate 40 false)[10 * 3 + 9]? = some false :=
  ⟨⟨inRound phase remaining held, _, rfl, rfl, rfl⟩, rfl, rfl, rfl⟩

/-- The judged exchange of channel 0 in each state, a miss at the miss limit and before it, with the table free and
with any access in service. -/
theorem hyps_DriveStatusActsOnTheChannel (result : DriveResult) (state : ChannelState) (misses : Nat)
    (access : Option Access) :
    ∃ (s : State) (rd : Round), s.link.round = some rd ∧ rd.phase = .judged result ∧
      TableEvent.driveStatus ∉ s.arbiter.deferred ∧ s.arbiter.inService = access ∧
      s.channels[rd.message.channel].state = state ∧ s.channels[rd.message.channel].missRun = misses ∧
      s.engine.missLimit = 3 :=
  ⟨{ inRound (.judged result) [1] ready with
      arbiter := { inService := access, waiting := [], deferred := [] }
      channels := State.reset.channels.set 0 { running with state := state, missRun := misses } },
    _, rfl, rfl, nofun, rfl, rfl, rfl, rfl⟩

/-- The accesses that hold the Channel Table, and those that do not. -/
theorem hyps_channelsHeld : (inAccess (.expiry 5) ready).channelsHeld = true ∧
    (inAccess .group ready).channelsHeld = false ∧ ready.channelsHeld = false := ⟨rfl, rfl, rfl⟩

/-! ### One step of each kind -/

/-- A command answers a next state that passes a test. -/
def leaves (o : Host.Outcome State Fault Refusal) (p : State → Bool) : Bool :=
  match o with
  | .next t => p t
  | .fault _ | .refused _ => false

theorem test_form_is_pending :
    leaves (exec (.form 7 0x1234 0) idle) (fun t =>
      t.port.reply = Reply.plain 0x20 7 .pending && t.activeAt 3 && t.coupledNow 1) = true := by decide +kernel

theorem test_edge_counts_up :
    leaves (exec (.quadratureEdge 2 true false) ready) (fun t =>
      t.encoders[2].count == 1 && !t.encoders[2].illegal) = true := by decide +kernel

theorem test_stop_breaks_a_held_record :
    leaves (exec .stopAsserted held) (fun t =>
      t.slots[3].map Record.state == some (.broken .stop) && t.faults.line && !t.anyActive) = true := by decide +kernel

theorem test_commit_is_answered_after_its_application :
    leaves (exec (.commit 9 0x1234) (editing 0 oldEdit idle)) (fun t =>
      t.port.service.isSome && leaves (exec .editApplication t) (fun u =>
        u.port.reply.result == .done && u.port.reply.edit == .applied && u.arbiter.inService.isNone)) = true := by
  decide +kernel

theorem test_capture_requests_its_computation :
    leaves (exec .capture idle) (fun t =>
      t.captureNumber == 1 && t.arbiter.inService == some (.computation 1)) = true := by decide +kernel

end Sys2Proof.Tests
end

