-- ==== Sys2Proof/Proofs/GroupMode.lean ====
section
/-! SUPPORT. Begin Group and Abort Group: what each does in and out of group mode, and the statements about them. -/

namespace Sys2Proof.Machine

/-! ### The count of open buffers -/

/-- The entries of a vector in ascending place are its list. -/
theorem map_finRange_getElem {α : Type} {n : Nat} (v : Vector α n) :
    (List.finRange n).map (fun k => v[k]) = v.toList := by
  apply List.ext_getElem <;> simp

/-- The list of open buffers holds as many as are not FREE (R86). -/
theorem openBuffers_length (e : EditUnit) : e.openBuffers.length = e.buffers.toList.countP Option.isSome := by
  calc e.openBuffers.length
      = (List.finRange 4).countP (fun k => e.buffers[k].isSome) := by
        simp [EditUnit.openBuffers, List.length_filterMap_eq_countP]
    _ = ((List.finRange 4).map (fun k => e.buffers[k])).countP Option.isSome := by
        rw [List.countP_map]; rfl
    _ = e.buffers.toList.countP Option.isSome := by rw [map_finRange_getElem]

/-! ### The two owners' judgements -/

theorem beginGroup_of_single {s : State} (h : s.edit.groupMode = false) :
    s.beginGroup = ({ s with edit := { s.edit with groupMode := true } }, { result := .done }) := by
  simp [State.beginGroup, h]

theorem beginGroup_of_group {s : State} (h : s.edit.groupMode = true) :
    s.beginGroup = (s, { result := .groupOpen }) := by
  simp [State.beginGroup, h]

theorem abortGroup_of_group {s : State} (h : s.edit.groupMode = true) :
    s.abortGroup =
      (s.endGroup, { result := .done, a := BitVec.ofNat 32 (s.edit.buffers.toList.countP Option.isSome) }) := by
  simp [State.abortGroup, h, openBuffers_length]

theorem abortGroup_of_single {s : State} (h : s.edit.groupMode = false) :
    s.abortGroup = (s, { result := .noGroup }) := by
  simp [State.abortGroup, h]

/-! ### From the frame to the reply -/

theorem exec_beginGroup_of_listening (seq : Byte) {s : State} (h : s.Listening) :
    exec (.beginGroup seq) s = .next (State.answered 0x12 seq s.raised.beginGroup) :=
  congrArg Host.Outcome.next (ask_of_listening s 0x12 seq State.beginGroup h)

theorem exec_abortGroup_of_listening (seq : Byte) {s : State} (h : s.Listening) :
    exec (.abortGroup seq) s = .next (State.answered 0x14 seq s.raised.abortGroup) :=
  congrArg Host.Outcome.next (ask_of_listening s 0x14 seq State.abortGroup h)

end Sys2Proof.Machine

open Sys2Proof Sys2Proof.Machine

/-- Settles O30: the rise hands the request to the Edit Unit, whose list of open buffers has the counted length. -/
theorem abortGroupFreesBuffers : Obligations.AbortGroupFreesBuffers := by
  intro seq s hs
  refine ⟨fun hg => ?group, fun hg => ?single⟩
  case group =>
    have hg' : s.raised.edit.groupMode = true := hg
    rw [exec_abortGroup_of_listening seq hs, abortGroup_of_group hg']
    rfl
  case single =>
    have hg' : s.raised.edit.groupMode = false := hg
    rw [exec_abortGroup_of_listening seq hs, abortGroup_of_single hg']
    rfl

/-- Settles O29: the rise hands the request to the Edit Unit, which looks at group mode alone. -/
theorem beginGroupTurnsGroupModeOn : Obligations.BeginGroupTurnsGroupModeOn := by
  intro seq s hs
  refine ⟨fun hg => ?single, fun hg => ?group⟩
  case single =>
    have hg' : s.raised.edit.groupMode = false := hg
    rw [exec_beginGroup_of_listening seq hs, beginGroup_of_single hg']
    rfl
  case group =>
    have hg' : s.raised.edit.groupMode = true := hg
    rw [exec_beginGroup_of_listening seq hs, beginGroup_of_group hg']
    rfl

end

