-- ==== Sys2Proof/Proofs/FaultLine.lean ====
section
/-! SUPPORT. Clear Summary and Set Masks: which summaries each leaves set, the line they give, and the statements about
them. -/

namespace Sys2Proof.Machine

/-! ### Groups and their flags -/

/-- The list of a group's flags is complete, and holds no flag of another group. -/
theorem mem_flags (g : FlagGroup) (fl : Flag) : fl ∈ g.flags ↔ fl.group = g := by
  cases g with
  | channel => cases fl <;> simp [FlagGroup.flags, Flag.group]
  | coupling => cases fl <;> simp [FlagGroup.flags, Flag.group]
  | service => cases fl <;> simp [FlagGroup.flags, Flag.group]

theorem ofByte_of_index {b : Byte} {g : FlagGroup} (h : b.toNat = g.index.val) : FlagGroup.ofByte b = some g := by
  unfold FlagGroup.ofByte
  cases g <;> rw [h] <;> rfl

theorem ofByte_of_above {b : Byte} (h : 2 < b.toNat) : FlagGroup.ofByte b = none := by
  unfold FlagGroup.ofByte
  split
  case h_4 => rfl
  all_goals omega

theorem getLsbD_groupBit (g : FlagGroup) (k : Fin 3) : g.bit.getLsbD k = decide (k = g.index) := by
  revert k
  cases g <;> decide

theorem unmaskedSet_iff (f : FaultUnit) (g : FlagGroup) :
    f.unmaskedSet g = true ↔ ∃ fl : Flag, fl.group = g ∧ f.isSet fl = true ∧ f.masked fl = false := by
  simp [FaultUnit.unmaskedSet, mem_flags]

/-! ### The line -/

theorem ne_zero_iff_getLsbD {w : Nat} (x : BitVec w) : x ≠ 0#w ↔ ∃ k : Fin w, x.getLsbD k = true := by
  simp only [ne_eq, BitVec.eq_of_getLsbD_eq_iff, BitVec.getLsbD_zero, not_forall, Bool.not_eq_false, Fin.exists_iff]

/-- R142, bit by bit. -/
theorem lineLevel_iff (f : FaultUnit) :
    f.lineLevel = true ↔ ∃ k : Fin 3, f.summaries.getLsbD k = true ∧ f.lineMasks.getLsbD k = false := by
  calc f.lineLevel = true
      ↔ f.summaries &&& ~~~f.lineMasks ≠ 0#3 := by simp [FaultUnit.lineLevel]
    _ ↔ ∃ k : Fin 3, (f.summaries &&& ~~~f.lineMasks).getLsbD k = true := ne_zero_iff_getLsbD _
    _ ↔ ∃ k : Fin 3, f.summaries.getLsbD k = true ∧ f.lineMasks.getLsbD k = false :=
        exists_congr fun k => by simp only [BitVec.getLsbD_and, BitVec.getLsbD_not, k.isLt, decide_true, Bool.true_and,
          Bool.and_eq_true, Bool.not_eq_true']

/-! ### A dropped summary -/

theorem getLsbD_dropSummary (f : FaultUnit) (g : FlagGroup) (k : Fin 3) :
    (f.dropSummary g).summaries.getLsbD k = (f.summaries.getLsbD k && decide (k ≠ g.index)) := by
  simp only [FaultUnit.dropSummary, FaultUnit.driveLine, BitVec.getLsbD_and, BitVec.getLsbD_not, getLsbD_groupBit,
    k.isLt, decide_true, Bool.true_and, decide_not]

/-! ### New masks -/

/-- The unit with other masks, its summaries and line not yet judged. -/
def FaultUnit.withMasks (f : FaultUnit) (kinds : BitVec 14) (lines : BitVec 3) : FaultUnit :=
  { f with kindMasks := kinds, lineMasks := lines }

theorem isSet_withMasks (f : FaultUnit) (kinds : BitVec 14) (lines : BitVec 3) (fl : Flag) :
    (f.withMasks kinds lines).isSet fl = f.isSet fl := by
  cases fl <;> rfl

/-- The groups are judged one after another under the new masks, then the line (R146). -/
theorem setMasks_eq (f : FaultUnit) (kinds : BitVec 14) (lines : BitVec 3) :
    f.setMasks kinds lines =
      ((((f.withMasks kinds lines).unmaskRaise f.kindMasks .channel).unmaskRaise f.kindMasks .coupling).unmaskRaise
        f.kindMasks .service).driveLine := rfl

/-- The two differ in the summaries and the line at most. -/
def FaultUnit.SameButSummaries (f g : FaultUnit) : Prop :=
  ∃ (summaries : BitVec 3) (line : Bool), g = { f with summaries := summaries, line := line }

theorem FaultUnit.SameButSummaries.trans {f g h : FaultUnit} (x : f.SameButSummaries g) (y : g.SameButSummaries h) :
    f.SameButSummaries h := by
  obtain ⟨_, _, rfl⟩ := x
  obtain ⟨_, _, rfl⟩ := y
  exact ⟨_, _, rfl⟩

theorem FaultUnit.SameButSummaries.isSet {f g : FaultUnit} (x : f.SameButSummaries g) (fl : Flag) :
    g.isSet fl = f.isSet fl := by
  obtain ⟨_, _, rfl⟩ := x
  cases fl <;> rfl

theorem FaultUnit.SameButSummaries.masked {f g : FaultUnit} (x : f.SameButSummaries g) (fl : Flag) :
    g.masked fl = f.masked fl := by
  obtain ⟨_, _, rfl⟩ := x
  rfl

theorem unmaskRaise_sameButSummaries (f : FaultUnit) (old : BitVec 14) (g : FlagGroup) :
    f.SameButSummaries (f.unmaskRaise old g) := by
  unfold FaultUnit.unmaskRaise
  split
  · exact ⟨_, _, rfl⟩
  · exact ⟨_, _, rfl⟩

/-- A set flag of the group has a kind that the old masks masked and those of the unit do not (R141, R146). -/
def FaultUnit.Unmasks (f : FaultUnit) (old : BitVec 14) (g : FlagGroup) : Prop :=
  ∃ fl : Flag, fl.group = g ∧ f.isSet fl = true ∧ old.getLsbD fl.kind = true ∧ f.masked fl = false

theorem unmasks_unmaskRaise (f : FaultUnit) (old : BitVec 14) (g other : FlagGroup) :
    (f.unmaskRaise old g).Unmasks old other ↔ f.Unmasks old other := by
  have same := unmaskRaise_sameButSummaries f old g
  simp only [FaultUnit.Unmasks, same.isSet, same.masked]

/-- Unmasking sets the summary of its own group, where it unmasks a kind with a set flag. -/
theorem summary_unmaskRaise (f : FaultUnit) (old : BitVec 14) (g other : FlagGroup) :
    (f.unmaskRaise old g).summary other = true ↔
      f.summary other = true ∨ other = g ∧ f.Unmasks old g := by
  have any_iff : g.flags.any (fun fl => f.isSet fl && old.getLsbD fl.kind && !f.masked fl) = true ↔
      f.Unmasks old g := by
    simp [FaultUnit.Unmasks, mem_flags, and_assoc]
  unfold FaultUnit.unmaskRaise
  split
  case isTrue h => simp [summary_raise, any_iff.mp h, or_comm]
  case isFalse h => simp [mt any_iff.mpr h]

/-- New masks change the masks, the summaries and the line alone. -/
theorem setMasks_frame (f : FaultUnit) (kinds : BitVec 14) (lines : BitVec 3) :
    (f.withMasks kinds lines).SameButSummaries (f.setMasks kinds lines) :=
  have channel := unmaskRaise_sameButSummaries (f.withMasks kinds lines) f.kindMasks .channel
  have coupling := channel.trans (unmaskRaise_sameButSummaries _ f.kindMasks .coupling)
  have service := coupling.trans (unmaskRaise_sameButSummaries _ f.kindMasks .service)
  service.trans ⟨_, _, rfl⟩

theorem unmasks_withMasks (f : FaultUnit) (kinds : BitVec 14) (lines : BitVec 3) (g : FlagGroup) :
    (f.withMasks kinds lines).Unmasks f.kindMasks g ↔
      ∃ fl : Flag, fl.group = g ∧ f.isSet fl = true ∧ f.masked fl = true ∧ kinds.getLsbD fl.kind = false := by
  simp only [FaultUnit.Unmasks, isSet_withMasks]
  rfl

/-- New masks set the summary of each group in which they unmask a kind with a set flag (R146). -/
theorem summary_setMasks (f : FaultUnit) (kinds : BitVec 14) (lines : BitVec 3) (g : FlagGroup) :
    (f.setMasks kinds lines).summary g = true ↔
      f.summary g = true ∨ (f.withMasks kinds lines).Unmasks f.kindMasks g := by
  have summaries : (f.withMasks kinds lines).summary g = f.summary g := rfl
  have lineAfter (x : FaultUnit) : x.driveLine.summary g = x.summary g := rfl
  simp only [setMasks_eq, lineAfter, summary_unmaskRaise, unmasks_unmaskRaise, summaries]
  cases g <;> simp

/-! ### The owner's judgements -/

theorem clearSummary_of_none {s : State} {index : Byte} (h : FlagGroup.ofByte index = none) :
    s.clearSummary index = (s, { result := .range }) := by
  simp [State.clearSummary, h]

theorem clearSummary_of_unmaskedSet {s : State} {index : Byte} {g : FlagGroup} (h : FlagGroup.ofByte index = some g)
    (hu : s.faults.unmaskedSet g = true) : s.clearSummary index = (s, { result := .stillSet }) := by
  simp [State.clearSummary, h, hu]

theorem clearSummary_of_clear {s : State} {index : Byte} {g : FlagGroup} (h : FlagGroup.ofByte index = some g)
    (hu : s.faults.unmaskedSet g = false) :
    s.clearSummary index = ({ s with faults := s.faults.dropSummary g }, { result := .done }) := by
  simp [State.clearSummary, h, hu]

theorem setMasks_of_unnamed {s : State} {a b : Word} (h : 2 ^ 14 ≤ a.toNat ∨ 2 ^ 3 ≤ b.toNat) :
    s.setMasks a b = (s, { result := .range }) := by
  rw [State.setMasks, if_pos (by simpa using h)]

theorem setMasks_of_named {s : State} {a b : Word} (ha : a.toNat < 2 ^ 14) (hb : b.toNat < 2 ^ 3) :
    s.setMasks a b =
      ({ s with faults := s.faults.setMasks (a.setWidth 14) (b.setWidth 3) }, { result := .done }) := by
  rw [State.setMasks, if_neg (by simpa using ⟨ha, hb⟩)]

/-! ### From the frame to the reply -/

theorem exec_clearSummary_of_listening (seq index : Byte) {s : State} (h : s.Listening) :
    exec (.clearSummary seq index) s = .next (State.answered 0x52 seq (s.raised.clearSummary index)) :=
  congrArg Host.Outcome.next (ask_of_listening s 0x52 seq (fun t => t.clearSummary index) h)

theorem exec_setMasks_of_listening (seq : Byte) (a b : Word) {s : State} (h : s.Listening) :
    exec (.setMasks seq a b) s = .next (State.answered 0x53 seq (s.raised.setMasks a b)) :=
  congrArg Host.Outcome.next (ask_of_listening s 0x53 seq (fun t => t.setMasks a b) h)

end Sys2Proof.Machine

open Sys2Proof Sys2Proof.Machine

/-- Settles O43: the Fault Unit looks for an unmasked set flag of the group, and drops the one summary if it finds
none; the line is then judged by its level. -/
theorem clearSummaryClearsOneSummary : Obligations.ClearSummaryClearsOneSummary := by
  intro seq index s hs
  rw [exec_clearSummary_of_listening seq index hs]
  refine ⟨fun above => ?range, fun g hg => ⟨fun held => ?stillSet, fun masked => ?done⟩⟩
  case range =>
    rw [clearSummary_of_none (ofByte_of_above above)]
    rfl
  case stillSet =>
    have hu : s.raised.faults.unmaskedSet g = true := (unmaskedSet_iff _ _).mpr held
    rw [clearSummary_of_unmaskedSet (ofByte_of_index hg) hu]
    rfl
  case done =>
    have hu : s.raised.faults.unmaskedSet g = false := by
      rw [Bool.eq_false_iff, ne_eq, unmaskedSet_iff]
      rintro ⟨fl, group, set, unmasked⟩
      exact Bool.eq_false_iff.mp unmasked (masked fl group set)
    refine ⟨(s.faults.dropSummary g).summaries, (s.faults.dropSummary g).line, ?_, getLsbD_dropSummary s.faults g, ?_⟩
    · rw [clearSummary_of_clear (ofByte_of_index hg) hu]
      rfl
    · rw [line_drop, lineLevel_iff]
      rfl

/-- Settles O44: the new masks stand, each group in turn raises its summary where they unmask a set flag, and the line
is then judged by its level. -/
theorem setMasksWritesEveryMask : Obligations.SetMasksWritesEveryMask := by
  intro seq a b s hs
  rw [exec_setMasks_of_listening seq a b hs]
  refine ⟨fun unnamed => ?range, fun ha hb => ?done⟩
  case range =>
    rw [setMasks_of_unnamed unnamed]
    rfl
  case done =>
    have summary (g : FlagGroup) := (summary_setMasks s.faults (a.setWidth 14) (b.setWidth 3) g).trans
      (or_congr_right (unmasks_withMasks s.faults (a.setWidth 14) (b.setWidth 3) g))
    have level := lineLevel_iff (s.faults.setMasks (a.setWidth 14) (b.setWidth 3))
    rw [← setMasks_line] at level
    obtain ⟨summaries, line, frame⟩ := setMasks_frame s.faults (a.setWidth 14) (b.setWidth 3)
    rw [frame] at level
    simp only [frame] at summary
    refine ⟨summaries, line, ?_, fun g => ?_, ?_⟩
    · rw [setMasks_of_named ha hb]
      exact congrArg (fun f => Host.Outcome.next { s.replied (Reply.plain 0x53 seq .done) with faults := f }) frame
    · have kinds_at (k : Fin 14) : (a.setWidth 14).getLsbD k = a.getLsbD k := by simp
      simp only [kinds_at] at summary
      exact summary g
    · have lines_at (k : Fin 3) : (b.setWidth 3).getLsbD k = b.getLsbD k := by simp
      simp only [FaultUnit.withMasks, lines_at] at level
      exact level

end

