-- ==== Sys2Proof/Proofs/FaultLineLevel.lean ====
section
/-! SUPPORT. The FAULT line follows the summaries: every change of `Kept` judges the line afresh or leaves it alone. -/

namespace Sys2Proof.Machine

theorem FaultUnit.Raised.line {f g : FaultUnit} {event : Flag → Prop} (h : f.Raised g event)
    (hl : f.line = f.lineLevel) : g.line = g.lineLevel := by
  obtain ⟨-, -, -, -, -, -, -, line⟩ := h
  exact line hl

theorem lineAgrees_channelStep {s : State} (c : ChannelNo) (st : ChannelStep) (h : s.LineAgrees) :
    (s.takeChannelStep c st).LineAgrees := by
  obtain ⟨quiet, loses⟩ := takeChannelStep_spec s c st
  cases hl : st.lost with
  | false => exact (quiet hl).2.line h
  | true =>
    obtain ⟨⟨-, -, raised, -⟩, -⟩ := loses hl
    exact raised.line h

theorem lineAgrees_clearFlag {f : FaultUnit} (fl : Flag) (h : f.line = f.lineLevel) :
    (f.clearFlag fl).line = (f.clearFlag fl).lineLevel := by
  obtain ⟨-, summaries, lineMasks, line, -⟩ := clearFlag_rest f fl
  rw [line, h, FaultUnit.lineLevel, FaultUnit.lineLevel, summaries, lineMasks]

theorem markFailed_faults (s : State) (i : SlotNo) : (s.markFailed i).faults = s.faults := by
  unfold State.markFailed
  split <;> rfl

theorem recordMismatch_faults (s : State) (i : SlotNo) :
    (s.recordMismatch i).faults = (s.cutAt i .check).faults.report (.couplingCheck i) .mismatch :=
  congrArg (fun f => f.report (.couplingCheck i) .mismatch) (markFailed_faults (s.cutAt i .check) i)

theorem releaseAt_faults (s : State) (i : SlotNo) (r : Record) : (s.releaseAt i r).faults = s.faults := by
  unfold State.releaseAt
  split
  case h_3 => rw [giveForm_eq]; rfl
  all_goals rfl

theorem lineAgrees_kept : Kept State.LineAgrees where
  same s t e h := by rw [State.LineAgrees, e.faults]; exact h
  report s fl k h := report_line s.faults fl k h
  lastReject _ _ h := h
  clearFlag _ fl h := lineAgrees_clearFlag fl h
  dropSummary s g _ := line_drop s.faults g
  setMasks s k l _ := setMasks_line s.faults k l
  capture _ c _ h := lineAgrees_channelStep c _ h
  drive _ c _ _ h := lineAgrees_channelStep c _ h
  channelCheck _ c h := lineAgrees_channelStep c _ h
  written _ _ _ _ _ h := h
  stop s h := by
    obtain ⟨-, raised, -⟩ := takeStop_spec s
    exact raised.line h
  stopRelease _ h := h
  edit _ _ _ h := h
  form _ _ _ _ _ h := h
  collect _ _ _ _ _ h := h
  release s i r _ h := by rw [State.LineAgrees, releaseAt_faults]; exact h
  waitRelease _ _ _ _ _ _ _ _ h := h
  retire _ _ _ _ _ _ h := h
  offset _ _ _ _ _ h := h
  recordCheck s i _ _ h := by
    rw [State.LineAgrees, recordMismatch_faults]
    exact report_line _ _ _ ((cutAt_raised s i .check).line h)
  compute s n h := by
    obtain ⟨_, _, _, eq, -, raised, -⟩ := compute_spec s n
    rw [eq]
    exact raised.line h
  expire s n h := (reportIf_raised _ _ _).line h
  install _ _ h := h
  reset _ _ _ _ := show FaultUnit.reset.line = FaultUnit.reset.lineLevel by decide

end Sys2Proof.Machine

open Sys2Proof Sys2Proof.Machine

/-- Settles O4: the line is judged afresh wherever a summary or a line mask changes, and stands elsewhere. -/
theorem faultLineFollowsSummaries : Obligations.FaultLineFollowsSummaries :=
  fun _ _ h hs => lineAgrees_kept.step h hs

end

