-- ==== Sys2Proof/Proofs/ForestPostsRuns.lean ====
section
/-! SUPPORT. The active couplings stay a forest: every change of `Kept` narrows them, but an accepted Form, which the
forest rule has judged. -/

namespace Sys2Proof.Machine

theorem conflicts_of_accepted {s : State} {r : Record} (h : s.formRefusal r = none) :
    s.conflicts r.cfg.leaderNo r.cfg.followerNo = false := by
  unfold State.formRefusal at h
  split_ifs at h
  simpa using ‹¬ s.conflicts r.cfg.leaderNo r.cfg.followerNo = true›

theorem narrows_expire (s : State) (n : Word) : s.Narrows (s.expire n) :=
  narrows_of_slots (by unfold State.expire; rw [reportIf_eq])

theorem forest_kept : Kept State.Forest where
  same _ _ e := forest_of_narrows (narrows_of_slots e.slots)
  report _ _ _ h := h
  lastReject _ _ h := h
  clearFlag _ _ h := h
  dropSummary _ _ h := h
  setMasks _ _ _ h := h
  capture s c _ := forest_of_narrows (narrows_channelStep s c _)
  drive s c _ _ := forest_of_narrows (narrows_channelStep s c _)
  channelCheck s c := forest_of_narrows (narrows_channelStep s c _)
  written _ _ _ _ _ h := h
  stop s := forest_of_narrows (narrows_stop s)
  stopRelease _ h := h
  edit s b hb := forest_of_narrows (narrows_edit s b hb)
  form _ _ _ _ accepted h := forest_of_join h (conflicts_of_accepted accepted) rfl rfl
  collect _ _ _ _ _ h := h
  release s i r hr := forest_of_narrows (narrows_release s i r hr)
  waitRelease _ _ _ _ _ _ _ _ h := h
  retire _ _ _ _ _ _ := forest_of_narrows (narrows_clear rfl fun _ e => nomatch e)
  offset _ _ _ _ hr := forest_of_narrows (narrows_set hr rfl fun ha => ⟨ha, rfl, rfl⟩)
  recordCheck s i _ _ := forest_of_narrows (narrows_recordCheck s i)
  compute s n := forest_of_narrows (narrows_compute s n)
  expire s n := forest_of_narrows (narrows_expire s n)
  install s p := forest_of_narrows (narrows_install s p)
  reset s held deaf := forest_of_narrows (narrows_reset s held deaf)

end Sys2Proof.Machine

open Sys2Proof Sys2Proof.Machine

/-- Settles O32: an accepted Form joins a pair that the forest rule found free of conflict, and no other change gives
an active record another pair or makes one active. -/
theorem activeCouplingsFormAForest : Obligations.ActiveCouplingsFormAForest :=
  fun _ _ h hs => forest_kept.step h hs

end

section
/-! SUPPORT. Posted corrections and link slots are written together. -/

namespace Sys2Proof.Machine

theorem posted_takeCapture (p : CapturePeriod) (ch : Channel) (n raw : Word) (illegal : Bool) :
    (ch.takeCapture p n raw illegal).entry.posted = ch.posted := by
  unfold Channel.takeCapture
  split_ifs <;> rfl

theorem posted_takeDrive (limit : Nat) (ch : Channel) (r : DriveResult) :
    (ch.takeDrive limit r).entry.posted = ch.posted := by
  unfold Channel.takeDrive
  split_ifs
  · rfl
  · split <;> rfl

theorem posted_written (ch : Channel) (f : ChannelField) (w : Word) : (ch.written f w).posted = ch.posted := by
  unfold Channel.written
  split <;> split_ifs <;> rfl

theorem posts_get_set (v : Vector Int 8) (c d : ChannelNo) (x : Int) :
    (v.set c x)[d] = if d = c then x else v[d] := by
  simp only [Fin.getElem_fin, Vector.getElem_set, Fin.ext_iff, eq_comm (a := c.val)]

theorem postsAgree_set {s t : State} {c : ChannelNo} {entry : Channel} (h : s.PostsAgree)
    (channels : t.channels = s.channels.set c entry) (slots : t.link.slots = s.link.slots)
    (posted : entry.posted = s.channels[c].posted) : t.PostsAgree := by
  intro d
  rw [channels, slots, channels_get_set]
  split_ifs with e
  · rw [posted, e]
    exact h c
  · exact h d

theorem postsAgree_lost {s t : State} {c : ChannelNo} {entry : Channel} {also : Flag → Prop} (h : s.PostsAgree)
    (lost : s.LostAt t c entry also) : t.PostsAgree := by
  obtain ⟨-, slots, -, own, other, -⟩ := lost
  intro d
  rw [slots, posts_get_set]
  split_ifs with e
  · rw [e, own]
  · rw [other d e]
    exact h d

theorem postsAgree_channelStep {s : State} {c : ChannelNo} {st : ChannelStep} (h : s.PostsAgree)
    (posted : st.entry.posted = s.channels[c].posted) : (s.takeChannelStep c st).PostsAgree := by
  obtain ⟨quiet, loses⟩ := takeChannelStep_spec s c st
  cases hl : st.lost with
  | false =>
    rw [(quiet hl).1]
    exact postsAgree_set h rfl rfl posted
  | true => exact postsAgree_lost h (loses hl).1

/-- The channel entries of t are those of s but for their coupled indications. -/
def State.OnlyCoupled (s t : State) : Prop :=
  ∀ c : ChannelNo, t.channels[c] = { s.channels[c] with coupled := t.channels[c].coupled }

theorem onlyCoupled_of_channels {s t : State} (h : t.channels = s.channels) : s.OnlyCoupled t := fun _ => by rw [h]

theorem onlyCoupled_recouple {s t : State} (h : t.channels = s.channels) : s.OnlyCoupled t.recouple := by
  intro c
  simp [State.recouple, h]

theorem onlyCoupled_release (s : State) (i : SlotNo) (r : Record) : s.OnlyCoupled (s.releaseAt i r) := by
  unfold State.releaseAt
  split
  case h_3 => exact onlyCoupled_recouple (by rw [giveForm_eq]; rfl)
  all_goals exact onlyCoupled_of_channels rfl

theorem markFailed_eq (s : State) (i : SlotNo) : s.markFailed i = { s with slots := (s.markFailed i).slots } := by
  unfold State.markFailed
  split <;> rfl

theorem recordMismatch_before (s : State) (i : SlotNo) :
    ((s.cutAt i .check).markFailed i).channels = s.channels ∧ ((s.cutAt i .check).markFailed i).link = s.link ∧
      ((s.cutAt i .check).markFailed i).engine = s.engine ∧
      ((s.cutAt i .check).markFailed i).completions = (s.cutAt i .check).completions := by
  rw [markFailed_eq, cutAt_eq]
  exact ⟨rfl, rfl, rfl, rfl⟩

theorem onlyCoupled_recordMismatch (s : State) (i : SlotNo) : s.OnlyCoupled (s.recordMismatch i) := by
  obtain ⟨channels, -⟩ := recordMismatch_before s i
  exact onlyCoupled_recouple channels

theorem releaseAt_link (s : State) (i : SlotNo) (r : Record) : (s.releaseAt i r).link = s.link := by
  unfold State.releaseAt
  split
  case h_3 => rw [giveForm_eq]; rfl
  all_goals rfl

theorem postsAgree_onlyCoupled {s t : State} (e : s.OnlyCoupled t) (slots : t.link.slots = s.link.slots)
    (h : s.PostsAgree) : t.PostsAgree := by
  intro c
  rw [e c, slots]
  exact h c

theorem postsAgree_kept : Kept State.PostsAgree where
  same _ _ e h c := by rw [e.channels, e.posts]; exact h c
  report _ _ _ h := h
  lastReject _ _ h := h
  clearFlag _ _ h := h
  dropSummary _ _ h := h
  setMasks _ _ _ h := h
  capture _ _ _ h := postsAgree_channelStep h (posted_takeCapture _ _ _ _ _)
  drive _ _ _ _ h := postsAgree_channelStep h (posted_takeDrive _ _ _)
  channelCheck _ _ h := postsAgree_channelStep h rfl
  written _ _ _ _ _ h := postsAgree_set h rfl rfl (posted_written _ _ _)
  stop s _ c := by rw [(takeStop_spec s).1]; simp
  stopRelease _ h := h
  edit _ _ _ h := h
  form _ _ _ _ _ := postsAgree_onlyCoupled (onlyCoupled_recouple rfl) rfl
  collect _ _ _ _ _ h := h
  release s i r _ := postsAgree_onlyCoupled (onlyCoupled_release s i r) (by rw [releaseAt_link])
  waitRelease _ _ _ _ _ _ _ _ h := h
  retire _ _ _ _ _ _ h := h
  offset _ _ _ _ _ h := h
  recordCheck s i _ _ := by
    obtain ⟨-, link, -⟩ := recordMismatch_before s i
    exact postsAgree_onlyCoupled (onlyCoupled_recordMismatch s i) (congrArg Link.slots link)
  compute s n _ c := by
    obtain ⟨_, _, l, eq, -, -, slots, -⟩ := compute_spec s n
    rw [eq]
    simp [slots]
  expire s n h := by
    unfold State.expire
    rw [reportIf_eq]
    exact h
  install s p _ c := by simp [State.install, Channel.installed, Channel.initial]
  reset s _ _ _ c := by simp [State.resetPart, State.reset, Channel.initial]

end Sys2Proof.Machine

open Sys2Proof Sys2Proof.Machine

/-- Settles O5: a post, a zero write, STOP, an install and a reset write the entries and the slots alike, and nothing
else writes either. -/
theorem postedCorrectionsAgree : Obligations.PostedCorrectionsAgree :=
  fun _ _ h hs => postsAgree_kept.step h hs

end

section
/-! SUPPORT. The runs and the speed of a channel entry stay in their ranges: each change of an entry stops its runs at
the ends of R2. -/

namespace Sys2Proof.Machine

theorem natAbs_clampTo_le (n : Nat) (x : Int) : (clampTo n x).natAbs ≤ n := by
  unfold clampTo
  split_ifs <;> omega

theorem natAbs_rateInMmPerS_le (p : CapturePeriod) (r : Int) : (rateInMmPerS p r).natAbs ≤ 100000 :=
  natAbs_clampTo_le 100000 _

theorem countsBounded_takeSuspect {ch : Channel} (n raw : Word) (h : ch.CountsBounded) :
    (ch.takeSuspect n raw).entry.CountsBounded := by
  obtain ⟨suspect, good, miss, still, speed⟩ := h
  refine ⟨Nat.min_le_right _ _, ?_, miss, still, speed⟩
  show ch.goodRunAfterSuspect _ ≤ 8
  unfold Channel.goodRunAfterSuspect
  split <;> omega

theorem countsBounded_takeGood {ch : Channel} (p : CapturePeriod) (n raw : Word) (d : Int) (h : ch.CountsBounded) :
    (ch.takeGood p n raw d).entry.CountsBounded := by
  obtain ⟨suspect, good, miss, still, speed⟩ := h
  refine ⟨Nat.zero_le _, good, miss, ?_, natAbs_rateInMmPerS_le p _⟩
  show (if _ then min (ch.standstillRun + 1) 16 else 0) ≤ 16
  split
  · exact Nat.min_le_right _ _
  · exact Nat.zero_le _

theorem countsBounded_takeCapture {ch : Channel} (p : CapturePeriod) (n raw : Word) (illegal : Bool)
    (h : ch.CountsBounded) : (ch.takeCapture p n raw illegal).entry.CountsBounded := by
  unfold Channel.takeCapture
  split_ifs
  · exact h
  · exact h
  · exact countsBounded_takeSuspect n raw h
  · exact countsBounded_takeGood p n raw _ h

theorem countsBounded_takeFit {ch : Channel} (d : DriveState) (h : ch.CountsBounded) :
    (ch.takeFit d).entry.CountsBounded := by
  obtain ⟨suspect, -, -, still, speed⟩ := h
  exact ⟨suspect, Nat.min_le_right _ _, Nat.zero_le _, still, speed⟩

theorem countsBounded_takeDown {ch : Channel} (d : DriveState) (h : ch.CountsBounded) :
    (ch.takeDown d).entry.CountsBounded := by
  obtain ⟨suspect, -, -, still, speed⟩ := h
  exact ⟨suspect, Nat.zero_le _, Nat.zero_le _, still, speed⟩

theorem countsBounded_takeMiss {ch : Channel} (limit : Nat) (h : ch.CountsBounded) :
    (ch.takeMiss limit).entry.CountsBounded := by
  obtain ⟨suspect, -, -, still, speed⟩ := h
  exact ⟨suspect, Nat.zero_le _, Nat.min_le_right _ _, still, speed⟩

theorem countsBounded_takeDrive {ch : Channel} (limit : Nat) (r : DriveResult) (h : ch.CountsBounded) :
    (ch.takeDrive limit r).entry.CountsBounded := by
  unfold Channel.takeDrive
  split_ifs
  · exact h
  · split
    · exact countsBounded_takeFit _ h
    · exact countsBounded_takeFit _ h
    · exact countsBounded_takeDown _ h
    · exact countsBounded_takeDown _ h
    · exact countsBounded_takeMiss limit h

theorem countsBounded_restart (ch : Channel) (st : ChannelState) : (ch.restart st).CountsBounded :=
  ⟨Nat.zero_le _, Nat.zero_le _, Nat.zero_le _, Nat.zero_le _, Nat.zero_le _⟩

theorem countsBounded_written {ch : Channel} (f : ChannelField) (w : Word) (h : ch.CountsBounded) :
    (ch.written f w).CountsBounded := by
  have stored : (ch.store f w).CountsBounded := h
  have switched (p : Prop) [Decidable p] (st : ChannelState) :
      (if p then (ch.store f w).restart st else ch.store f w).CountsBounded := by
    split_ifs
    · exact countsBounded_restart _ _
    · exact stored
  unfold Channel.written
  split
  case h_2 =>
    split_ifs
    · exact countsBounded_restart _ _
    · obtain ⟨suspect, -, -, still, speed⟩ := stored
      exact ⟨suspect, Nat.zero_le _, Nat.zero_le _, still, speed⟩
  all_goals exact switched _ _

theorem countsBounded_initial (cfg : ChannelConfig) (st : ChannelState) : (Channel.initial cfg st).CountsBounded :=
  ⟨Nat.zero_le _, Nat.zero_le _, Nat.zero_le _, Nat.zero_le _, Nat.zero_le _⟩

theorem countsBounded_set {s t : State} {c : ChannelNo} {entry : Channel} (h : s.CountsBounded)
    (channels : t.channels = s.channels.set c entry) (bounded : entry.CountsBounded) : t.CountsBounded := by
  intro d
  rw [channels, channels_get_set]
  split_ifs
  · exact bounded
  · exact h d

theorem countsBounded_lost {s t : State} {c : ChannelNo} {entry : Channel} {also : Flag → Prop}
    (h : s.CountsBounded) (lost : s.LostAt t c entry also) (bounded : entry.CountsBounded) : t.CountsBounded := by
  obtain ⟨-, -, -, own, other, -⟩ := lost
  intro d
  by_cases e : d = c
  · rw [e, own]
    exact bounded
  · rw [other d e]
    exact h d

theorem countsBounded_channelStep {s : State} {c : ChannelNo} {st : ChannelStep} (h : s.CountsBounded)
    (bounded : st.entry.CountsBounded) : (s.takeChannelStep c st).CountsBounded := by
  obtain ⟨quiet, loses⟩ := takeChannelStep_spec s c st
  cases hl : st.lost with
  | false =>
    rw [(quiet hl).1]
    exact countsBounded_set h rfl bounded
  | true => exact countsBounded_lost h (loses hl).1 bounded

theorem countsBounded_onlyCoupled {s t : State} (e : s.OnlyCoupled t) (h : s.CountsBounded) : t.CountsBounded := by
  intro c
  rw [e c]
  exact h c

theorem countsBounded_kept : Kept State.CountsBounded where
  same _ _ e := countsBounded_onlyCoupled (onlyCoupled_of_channels e.channels)
  report _ _ _ h := h
  lastReject _ _ h := h
  clearFlag _ _ h := h
  dropSummary _ _ h := h
  setMasks _ _ _ h := h
  capture _ c _ h := countsBounded_channelStep h (countsBounded_takeCapture _ _ _ _ (h c))
  drive _ c _ _ h := countsBounded_channelStep h (countsBounded_takeDrive _ _ (h c))
  channelCheck _ c h := countsBounded_channelStep h (h c)
  written _ c _ _ _ h := countsBounded_set h rfl (countsBounded_written _ _ (h c))
  stop s h c := by
    rw [(takeStop_spec s).1]
    simpa only [Fin.getElem_fin, Vector.getElem_ofFn, Channel.CountsBounded] using h c
  stopRelease _ h := h
  edit _ _ _ h := h
  form _ _ _ _ _ := countsBounded_onlyCoupled (onlyCoupled_recouple rfl)
  collect _ _ _ _ _ h := h
  release s i r _ := countsBounded_onlyCoupled (onlyCoupled_release s i r)
  waitRelease _ _ _ _ _ _ _ _ h := h
  retire _ _ _ _ _ _ h := h
  offset _ _ _ _ _ h := h
  recordCheck s i _ _ := countsBounded_onlyCoupled (onlyCoupled_recordMismatch s i)
  compute s n h c := by
    obtain ⟨_, _, l, eq, -⟩ := compute_spec s n
    rw [eq]
    simpa only [Fin.getElem_fin, Vector.getElem_ofFn, Channel.CountsBounded] using h c
  expire s n := countsBounded_onlyCoupled (onlyCoupled_of_channels (by unfold State.expire; rw [reportIf_eq]))
  install s p _ c := by
    simp only [State.install, Fin.getElem_fin, Vector.getElem_ofFn]
    exact countsBounded_initial _ _
  reset s _ _ _ c := by
    simp only [State.resetPart, State.reset, Fin.getElem_fin, Vector.getElem_replicate]
    exact countsBounded_initial _ _

end Sys2Proof.Machine

open Sys2Proof Sys2Proof.Machine

/-- Settles O10: every change of a channel entry stops its runs and its speed at the ends of their ranges or restarts
them. -/
theorem channelRunsStayInRange : Obligations.ChannelRunsStayInRange :=
  fun _ _ h hs => countsBounded_kept.step h hs

end

