-- ==== Sys2Proof/Proofs/PhaseErrors.lean ====
section
/-! SUPPORT. Phase errors stay bounded: a change of the Coupling Table keeps a record's error, sets it to 0, or is an
accumulation of R48, which clamps it. -/

namespace Sys2Proof.Machine

/-- The record in a slot of t has an error within R48's bound or the error of the record that s has there. -/
def State.ErrorsFrom (s t : State) : Prop :=
  ∀ (i : SlotNo) (q : Record), t.slots[i] = some q →
    q.error.natAbs ≤ 65536000000 ∨ ∃ r, s.slots[i] = some r ∧ q.error = r.error

theorem errorsBounded_of_from {s t : State} (e : s.ErrorsFrom t) (h : s.ErrorsBounded) : t.ErrorsBounded := by
  intro i q hq
  obtain bounded | ⟨r, hr, same⟩ := e i q hq
  · exact bounded
  · rw [same]
    exact h i r hr

theorem errorsFrom_of_slots {s t : State} (h : t.slots = s.slots) : s.ErrorsFrom t :=
  fun _ q hq => .inr ⟨q, h ▸ hq, rfl⟩

theorem errorsFrom_set {s t : State} {i : SlotNo} {o : Option Record} (ht : t.slots = s.slots.set i o)
    (h : ∀ q, o = some q → q.error.natAbs ≤ 65536000000 ∨ ∃ r, s.slots[i] = some r ∧ q.error = r.error) :
    s.ErrorsFrom t := by
  intro j q hq
  rw [ht, slots_get_set] at hq
  split_ifs at hq with e
  · rw [e]
    exact h q hq
  · exact .inr ⟨q, hq, rfl⟩

theorem error_of_cutAt {s t : State} {i : SlotNo} {reason : BreakReason} {e : RecordState} (h : s.CutAt t i reason e)
    (he : e.isActive = false) {q : Record} (hq : t.slots[i] = some q) :
    ∃ r, s.slots[i] = some r ∧ q.error = r.error := by
  obtain ⟨-, r, hr, -, error⟩ := CutAt.record h he hq
  exact ⟨r, hr, error⟩

theorem errorsFrom_lost {s t : State} {c : ChannelNo} {entry : Channel} {also : Flag → Prop}
    (h : s.LostAt t c entry also) : s.ErrorsFrom t := by
  obtain ⟨-, -, -, -, -, cut, rest⟩ := h
  intro i q hq
  by_cases named : ∃ r, s.slots[i] = some r ∧ r.names c = true
  · obtain ⟨r, hr, names⟩ := named
    exact .inr (error_of_cutAt (cut i r hr names) rfl hq)
  · have unnamed : ∀ r, s.slots[i] = some r → r.names c = false := by simpa using named
    exact .inr ⟨q, (rest i unnamed).1 ▸ hq, rfl⟩

theorem errorsFrom_channelStep (s : State) (c : ChannelNo) (st : ChannelStep) :
    s.ErrorsFrom (s.takeChannelStep c st) := by
  obtain ⟨quiet, loses⟩ := takeChannelStep_spec s c st
  cases hl : st.lost with
  | false => exact errorsFrom_of_slots (by rw [(quiet hl).1])
  | true => exact errorsFrom_lost (loses hl).1

theorem errorsFrom_stop (s : State) : s.ErrorsFrom s.takeStop := by
  obtain ⟨-, -, -, cut⟩ := takeStop_spec s
  exact fun i q hq => .inr (error_of_cutAt (cut i) rfl hq)

theorem errorsFrom_edit (s : State) (b : EditBuffer) : s.ErrorsFrom { s with slots := b.applied s.slots } := by
  unfold EditBuffer.applied
  split
  · split
    · exact errorsFrom_set rfl fun q hq => by cases hq; exact .inl (Nat.zero_le _)
    · exact errorsFrom_of_slots rfl
  · split
    · rename_i r hr
      exact errorsFrom_set rfl fun q hq => by cases hq; exact .inr ⟨r, hr, rfl⟩
    · exact errorsFrom_of_slots rfl

theorem errorsFrom_form (s : State) (i : SlotNo) (r : Record) : s.ErrorsFrom (s.acceptForm i r) :=
  errorsFrom_set (i := i) rfl fun q hq => by cases hq; exact .inl (Nat.zero_le _)

theorem errorsFrom_release {s : State} {i : SlotNo} {r : Record} (hr : s.slots[i] = some r) :
    s.ErrorsFrom (s.releaseAt i r) := by
  unfold State.releaseAt
  split
  · exact errorsFrom_of_slots rfl
  · exact errorsFrom_of_slots rfl
  · refine errorsFrom_set (i := i) (o := some (r.leave .idle)) ?_ fun q hq => by cases hq; exact .inr ⟨r, hr, rfl⟩
    rw [giveForm_eq]
    rfl
  · exact errorsFrom_set rfl fun q hq => by cases hq; exact .inr ⟨r, hr, rfl⟩
  · exact errorsFrom_set rfl fun q hq => by cases hq; exact .inr ⟨r, hr, rfl⟩
  · exact errorsFrom_set rfl fun q hq => by cases hq; exact .inl (Nat.zero_le _)

theorem recordMismatch_slot (s : State) (i j : SlotNo) :
    (s.recordMismatch i).slots[j] =
      if j = i then (s.cutAt i .check).slots[i].map fun r => { r with checkFailed := true } else s.slots[j] := by
  show ((s.cutAt i .check).markFailed i).slots[j] = _
  unfold State.markFailed
  split
  · rename_i r hr
    rw [setRecord_slots, slots_get_set, hr]
    split_ifs with e
    · rfl
    · exact (cutAt_other s i j .check e).1
  · rename_i hn
    rw [hn]
    split_ifs with e
    · rw [e, hn]
      rfl
    · exact (cutAt_other s i j .check e).1

theorem errorsFrom_recordMismatch (s : State) (i : SlotNo) : s.ErrorsFrom (s.recordMismatch i) := by
  intro j q hq
  rw [recordMismatch_slot] at hq
  split_ifs at hq with e
  · obtain ⟨r, hr, rfl⟩ := Option.map_eq_some_iff.mp hq
    rw [e]
    exact .inr (error_of_cutAt (q := r) (cutAt_own s i .check) rfl hr)
  · exact .inr ⟨q, hq, rfl⟩

theorem accumulated_bounded (r : Record) (delta : Int) : (r.accumulated delta).natAbs ≤ 65536000000 :=
  natAbs_clampTo_le 65536000000 _

/-- A record found FORMING is HELD with its outcome, or IDLE with its outcome, or FORMING still (R70). -/
theorem advanceForming_cases (p : CapturePeriod) (r : Record) (delta : Int) :
    let a := r.advanceForming p delta
    (a.ending = some .formed ∧ a.record.state = .held ∧ a.record.error = 0) ∨
      (a.ending = some .formTimeout ∧ a.record.state = .idle ∧ a.record.error = r.error) ∨
      (a.ending = none ∧ a.record.state = r.state ∧ a.record.error = r.error) := by
  unfold Record.advanceForming
  extract_lets rate elapsed run moved a
  simp only [a]
  split_ifs
  · exact .inl ⟨rfl, rfl, rfl⟩
  · exact .inr (.inl ⟨rfl, rfl, rfl⟩)
  · exact .inr (.inr ⟨rfl, rfl, rfl⟩)

/-- A record found HELD stays so or slips, with no outcome (R71). -/
theorem advanceHeld_cases (r : Record) (delta : Int) :
    let a := r.advanceHeld delta
    a.ending = none ∧ (a.record.state = r.state ∨ a.record.state = .slipping) ∧ a.record.error = r.accumulated delta := by
  unfold Record.advanceHeld
  extract_lets error run moved a
  simp only [a]
  split_ifs
  · exact ⟨rfl, .inr rfl, rfl⟩
  · exact ⟨rfl, .inl rfl, rfl⟩

/-- A record found SLIPPING breaks, is HELD again or stays so, with no outcome (R72). -/
theorem advanceSlipping_cases (r : Record) (delta : Int) :
    let a := r.advanceSlipping delta
    a.ending = none ∧ (a.record.state = .broken .slipLimit ∨ a.record.state = .held ∨ a.record.state = r.state) ∧
      a.record.error = r.accumulated delta := by
  simp only [Record.advanceSlipping]
  split
  · exact ⟨rfl, .inl rfl, rfl⟩
  · split
    · split
      · exact ⟨rfl, .inr (.inl rfl), rfl⟩
      · exact ⟨rfl, .inr (.inr rfl), rfl⟩
    · exact ⟨rfl, .inr (.inr rfl), rfl⟩

/-- A record found RELEASING is IDLE with its outcome or goes on with its ramp (R73). -/
theorem advanceReleasing_cases (r : Record) (ramp : Ramp) (delta : Int) :
    let a := r.advanceReleasing ramp delta
    a.record.error = r.error ∧
      ((a.ending = some .released ∧ a.record.state = .idle) ∨
        (a.ending = none ∧ a.record.state = .releasing { ramp with step := ramp.step + 1 })) := by
  simp only [Record.advanceReleasing]
  split
  · exact ⟨rfl, .inl ⟨rfl, rfl⟩⟩
  · exact ⟨rfl, .inr ⟨rfl, rfl⟩⟩

theorem advance_error (p : CapturePeriod) (uL uF : Int) (up : Bool) (r : Record) :
    (r.advance p uL uF up).record.error.natAbs ≤ 65536000000 ∨ (r.advance p uL uF up).record.error = r.error := by
  unfold Record.advance
  split
  case h_1 => split <;> exact .inr rfl
  case h_2 =>
    obtain ⟨-, -, zero⟩ | ⟨-, -, same⟩ | ⟨-, -, same⟩ := advanceForming_cases p r (r.cfg.increment uL uF)
    · exact .inl (zero ▸ Nat.zero_le _)
    · exact .inr same
    · exact .inr same
  case h_3 =>
    obtain ⟨-, -, error⟩ := advanceHeld_cases r (r.cfg.increment uL uF)
    exact .inl (error ▸ accumulated_bounded r _)
  case h_4 =>
    obtain ⟨-, -, error⟩ := advanceSlipping_cases r (r.cfg.increment uL uF)
    exact .inl (error ▸ accumulated_bounded r _)
  case h_5 ramp _ => exact .inr (advanceReleasing_cases r ramp (r.cfg.increment uL uF)).1
  case h_6 => exact .inr rfl

/-- The record that a computation leaves in a slot is that slot's record advanced and corrected, perhaps limited. -/
theorem computedAt_some {s : State} {i : SlotNo} {q : Record} (h : s.computedAt i = some q) :
    ∃ r a, s.slots[i] = some r ∧ s.advanceAt i = some a ∧
      a = r.advance s.engine.period s.channels[r.cfg.leaderNo].travel s.channels[r.cfg.followerNo].travel
        (s.channels[r.cfg.leaderNo].state.isUp && s.channels[r.cfg.followerNo].state.isUp) ∧
      q.cfg = a.record.cfg ∧ q.state = a.record.state ∧ q.error = a.record.error := by
  obtain ⟨corrected, hc, rfl⟩ := Option.map_eq_some_iff.mp h
  obtain ⟨a, ha, rfl⟩ := Option.map_eq_some_iff.mp hc
  obtain ⟨r, hr, e⟩ := Option.map_eq_some_iff.mp ha
  exact ⟨r, a, hr, ha, e.symm, corrected_keeps s.engine.period a.record⟩

theorem errorsFrom_compute (s : State) (n : Word) : s.ErrorsFrom (s.compute n) := by
  intro i q hq
  obtain ⟨_, _, _, eq, -⟩ := compute_spec s n
  rw [eq] at hq
  simp only [Fin.getElem_fin, Vector.getElem_ofFn] at hq
  obtain ⟨r, _, hr, -, rfl, -, -, error⟩ := computedAt_some hq
  rw [error]
  exact (advance_error _ _ _ _ r).imp_right fun same => ⟨r, hr, same⟩

theorem install_slot (s : State) (p : Profile) (i : SlotNo) :
    (s.install p).slots[i] = p.savedRecords[i.val]?.map Record.fresh := by simp [State.install]

theorem errorsFrom_install (s : State) (p : Profile) : s.ErrorsFrom (s.install p) := by
  intro i q hq
  rw [install_slot] at hq
  obtain ⟨cfg, -, rfl⟩ := Option.map_eq_some_iff.mp hq
  exact .inl (Nat.zero_le _)

theorem resetPart_slot (s : State) (held : Bool) (deaf : Nat) (i : SlotNo) : (s.resetPart held deaf).slots[i] = none :=
  reset_get i

theorem expire_slots (s : State) (n : Word) : (s.expire n).slots = s.slots := by
  unfold State.expire
  rw [reportIf_eq]

theorem errorsBounded_kept : Kept State.ErrorsBounded where
  same _ _ e := errorsBounded_of_from (errorsFrom_of_slots e.slots)
  report _ _ _ h := h
  lastReject _ _ h := h
  clearFlag _ _ h := h
  dropSummary _ _ h := h
  setMasks _ _ _ h := h
  capture s c _ := errorsBounded_of_from (errorsFrom_channelStep s c _)
  drive s c _ _ := errorsBounded_of_from (errorsFrom_channelStep s c _)
  channelCheck s c := errorsBounded_of_from (errorsFrom_channelStep s c _)
  written _ _ _ _ _ h := h
  stop s := errorsBounded_of_from (errorsFrom_stop s)
  stopRelease _ h := h
  edit s b _ := errorsBounded_of_from (errorsFrom_edit s b)
  form s i r _ _ := errorsBounded_of_from (errorsFrom_form s i r)
  collect _ _ _ _ _ h := h
  release _ _ _ hr := errorsBounded_of_from (errorsFrom_release hr)
  waitRelease _ _ _ _ _ _ _ _ h := h
  retire s i _ _ _ _ := errorsBounded_of_from (errorsFrom_set (i := i) rfl fun _ e => nomatch e)
  offset s i r o hr :=
    errorsBounded_of_from (errorsFrom_set (i := i) rfl fun q hq => by cases hq; exact .inr ⟨r, hr, rfl⟩)
  recordCheck s i _ _ := errorsBounded_of_from (errorsFrom_recordMismatch s i)
  compute s n := errorsBounded_of_from (errorsFrom_compute s n)
  expire s n := errorsBounded_of_from (errorsFrom_of_slots (expire_slots s n))
  install s p := errorsBounded_of_from (errorsFrom_install s p)
  reset s held deaf _ i q hq := by
    rw [resetPart_slot] at hq
    cases hq

end Sys2Proof.Machine

open Sys2Proof Sys2Proof.Machine

/-- Settles O6: only the accumulation of R48 gives a record an error other than 0 or its own, and that is clamped. -/
theorem phaseErrorsStayBounded : Obligations.PhaseErrorsStayBounded :=
  fun _ _ h hs => errorsBounded_kept.step h hs

end

