-- ==== Sys2Proof/Proofs/CouplingsAgree.lean ====
section
/-! SUPPORT. Couplings, channel states and STOP agree. All three are said of the channels that some active record names;
a change of the Coupling Table gives an active record no new pair (`State.Narrows`), but for an accepted Form, which has
found both its channels RUNNING or STALE and STOP not taken. -/

namespace Sys2Proof.Machine

/-! ### The channels that active records name -/

theorem coupledNow_iff (s : State) (c : ChannelNo) :
    s.coupledNow c = true ↔
      ∃ (i : SlotNo) (r : Record), s.slots[i] = some r ∧ r.state.isActive = true ∧ r.names c = true := by
  rw [State.coupledNow, finRange_any]
  refine exists_congr fun i => ?_
  cases s.slots[i] <;> simp

theorem names_iff (r : Record) (c : ChannelNo) :
    r.names c = true ↔ r.cfg.leaderNo = c ∨ r.cfg.followerNo = c := by simp [Record.names]

theorem coupledNow_of_narrows {s t : State} (h : s.Narrows t) {c : ChannelNo} (hc : t.coupledNow c = true) :
    s.coupledNow c = true := by
  obtain ⟨i, q, hq, active, names⟩ := (coupledNow_iff t c).mp hc
  obtain ⟨r, hr, active', leader, follower⟩ := h i q hq active
  refine (coupledNow_iff s c).mpr ⟨i, r, hr, active', ?_⟩
  rwa [names_iff, leader, follower, ← names_iff]

theorem coupledNow_eq_of_narrows {s t : State} (h : s.Narrows t) (g : t.Narrows s) (c : ChannelNo) :
    t.coupledNow c = s.coupledNow c :=
  Bool.eq_iff_iff.mpr ⟨coupledNow_of_narrows h, coupledNow_of_narrows g⟩

theorem anyActive_iff (s : State) :
    s.anyActive = true ↔ ∃ (i : SlotNo) (r : Record), s.slots[i] = some r ∧ r.state.isActive = true := by
  rw [State.anyActive, finRange_any]
  refine exists_congr fun i => ?_
  unfold State.activeAt
  cases s.slots[i] <;> simp

theorem coupledNow_of_inactive {s : State} (h : s.anyActive = false) (c : ChannelNo) : s.coupledNow c = false := by
  rw [Bool.eq_false_iff] at h ⊢
  intro hc
  obtain ⟨i, r, hr, active, -⟩ := (coupledNow_iff s c).mp hc
  exact h ((anyActive_iff s).mpr ⟨i, r, hr, active⟩)

/-- The three invariants as one, channel by channel. -/
def State.CouplingsFit (s : State) : Prop :=
  ∀ c : ChannelNo, s.channels[c].coupled = s.coupledNow c ∧
    (s.coupledNow c = true → s.channels[c].state.isUp = true ∧ s.engine.stopTaken = false)

theorem couplingsFit_iff (s : State) : s.CouplingsFit ↔ s.CoupledAgree ∧ s.ActiveUp ∧ s.StopEmpties := by
  constructor
  · intro h
    have fits (i : SlotNo) (r : Record) (hr : s.slots[i] = some r) (active : r.state.isActive = true) (c : ChannelNo)
        (hc : r.cfg.leaderNo = c ∨ r.cfg.followerNo = c) :=
      (h c).2 ((coupledNow_iff s c).mpr ⟨i, r, hr, active, (names_iff r c).mpr hc⟩)
    refine ⟨fun c => (h c).1, fun i r hr active => ⟨(fits i r hr active _ (.inl rfl)).1, (fits i r hr active _ (.inr rfl)).1⟩,
      fun stopped => ?_⟩
    rw [Bool.eq_false_iff]
    intro some_active
    obtain ⟨i, r, hr, active⟩ := (anyActive_iff s).mp some_active
    rw [(fits i r hr active _ (.inl rfl)).2] at stopped
    cases stopped
  · rintro ⟨agree, up, stop⟩ c
    refine ⟨agree c, fun hc => ⟨?_, ?_⟩⟩
    · obtain ⟨i, r, hr, active, names⟩ := (coupledNow_iff s c).mp hc
      obtain ⟨leaderUp, followerUp⟩ := up i r hr active
      obtain e | e := (names_iff r c).mp names
      · exact e ▸ leaderUp
      · exact e ▸ followerUp
    · rw [Bool.eq_false_iff]
      intro stopped
      rw [coupledNow_of_inactive (stop stopped) c] at hc
      cases hc

theorem couplingsFit_of_narrows {s t : State} (h : s.CouplingsFit) (n : s.Narrows t) (agree : t.CoupledAgree)
    (up : ∀ c : ChannelNo, t.coupledNow c = true → s.channels[c].state.isUp = true → t.channels[c].state.isUp = true)
    (stop : t.engine.stopTaken = s.engine.stopTaken) : t.CouplingsFit := by
  refine fun c => ⟨agree c, fun hc => ?_⟩
  obtain ⟨upBefore, notStopped⟩ := (h c).2 (coupledNow_of_narrows n hc)
  exact ⟨up c hc upBefore, stop ▸ notStopped⟩

/-- Where a step changes the pairs of the active records neither way, and of the channels at most limits and posts. -/
theorem couplingsFit_of_pairs {s t : State} (h : s.CouplingsFit) (n : s.Narrows t) (n' : t.Narrows s)
    (channels : t.channels = s.channels) (stop : t.engine.stopTaken = s.engine.stopTaken) : t.CouplingsFit :=
  couplingsFit_of_narrows h n (fun c => by rw [channels, coupledNow_eq_of_narrows n n', (h c).1])
    (fun c _ up => by rwa [channels]) stop

theorem couplingsFit_of_inactive {t : State} (inactive : t.anyActive = false)
    (uncoupled : ∀ c : ChannelNo, t.channels[c].coupled = false) : t.CouplingsFit := fun c => by
  rw [uncoupled, coupledNow_of_inactive inactive]
  exact ⟨rfl, nofun⟩

theorem couplingsFit_of_recoupled {s t : State} (h : s.CouplingsFit) (n : s.Narrows t) (agree : t.CoupledAgree)
    (e : s.OnlyCoupled t) (stop : t.engine.stopTaken = s.engine.stopTaken) : t.CouplingsFit :=
  couplingsFit_of_narrows h n agree (fun c _ up => by rw [e c]; exact up) stop

/-! ### Channel events -/

/-- A channel event keeps the entry's coupled indication, and an entry that is RUNNING or STALE so, unless it sends the
channel-lost notice (R21). -/
def ChannelStep.KeepsUp (st : ChannelStep) (ch : Channel) : Prop :=
  st.entry.coupled = ch.coupled ∧ (st.lost = false → ch.state.isUp = true → st.entry.state.isUp = true)

theorem isUp_iff (st : ChannelState) : st.isUp = true ↔ st = .running ∨ st = .stale := by
  cases st <;> simp [ChannelState.isUp]

theorem afterSuspect_of_up {st : ChannelState} (run : Nat) (h : st.isUp = true) :
    st.afterSuspect run = if run = 4 then .lost .capture else .stale := by
  obtain rfl | rfl := (isUp_iff st).mp h <;> rfl

theorem keepsUp_takeSuspect (ch : Channel) (n raw : Word) : (ch.takeSuspect n raw).KeepsUp ch := by
  refine ⟨rfl, fun kept up => ?_⟩
  have found : ch.state.isLost = false := by obtain hs | hs := (isUp_iff _).mp up <;> rw [hs] <;> rfl
  have lost : (ch.takeSuspect n raw).lost = ((ch.state.afterSuspect (min (ch.suspectRun + 1) 4)).isLost && true) := by
    rw [Channel.takeSuspect, found]
    rfl
  rw [lost, afterSuspect_of_up _ up] at kept
  show (ch.state.afterSuspect (min (ch.suspectRun + 1) 4)).isUp = true
  rw [afterSuspect_of_up _ up]
  split_ifs at kept ⊢
  · cases kept
  · rfl

theorem keepsUp_takeGood (p : CapturePeriod) (ch : Channel) (n raw : Word) (d : Int) :
    (ch.takeGood p n raw d).KeepsUp ch := by
  refine ⟨rfl, fun _ up => ?_⟩
  show ch.state.afterGood.isUp = true
  obtain hs | hs := (isUp_iff _).mp up <;> rw [hs] <;> rfl

theorem keepsUp_takeCapture (p : CapturePeriod) (ch : Channel) (n raw : Word) (illegal : Bool) :
    (ch.takeCapture p n raw illegal).KeepsUp ch := by
  unfold Channel.takeCapture
  split_ifs
  · exact ⟨rfl, fun _ up => up⟩
  · exact ⟨rfl, fun _ up => up⟩
  · exact keepsUp_takeSuspect ch n raw
  · exact keepsUp_takeGood p ch n raw _

theorem keepsUp_takeFit (ch : Channel) (d : DriveState) : (ch.takeFit d).KeepsUp ch := by
  refine ⟨rfl, fun _ up => ?_⟩
  obtain hs | hs := (isUp_iff _).mp up <;> simp [Channel.takeFit, hs, ChannelState.isUp]

theorem canFall_of_up {st : ChannelState} (h : st.isUp = true) : st.canFall = true := by
  obtain rfl | rfl := (isUp_iff st).mp h <;> rfl

theorem keepsUp_takeDown (ch : Channel) (d : DriveState) : (ch.takeDown d).KeepsUp ch := by
  refine ⟨rfl, fun kept up => ?_⟩
  rw [show (ch.takeDown d).lost = ch.state.canFall from rfl, canFall_of_up up] at kept
  cases kept

theorem keepsUp_takeMiss (limit : Nat) (ch : Channel) : (ch.takeMiss limit).KeepsUp ch := by
  refine ⟨rfl, fun kept up => ?_⟩
  have after : (ch.takeMiss limit).entry.state = if (ch.takeMiss limit).lost then .lost .noReply else ch.state := rfl
  rw [after, kept]
  exact up

theorem keepsUp_takeDrive (limit : Nat) (ch : Channel) (r : DriveResult) : (ch.takeDrive limit r).KeepsUp ch := by
  unfold Channel.takeDrive
  split_ifs
  · exact ⟨rfl, fun _ up => up⟩
  · split
    · exact keepsUp_takeFit ch _
    · exact keepsUp_takeFit ch _
    · exact keepsUp_takeDown ch _
    · exact keepsUp_takeDown ch _
    · exact keepsUp_takeMiss limit ch

theorem keepsUp_takeMismatch (ch : Channel) : ch.takeMismatch.KeepsUp ch := by
  refine ⟨rfl, fun kept up => ?_⟩
  rw [show ch.takeMismatch.lost = ch.state.canFall from rfl, canFall_of_up up] at kept
  cases kept

/-- A channel event of an entry that is not LOST by it, or a write of an entry: the Coupling Table stands. -/
theorem couplingsFit_set {s t : State} {c : ChannelNo} {entry : Channel} (h : s.CouplingsFit)
    (slots : t.slots = s.slots) (channels : t.channels = s.channels.set c entry)
    (stop : t.engine.stopTaken = s.engine.stopTaken) (coupled : entry.coupled = s.channels[c].coupled)
    (up : s.coupledNow c = true → s.channels[c].state.isUp = true → entry.state.isUp = true) : t.CouplingsFit := by
  have now (d : ChannelNo) : t.coupledNow d = s.coupledNow d := coupledNow_congr slots d
  refine couplingsFit_of_narrows h (narrows_of_slots slots) (fun d => ?_) (fun d hd hup => ?_) stop
  · rw [now, ← (h d).1, channels, channels_get_set]
    split_ifs with e
    · rw [coupled, e]
    · rfl
  · rw [channels, channels_get_set]
    split_ifs with e
    · rw [e] at hd hup
      exact up (now c ▸ hd) hup
    · exact hup

theorem lostAt_uncouples {s t : State} {c : ChannelNo} {entry : Channel} {also : Flag → Prop}
    (h : s.LostAt t c entry also) : t.coupledNow c = false := by
  rw [Bool.eq_false_iff]
  intro hc
  obtain ⟨i, q, hq, active, names⟩ := (coupledNow_iff t c).mp hc
  rw [(narrows_lost h).2 i q hq active] at names
  cases names

theorem couplingsFit_channelStep {s : State} {c : ChannelNo} {st : ChannelStep} (h : s.CouplingsFit)
    (keeps : st.KeepsUp s.channels[c]) : (s.takeChannelStep c st).CouplingsFit := by
  obtain ⟨quiet, loses⟩ := takeChannelStep_spec s c st
  cases hl : st.lost with
  | false =>
    rw [(quiet hl).1]
    exact couplingsFit_set h rfl rfl rfl keeps.1 fun _ => keeps.2 hl
  | true =>
    obtain ⟨lost, eq⟩ := loses hl
    have uncoupled := lostAt_uncouples lost
    have narrows := (narrows_lost lost).1
    obtain ⟨agree, -, -, -, other, -⟩ := lost
    refine couplingsFit_of_narrows h narrows agree (fun d hd up => ?_) (by rw [eq])
    have e : d ≠ c := fun e => by rw [e, uncoupled] at hd; cases hd
    rw [other d e]
    exact up

theorem uncoupled_of_accepted {ch : Channel} {f : ChannelField} {w : Word} (h : ch.writeRefusal f w = none) :
    ch.coupled = false := by
  unfold Channel.writeRefusal at h
  split_ifs at h
  simpa using ‹¬ ch.coupled = true›

theorem coupled_written (ch : Channel) (f : ChannelField) (w : Word) : (ch.written f w).coupled = ch.coupled := by
  unfold Channel.written
  split <;> split_ifs <;> rfl

/-! ### Changes of the Coupling Table -/

theorem slots_ext {v w : Slots} (h : ∀ i : SlotNo, v[i] = w[i]) : v = w := Vector.ext fun j hj => h ⟨j, hj⟩

/-- A slot's record replaced by one that is active only with the same pair, and was: no pair comes or goes. -/
theorem pairs_set {s t : State} {i : SlotNo} {r q : Record} (hr : s.slots[i] = some r)
    (ht : t.slots = s.slots.set i (some q)) (active : q.state.isActive = r.state.isActive)
    (leader : q.state.isActive = true → q.cfg.leaderNo = r.cfg.leaderNo)
    (follower : q.state.isActive = true → q.cfg.followerNo = r.cfg.followerNo) : s.Narrows t ∧ t.Narrows s := by
  have hq : t.slots[i] = some q := by rw [ht, slots_get_set, if_pos rfl]
  have back : s.slots = t.slots.set i (some r) := by
    refine slots_ext fun j => ?_
    rw [slots_get_set, ht, slots_get_set]
    split_ifs with e
    · rw [e, hr]
    · rfl
  exact ⟨narrows_set hr ht fun ha => ⟨active ▸ ha, (leader ha).symm, (follower ha).symm⟩,
    narrows_set hq back fun ha => ⟨active ▸ ha, leader (active ▸ ha), follower (active ▸ ha)⟩⟩

/-- A slot that holds no active record, before or after. -/
theorem pairs_clear {s t : State} {i : SlotNo} {o : Option Record} (ht : t.slots = s.slots.set i o)
    (before : ∀ r, s.slots[i] = some r → r.state.isActive = false)
    (after : ∀ q, o = some q → q.state.isActive = false) : s.Narrows t ∧ t.Narrows s := by
  refine ⟨narrows_clear ht after, fun j r hr active => ⟨r, ?_, active, rfl, rfl⟩⟩
  have e : j ≠ i := fun e => by rw [before r (e ▸ hr)] at active; cases active
  rw [ht, slots_get_set, if_neg e, hr]

theorem pairs_edit (s : State) (b : EditBuffer) (h : b.rejection s.slots = none) :
    s.Narrows { s with slots := b.applied s.slots } ∧ State.Narrows { s with slots := b.applied s.slots } s := by
  refine ⟨narrows_edit s b h, ?_⟩
  unfold EditBuffer.applied
  split
  · split
    · rename_i i hi
      refine (pairs_clear (i := i) rfl (fun r hr => ?_) fun q hq => by cases hq; rfl).2
      rw [lowestVacant_some hi] at hr
      cases hr
    · exact narrows_of_slots rfl
  · rename_i i base ht
    split
    · rename_i r hr
      exact (pairs_set (q := b.applyTo r) hr rfl rfl (fun ha => (pair_of_accepted h ht hr ha).1)
        fun ha => (pair_of_accepted h ht hr ha).2).2
    · exact narrows_of_slots rfl

theorem couplingsFit_release {s : State} {i : SlotNo} {r : Record} (hr : s.slots[i] = some r) (h : s.CouplingsFit) :
    (s.releaseAt i r).CouplingsFit := by
  have narrows := narrows_release s i r hr
  have only := onlyCoupled_release s i r
  have ramp : r.state = .held ∨ r.state = .slipping →
      (s.setRecord i (r.leave (.releasing { start := r.correction, step := 0 }))).CouplingsFit := fun found => by
    obtain ⟨n, n'⟩ := pairs_set (q := r.leave (.releasing { start := r.correction, step := 0 }))
      (t := s.setRecord i (r.leave (.releasing { start := r.correction, step := 0 }))) hr rfl
      (by obtain e | e := found <;> rw [e] <;> rfl) (fun _ => rfl) fun _ => rfl
    exact couplingsFit_of_pairs h n n' rfl rfl
  revert narrows only
  unfold State.releaseAt
  split
  · exact fun _ _ => h
  · exact fun _ _ => h
  · exact fun narrows only => couplingsFit_of_recoupled h narrows (recouple_agrees _) only (by rw [giveForm_eq]; rfl)
  · exact fun _ _ => ramp (.inl (by assumption))
  · exact fun _ _ => ramp (.inr (by assumption))
  · rename_i found
    intro _ _
    obtain ⟨n, n'⟩ := pairs_clear (t := s.setRecord i { r.leave .idle with error := 0, rate := 0 }) (i := i) rfl
      (fun q hq => by rw [hr] at hq; cases hq; rw [found]; rfl) fun q hq => by cases hq; rfl
    exact couplingsFit_of_pairs h n n' rfl rfl

/-- Checks 6 and 7 of R65. -/
theorem accepted_form {s : State} {r : Record} (h : s.formRefusal r = none) :
    s.engine.stopTaken = false ∧ s.channels[r.cfg.leaderNo].state.isUp = true ∧
      s.channels[r.cfg.followerNo].state.isUp = true := by
  unfold State.formRefusal at h
  split_ifs at h with _ _ stopped up
  simp only [Bool.not_eq_true, Bool.not_eq_false', Bool.and_eq_true] at stopped up
  exact ⟨stopped, up⟩

theorem couplingsFit_form {s : State} {i : SlotNo} {r : Record} (accepted : s.formRefusal r = none)
    (h : s.CouplingsFit) : (s.acceptForm i r).CouplingsFit := by
  obtain ⟨notStopped, leaderUp, followerUp⟩ := accepted_form accepted
  have agree : (s.acceptForm i r).CoupledAgree := recouple_agrees _
  have only : s.OnlyCoupled (s.acceptForm i r) := onlyCoupled_recouple rfl
  refine fun c => ⟨agree c, fun hc => ⟨?_, notStopped⟩⟩
  rw [only c]
  show s.channels[c].state.isUp = true
  obtain ⟨j, q, hq, active, names⟩ := (coupledNow_iff _ c).mp hc
  have hq : (s.slots.set i (some { r with state := .forming, error := 0, run := 0, elapsed := 0 }))[j] = some q := hq
  rw [slots_get_set] at hq
  split_ifs at hq with e
  · cases hq
    obtain e | e := (names_iff _ c).mp names
    · exact e ▸ leaderUp
    · exact e ▸ followerUp
  · exact ((h c).2 ((coupledNow_iff s c).mpr ⟨j, q, hq, active, names⟩)).1

theorem compute_channel (s : State) (n : Word) (c : ChannelNo) :
    (s.compute n).channels[c] =
      { s.channels[c] with
        limited := s.ceilingActs c, posted := s.postFor c, coupled := (s.computed n).coupledNow c } := by
  obtain ⟨_, _, _, eq, -⟩ := compute_spec s n
  rw [eq]
  simp only [Fin.getElem_fin, Vector.getElem_ofFn]

theorem compute_slots (s : State) (n : Word) : (s.compute n).slots = (s.computed n).slots := by
  obtain ⟨_, _, _, eq, -⟩ := compute_spec s n
  rw [eq]
  rfl

theorem compute_engine (s : State) (n : Word) :
    (s.compute n).engine = { s.engine with lastComputed := some n } := by
  obtain ⟨_, _, _, eq, -⟩ := compute_spec s n
  rw [eq]

theorem couplingsFit_compute {s : State} (n : Word) (h : s.CouplingsFit) : (s.compute n).CouplingsFit := by
  refine couplingsFit_of_narrows h (narrows_compute s n) (fun c => ?_) (fun c _ up => ?_) ?_
  · rw [compute_channel]
    dsimp only
    rw [coupledNow_congr (compute_slots s n)]
  · rw [compute_channel]
    dsimp only
    exact up
  · rw [compute_engine]

theorem install_inactive (s : State) (p : Profile) : (s.install p).anyActive = false := by
  rw [Bool.eq_false_iff]
  intro h
  obtain ⟨i, q, hq, active⟩ := (anyActive_iff _).mp h
  rw [install_slot] at hq
  obtain ⟨cfg, -, rfl⟩ := Option.map_eq_some_iff.mp hq
  cases active

theorem reset_inactive (s : State) (held : Bool) (deaf : Nat) : (s.resetPart held deaf).anyActive = false := by
  rw [Bool.eq_false_iff]
  intro h
  obtain ⟨i, q, hq, -⟩ := (anyActive_iff _).mp h
  rw [resetPart_slot] at hq
  cases hq

theorem couplingsFit_kept : Kept State.CouplingsFit where
  same _ _ e h := couplingsFit_of_pairs h (narrows_of_slots e.slots) (narrows_of_slots e.slots.symm) e.channels e.stopTaken
  report _ _ _ h := h
  lastReject _ _ h := h
  clearFlag _ _ h := h
  dropSummary _ _ h := h
  setMasks _ _ _ h := h
  capture _ _ _ h := couplingsFit_channelStep h (keepsUp_takeCapture _ _ _ _ _)
  drive _ _ _ _ h := couplingsFit_channelStep h (keepsUp_takeDrive _ _ _)
  channelCheck _ _ h := couplingsFit_channelStep h (keepsUp_takeMismatch _)
  written s c f w accepted h := by
    refine couplingsFit_set h rfl rfl rfl (coupled_written _ f w) fun hc => ?_
    rw [← (h c).1, uncoupled_of_accepted accepted] at hc
    cases hc
  stop s _ := by
    obtain ⟨eq, -, inactive, -⟩ := takeStop_spec s
    exact couplingsFit_of_inactive inactive fun c => by rw [eq]; simp
  stopRelease _ h c := ⟨(h c).1, fun hc => ⟨((h c).2 hc).1, rfl⟩⟩
  edit s b accepted h := couplingsFit_of_pairs h (pairs_edit s b accepted).1 (pairs_edit s b accepted).2 rfl rfl
  form _ _ _ _ accepted h := couplingsFit_form accepted h
  collect _ _ _ _ _ h := h
  release _ _ _ hr h := couplingsFit_release hr h
  waitRelease _ _ _ _ _ _ _ _ h := h
  retire s i r hr retirable _ h := by
    have inactive : r.state.isActive = false := by
      cases hs : r.state <;> rw [hs] at retirable <;> first | rfl | cases retirable
    obtain ⟨n, n'⟩ := pairs_clear (t := { s with slots := s.slots.set i none }) (i := i) (o := none) rfl
      (fun q hq => by rw [hr] at hq; cases hq; exact inactive) (fun _ e => nomatch e)
    exact couplingsFit_of_pairs h n n' rfl rfl
  offset s i r o hr h := by
    obtain ⟨n, n'⟩ := pairs_set (t := s.setRecord i { r with pendingOffset := some o }) hr rfl rfl (fun _ => rfl)
      fun _ => rfl
    exact couplingsFit_of_pairs h n n' rfl rfl
  recordCheck s i _ _ h := by
    obtain ⟨-, -, engine, -⟩ := recordMismatch_before s i
    exact couplingsFit_of_recoupled h (narrows_recordCheck s i) (recouple_agrees _) (onlyCoupled_recordMismatch s i)
      (congrArg Engine.stopTaken engine)
  compute _ n h := couplingsFit_compute n h
  expire s n h := by
    unfold State.expire
    rw [reportIf_eq]
    exact h
  install s p _ := couplingsFit_of_inactive (install_inactive s p) fun c => by
    simp [State.install, Channel.installed, Channel.initial]
  reset s held deaf _ := couplingsFit_of_inactive (reset_inactive s held deaf) fun c => by
    simp [State.resetPart, State.reset, Channel.initial]

end Sys2Proof.Machine

open Sys2Proof Sys2Proof.Machine

/-- Settles O8: the three say that a channel is coupled exactly while an active record names it, and that one so named
is RUNNING or STALE with STOP not taken; each change keeps that, channel by channel. -/
theorem activeCouplingsUseRunningChannels : Obligations.ActiveCouplingsUseRunningChannels :=
  fun s t h hs => (couplingsFit_iff t).mp (couplingsFit_kept.step ((couplingsFit_iff s).mpr h) hs)

end

