-- ==== Sys2Proof/Proofs/CompletionMap.lean ====
section
/-! SUPPORT. The completion map: eight entries at most, each with its record. What ties an entry to its record is said
slot by slot (`EntryFits`); a change that makes an entry has found the map not full, and every other one leaves no more
entries than it found. -/

namespace Sys2Proof.Machine

/-! ### The count of entries -/

theorem entryCount_eq (s : State) : s.entryCount = (List.finRange 16).countP fun i => s.completions[i].isSome := by
  rw [State.entryCount, ← map_finRange_getElem, List.countP_map]
  rfl

theorem mapBounded_of_fewer {s t : State} (h : s.MapBounded)
    (fewer : ∀ i : SlotNo, t.completions[i].isSome = true → s.completions[i].isSome = true) : t.MapBounded := by
  rw [State.MapBounded, entryCount_eq] at h ⊢
  exact (List.countP_mono_left fun i _ => fewer i).trans h

theorem mapBounded_of_added {s t : State} {i : SlotNo} {e : Option Completion} (notFull : s.mapFull = false)
    (ht : t.completions = s.completions.set i e) : t.MapBounded := by
  have room : s.completions.toList.countP Option.isSome < 8 := by simpa [State.mapFull, State.entryCount] using notFull
  rw [State.MapBounded, State.entryCount, ht, Vector.toList_set, List.countP_set (by simp)]
  split_ifs <;> omega

/-! ### One slot -/

/-- The entry of a slot agrees with what the slot holds (R107). -/
def EntryFits (o : Option Record) (e : Option Completion) : Prop :=
  (e.isSome = true → o.isSome = true) ∧ (e = some .waitingForm ↔ ∃ r, o = some r ∧ r.state = .forming) ∧
    (e = some .waitingRelease → ∃ r ramp, o = some r ∧ r.state = .releasing ramp)

/-- No entry, or a READY one. -/
def Unawaited (e : Option Completion) : Prop := e ≠ some .waitingForm ∧ e ≠ some .waitingRelease

theorem unawaited_of_ready {e : Completion} (h : e.isReady = true) : Unawaited (some e) := by
  constructor <;> rintro ⟨⟩ <;> cases h

theorem entryFits_of_unawaited {r : Record} {e : Option Completion} (h : Unawaited e) (hr : r.state ≠ .forming) :
    EntryFits (some r) e := by
  refine ⟨fun _ => rfl, ⟨fun he => absurd he h.1, ?_⟩, fun he => absurd he h.2⟩
  rintro ⟨q, hq, forming⟩
  cases hq
  exact absurd forming hr

theorem entryFits_none : EntryFits none none := ⟨nofun, ⟨nofun, nofun⟩, nofun⟩

theorem EntryFits.of_state {r q : Record} {e : Option Completion} (h : EntryFits (some r) e)
    (hq : q.state = r.state) : EntryFits (some q) e := by
  simpa [EntryFits, hq] using h

theorem EntryFits.dropped {o : Option Record} {e : Option Completion} (h : EntryFits o e) (hu : Unawaited e) :
    EntryFits o none := by
  obtain ⟨-, form, -⟩ := h
  exact ⟨nofun, ⟨nofun, fun forming => absurd (form.mpr forming) hu.1⟩, nofun⟩

theorem EntryFits.unawaited {r : Record} {e : Option Completion} (h : EntryFits (some r) e) (hf : r.state ≠ .forming)
    (hr : ∀ ramp, r.state ≠ .releasing ramp) : Unawaited e := by
  obtain ⟨-, form, release⟩ := h
  constructor
  · intro he
    obtain ⟨q, hq, forming⟩ := form.mp he
    cases hq
    exact hf forming
  · intro he
    obtain ⟨q, ramp, hq, releasing⟩ := release he
    cases hq
    exact hr ramp releasing

theorem EntryFits.waitingForm {r : Record} {e : Option Completion} (h : EntryFits (some r) e)
    (hf : r.state = .forming) : e = some .waitingForm := h.2.1.mpr ⟨r, rfl, hf⟩

theorem EntryFits.not_waitingForm {r : Record} {e : Option Completion} (h : EntryFits (some r) e)
    (hf : r.state ≠ .forming) : e ≠ some .waitingForm := by
  intro he
  obtain ⟨q, hq, forming⟩ := h.2.1.mp he
  cases hq
  exact hf forming

theorem EntryFits.vacant {e : Option Completion} (h : EntryFits none e) : e = none := by
  cases e with
  | none => rfl
  | some e => exact absurd (h.1 rfl) (by simp)

/-! ### The whole map -/

/-- The three invariants as one. -/
def State.MapFits (s : State) : Prop := s.MapBounded ∧ ∀ i : SlotNo, EntryFits s.slots[i] s.completions[i]

theorem mapFits_iff (s : State) : s.MapFits ↔ s.MapBounded ∧ s.EntriesOwned ∧ s.EntriesFollow := by
  constructor
  · rintro ⟨bounded, fits⟩
    exact ⟨bounded, fun i => (fits i).1, fun i => (fits i).2⟩
  · rintro ⟨bounded, owned, follow⟩
    exact ⟨bounded, fun i => ⟨owned i, follow i⟩⟩

/-- A slot of t fits and holds no entry where s holds none. -/
def State.EntryFrom (s t : State) (i : SlotNo) : Prop :=
  EntryFits t.slots[i] t.completions[i] ∧ (t.completions[i].isSome = true → s.completions[i].isSome = true)

theorem mapFits_of_from {s t : State} (h : s.MapFits) (slot : ∀ i : SlotNo, s.EntryFrom t i) : t.MapFits :=
  ⟨mapBounded_of_fewer h.1 fun i => (slot i).2, fun i => (slot i).1⟩

theorem entryFrom_same {s t : State} {i : SlotNo} (h : s.MapFits) (slots : t.slots[i] = s.slots[i])
    (entries : t.completions[i] = s.completions[i]) : s.EntryFrom t i := by
  rw [State.EntryFrom, slots, entries]
  exact ⟨h.2 i, id⟩

theorem mapFits_congr {s t : State} (slots : t.slots = s.slots) (entries : t.completions = s.completions)
    (h : s.MapFits) : t.MapFits :=
  mapFits_of_from h fun _ => entryFrom_same h (by rw [slots]) (by rw [entries])

/-- One slot's record and entry replaced. -/
theorem mapFits_set {s t : State} {i : SlotNo} (h : s.MapFits) (slot : s.EntryFrom t i)
    (slots : ∀ j : SlotNo, j ≠ i → t.slots[j] = s.slots[j])
    (entries : ∀ j : SlotNo, j ≠ i → t.completions[j] = s.completions[j]) : t.MapFits := by
  refine mapFits_of_from h fun j => ?_
  by_cases e : j = i
  · exact e ▸ slot
  · exact entryFrom_same h (slots j e) (entries j e)

/-- One slot's record replaced by one whose state suits its entry. -/
theorem mapFits_setSlot {s t : State} {i : SlotNo} {o : Option Record} (h : s.MapFits)
    (slots : t.slots = s.slots.set i o) (entries : t.completions = s.completions)
    (fits : EntryFits o s.completions[i]) : t.MapFits := by
  refine mapFits_set (i := i) h ⟨?_, by rw [entries]; exact id⟩ (fun j e => ?_) (fun j _ => by rw [entries])
  · rw [slots, entries, slots_get_set, if_pos rfl]
    exact fits
  · rw [slots, slots_get_set, if_neg e]

/-- One slot's entry removed. -/
theorem mapFits_drop {s t : State} {i : SlotNo} (h : s.MapFits) (slots : t.slots = s.slots)
    (entries : t.completions = s.completions.set i none) (hu : Unawaited s.completions[i]) : t.MapFits := by
  refine mapFits_set (i := i) h ?_ (fun j _ => by rw [slots]) (fun j e => by rw [entries, entries_get_set, if_neg e])
  rw [State.EntryFrom, slots, entries, entries_get_set, if_pos rfl]
  exact ⟨(h.2 i).dropped hu, nofun⟩

/-! ### Cuts -/

theorem entryFrom_cutAt {s t : State} {i : SlotNo} {reason : BreakReason} {e : RecordState}
    (cut : s.CutAt t i reason e) (he : e.isActive = false) (h : s.MapFits) : s.EntryFrom t i := by
  obtain ⟨vacant, occupied⟩ := cut
  cases hs : s.slots[i] with
  | none => exact entryFrom_same h ((vacant hs).1.trans hs.symm) (vacant hs).2
  | some r =>
    obtain ⟨inactive, breaks, ramp, released, formed, kept⟩ := occupied r hs
    have fits : EntryFits (some r) s.completions[i] := hs ▸ h.2 i
    have isForming : r.state = .forming → s.EntryFrom t i := fun hf => by
      obtain ⟨k, -, entry⟩ := formed hf (fits.waitingForm hf)
      rw [State.EntryFrom, (breaks (.inl hf)).1, entry, fits.waitingForm hf]
      exact ⟨entryFits_of_unawaited (unawaited_of_ready rfl) nofun, fun _ => rfl⟩
    have isHeld (hh : r.state = .held ∨ r.state = .slipping) : s.EntryFrom t i := by
      have hu : Unawaited s.completions[i] := fits.unawaited (by rintro e; rw [e] at hh; simp at hh)
        (by rintro ramp e; rw [e] at hh; simp at hh)
      rw [State.EntryFrom, (breaks (.inr hh)).1, kept hu.1 hu.2]
      exact ⟨entryFits_of_unawaited hu nofun, id⟩
    have isReleasing (m : Ramp) (hm : r.state = .releasing m) : s.EntryFrom t i := by
      have notForming : e ≠ .forming := by rintro rfl; cases he
      rw [State.EntryFrom, (ramp m hm).1]
      by_cases waits : s.completions[i] = some .waitingRelease
      · obtain ⟨k, -, entry⟩ := released m hm waits
        rw [entry, waits]
        exact ⟨entryFits_of_unawaited (unawaited_of_ready rfl) notForming, fun _ => rfl⟩
      · have hu : Unawaited s.completions[i] := ⟨fits.not_waitingForm (by rw [hm]; nofun), waits⟩
        rw [kept hu.1 hu.2]
        exact ⟨entryFits_of_unawaited hu notForming, id⟩
    have isInactive (hi : r.state.isActive = false) : s.EntryFrom t i :=
      entryFrom_same h ((inactive hi).1.trans hs.symm) (inactive hi).2
    cases hr : r.state with
    | idle => exact isInactive (hr ▸ rfl)
    | broken _ => exact isInactive (hr ▸ rfl)
    | forming => exact isForming hr
    | held => exact isHeld (.inl hr)
    | slipping => exact isHeld (.inr hr)
    | releasing m => exact isReleasing m hr

theorem mapFits_channelStep {s : State} (c : ChannelNo) (st : ChannelStep) (h : s.MapFits) :
    (s.takeChannelStep c st).MapFits := by
  obtain ⟨quiet, loses⟩ := takeChannelStep_spec s c st
  cases hl : st.lost with
  | false => exact mapFits_congr (by rw [(quiet hl).1]) (by rw [(quiet hl).1]) h
  | true =>
    obtain ⟨⟨-, -, -, -, -, cut, rest⟩, -⟩ := loses hl
    refine mapFits_of_from h fun i => ?_
    by_cases named : ∃ r, s.slots[i] = some r ∧ r.names c = true
    · obtain ⟨r, hr, names⟩ := named
      exact entryFrom_cutAt (cut i r hr names) rfl h
    · obtain ⟨slot, entry⟩ := rest i (by simpa using named)
      exact entryFrom_same h slot entry

theorem mapFits_recordMismatch {s : State} (i : SlotNo) (h : s.MapFits) : (s.recordMismatch i).MapFits := by
  obtain ⟨-, -, -, entries⟩ := recordMismatch_before s i
  have entries : (s.recordMismatch i).completions = (s.cutAt i .check).completions := entries
  have other (j : SlotNo) (e : j ≠ i) := cutAt_other s i j .check e
  obtain ⟨fits, fewer⟩ := entryFrom_cutAt (cutAt_own s i .check) rfl h
  refine mapFits_set (i := i) h ⟨?_, by rw [entries]; exact fewer⟩
    (fun j e => by rw [recordMismatch_slot, if_neg e]) (fun j e => by rw [entries]; exact (other j e).2)
  rw [recordMismatch_slot, if_pos rfl, entries]
  cases hs : (s.cutAt i .check).slots[i] with
  | none => rwa [hs] at fits
  | some q =>
    rw [hs] at fits
    exact fits.of_state rfl

/-! ### The other changes of the tables -/

theorem mapFits_edit {s : State} (b : EditBuffer) (h : s.MapFits) :
    State.MapFits { s with slots := b.applied s.slots } := by
  unfold EditBuffer.applied
  split
  · split
    · rename_i i hi
      have fits := h.2 i
      rw [lowestVacant_some hi] at fits
      refine mapFits_setSlot (i := i) h rfl rfl ?_
      rw [fits.vacant]
      exact entryFits_of_unawaited ⟨nofun, nofun⟩ nofun
    · exact h
  · split
    · rename_i i _ _ _ r hr
      have fits := h.2 i
      rw [hr] at fits
      exact mapFits_setSlot (i := i) h rfl rfl (fits.of_state rfl)
    · exact h

theorem mapFits_form {s : State} {i : SlotNo} {r : Record} (accepted : s.formRefusal r = none) (h : s.MapFits) :
    (s.acceptForm i r).MapFits := by
  have notFull : s.mapFull = false := by
    unfold State.formRefusal at accepted
    split_ifs at accepted
    simpa using ‹¬ s.mapFull = true›
  refine ⟨mapBounded_of_added (s := s) (i := i) notFull rfl, fun j => ?_⟩
  show EntryFits (s.slots.set i (some { r with state := .forming, error := 0, run := 0, elapsed := 0 }))[j]
    (s.completions.set i (some .waitingForm))[j]
  rw [slots_get_set, entries_get_set]
  split_ifs
  · exact ⟨fun _ => rfl, ⟨fun _ => ⟨_, rfl, rfl⟩, fun _ => rfl⟩, nofun⟩
  · exact h.2 j

theorem mapFits_release {s : State} {i : SlotNo} {r : Record} (hr : s.slots[i] = some r) (h : s.MapFits) :
    (s.releaseAt i r).MapFits := by
  have fits : EntryFits (some r) s.completions[i] := hr ▸ h.2 i
  have ramp (found : r.state = .held ∨ r.state = .slipping) :
      (s.setRecord i (r.leave (.releasing { start := r.correction, step := 0 }))).MapFits :=
    mapFits_setSlot h rfl rfl (entryFits_of_unawaited (fits.unawaited (by rintro e; rw [e] at found; simp at found)
      (by rintro ramp e; rw [e] at found; simp at found)) nofun)
  unfold State.releaseAt
  split
  · exact h
  · exact h
  · rename_i found
    have entry (j : SlotNo) := giveForm_get (s.setRecord i (r.leave .idle)) i j .cancelled s.lastCapture
    have slots : ((s.setRecord i (r.leave .idle)).giveForm i .cancelled s.lastCapture).slots =
      s.slots.set i (some (r.leave .idle)) := by rw [giveForm_eq]; rfl
    simp only [setRecord_completions, fits.waitingForm found, and_true] at entry
    refine mapFits_set (i := i) h ?_ (fun j e => ?_) (fun j e => (entry j).trans (if_neg e))
    · have own := (entry i).trans (if_pos rfl)
      refine ⟨?_, fun _ => by rw [fits.waitingForm found]; rfl⟩
      rw [recouple_slots, recouple_completions, slots, slots_get_set, if_pos rfl, own]
      exact entryFits_of_unawaited (unawaited_of_ready rfl) nofun
    · rw [recouple_slots, slots, slots_get_set, if_neg e]
  · exact ramp (.inl (by assumption))
  · exact ramp (.inr (by assumption))
  · rename_i found
    exact mapFits_setSlot h rfl rfl (entryFits_of_unawaited (fits.unawaited (by rw [found]; nofun)
      (by rw [found]; nofun)) nofun)

theorem mapFits_waitRelease {s : State} {i : SlotNo} {r : Record} {ramp : Ramp} (hr : s.slots[i] = some r)
    (found : r.state = .releasing ramp) (notFull : s.mapFull = false) (h : s.MapFits) :
    (s.setEntry i (some .waitingRelease)).MapFits := by
  refine ⟨mapBounded_of_added (s := s) (i := i) notFull rfl, fun j => ?_⟩
  rw [setEntry_slots, setEntry_completions, entries_get_set]
  split_ifs with e
  · rw [e, hr]
    refine ⟨fun _ => rfl, ⟨nofun, ?_⟩, fun _ => ⟨r, ramp, rfl, found⟩⟩
    rintro ⟨q, hq, forming⟩
    cases hq
    rw [found] at forming
    cases forming
  · exact h.2 j

/-- What a record is advanced to, and the outcome it gives, suit the entry that the outcome leaves (R69 to R73). -/
theorem entryFits_advance {r q : Record} {a : Advance} {e e' : Option Completion} (p : CapturePeriod) (uL uF : Int)
    (up : Bool) (ha : a = r.advance p uL uF up) (hq : q.state = a.record.state) (fits : EntryFits (some r) e)
    (kept : a.ending = none → e' = e)
    (formed : a.ending = some .formed ∨ a.ending = some .formTimeout → e = some .waitingForm → Unawaited e')
    (released : a.ending = some .released →
      (e = some .waitingRelease → Unawaited e') ∧ (e ≠ some .waitingRelease → e' = e)) :
    EntryFits (some q) e' := by
  unfold Record.advance at ha
  split at ha
  case h_1 found =>
    have still : a.ending = none ∧ a.record.state = r.state := by rw [ha]; split <;> exact ⟨rfl, rfl⟩
    rw [kept still.1]
    exact fits.of_state (hq.trans still.2)
  case h_2 found =>
    obtain ⟨ending, state, -⟩ | ⟨ending, state, -⟩ | ⟨ending, state, -⟩ :=
      ha ▸ advanceForming_cases p r (r.cfg.increment uL uF)
    · exact entryFits_of_unawaited (formed (.inl ending) (fits.waitingForm found)) (by rw [hq, state]; nofun)
    · exact entryFits_of_unawaited (formed (.inr ending) (fits.waitingForm found)) (by rw [hq, state]; nofun)
    · rw [kept ending]
      exact fits.of_state (hq.trans state)
  case h_3 found =>
    obtain ⟨ending, state, -⟩ := ha ▸ advanceHeld_cases r (r.cfg.increment uL uF)
    rw [kept ending]
    refine entryFits_of_unawaited (fits.unawaited (by rw [found]; nofun) (by rw [found]; nofun)) ?_
    obtain state | state := state <;> rw [hq, state] <;> simp [found]
  case h_4 found =>
    obtain ⟨ending, state, -⟩ := ha ▸ advanceSlipping_cases r (r.cfg.increment uL uF)
    rw [kept ending]
    refine entryFits_of_unawaited (fits.unawaited (by rw [found]; nofun) (by rw [found]; nofun)) ?_
    obtain state | state | state := state <;> rw [hq, state] <;> simp [found]
  case h_5 ramp found =>
    have notForming : e ≠ some .waitingForm := fits.not_waitingForm (by rw [found]; nofun)
    obtain ⟨-, ⟨ending, state⟩ | ⟨ending, state⟩⟩ := ha ▸ advanceReleasing_cases r ramp (r.cfg.increment uL uF)
    · have idle : q.state ≠ .forming := by rw [hq, state]; nofun
      by_cases waits : e = some .waitingRelease
      · exact entryFits_of_unawaited ((released ending).1 waits) idle
      · rw [(released ending).2 waits]
        exact entryFits_of_unawaited ⟨notForming, waits⟩ idle
    · rw [kept ending]
      refine ⟨fun _ => rfl, ⟨fun he => absurd he notForming, ?_⟩, fun _ => ⟨q, _, rfl, hq.trans state⟩⟩
      rintro ⟨p, hp, forming⟩
      cases hp
      rw [hq, state] at forming
      cases forming
  case h_6 found =>
    rw [kept (ha ▸ rfl)]
    exact fits.of_state (hq.trans (ha ▸ rfl))

/-- The entry that an outcome leaves in its slot (R109, R110). -/
theorem giveEnding_own (s : State) (i : SlotNo) (o : Option Ending) (n : Word) :
    let e := s.completions[i]
    let e' := (s.giveEnding i o n).completions[i]
    (o = none → e' = e) ∧
    (o = some .formed ∨ o = some .formTimeout → e = some .waitingForm → Unawaited e') ∧
    (o = some .released → (e = some .waitingRelease → Unawaited e') ∧ (e ≠ some .waitingRelease → e' = e)) ∧
    (e'.isSome = true → e.isSome = true) := by
  have form (out : FormOutcome) := giveForm_get s i i out n
  have release (out : ReleaseOutcome) := giveRelease_get s i i out n
  have byForm (out : FormOutcome) :
      (s.completions[i] = some .waitingForm → Unawaited (s.giveForm i out n).completions[i]) ∧
        ((s.giveForm i out n).completions[i].isSome = true → s.completions[i].isSome = true) := by
    rw [form]
    refine ⟨fun he => ?_, fun h => ?_⟩
    · rw [if_pos ⟨rfl, he⟩]
      exact unawaited_of_ready rfl
    · split_ifs at h with waits
      · rw [waits.2]; rfl
      · exact h
  cases o with
  | none => exact ⟨fun _ => rfl, by simp, by simp, id⟩
  | some o =>
    cases o with
    | formed => exact ⟨nofun, fun _ => (byForm .formed).1, by simp, (byForm .formed).2⟩
    | formTimeout => exact ⟨nofun, fun _ => (byForm .formTimeout).1, by simp, (byForm .formTimeout).2⟩
    | released =>
      simp only [State.giveEnding, release, true_and]
      refine ⟨nofun, by simp, fun _ => ⟨fun he => ?_, fun he => if_neg he⟩, fun h => ?_⟩
      · rw [if_pos he]
        exact unawaited_of_ready rfl
      · split_ifs at h with waits
        · rw [waits]; rfl
        · exact h

theorem mapFits_compute {s : State} (n : Word) (h : s.MapFits) : (s.compute n).MapFits := by
  obtain ⟨entries, _, _, eq, entry, -⟩ := compute_spec s n
  refine mapFits_of_from h fun i => ?_
  have slot : (s.compute n).slots[i] = s.computedAt i := by rw [compute_slots]; simp [State.computed]
  have own : (s.compute n).completions[i] = entries[i] := by rw [eq]
  rw [State.EntryFrom, slot, own, entry]
  cases hc : s.computedAt i with
  | none =>
    have vacant : s.advanceAt i = none := by
      simpa [State.computedAt, State.correctedAt] using hc
    have empty : s.slots[i] = none := by simpa [State.advanceAt] using vacant
    rw [vacant]
    exact ⟨empty ▸ h.2 i, id⟩
  | some q =>
    obtain ⟨r, a, hr, ha, advance, -, state, -⟩ := computedAt_some hc
    obtain ⟨kept, formed, released, fewer⟩ := giveEnding_own (s.computed n).recouple i a.ending n
    rw [ha]
    exact ⟨entryFits_advance _ _ _ _ advance state (hr ▸ h.2 i) kept formed released, fewer⟩

theorem expire_entry (s : State) (n : Word) (i : SlotNo) :
    (s.expire n).completions[i] = if s.dueAt n i then none else s.completions[i] := by
  unfold State.expire
  rw [reportIf_eq]
  simp

theorem unawaited_of_due {s : State} {n : Word} {i : SlotNo} (h : s.dueAt n i = true) : Unawaited s.completions[i] := by
  unfold State.dueAt Completion.due at h
  split at h
  · rename_i e he
    rw [he]
    split at h
    · exact unawaited_of_ready rfl
    · exact unawaited_of_ready rfl
    · cases h
    · cases h
  · cases h

theorem mapFits_expire {s : State} (n : Word) (h : s.MapFits) : (s.expire n).MapFits := by
  refine mapFits_of_from h fun i => ?_
  rw [State.EntryFrom, expire_slots, expire_entry]
  split_ifs with due
  · exact ⟨(h.2 i).dropped (unawaited_of_due due), nofun⟩
  · exact ⟨h.2 i, id⟩

theorem mapFits_of_empty {t : State} (entries : ∀ i : SlotNo, t.completions[i] = none)
    (slots : ∀ (i : SlotNo) (r : Record), t.slots[i] = some r → r.state ≠ .forming) : t.MapFits := by
  refine ⟨?_, fun i => ?_⟩
  · rw [State.MapBounded, entryCount_eq]
    simp [entries, -Fin.getElem_fin]
  · rw [entries]
    cases hs : t.slots[i] with
    | none => exact entryFits_none
    | some r => exact entryFits_of_unawaited ⟨nofun, nofun⟩ (slots i r hs)

theorem mapFits_kept : Kept State.MapFits where
  same _ _ e := mapFits_congr e.slots e.completions
  report _ _ _ h := h
  lastReject _ _ h := h
  clearFlag _ _ h := h
  dropSummary _ _ h := h
  setMasks _ _ _ h := h
  capture _ c _ h := mapFits_channelStep c _ h
  drive _ c _ _ h := mapFits_channelStep c _ h
  channelCheck _ c h := mapFits_channelStep c _ h
  written _ _ _ _ _ h := h
  stop s h := by
    obtain ⟨-, -, -, cut⟩ := takeStop_spec s
    exact mapFits_of_from h fun i => entryFrom_cutAt (cut i) rfl h
  stopRelease _ h := h
  edit _ b _ h := mapFits_edit b h
  form _ _ _ _ accepted h := mapFits_form accepted h
  collect s i e he ready h := mapFits_drop (i := i) h rfl rfl (he ▸ unawaited_of_ready ready)
  release _ _ _ hr h := mapFits_release hr h
  waitRelease _ _ _ _ hr found notFull _ h := mapFits_waitRelease hr found notFull h
  retire s i r _ _ empty h := mapFits_setSlot (i := i) h rfl rfl (empty ▸ entryFits_none)
  offset s i r o hr h := by
    have fits : EntryFits (some r) s.completions[i] := hr ▸ h.2 i
    exact mapFits_setSlot h rfl rfl (fits.of_state rfl)
  recordCheck _ i _ _ h := mapFits_recordMismatch i h
  compute _ n h := mapFits_compute n h
  expire _ n h := mapFits_expire n h
  install s p _ := by
    refine mapFits_of_empty (fun i => by simp [State.install]) fun i r hr => ?_
    rw [install_slot] at hr
    obtain ⟨cfg, -, rfl⟩ := Option.map_eq_some_iff.mp hr
    nofun
  reset s held deaf _ := by
    refine mapFits_of_empty (fun i => by simp [State.resetPart, State.reset]) fun i r hr => ?_
    rw [resetPart_slot] at hr
    cases hr

end Sys2Proof.Machine

open Sys2Proof Sys2Proof.Machine

/-- Settles O7: an entry is made only where the map is not full and the record has just entered the state it waits for,
and every outcome, cut and collection turns or removes the entry in the event that moves the record. -/
theorem completionMapStaysWithinBounds : Obligations.CompletionMapStaysWithinBounds :=
  fun s t h hs => (mapFits_iff t).mp (mapFits_kept.step ((mapFits_iff s).mpr h) hs)

end

