-- ==== Sys2Proof/Proofs/SoundSteps.lean ====
section
/-! SUPPORT. Every command answers but on a dangling edit, and every command keeps the edits sound. -/

namespace Sys2Proof.Machine

/-! ### What does not answer -/

theorem dangling_some {b : EditBuffer} {slots : Slots} {i : SlotNo} (h : b.dangling slots = some i) :
    ∃ base, b.target = .existing i base ∧ slots[i] = none := by
  unfold EditBuffer.dangling at h
  split at h
  · cases h
  · rename_i j base target
    split_ifs at h with vacant
    cases h
    exact ⟨base, target, by simpa using vacant⟩

/-- A command stops the part on a dangling edit (assumption 22). -/
def Dangles (c : Instr) (s : State) : Prop :=
  ∃ (i : SlotNo) (k : BufferNo) (b : EditBuffer) (base : RecordConfig),
    exec c s = .fault (.danglingEdit i) ∧ (c = .editApplication ∨ c = .groupApplication) ∧
    s.edit.buffers[k] = some b ∧ b.target = .existing i base ∧ s.slots[i] = none

theorem exec_editApplication_answers (s : State) :
    (∃ t, exec .editApplication s = .next t) ∨ Dangles .editApplication s := by
  have e : exec .editApplication s = execEditApplication s := rfl
  unfold execEditApplication at e
  split at e
  case h_1 k _ =>
    split at e
    · rename_i b hb
      split at e
      · rename_i i hi
        obtain ⟨base, target, vacant⟩ := dangling_some hi
        exact .inr ⟨i, k, b, base, e, .inl rfl, hb, target, vacant⟩
      · exact .inl ⟨_, e⟩
    · exact .inl ⟨_, e⟩
  all_goals exact .inl ⟨_, e⟩

theorem exec_groupApplication_answers (s : State) :
    (∃ t, exec .groupApplication s = .next t) ∨ Dangles .groupApplication s := by
  have e : exec .groupApplication s = execGroupApplication s := rfl
  unfold execGroupApplication at e
  split at e
  case h_1 =>
    split at e
    · rename_i i hi
      obtain ⟨p, hp, dangles⟩ := List.exists_of_findSome?_eq_some hi
      obtain ⟨base, target, vacant⟩ := dangling_some dangles
      exact .inr ⟨i, p.1, p.2, base, e, .inr rfl, open_mem hp, target, vacant⟩
    · exact .inl ⟨_, e⟩
  all_goals exact .inl ⟨_, e⟩

theorem exec_answers (c : Instr) (s : State) : (∃ t, exec c s = .next t) ∨ Dangles c s := by
  cases c with
  | editApplication => exact exec_editApplication_answers s
  | groupApplication => exact exec_groupApplication_answers s
  | computation =>
    have e : exec .computation s = execComputation s := rfl
    unfold execComputation at e
    split at e <;> exact .inl ⟨_, e⟩
  | collectDeadlineExpiry =>
    have e : exec .collectDeadlineExpiry s = execCollectDeadlineExpiry s := rfl
    unfold execCollectDeadlineExpiry at e
    split at e <;> exact .inl ⟨_, e⟩
  | gapEnd =>
    have e : exec .gapEnd s = execGapEnd s := rfl
    unfold execGapEnd at e
    split at e
    · split at e <;> exact .inl ⟨_, e⟩
    · exact .inl ⟨_, e⟩
  | _ => exact .inl ⟨_, rfl⟩

theorem not_dangles_of_sound {c : Instr} {s : State} (h : s.BuffersSound) : ¬ Dangles c s := by
  rintro ⟨i, k, b, base, -, -, hb, target, vacant⟩
  obtain ⟨-, -, -, found⟩ := h k b hb
  obtain ⟨r, hr, -⟩ := found i base target
  rw [vacant] at hr
  cases hr

/-! ### The Profile Store -/

theorem startsIdle {s : State} (h : s.EditsSound) : s.startup = .begun → s.store.op = .idle := h.2.2.1.2.2.2.1

theorem closedBeforeReady {s : State} (h : s.EditsSound) (hr : s.startup ≠ .ready) :
    s.port.service = none ∧ ∀ k : BufferNo, s.edit.buffers[k] = none := h.2.2.2.1.2.1 hr

/-- The store replaced by one that is not loading, while no install is outstanding. -/
theorem notLoading_sound {s : State} (h : s.EditsSound) (st : Store) (hi : .install ∉ s.arbiter.outstanding)
    (hop : st.op.isLoading = false) (hb : s.startup = .begun → st.op = .idle) :
    ({ s with store := st } : State).EditsSound :=
  store_sound h st s.startup (fun hm => absurd hm hi) (fun e => by rw [e] at hop; cases hop) hb
    (fun e => by rw [hop] at e; cases e) (closedBeforeReady h) fun _ _ _ _ _ _ => hop

theorem noInstall {s : State} (h : s.EditsSound) (hop : s.store.op.isLoading = false) :
    .install ∉ s.arbiter.outstanding :=
  not_install h (fun p e => by rw [e] at hop; cases hop) fun e => by rw [e] at hop; cases hop

theorem endStore_sound {s : State} (h : s.EditsSound) (hi : .install ∉ s.arbiter.outstanding) (r : StoreResult) :
    (s.endStore r).EditsSound :=
  reportIf_sound (notLoading_sound h _ hi rfl fun _ => rfl) _ _

theorem setProfile_sound {s : State} (h : s.EditsSound) (hop : s.store.op.isLoading = false) (p : ProfileNo)
    (q : Profile) : (s.setProfile p q).EditsSound :=
  notLoading_sound h { s.store with profiles := s.store.profiles.set p q } (noInstall h hop) hop (startsIdle h)

theorem nextOccasion_sound {s : State} (h : s.EditsSound) : s.nextOccasion.EditsSound :=
  same_sound h rfl rfl rfl (idle_like h) rfl rfl rfl rfl

theorem endSave_sound {s : State} (h : s.EditsSound) (agrees : Bool) : (s.endSave agrees).EditsSound := by
  unfold State.endSave
  split
  · rename_i p autoLoad copy hop
    have hl : s.store.op.isLoading = false := by rw [hop]; rfl
    have hi := noInstall h hl
    split_ifs
    · exact endStore_sound (setProfile_sound h hl _ _) hi _
    · exact endStore_sound (nextOccasion_sound (setProfile_sound h hl _ _)) hi _
  all_goals exact h

theorem endErase_sound {s : State} (h : s.EditsSound) : s.endErase.EditsSound := by
  unfold State.endErase
  split
  · rename_i p hop
    have hl : s.store.op.isLoading = false := by rw [hop]; rfl
    have hi := noInstall h hl
    exact endStore_sound (setProfile_sound h hl _ _) hi _
  all_goals exact h

theorem endInvalidLoad_sound {s : State} (h : s.EditsSound) : s.endInvalidLoad.EditsSound := by
  unfold State.endInvalidLoad
  split
  · rename_i p hop
    exact endStore_sound h (not_install h (fun p e => by rw [hop] at e; cases e) fun e => by rw [hop] at e; cases e) _
  all_goals exact h

theorem takeSaveSnapshot_sound {s : State} (h : s.EditsSound) : s.takeSaveSnapshot.EditsSound := by
  unfold State.takeSaveSnapshot
  split
  · rename_i p autoLoad copy hop
    refine notLoading_sound h _ (noInstall h (by rw [hop]; rfl)) rfl fun hb => ?_
    rw [startsIdle h hb] at hop
    cases hop
  all_goals exact h

theorem takeSaveSnapshot_arbiter (s : State) : s.takeSaveSnapshot.arbiter = s.arbiter := by
  unfold State.takeSaveSnapshot
  split <;> rfl

theorem saveProfile_sound {u : State} (h : Asked u) (index item : Byte) :
    (u.saveProfile index item).1.EditsSound ∧ (u.saveProfile index item).1.port.service = none := by
  unfold State.saveProfile
  split
  · exact ⟨h.sound, h.idle⟩
  · split_ifs with _ busy blank
    · exact ⟨h.sound, h.idle⟩
    · exact ⟨h.sound, h.idle⟩
    · refine ⟨endStore_sound h.sound (noInstall h.sound ?_) _, ?_⟩
      · rw [not_not.mp busy]
        rfl
      · rw [State.endStore, reportIf_eq]
        exact h.idle
    · have op : u.store.op.isLoading = false := by rw [not_not.mp busy]; rfl
      refine ⟨request_sound (notLoading_sound h.sound _ (noInstall h.sound op) rfl fun hb => ?_) rfl nofun, ?_⟩
      · rw [h.ready] at hb
        cases hb
      · rw [request_eq]
        exact h.idle

theorem eraseProfile_sound {u : State} (h : Asked u) (index : Byte) :
    (u.eraseProfile index).1.EditsSound ∧ (u.eraseProfile index).1.port.service = none := by
  unfold State.eraseProfile
  split
  · exact ⟨h.sound, h.idle⟩
  · split_ifs with busy
    · exact ⟨h.sound, h.idle⟩
    · have op : u.store.op.isLoading = false := by rw [not_not.mp busy]; rfl
      refine ⟨setProfile_sound (notLoading_sound h.sound _ (noInstall h.sound op) rfl fun hb => ?_) rfl _ _, h.idle⟩
      rw [h.ready] at hb
      cases hb

theorem buffers_of_notBarred {u : State} (h : ¬ u.loadBarred = true) (k : BufferNo) : u.edit.buffers[k] = none := by
  simp only [State.loadBarred, Bool.or_eq_true, Bool.not_eq_true', not_or, Bool.not_eq_false, List.isEmpty_iff,
    EditUnit.openBuffers, List.filterMap_eq_nil_iff] at h
  simpa using h.2 k (List.mem_finRange k)

/-- A load begins: no request is in service and no buffer open (R160). -/
theorem beginLoad_sound {u : State} (h : Asked u) (hop : u.store.op = .idle) (p : ProfileNo) (valid : Bool)
    (hb : ∀ k : BufferNo, u.edit.buffers[k] = none) : (u.beginStore (.loading p valid)).EditsSound := by
  have none_installs : .install ∉ u.arbiter.outstanding := noInstall h.sound (by rw [hop]; rfl)
  refine store_sound h.sound _ u.startup (fun hm => absurd hm none_installs) nofun (fun e => ?_) (fun _ => hb)
    (fun e => absurd h.ready e) fun v tag f w hv => ?_
  · rw [h.ready] at e
    cases e
  · rw [h.idle] at hv
    cases hv

theorem loadProfile_sound {u : State} (h : Asked u) (index : Byte) :
    (u.loadProfile index).1.EditsSound ∧ (u.loadProfile index).1.port.service = none := by
  unfold State.loadProfile
  split
  · exact ⟨h.sound, h.idle⟩
  · rename_i p _
    split_ifs with busy barred valid
    · exact ⟨h.sound, h.idle⟩
    · exact ⟨h.sound, h.idle⟩
    · have begun := beginLoad_sound h (not_not.mp busy) p true (buffers_of_notBarred barred)
      have hi : .install ∉ u.arbiter.outstanding := noInstall h.sound (by rw [not_not.mp busy]; rfl)
      refine ⟨request_sound begun rfl fun _ => ⟨hi, p, valid, .inl rfl⟩, ?_⟩
      rw [request_eq]
      exact h.idle
    · exact ⟨beginLoad_sound h (not_not.mp busy) p false (buffers_of_notBarred barred), h.idle⟩

theorem takeStartupLoad_sound {s : State} (h : s.EditsSound) (hb : s.startup = .begun) :
    s.takeStartupLoad.EditsSound := by
  have idle := startsIdle h hb
  have none_installs : .install ∉ s.arbiter.outstanding := noInstall h (by rw [idle]; rfl)
  obtain ⟨service, buffers⟩ := closedBeforeReady h (by rw [hb]; nofun)
  have idleService (v : Service) (tag : Half) (f : RecordField) (w : Word) (b : Bool) (hv : s.port.service = some v)
      (_ : v.request = .writeField tag f w) : b = false := by rw [service] at hv; cases hv
  unfold State.takeStartupLoad
  by_cases done : s.store.profiles[(0 : ProfileNo)].startupLoad = .done
  · rw [if_pos done]
    have valid : s.store.profiles[(0 : ProfileNo)].isValid = true := by
      unfold Profile.startupLoad at done
      split_ifs at done with h1 h2
      exact h2
    have begun := store_sound h
      { s.store with
        lastResult := if s.store.journal then .interrupted else .noResult
        journal := true
        startupLoad := s.store.profiles[(0 : ProfileNo)].startupLoad
        op := .startupLoading } .loading
      (fun hm => absurd hm none_installs) (fun _ => rfl) nofun (fun _ => buffers) (fun _ => ⟨service, buffers⟩)
      fun v tag f w hv hw => idleService v tag f w _ hv hw
    exact request_sound begun rfl fun _ => ⟨none_installs, 0, valid, .inr ⟨rfl, rfl⟩⟩
  · rw [if_neg done]
    exact store_sound h
      { s.store with
        lastResult := if s.store.journal then .interrupted else .noResult
        journal := false
        startupLoad := s.store.profiles[(0 : ProfileNo)].startupLoad } .settled
      (fun hm => absurd hm none_installs) (fun e => by rw [idle] at e; cases e) nofun
      (fun e => by rw [idle] at e; cases e) (fun _ => ⟨service, buffers⟩) fun v tag f w hv hw => idleService v tag f w _ hv hw

/-! ### Requests -/

theorem faults_sound {s : State} (h : s.EditsSound) (f : FaultUnit) : ({ s with faults := f } : State).EditsSound :=
  same_sound h rfl rfl rfl (idle_like h) rfl rfl rfl rfl

theorem clearFaults_faults (s : State) (index item : Byte) (a : Word) :
    ∃ f, (s.clearFaults index item a).1 = { s with faults := f } := by
  have fold (l : List (Option Flag)) : ∀ s : State, ∃ f, l.foldl State.clearNamed s = { s with faults := f } := by
    induction l with
    | nil => exact fun s => ⟨s.faults, rfl⟩
    | cons o l ih =>
      intro s
      have one : ∃ f, s.clearNamed o = { s with faults := f } := by
        unfold State.clearNamed
        split
        · split
          · exact ⟨s.faults, rfl⟩
          · exact ⟨_, rfl⟩
        · exact ⟨s.faults, rfl⟩
      obtain ⟨f, hf⟩ := one
      obtain ⟨g, hg⟩ := ih (s.clearNamed o)
      exact ⟨g, by rw [List.foldl_cons, hg, hf]⟩
  unfold State.clearFaults
  split
  · exact ⟨s.faults, rfl⟩
  · split
    · exact ⟨s.faults, rfl⟩
    · split_ifs
      · exact ⟨s.faults, rfl⟩
      · exact fold _ s

theorem clearSummary_faults (s : State) (index : Byte) : ∃ f, (s.clearSummary index).1 = { s with faults := f } := by
  unfold State.clearSummary
  split
  · exact ⟨s.faults, rfl⟩
  · split_ifs
    · exact ⟨s.faults, rfl⟩
    · exact ⟨_, rfl⟩

theorem setMasks_faults (s : State) (a b : Word) : ∃ f, (s.setMasks a b).1 = { s with faults := f } := by
  unfold State.setMasks
  split_ifs
  · exact ⟨s.faults, rfl⟩
  · exact ⟨_, rfl⟩

theorem faultRequest_sound {s : State} (h : s.EditsSound) (code seq : Byte) (f : State → State × Answer)
    (hf : ∀ u, ∃ g, (f u).1 = { u with faults := g }) : (s.ask code seq f).EditsSound :=
  ask_sound h code seq f fun u hu => by
    obtain ⟨g, hg⟩ := hf u
    rw [hg]
    exact ⟨faults_sound hu.sound g, hu.idle⟩

theorem buffersSound_congr {s t : State} (slots : t.slots = s.slots) (buffers : t.edit.buffers = s.edit.buffers)
    (h : s.BuffersSound) : t.BuffersSound := by
  intro k b hb
  obtain ⟨tag, range, one, target⟩ := h k b (buffers ▸ hb)
  exact ⟨tag, range, fun j c hc => one j c (buffers ▸ hc), fun i base ht => slots ▸ target i base ht⟩

theorem beginGroup_sound {u : State} (h : Asked u) :
    u.beginGroup.1.EditsSound ∧ u.beginGroup.1.port.service = none := by
  unfold State.beginGroup
  split_ifs
  · exact ⟨h.sound, h.idle⟩
  · refine ⟨edit_sound h _ (buffersSound_congr rfl rfl h.sound.2.1) h.sound.2.2.1.2.2.2.2, h.idle⟩

theorem endGroup_sound {u : State} (h : Asked u) : u.endGroup.EditsSound :=
  edit_sound h _ (fun k _ hb => absurd (hb.symm.trans (blank_get k)) nofun) fun _ k => blank_get k

theorem abortGroup_sound {u : State} (h : Asked u) :
    u.abortGroup.1.EditsSound ∧ u.abortGroup.1.port.service = none := by
  unfold State.abortGroup
  split_ifs
  · exact ⟨endGroup_sound h, h.idle⟩
  · exact ⟨h.sound, h.idle⟩

theorem writeFieldTo_sound {u : State} (h : Asked u) (seq : Byte) {tag : Half} {f : RecordField} {w : Word}
    (ht : tag ≠ 0) (hw : f.inRange w = true) (hl : u.store.op.isLoading = false) :
    (u.writeFieldTo seq tag f w).EditsSound := by
  have loading {e : EditUnit} : u.store.op.isLoading = true → ∀ k : BufferNo, e.buffers[k] = none := fun e => by
    rw [hl] at e; cases e
  unfold State.writeFieldTo
  split
  · rename_i k hk
    obtain ⟨b, hb, tag_b⟩ := bufferFor_some hk
    rw [hb]
    dsimp only
    split_ifs
    · refine h.begin _ _ _ _ ⟨?_, fun name e => by cases e⟩
      rintro tag' f' w' ⟨⟩
      refine ⟨ht, hw, hl, fun j c hc tag_c => ?_⟩
      rw [(h.sound.2.1 k b hb).2.2.1 j c hc (tag_c.trans tag_b.symm)]
    · exact reply_idle (edit_sound h _ (writeInto_sound h.sound.2.1 hb hw) loading) h.idle _ _ _ _
  · rename_i none_open
    split
    · refine reply_idle (edit_sound h _ (openBuffer_sound h.sound.2.1 ht hw fun j b hb e => ?_) loading) h.idle _ _ _ _
      rw [← e] at none_open
      exact bufferFor_ne_none hb none_open
    · exact reply_idle h.sound h.idle _ _ _ _

theorem writeField_sound {u : State} (h : Asked u) (hl : u.store.op.isLoading = false) (seq : Byte) (tag : Half)
    (item : Byte) (w : Word) : (u.writeField seq tag item w).EditsSound := by
  unfold State.writeField
  split_ifs with ht
  · exact reply_idle h.sound h.idle _ _ _ _
  · split
    · exact reply_idle h.sound h.idle _ _ _ _
    · split_ifs with hw
      · exact reply_idle h.sound h.idle _ _ _ _
      · exact writeFieldTo_sound h seq ht (by simpa using hw) hl

theorem commit_sound {u : State} (h : Asked u) (seq : Byte) (tag : Half) : (u.commit seq tag).EditsSound := by
  unfold State.commit
  split_ifs
  · exact reply_idle h.sound h.idle _ _ _ _
  · exact reply_idle h.sound h.idle _ _ _ _
  · split
    · exact h.begin _ _ _ _ (readyFor_other _ _ nofun nofun)
    · exact reply_idle h.sound h.idle _ _ _ _

theorem commitGroup_sound {u : State} (h : Asked u) (seq : Byte) : (u.commitGroup seq).EditsSound := by
  unfold State.commitGroup
  split_ifs
  · exact reply_idle h.sound h.idle _ _ _ _
  · exact reply_idle (endGroup_sound h) h.idle _ _ _ _
  · exact h.begin _ _ _ _ (readyFor_other _ _ nofun nofun)

/-! ### Events -/

theorem like_captureSteps (s : State) (set : CaptureSet) : Like s (s.stepsOf set) := like_captureFold set s

theorem like_sound {s t : State} (e : Like s t) (h : s.EditsSound) : t.EditsSound := by
  rw [State.EditsSound, e.arbiter]
  exact e.sound (List.Perm.refl _) h

theorem like_takeStopRelease (s : State) : Like s s.takeStopRelease :=
  like_of_rest (fun _ => rfl) rfl rfl rfl rfl rfl

theorem takeEvent_keeps_sound {s : State} (h : s.EditsSound) {e : TableEvent} (he : e ≠ .request) :
    (s.takeEvent e).EditsSound := by
  cases e with
  | request => exact absurd rfl he
  | captureSet set =>
    show (s.takeCaptureSet set).EditsSound
    rw [takeCaptureSet_eq]
    exact request_sound (like_sound (like_captureSteps s set) h) rfl nofun
  | driveStatus => exact like_sound (like_takeDriveStatus s) h
  | stopAsserted => exact like_sound (like_takeStop s) h
  | stopDeasserted => exact like_sound (like_takeStopRelease s) h

theorem raise_sound {s : State} (h : s.EditsSound) {e : TableEvent} (he : e ≠ .request) : (s.raise e).EditsSound := by
  unfold State.raise
  split_ifs
  · exact arbiter_sound (s := s) _ (fun hm => by simpa [he.symm] using hm) h
  · exact takeEvent_keeps_sound h he

/-! ### Ends of accesses -/

theorem computation_sound {s : State} {n : Word} (h : s.EditsSound) (ha : s.arbiter.inService = some (.computation n)) :
    ((s.compute n).closeComputation n).EditsSound := by
  unfold State.closeComputation
  split_ifs
  · have computed := like_sound (like_compute s n) h
    have before : (s.compute n).arbiter.inService = some (.computation n) := by rw [(like_compute s n).arbiter, ha]
    refine perm_sound (A := (s.compute n).arbiter.outstanding) ?_ (arbiter_sound _ id computed)
    rw [outstanding_of before, outstanding_of (a := .expiry n) rfl]
    rfl
  · exact table_ends h ha rfl (like_compute s n)

theorem portSnapshot_sound {s : State} (h : s.EditsSound) (ha : s.arbiter.inService = some .portSnapshot) :
    s.takePortSnapshot.endAccess.EditsSound := by
  have rest : s.takePortSnapshot = { s with port := s.takePortSnapshot.port } ∧
      s.takePortSnapshot.port.chipSelect = s.port.chipSelect ∧
      (s.takePortSnapshot.port.service = none ∨ s.takePortSnapshot.port.service = s.port.service) := by
    have finished (u : State) (port : u = { s with port := u.port }) (chip : u.port.chipSelect = s.port.chipSelect)
        (service : u.port.service = s.port.service) (r : Answer) :
        u.finish r = { s with port := (u.finish r).port } ∧ (u.finish r).port.chipSelect = s.port.chipSelect ∧
          ((u.finish r).port.service = none ∨ (u.finish r).port.service = s.port.service) := by
      unfold State.finish
      split
      · exact ⟨by rw [port]; rfl, chip, .inl rfl⟩
      · exact ⟨port, chip, .inr service⟩
    unfold State.takePortSnapshot
    split
    · split
      · unfold State.takeLookup
        split
        · rename_i i r _
          exact finished (s.copyRecord i r) rfl rfl rfl _
        · exact finished s rfl rfl rfl _
      · exact finished s rfl rfl rfl _
      all_goals exact ⟨rfl, rfl, .inr rfl⟩
    · exact ⟨rfl, rfl, .inr rfl⟩
  obtain ⟨port, chip, service⟩ := rest
  refine access_ends h ha (.inr rfl) _ ?_ ?_ (by rw [port]) (by rw [port]) (by rw [port]) chip ?_ ?_
  · rw [port]
    exact h.1
  · exact buffersSound_congr (by rw [port]) (by rw [port]) h.2.1
  · rw [port]
    exact fun _ hk => hk
  · exact service.imp_right fun e => ⟨e, by rw [port], by rw [port]⟩

theorem groupApplication_sound {s : State} (h : s.EditsSound) (ha : s.arbiter.inService = some .group) :
    ((s.applyGroup.1.endGroupService s.applyGroup.2.1 s.applyGroup.2.2).endAccess).EditsSound := by
  obtain ⟨buffers, slots, service, chip, store, startup, arbiter⟩ := applyGroup_rest s
  obtain ⟨v, hv, -⟩ := h.2.2.2.1.2.2.2.2.1 (.inl (by rw [outstanding_of ha]; exact List.mem_cons_self))
  have ended : s.applyGroup.1.endGroupService s.applyGroup.2.1 s.applyGroup.2.2 = s.applyGroup.1.replyWith v.code v.seq
      (v.edit.also s.applyGroup.2.1) s.applyGroup.2.2 := by
    rw [State.endGroupService, State.finish, gatherEdit_service (service.trans hv)]
    rfl
  rw [ended]
  have fine (p : BufferNo × EditBuffer) (hp : p ∈ s.edit.openBuffers) : p.2.Fine := by
    obtain ⟨tag, range, -⟩ := h.2.1 p.1 p.2 (open_mem hp)
    exact ⟨tag, range⟩
  refine access_ends h ha (.inl rfl) _ ?_ (fun k b hb => ?_) store startup arbiter chip (fun k _ => buffers k) (.inl rfl)
  · show DistinctSlots s.applyGroup.1.slots
    obtain same | judged := slots
    · rw [same]
      exact h.1
    · exact judgeGroup_distinct _ _ _ fine h.1 judged
  · have hb : s.applyGroup.1.edit.buffers[k] = some b := hb
    rw [buffers] at hb
    cases hb

/-- The profile that is being installed is valid, no buffer is open, and the install is the only one outstanding. -/
theorem install_sound {s : State} (h : s.EditsSound) (ha : s.arbiter.inService = some .install) :
    s.takeInstall.endAccess.EditsSound := by
  obtain ⟨tags, buffers, installs, service, closing⟩ := h
  rw [outstanding_of ha] at installs service closing
  obtain ⟨one, loads, startupLoads, begins, closed⟩ := installs
  obtain ⟨open_frame, beforeReady, ports, edits, snapshots, deferred⟩ := service
  obtain ⟨p, valid, op⟩ := loads List.mem_cons_self
  have loading : s.store.op.isLoading = true := by obtain e | ⟨e, -⟩ := op <;> rw [e] <;> rfl
  have noBuffers := closed loading
  have noMore : .install ∉ s.arbiter.waiting := by
    rw [List.count_cons_self] at one
    exact List.count_eq_zero.mp (by omega)
  have rest : s.takeInstall.slots = (s.install s.store.profiles[p]).slots ∧ s.takeInstall.edit = s.edit ∧
      s.takeInstall.port.service = s.port.service ∧ s.takeInstall.port.chipSelect = s.port.chipSelect ∧
      s.takeInstall.store.op = .idle ∧ s.takeInstall.arbiter = s.arbiter ∧
      (s.takeInstall.startup ≠ .ready → s.startup ≠ .ready) := by
    unfold State.takeInstall
    obtain e | ⟨e, rfl⟩ := op
    · rw [e]
      dsimp only
      rw [State.endStore, reportIf_eq]
      exact ⟨rfl, rfl, rfl, rfl, rfl, rfl, id⟩
    · rw [e]
      exact ⟨rfl, rfl, rfl, rfl, rfl, rfl, fun _ => by rw [startupLoads e]; nofun⟩
  obtain ⟨slots, edit, serviceSame, chip, idle, arbiter, startup⟩ := rest
  have counted : s.arbiter.waiting.countP Access.ofPort ≤ 1 := by
    rwa [List.countP_cons_of_neg (by simp [Access.ofPort])] at ports
  refine (endAccess_sound (s := s.takeInstall) ?_ ?_).1
  · rw [arbiter]
    refine ⟨?_, fun k _ hb => ?_, ⟨?_, fun hm => absurd hm noMore, ?_, fun _ => idle, ?_⟩,
      ⟨?_, fun hr => ?_, counted, ?_, ?_, ?_⟩, fun v hv => ⟨fun tag f w hw => ?_, fun name _ _ k _ _ _ _ hb => ?_⟩⟩
    · show DistinctSlots s.takeInstall.slots
      rw [slots]
      exact profile_distinct valid
    · rw [edit, noBuffers] at hb
      cases hb
    · rw [List.count_eq_zero.mpr noMore]
      exact Nat.zero_le _
    · rw [idle]
      nofun
    · rw [idle]
      nofun
    · rw [chip, serviceSame]
      exact open_frame
    · rw [serviceSame, edit]
      exact beforeReady (startup hr)
    · rw [serviceSame]
      exact fun k hk => edits k (List.mem_cons_of_mem _ hk)
    · rw [serviceSame]
      exact fun hk => snapshots (hk.imp (List.mem_cons_of_mem _) (List.mem_cons_of_mem _))
    · rw [serviceSame, arbiter]
      exact deferred
    · obtain ⟨-, -, notLoading, -⟩ := (closing v (serviceSame ▸ hv)).1 tag f w hw
      rw [loading] at notLoading
      cases notLoading
    · rw [edit, noBuffers] at hb
      cases hb
  · rw [arbiter, serviceSame]
    intro hm v hv
    obtain ⟨v', hv', judging⟩ := deferred hm
    rw [hv] at hv'
    cases hv'
    exact judging

theorem saveSnapshot_sound {s : State} (h : s.EditsSound) (ha : s.arbiter.inService = some .saveSnapshot) :
    s.takeSaveSnapshot.endAccess.EditsSound :=
  table_ends (takeSaveSnapshot_sound h) ((congrArg Arbiter.inService (takeSaveSnapshot_arbiter s)).trans ha) rfl
    (Like.refl _)

/-! ### Every command -/

theorem becomeReady_sound {s : State} (h : s.EditsSound) (hs : s.startup = .settled) : s.becomeReady.EditsSound := by
  have ready := store_sound h s.store .ready h.2.2.1.2.1
    (fun e => by rw [h.2.2.1.2.2.1 e] at hs; cases hs) nofun h.2.2.1.2.2.2.2 (fun e => absurd rfl e)
    fun v _ _ _ hv => by
      obtain ⟨service, -⟩ := closedBeforeReady h (by rw [hs]; nofun)
      rw [service] at hv
      cases hv
  exact same_sound ready rfl rfl rfl (idle_like ready) rfl rfl rfl rfl

theorem ready_sound {s : State} (h : s.EditsSound) (hs : s.startup = .settled) (b : Bool) :
    (s.becomeReady.readStop.reportIf b .store).EditsSound := by
  refine reportIf_sound ?_ _ _
  have ready := becomeReady_sound h hs
  unfold State.readStop
  split_ifs
  · exact like_sound (like_takeStop _) ready
  · exact ready

theorem passPhase_sound {s : State} (h : s.EditsSound) (old new : ExchangePhase) : (s.passPhase old new).EditsSound := by
  unfold State.passPhase
  split_ifs
  · exact same_sound h rfl rfl rfl (idle_like h) rfl rfl rfl rfl
  · exact h

theorem nextExchange_sound {s : State} (h : s.EditsSound) (earlier remaining : List ChannelNo) :
    (s.nextExchange earlier remaining).EditsSound := by
  unfold State.nextExchange
  split <;> exact same_sound h rfl rfl rfl (idle_like h) rfl rfl rfl rfl

theorem latched_sound {s : State} (h : s.EditsSound) : s.recovered.latched.EditsSound :=
  same_sound h rfl rfl rfl (idle_like h) rfl rfl rfl rfl

theorem stopLine_sound {s : State} (h : s.EditsSound) (b : Bool) : ({ s with stopLine := b } : State).EditsSound :=
  same_sound h rfl rfl rfl (idle_like h) rfl rfl rfl rfl

/-- What a result keeps sound. -/
theorem of_answer {r : Result} {s t : State} (he : r = .next t) (e : r = .next s) (h : s.EditsSound) :
    t.EditsSound := by
  rw [e] at he
  cases he
  exact h

theorem exec_sound {c : Instr} {s t : State} (h : s.EditsSound) (he : exec c s = .next t) : t.EditsSound := by
  have asked {code seq : Byte} {refused : Bool} {f : State → State}
      (hf : ∀ u, Asked u → (refused = true → u.store.op.isLoading = false) → (f u).EditsSound) :
      (s.frameRise fun t => t.dispatch code seq refused f).EditsSound :=
    frameRise_sound h fun u hu hi hc => dispatch_sound hu hi hc _ _ _ _ (hf u)
  cases c with
  | noOp code seq =>
    refine of_answer he rfl (frameRise_sound h fun u hu hi hc => ?_)
    split_ifs
    · exact dispatch_sound hu hi hc _ _ _ _ fun _ _ => reply_idle hu hi _ _ _ _
    · exact reply_idle hu hi _ _ _ _
  | lookupRecord seq tag index => exact of_answer he rfl (askNamed_sound h _ _ _ _ _ nofun nofun)
  | readSnapshot seq item =>
    exact of_answer he rfl (ask_sound h 0x03 seq (fun t => (t, t.readSnapshot item)) fun _ hu => ⟨hu.sound, hu.idle⟩)
  | lookupChannel seq index => exact of_answer he rfl (askTable_sound h _ _ _ _ nofun)
  | queryGroup seq tag a =>
    exact of_answer he rfl (asked fun _ hu _ => hu.begin _ _ _ _ (readyFor_other _ _ nofun nofun))
  | writeField seq tag item a => exact of_answer he rfl (asked fun _ hu hl => writeField_sound hu (hl rfl) _ _ _ _)
  | commit seq tag => exact of_answer he rfl (asked fun _ hu _ => commit_sound hu _ _)
  | beginGroup seq => exact of_answer he rfl (ask_sound h _ _ _ fun _ hu => beginGroup_sound hu)
  | commitGroup seq => exact of_answer he rfl (asked fun _ hu _ => commitGroup_sound hu _)
  | abortGroup seq => exact of_answer he rfl (ask_sound h _ _ _ fun _ hu => abortGroup_sound hu)
  | form seq tag index => exact of_answer he rfl (askNamed_sound h _ _ _ _ _ nofun nofun)
  | release seq tag index => exact of_answer he rfl (askNamed_sound h _ _ _ _ _ nofun nofun)
  | retire seq tag index =>
    exact of_answer he rfl (askNamed_sound h _ _ _ _ _ nofun fun _ e => by cases e; rfl)
  | releaseGroup seq tag a =>
    exact of_answer he rfl (asked fun _ hu _ => hu.begin _ _ _ _ (readyFor_other _ _ nofun nofun))
  | writeChannel seq index item a => exact of_answer he rfl (askTable_sound h _ _ _ _ nofun)
  | setEngine seq a b c => exact of_answer he rfl (askTable_sound h _ _ _ _ nofun)
  | offsetTest seq tag index a => exact of_answer he rfl (askNamed_sound h _ _ _ _ _ nofun nofun)
  | checkTest seq tag index => exact of_answer he rfl (askNamed_sound h _ _ _ _ _ nofun nofun)
  | readFaults seq index =>
    refine of_answer he rfl (faultRequest_sound h 0x50 seq (fun t => t.readFaults index) fun u => ⟨u.faults, ?_⟩)
    unfold State.readFaults
    split <;> rfl
  | clearFaults seq index item a =>
    exact of_answer he rfl (faultRequest_sound h 0x51 seq _ fun u => clearFaults_faults u index item a)
  | clearSummary seq index =>
    exact of_answer he rfl (faultRequest_sound h 0x52 seq _ fun u => clearSummary_faults u index)
  | setMasks seq a b => exact of_answer he rfl (faultRequest_sound h 0x53 seq _ fun u => setMasks_faults u a b)
  | saveProfile seq index item => exact of_answer he rfl (ask_sound h 0x60 seq _ fun _ hu => saveProfile_sound hu index item)
  | eraseProfile seq index => exact of_answer he rfl (ask_sound h 0x61 seq _ fun _ hu => eraseProfile_sound hu index)
  | loadProfile seq index => exact of_answer he rfl (ask_sound h 0x62 seq _ fun _ hu => loadProfile_sound hu index)
  | storeStatus seq =>
    exact of_answer he rfl (ask_sound h 0x63 seq (fun t => (t, t.storeStatus)) fun _ hu => ⟨hu.sound, hu.idle⟩)
  | reset seq => exact of_answer he rfl (frameRise_sound h fun u _ _ _ => resetPart_sound u _ _)
  | frameDiscarded wholeBytes partByte => exact of_answer he rfl (frameRise_sound h fun _ hu _ _ => report_sound hu _ _)
  | frameRejected code seq =>
    exact of_answer he rfl (frameRise_sound h fun _ hu hi _ => report_sound (reply_idle hu hi _ _ _ _) _ _)
  | overlappedFrame =>
    refine of_answer he rfl ?_
    split_ifs
    · exact report_sound (raised_sound h) _ _
    · exact h
  | resetLine => exact of_answer he rfl (resetPart_sound s _ _)
  | powerOn => exact of_answer he rfl (resetPart_sound s _ _)
  | startupLoad =>
    refine of_answer he rfl ?_
    split_ifs with begun
    · exact takeStartupLoad_sound h begun.1
    · exact h
  | ready =>
    refine of_answer he rfl ?_
    split_ifs with settled
    · exact ready_sound h settled _
    · exact h
  | quadratureEdge channel phaseA phaseB =>
    exact of_answer he rfl (same_sound h rfl rfl rfl (idle_like h) rfl rfl rfl rfl)
  | capture =>
    refine of_answer he rfl ?_
    split_ifs
    · exact h
    · exact raise_sound (latched_sound h) nofun
  | computation =>
    simp only [exec, execComputation] at he
    split at he
    case h_1 n ha => exact of_answer he rfl (computation_sound h ha)
    all_goals exact of_answer he rfl h
  | collectDeadlineExpiry =>
    simp only [exec, execCollectDeadlineExpiry] at he
    split at he
    case h_1 n ha => exact of_answer he rfl (table_ends h ha rfl (like_expire s n))
    all_goals exact of_answer he rfl h
  | editApplication => exact editApplication_sound h he
  | groupApplication =>
    simp only [exec, execGroupApplication] at he
    split at he
    case h_1 ha =>
      split at he
      · cases he
      · exact of_answer he rfl (groupApplication_sound h ha)
    all_goals exact of_answer he rfl h
  | portSnapshot =>
    refine of_answer he rfl ?_
    split_ifs with ha
    · exact portSnapshot_sound h ha
    · exact h
  | saveSnapshot =>
    refine of_answer he rfl ?_
    split_ifs with ha
    · exact saveSnapshot_sound h ha
    · exact h
  | profileInstall =>
    refine of_answer he rfl ?_
    split_ifs with ha
    · exact install_sound h ha
    · exact h
  | saveEnd agrees => exact of_answer he rfl (endSave_sound h agrees)
  | eraseEnd => exact of_answer he rfl (endErase_sound h)
  | loadInvalidEnd => exact of_answer he rfl (endInvalidLoad_sound h)
  | checkStepTimer =>
    refine of_answer he rfl ?_
    split_ifs
    · exact request_sound h rfl nofun
    · exact h
  | checkStep =>
    refine of_answer he rfl ?_
    split_ifs with ha
    · exact table_ends h ha rfl (like_takeCheckStep s)
    · exact h
  | stopAsserted =>
    refine of_answer he rfl ?_
    split_ifs
    · exact h
    · exact raise_sound (stopLine_sound h true) nofun
    · exact stopLine_sound h true
  | stopDeasserted =>
    refine of_answer he rfl ?_
    split_ifs
    · exact raise_sound (stopLine_sound h false) nofun
    · exact stopLine_sound h false
    · exact h
  | correctionSent => exact of_answer he rfl (passPhase_sound h _ _)
  | driveStatus byte0 byte1 byte2 byte3 => exact of_answer he rfl (passPhase_sound h _ _)
  | brokenReply => exact of_answer he rfl (passPhase_sound h _ _)
  | replyWindowExpiry => exact of_answer he rfl (passPhase_sound h _ _)
  | gapEnd =>
    simp only [exec, execGapEnd] at he
    split at he
    · split at he
      · exact of_answer he rfl (nextExchange_sound h _ _)
      all_goals exact of_answer he rfl h
    · exact of_answer he rfl h
  | driveStatusEvent =>
    refine of_answer he rfl ?_
    split_ifs
    · exact raise_sound h nofun
    · exact h
  | replyStart => exact of_answer he rfl (passPhase_sound h _ _)
  | chipSelectFall =>
    refine of_answer he rfl ?_
    split_ifs
    · exact csFall_sound h
    · exact h
  | endOfReset => exact of_answer he rfl (same_sound h rfl rfl rfl (idle_like h) rfl rfl rfl rfl)

theorem step_sound {s t : State} (h : s.EditsSound) (hs : step s = .next t) : t.EditsSound := by
  unfold step at hs
  split at hs
  · rename_i rest _
    exact exec_sound (same_sound (t := s.withPending rest) h rfl rfl rfl (idle_like h) rfl rfl rfl rfl) hs
  · cases hs
    exact h

end Sys2Proof.Machine

open Sys2Proof Sys2Proof.Machine

/-- Settles O3: the two applications alone look for a dangling edit, and find none among sound buffers; each command
keeps the tags, the buffers, the installs and the request in service sound together. -/
theorem stopsOnlyOnDanglingEdit : Obligations.StopsOnlyOnDanglingEdit :=
  ⟨exec_answers, fun c s h => (exec_answers c s).resolve_right (not_dangles_of_sound h), fun _ _ => step_sound⟩

end

