-- ==== Sys2Proof/Proofs/TableQuiet.lean ====
section
/-! SUPPORT. Nothing waits on a free table, what waits is kept while an access is in service, and what its end does. -/

namespace Sys2Proof.Machine

/-! ### The arbiter is quiet when no access is in service -/

theorem asked_quiet {a : Arbiter} (l : List Access)
    (h : a.inService = none → a.waiting = [] ∧ a.deferred = []) :
    (l.foldl Arbiter.asked a).inService = none →
      (l.foldl Arbiter.asked a).waiting = [] ∧ (l.foldl Arbiter.asked a).deferred = [] := by
  obtain ⟨_ | b, waiting, deferred⟩ := a
  · obtain ⟨rfl, rfl⟩ := h rfl
    rw [asked_free]
    intro none_asked
    rw [List.head?_eq_none_iff.mp none_asked]
    exact ⟨rfl, rfl⟩
  · rw [asked_busy]
    nofun

theorem takeEvent_asked (s : State) (e : TableEvent) :
    ∃ asked : List Access, (s.takeEvent e).arbiter = asked.foldl Arbiter.asked s.arbiter := by
  obtain ⟨t, asked, -, h⟩ := takeEvent_requests s e
  exact ⟨asked, congrArg State.arbiter (h s.arbiter)⟩

theorem tableQuiet_takeEvent {s : State} (e : TableEvent) (h : s.TableQuiet) : (s.takeEvent e).TableQuiet := by
  obtain ⟨asked, eq⟩ := takeEvent_asked s e
  rw [State.TableQuiet, eq]
  exact asked_quiet asked h

theorem mustWait_busy {s : State} (h : s.TableQuiet) {e : TableEvent} (hw : s.mustWait e = true) :
    s.arbiter.inService ≠ none := by
  intro free
  obtain ⟨-, deferred⟩ := h free
  cases e <;> simp [State.mustWait, State.behindCaptureSet, State.channelsHeld, free, deferred] at hw

theorem tableQuiet_raise {s : State} (e : TableEvent) (h : s.TableQuiet) : (s.raise e).TableQuiet := by
  unfold State.raise
  split_ifs with waits
  · exact fun free => absurd free (mustWait_busy (s := s) h waits)
  · exact tableQuiet_takeEvent e h

theorem tableQuiet_request {s : State} (a : Access) (h : s.TableQuiet) : (s.request a).TableQuiet := by
  rw [State.TableQuiet, request_asked]
  exact asked_quiet [a] h

theorem asked_deferred (l : List Access) (a : Arbiter) : (l.foldl Arbiter.asked a).deferred = a.deferred := by
  induction l generalizing a with
  | nil => rfl
  | cons b l ih =>
    rw [List.foldl_cons, ih]
    unfold Arbiter.asked
    split <;> rfl

theorem tableQuiet_endAccess (s : State) : s.endAccess.TableQuiet := by
  obtain ⟨t, asked, -, h⟩ := takeEvents_request s.arbiter.deferred s
  unfold State.endAccess
  dsimp only
  rw [h]
  unfold State.serveNext
  split
  · nofun
  · rename_i none_waits
    exact fun _ => ⟨nextAccess_none none_waits, asked_deferred _ _⟩

theorem tableQuiet_kept : KeptMeanwhile State.TableQuiet where
  same s t arbiter _ _ _ h := by rw [State.TableQuiet, arbiter]; exact h
  raise _ e h := tableQuiet_raise e h
  request _ a h := tableQuiet_request a h

theorem tableQuiet_of_arbiter {s t : State} (e : t.arbiter = s.arbiter) (h : s.TableQuiet) : t.TableQuiet := by
  rw [State.TableQuiet, e]
  exact h

theorem tableQuiet_takeStartupLoad {s : State} (h : s.TableQuiet) : s.takeStartupLoad.TableQuiet := by
  unfold State.takeStartupLoad
  by_cases done : s.store.profiles[(0 : ProfileNo)].startupLoad = .done
  · rw [if_pos done]
    exact tableQuiet_request _ (tableQuiet_of_arbiter rfl h)
  · rw [if_neg done]
    exact h

theorem ready_arbiter (s : State) (b : Bool) : (s.becomeReady.readStop.reportIf b .store).arbiter = s.arbiter := by
  rw [reportIf_eq]
  show s.becomeReady.readStop.arbiter = s.becomeReady.arbiter
  generalize s.becomeReady = u
  unfold State.readStop
  split_ifs
  · exact (like_takeStop u).arbiter
  · rfl

/-- What the answer of a command that is given keeps. -/
theorem quiet_of_answer {r : Result} {s t : State} (he : r = .next t) (e : r = .next s) (h : s.TableQuiet) :
    t.TableQuiet := by
  rw [e] at he
  cases he
  exact h

theorem tableQuiet_exec {c : Instr} {s t : State} (h : s.TableQuiet) (he : exec c s = .next t) : t.TableQuiet := by
  by_cases meanwhile : isMeanwhile c = true
  · exact tableQuiet_kept.exec c meanwhile h he
  cases c <;> try exact absurd rfl meanwhile
  case reset seq =>
    exact quiet_of_answer he rfl (tableQuiet_kept.frameRise h fun u _ _ => ⟨rfl, rfl⟩)
  case resetLine => exact quiet_of_answer he rfl fun _ => ⟨rfl, rfl⟩
  case powerOn => exact quiet_of_answer he rfl fun _ => ⟨rfl, rfl⟩
  case startupLoad =>
    refine quiet_of_answer he rfl ?_
    split_ifs
    · exact tableQuiet_takeStartupLoad h
    · exact h
  case ready =>
    refine quiet_of_answer he rfl ?_
    split_ifs
    · exact tableQuiet_of_arbiter (ready_arbiter s _) h
    · exact h
  case computation =>
    simp only [exec, execComputation] at he
    split at he
    case h_1 n ha =>
      refine quiet_of_answer he rfl ?_
      unfold State.closeComputation
      split_ifs
      · nofun
      · exact tableQuiet_endAccess _
    all_goals exact quiet_of_answer he rfl h
  case collectDeadlineExpiry =>
    simp only [exec, execCollectDeadlineExpiry] at he
    split at he
    case h_1 n ha => exact quiet_of_answer he rfl (tableQuiet_endAccess _)
    all_goals exact quiet_of_answer he rfl h
  case editApplication =>
    simp only [exec, execEditApplication] at he
    split at he
    case h_1 k ha =>
      split at he
      · split at he
        · cases he
        · exact quiet_of_answer he rfl (tableQuiet_kept.proceed (tableQuiet_endAccess _))
      · exact quiet_of_answer he rfl (tableQuiet_kept.proceed (tableQuiet_endAccess _))
    all_goals exact quiet_of_answer he rfl h
  case groupApplication =>
    simp only [exec, execGroupApplication] at he
    split at he
    case h_1 ha =>
      split at he
      · cases he
      · exact quiet_of_answer he rfl (tableQuiet_endAccess _)
    all_goals exact quiet_of_answer he rfl h
  all_goals
    refine quiet_of_answer he rfl ?_
    split_ifs
    · exact tableQuiet_endAccess _
    · exact h

theorem tableQuiet_step {s t : State} (h : s.TableQuiet) (hs : step s = .next t) : t.TableQuiet := by
  unfold step at hs
  split at hs
  · rename_i rest _
    exact tableQuiet_exec (tableQuiet_of_arbiter (t := s.withPending rest) rfl h) hs
  · cases hs
    exact h

/-! ### A capture set that takes no channel to LOST -/

/-- Capture steps of which none loses its channel: each entry and its flags by the entry found. -/
theorem captureSteps_quiet (set : CaptureSet) (l : List ChannelNo) (hl : l.Nodup) (s : State)
    (h : ∀ c ∈ l, (s.captureStep set c).lost = false) :
    let t := l.foldl (fun t c => t.takeChannelStep c (t.captureStep set c)) s
    t = { s with channels := t.channels, faults := t.faults } ∧
    (∀ c ∈ l, t.channels[c] = (s.captureStep set c).entry) ∧ (∀ c ∉ l, t.channels[c] = s.channels[c]) ∧
    s.faults.Raised t.faults fun fl => ∃ c ∈ l, (s.captureStep set c).Reports c fl := by
  induction l generalizing s with
  | nil => exact ⟨rfl, nofun, fun _ _ => rfl, Raised.congr (Raised.refl _) (by simp)⟩
  | cons c l ih =>
    obtain ⟨hc, hl⟩ := List.nodup_cons.mp hl
    obtain ⟨eq, raised⟩ := (takeChannelStep_spec s c (s.captureStep set c)).1 (h c List.mem_cons_self)
    generalize ht : s.takeChannelStep c (s.captureStep set c) = t at eq raised
    have other (d : ChannelNo) (e : d ≠ c) : t.channels[d] = s.channels[d] := by
      rw [eq, channels_get_set, if_neg e]
    have own : t.channels[c] = (s.captureStep set c).entry := by rw [eq, channels_get_set, if_pos rfl]
    have same (d : ChannelNo) (hd : d ∈ l) : t.captureStep set d = s.captureStep set d := by
      have e : d ≠ c := fun e => hc (e ▸ hd)
      unfold State.captureStep
      rw [other d e, show t.engine = s.engine by rw [eq]]
    obtain ⟨eq', taken, kept, raised'⟩ := ih hl t fun d hd => by rw [same d hd]; exact h d (List.mem_cons_of_mem c hd)
    rw [List.foldl_cons, ht]
    dsimp only at eq' taken kept raised' ⊢
    generalize l.foldl (fun t c => t.takeChannelStep c (t.captureStep set c)) t = u at eq' taken kept raised' ⊢
    refine ⟨by rw [eq', eq], fun d hd => ?_, fun d hd => ?_, Raised.congr (Raised.trans raised raised') fun fl => ?_⟩
    · obtain rfl | hd := List.mem_cons.mp hd
      · rw [kept d hc, own]
      · rw [taken d hd, same d hd]
    · rw [List.mem_cons, not_or] at hd
      rw [kept d hd.2, other d hd.1]
    · simp only [List.mem_cons, exists_eq_or_imp]
      exact or_congr_right (exists_congr fun d => and_congr_right fun hd => by rw [same d hd])

end Sys2Proof.Machine
end

