-- ==== Sys2Proof/Proofs/StepAndReset.lean ====
section
/-! SUPPORT. One step, and the invariants at reset. -/

namespace Sys2Proof.Machine

theorem reset_channel (c : ChannelNo) : State.reset.channels[c] = Channel.initial ChannelConfig.reset .off := by
  simp [State.reset]

theorem reset_entry (i : SlotNo) : State.reset.completions[i] = none := by
  simp [State.reset]

theorem reset_buffer (k : BufferNo) : State.reset.edit.buffers[k] = none := blank_get k

theorem reset_anyActive : State.reset.anyActive = false := by
  rw [Bool.eq_false_iff, ne_eq, anyActive_iff]
  rintro ⟨i, r, hr, -⟩
  exact absurd ((reset_get i).symm.trans hr) nofun

theorem reset_coupledNow (c : ChannelNo) : State.reset.coupledNow c = false :=
  coupledNow_of_inactive reset_anyActive c

end Sys2Proof.Machine

open Sys2Proof Sys2Proof.Machine

/-- Settles O1: a step looks at the queue alone to find its command. -/
theorem stepRunsFrontCommand : Obligations.StepRunsFrontCommand := by
  refine ⟨fun c rest s front => ?_, fun s empty => ?_⟩
  · rw [step, front]
    rfl
  · rw [step, empty]

/-- Settles O11: at reset no slot, entry or buffer is in use, and every channel entry is at its initial values. -/
theorem invariantsHoldAtReset : Obligations.InvariantsHoldAtReset := by
  refine ⟨rfl, fun c => ?posts, fun i r hr => ?errors, ?map, fun i owned => ?owned, fun i => ?follow, ?edits,
    fun c => ?coupled, fun i r hr _ => ?up, fun taken => ?stop, fun _ => ⟨rfl, rfl⟩, fun c => ?counts, ?forest⟩
  case posts =>
    rw [reset_channel]
    simp [State.reset, Channel.initial]
  case errors => exact absurd ((reset_get i).symm.trans hr) nofun
  case map =>
    rw [State.MapBounded]
    decide
  case owned =>
    rw [reset_entry] at owned
    exact absurd owned nofun
  case follow =>
    rw [reset_entry, reset_get]
    simp
  case edits => exact blank_sound reset_get reset_buffer rfl rfl rfl rfl
  case coupled =>
    rw [reset_channel, reset_coupledNow]
    rfl
  case up => exact absurd ((reset_get i).symm.trans hr) nofun
  case stop => exact reset_anyActive
  case counts =>
    rw [reset_channel, Channel.CountsBounded]
    decide
  case forest =>
    refine ⟨fun i j r q hr => absurd ((reset_get i).symm.trans hr) nofun, fun c chain => ?_⟩
    obtain ⟨i, r, hr, -⟩ | ⟨-, i, r, hr, -⟩ := chain
    all_goals exact absurd ((reset_get i).symm.trans hr) nofun
end

