-- ==== Sys2Proof/Proofs/QueueKept.lean ====
section
/-! SUPPORT. No operation of the model changes the queue. -/

namespace Sys2Proof.Machine

/-- A state change that leaves the queue. -/
def QueueKept (f : State → State) : Prop := ∀ s, (f s).pending = s.pending

theorem foldl_pending {α : Type} {f : State → α → State} (h : ∀ s a, (f s a).pending = s.pending) (l : List α)
    (s : State) : (l.foldl f s).pending = s.pending := by
  induction l generalizing s with
  | nil => rfl
  | cons a l ih => rw [List.foldl_cons, ih, h]

/-! ### Records, channels, the arbiter -/

@[simp] theorem reportIf_pending (s : State) (b : Bool) (fl : Flag) : (s.reportIf b fl).pending = s.pending := by
  rw [reportIf_eq]

@[simp] theorem giveForm_pending (s : State) (i : SlotNo) (o : FormOutcome) (n : Word) :
    (s.giveForm i o n).pending = s.pending := by rw [giveForm_eq]

@[simp] theorem releaseAt_pending (s : State) (i : SlotNo) (r : Record) : (s.releaseAt i r).pending = s.pending := by
  unfold State.releaseAt
  split <;> simp

@[simp] theorem releaseMember_pending (s : State) (i : SlotNo) : (s.releaseMember i).pending = s.pending := by
  unfold State.releaseMember
  split <;> simp

@[simp] theorem recordMismatch_pending (s : State) (i : SlotNo) : (s.recordMismatch i).pending = s.pending := by
  rw [State.recordMismatch, report_pending, recouple_pending, markFailed_eq, cutAt_eq]

@[simp] theorem takeChannelStep_pending (s : State) (c : ChannelNo) (st : ChannelStep) :
    (s.takeChannelStep c st).pending = s.pending := by
  obtain ⟨kept, lost⟩ := takeChannelStep_spec s c st
  cases h : st.lost with
  | false => rw [(kept h).1]
  | true => rw [(lost h).2]

@[simp] theorem takeStop_pending (s : State) : s.takeStop.pending = s.pending := by
  rw [(takeStop_spec s).1]

@[simp] theorem request_pending (s : State) (a : Access) : (s.request a).pending = s.pending := by
  rw [request_eq]

@[simp] theorem serveNext_pending (s : State) : s.serveNext.pending = s.pending := by
  unfold State.serveNext
  split <;> rfl

@[simp] theorem nextExchange_pending (s : State) (earlier remaining : List ChannelNo) :
    (s.nextExchange earlier remaining).pending = s.pending := by
  unfold State.nextExchange
  split <;> rfl

@[simp] theorem compute_pending (s : State) (n : Word) : (s.compute n).pending = s.pending := by
  obtain ⟨entries, f, l, eq, -⟩ := compute_spec s n
  rw [eq]

@[simp] theorem expire_pending (s : State) (n : Word) : (s.expire n).pending = s.pending := by
  simp [State.expire]

@[simp] theorem recordChanged_pending (s : State) (i : SlotNo) : (s.recordChanged i).pending = s.pending := by
  unfold State.recordChanged
  repeat' split
  all_goals rfl

@[simp] theorem channelChanged_pending (s : State) (c : ChannelNo) : (s.channelChanged c).pending = s.pending := by
  unfold State.channelChanged
  repeat' split
  all_goals rfl

@[simp] theorem checkRecord_pending (s : State) (i : SlotNo) (r : Record) :
    (s.checkRecord i r).pending = s.pending := by
  unfold State.checkRecord
  split_ifs <;> simp [State.consumeTest]

@[simp] theorem checkChannel_pending (s : State) (c : ChannelNo) : (s.checkChannel c).pending = s.pending := by
  unfold State.checkChannel
  split_ifs <;> simp [State.channelMismatch]

@[simp] theorem takeCheckStep_pending (s : State) : s.takeCheckStep.pending = s.pending := by
  unfold State.takeCheckStep
  repeat' split
  all_goals simp

/-! ### Edits -/

@[simp] theorem noteApplied_pending (s : State) (b : EditBuffer) : (s.noteApplied b).pending = s.pending := by
  unfold State.noteApplied
  split <;> simp

@[simp] theorem rejectEdit_pending (s : State) (reason : EditReason) (tag : Half) :
    (s.rejectEdit reason tag).pending = s.pending := rfl

@[simp] theorem applyEdit_pending (s : State) (k : BufferNo) (b : EditBuffer) :
    (s.applyEdit k b).1.pending = s.pending := by
  unfold State.applyEdit
  split <;> simp

@[simp] theorem applyGroup_pending (s : State) : s.applyGroup.1.pending = s.pending := by
  unfold State.applyGroup
  split
  · simp
  · simpa using foldl_pending (fun t p => noteApplied_pending t p.2) s.edit.openBuffers s

/-! ### Requests and events -/

@[simp] theorem finish_pending (s : State) (r : Answer) : (s.finish r).pending = s.pending := by
  unfold State.finish
  split <;> simp

@[simp] theorem form_pending (s : State) (name : RecordName) : (s.form name).1.pending = s.pending := by
  unfold State.form State.formFound
  repeat' split
  all_goals simp [State.acceptForm]

@[simp] theorem release_pending (s : State) (name : RecordName) : (s.release name).1.pending = s.pending := by
  unfold State.release State.releaseFound State.releaseAnswer
  repeat' split
  all_goals simp

@[simp] theorem retire_pending (s : State) (name : RecordName) : (s.retire name).1.pending = s.pending := by
  unfold State.retire
  repeat' split
  all_goals simp [State.vacate]

@[simp] theorem releaseGroup_pending (s : State) (tag mask : Half) :
    (s.releaseGroup tag mask).1.pending = s.pending := by
  unfold State.releaseGroup
  dsimp only
  split
  · rfl
  · exact foldl_pending releaseMember_pending _ s

@[simp] theorem perform_pending (s : State) (r : TableRequest) : (s.perform r).1.pending = s.pending := by
  cases r with
  | form name => exact form_pending s name
  | release name => exact release_pending s name
  | retire name => exact retire_pending s name
  | releaseGroup tag mask => exact releaseGroup_pending s tag mask
  | offsetTest name offset =>
    simp only [State.perform, State.offsetTest]
    repeat' split
    all_goals simp
  | checkTest name =>
    simp only [State.perform, State.checkTest]
    repeat' split
    all_goals rfl
  | setEngine a b c =>
    simp only [State.perform, State.setEngine]
    repeat' split
    all_goals rfl
  | writeChannel index item a =>
    simp only [State.perform, State.writeChannel]
    repeat' split
    all_goals simp
  | lookupChannel index =>
    simp only [State.perform, State.lookupChannel]
    split <;> rfl

@[simp] theorem takeRequest_pending (s : State) : s.takeRequest.pending = s.pending := by
  unfold State.takeRequest
  repeat' split
  all_goals simp

@[simp] theorem takeDriveStatus_pending (s : State) : s.takeDriveStatus.pending = s.pending := by
  unfold State.takeDriveStatus
  repeat' split
  all_goals simp

@[simp] theorem takeEvent_pending (s : State) (e : TableEvent) : (s.takeEvent e).pending = s.pending := by
  cases e with
  | request => exact takeRequest_pending s
  | captureSet set =>
    show (s.takeCaptureSet set).pending = s.pending
    rw [State.takeCaptureSet, request_pending]
    exact foldl_pending (fun t c => takeChannelStep_pending t c _) _ s
  | driveStatus => exact takeDriveStatus_pending s
  | stopAsserted => exact takeStop_pending s
  | stopDeasserted => rfl

@[simp] theorem raise_pending (s : State) (e : TableEvent) : (s.raise e).pending = s.pending := by
  unfold State.raise
  split_ifs <;> simp

@[simp] theorem endAccess_pending (s : State) : s.endAccess.pending = s.pending := by
  simp [State.endAccess, foldl_pending takeEvent_pending]

@[simp] theorem openBuffer_pending (s : State) (k : BufferNo) (tag : Half) (f : RecordField) (w : Word) :
    (s.openBuffer k tag f w).pending = s.pending := setBuffer_pending s k _

@[simp] theorem serve_pending (s : State) (v : Service) : (s.serve v).pending = s.pending := by
  unfold State.serve
  split
  case h_4 =>
    unfold State.reopen
    split <;> simp
  case h_2 => split <;> simp
  all_goals simp

@[simp] theorem proceed_pending (s : State) : s.proceed.pending = s.pending := by
  unfold State.proceed
  repeat' split
  all_goals simp

@[simp] theorem begin_pending (s : State) (code seq : Byte) (q : PortRequest) (l : List BufferNo) :
    (s.begin code seq q l).pending = s.pending := by
  simp [State.begin]

@[simp] theorem beginNamed_pending (s : State) (code seq : Byte) (name : RecordName) (q : PortRequest) :
    (s.beginNamed code seq name q).pending = s.pending := by
  unfold State.beginNamed
  split <;> simp

@[simp] theorem writeFieldTo_pending (s : State) (seq : Byte) (tag : Half) (f : RecordField) (w : Word) :
    (s.writeFieldTo seq tag f w).pending = s.pending := by
  unfold State.writeFieldTo
  repeat' split
  all_goals simp [State.answered, State.writeInto]

@[simp] theorem writeField_pending (s : State) (seq : Byte) (tag : Half) (item : Byte) (w : Word) :
    (s.writeField seq tag item w).pending = s.pending := by
  unfold State.writeField
  repeat' split
  all_goals simp

@[simp] theorem commit_pending (s : State) (seq : Byte) (tag : Half) : (s.commit seq tag).pending = s.pending := by
  unfold State.commit
  repeat' split
  all_goals simp

@[simp] theorem commitGroup_pending (s : State) (seq : Byte) : (s.commitGroup seq).pending = s.pending := by
  unfold State.commitGroup
  repeat' split
  all_goals simp [State.answered]

/-! ### Frames -/

@[simp] theorem csFall_pending (s : State) : s.csFall.pending = s.pending := by
  unfold State.csFall
  repeat' split
  all_goals rfl

theorem frameRise_pending {f : State → State} (h : QueueKept f) (n : Nat) : QueueKept fun s => s.frameRise f n := by
  intro s
  show (s.frameRise f n).pending = s.pending
  have fallen : s.fallen.pending = s.pending := by
    unfold State.fallen
    split_ifs <;> simp
  obtain eq | eq | eq := frameRise_cases s f n
  · rw [eq, h, raised_pending, fallen]
  · rw [eq, report_pending, raised_pending, fallen]
  · rw [eq, State.unheardRise]
    split_ifs <;> simp [fallen]

theorem dispatch_pending {f : State → State} (h : QueueKept f) (code seq : Byte) (refused : Bool) :
    QueueKept fun s => s.dispatch code seq refused f := by
  intro s
  show (s.dispatch code seq refused f).pending = s.pending
  obtain eq | eq | eq := dispatch_cases s code seq refused f
  · rw [eq, replyWith_pending]
  · rw [eq, replyWith_pending]
  · rw [eq, h]

theorem rise_dispatch_pending {f : State → State} (h : QueueKept f) (code seq : Byte) (refused : Bool) :
    QueueKept fun s => s.frameRise fun t => t.dispatch code seq refused f :=
  frameRise_pending (dispatch_pending h code seq refused) 20

theorem ask_pending {f : State → State × Answer} (h : QueueKept fun s => (f s).1) (code seq : Byte) :
    QueueKept fun s => s.ask code seq f :=
  rise_dispatch_pending (f := fun u => State.answered code seq (f u))
    (fun u => (replyWith_pending _ code seq _ _).trans (h u)) code seq false

theorem askTable_pending (code seq : Byte) (refused : Bool) (r : TableRequest) :
    QueueKept fun s => s.askTable code seq refused r :=
  rise_dispatch_pending (fun u => begin_pending u code seq (.table r) []) code seq refused

theorem askNamed_pending (code seq : Byte) (refused : Bool) (name : RecordName) (q : PortRequest) :
    QueueKept fun s => s.askNamed code seq refused name q :=
  rise_dispatch_pending (fun u => beginNamed_pending u code seq name q) code seq refused

/-! ### The Fault Unit and the store -/

@[simp] theorem readFaults_pending (s : State) (index : Byte) : (s.readFaults index).1.pending = s.pending := by
  unfold State.readFaults
  split <;> rfl

@[simp] theorem clearNamed_pending (s : State) (o : Option Flag) : (s.clearNamed o).pending = s.pending := by
  unfold State.clearNamed
  repeat' split
  all_goals rfl

@[simp] theorem clearFaults_pending (s : State) (index item : Byte) (a : Word) :
    (s.clearFaults index item a).1.pending = s.pending := by
  unfold State.clearFaults
  repeat' split
  all_goals first | rfl | exact foldl_pending clearNamed_pending _ s

@[simp] theorem clearSummary_pending (s : State) (index : Byte) : (s.clearSummary index).1.pending = s.pending := by
  unfold State.clearSummary
  repeat' split
  all_goals rfl

@[simp] theorem setMasks_pending (s : State) (a b : Word) : (s.setMasks a b).1.pending = s.pending := by
  unfold State.setMasks
  split <;> rfl

@[simp] theorem endStore_pending (s : State) (r : StoreResult) : (s.endStore r).pending = s.pending := by
  rw [State.endStore, reportIf_pending]

@[simp] theorem saveProfile_pending (s : State) (index item : Byte) :
    (s.saveProfile index item).1.pending = s.pending := by
  unfold State.saveProfile
  repeat' split
  all_goals simp [State.beginStore]

@[simp] theorem eraseProfile_pending (s : State) (index : Byte) : (s.eraseProfile index).1.pending = s.pending := by
  unfold State.eraseProfile
  repeat' split
  all_goals rfl

@[simp] theorem loadProfile_pending (s : State) (index : Byte) : (s.loadProfile index).1.pending = s.pending := by
  unfold State.loadProfile
  repeat' split
  all_goals simp [State.beginStore]

@[simp] theorem endSave_pending (s : State) (agrees : Bool) : (s.endSave agrees).pending = s.pending := by
  unfold State.endSave
  repeat' split
  all_goals simp [State.setProfile, State.nextOccasion]

@[simp] theorem endErase_pending (s : State) : s.endErase.pending = s.pending := by
  unfold State.endErase
  split <;> simp [State.setProfile]

@[simp] theorem endInvalidLoad_pending (s : State) : s.endInvalidLoad.pending = s.pending := by
  unfold State.endInvalidLoad
  split <;> simp

@[simp] theorem takeSaveSnapshot_pending (s : State) : s.takeSaveSnapshot.pending = s.pending := by
  unfold State.takeSaveSnapshot
  split <;> rfl

@[simp] theorem takeInstall_pending (s : State) : s.takeInstall.pending = s.pending := by
  unfold State.takeInstall
  split <;> simp

@[simp] theorem takePortSnapshot_pending (s : State) : s.takePortSnapshot.pending = s.pending := by
  unfold State.takePortSnapshot State.takeLookup
  repeat' split
  all_goals simp [State.copyRecord]

@[simp] theorem takeStartupLoad_pending (s : State) : s.takeStartupLoad.pending = s.pending := by
  unfold State.takeStartupLoad
  dsimp only
  split_ifs <;> simp [State.beginStore]

@[simp] theorem passPhase_pending (s : State) (old new : ExchangePhase) :
    (s.passPhase old new).pending = s.pending := by
  unfold State.passPhase
  split_ifs <;> rfl

/-! ### Every command -/

theorem ends_pending {s : State} {c : Prop} [Decidable c] {u : State} (h : u.pending = s.pending) :
    (if c then u.endAccess else s).pending = s.pending := by
  split_ifs
  · rw [endAccess_pending, h]
  · rfl

/-- The answer of every command leaves the queue, where it is a next state. -/
theorem exec_pending {c : Instr} {s t : State} (he : exec c s = .next t) : t.pending = s.pending := by
  have go {u : State} (e : exec c s = .next u) (h : u.pending = s.pending) : t.pending = s.pending := by
    cases e.symm.trans he
    exact h
  cases c with
  | noOp code seq =>
    refine go rfl (frameRise_pending (fun u => ?_) 20 s)
    split_ifs
    · exact dispatch_pending (fun v => replyWith_pending v code seq _ _) code seq false u
    · exact replyWith_pending u code seq _ _
  | lookupRecord seq tag index => exact go rfl (askNamed_pending 0x02 seq false _ _ s)
  | readSnapshot seq item => exact go rfl (ask_pending (f := fun t => (t, t.readSnapshot item)) (fun _ => rfl) 0x03 seq s)
  | lookupChannel seq index => exact go rfl (askTable_pending 0x04 seq false _ s)
  | queryGroup seq tag a => exact go rfl (rise_dispatch_pending (fun u => begin_pending u _ _ _ _) 0x05 seq false s)
  | writeField seq tag item a =>
    exact go rfl (rise_dispatch_pending (fun u => writeField_pending u seq tag item a) 0x10 seq true s)
  | commit seq tag => exact go rfl (rise_dispatch_pending (fun u => commit_pending u seq tag) 0x11 seq true s)
  | beginGroup seq =>
    refine go rfl (ask_pending (fun u => ?_) 0x12 seq s)
    show u.beginGroup.1.pending = u.pending
    unfold State.beginGroup
    split_ifs <;> rfl
  | commitGroup seq => exact go rfl (rise_dispatch_pending (fun u => commitGroup_pending u seq) 0x13 seq true s)
  | abortGroup seq =>
    refine go rfl (ask_pending (fun u => ?_) 0x14 seq s)
    show u.abortGroup.1.pending = u.pending
    unfold State.abortGroup
    split_ifs <;> rfl
  | form seq tag index => exact go rfl (askNamed_pending 0x20 seq true _ _ s)
  | release seq tag index => exact go rfl (askNamed_pending 0x21 seq true _ _ s)
  | retire seq tag index => exact go rfl (askNamed_pending 0x22 seq true _ _ s)
  | releaseGroup seq tag a => exact go rfl (rise_dispatch_pending (fun u => begin_pending u _ _ _ _) 0x23 seq true s)
  | writeChannel seq index item a => exact go rfl (askTable_pending 0x30 seq true _ s)
  | setEngine seq a b d => exact go rfl (askTable_pending 0x31 seq false _ s)
  | offsetTest seq tag index a => exact go rfl (askNamed_pending 0x40 seq true _ _ s)
  | checkTest seq tag index => exact go rfl (askNamed_pending 0x41 seq false _ _ s)
  | readFaults seq index => exact go rfl (ask_pending (fun u => readFaults_pending u index) 0x50 seq s)
  | clearFaults seq index item a => exact go rfl (ask_pending (fun u => clearFaults_pending u index item a) 0x51 seq s)
  | clearSummary seq index => exact go rfl (ask_pending (fun u => clearSummary_pending u index) 0x52 seq s)
  | setMasks seq a b => exact go rfl (ask_pending (fun u => setMasks_pending u a b) 0x53 seq s)
  | saveProfile seq index item => exact go rfl (ask_pending (fun u => saveProfile_pending u index item) 0x60 seq s)
  | eraseProfile seq index => exact go rfl (ask_pending (fun u => eraseProfile_pending u index) 0x61 seq s)
  | loadProfile seq index => exact go rfl (ask_pending (fun u => loadProfile_pending u index) 0x62 seq s)
  | storeStatus seq => exact go rfl (ask_pending (f := fun t => (t, t.storeStatus)) (fun _ => rfl) 0x63 seq s)
  | reset seq =>
    exact go rfl (frameRise_pending (f := fun u => u.resetPart false (Config.deafFalls u.freeIndex)) (fun _ => rfl) 20 s)
  | frameDiscarded wholeBytes partByte =>
    exact go rfl (frameRise_pending (fun u => report_pending u .portFrame .mismatch) wholeBytes s)
  | frameRejected code seq =>
    exact go rfl (frameRise_pending
      (f := fun u => (u.replyWith code seq .untouched { result := .frameRejected }).report .portFrame) (fun _ => rfl) 20 s)
  | overlappedFrame =>
    refine go rfl ?_
    split_ifs <;> rfl
  | startupLoad =>
    refine go rfl ?_
    split_ifs
    · exact takeStartupLoad_pending s
    · rfl
  | ready =>
    refine go rfl ?_
    split_ifs
    · rw [reportIf_pending, State.readStop]
      split_ifs
      · exact takeStop_pending _
      · rfl
    · rfl
  | capture =>
    refine go rfl ?_
    split_ifs
    · rfl
    · exact raise_pending _ _
  | computation =>
    simp only [exec, execComputation] at he
    split at he
    all_goals cases he
    · unfold State.closeComputation
      split_ifs <;> simp
    all_goals rfl
  | collectDeadlineExpiry =>
    simp only [exec, execCollectDeadlineExpiry] at he
    split at he
    all_goals cases he
    · simp
    all_goals rfl
  | editApplication =>
    simp only [exec, execEditApplication] at he
    repeat' split at he
    all_goals cases he
    · simp [endEdit]
    · simp
    all_goals rfl
  | groupApplication =>
    simp only [exec, execGroupApplication] at he
    repeat' split at he
    all_goals cases he
    · simp [State.endGroupService]
    all_goals rfl
  | portSnapshot => exact go rfl (ends_pending (takePortSnapshot_pending s))
  | saveSnapshot => exact go rfl (ends_pending (takeSaveSnapshot_pending s))
  | profileInstall => exact go rfl (ends_pending (takeInstall_pending s))
  | checkStep => exact go rfl (ends_pending (takeCheckStep_pending s))
  | saveEnd agrees => exact go rfl (endSave_pending s agrees)
  | eraseEnd => exact go rfl (endErase_pending s)
  | loadInvalidEnd => exact go rfl (endInvalidLoad_pending s)
  | checkStepTimer =>
    refine go rfl ?_
    split_ifs <;> simp
  | stopAsserted =>
    refine go rfl ?_
    split_ifs <;> simp
  | stopDeasserted =>
    refine go rfl ?_
    split_ifs <;> simp
  | correctionSent => exact go rfl (passPhase_pending s _ _)
  | driveStatus b0 b1 b2 b3 => exact go rfl (passPhase_pending s _ _)
  | brokenReply => exact go rfl (passPhase_pending s _ _)
  | replyWindowExpiry => exact go rfl (passPhase_pending s _ _)
  | replyStart => exact go rfl (passPhase_pending s _ _)
  | gapEnd =>
    simp only [exec, execGapEnd] at he
    repeat' split at he
    all_goals cases he
    · exact nextExchange_pending s _ _
    all_goals rfl
  | driveStatusEvent =>
    refine go rfl ?_
    split_ifs <;> simp
  | chipSelectFall =>
    refine go rfl ?_
    split_ifs <;> simp
  | resetLine | powerOn | quadratureEdge | endOfReset => exact go rfl rfl

end Sys2Proof.Machine

open Sys2Proof Sys2Proof.Machine

/-- Settles O2: by cases on the command, from what each operation it is made of leaves. -/
theorem execKeepsQueue : Obligations.ExecKeepsQueue := fun _ _ _ he => exec_pending he
end

