-- ==== Sys2Proof/Proofs/RequestFrames.lean ====
section
/-! SUPPORT. Packed indications, and values as bytes. -/

namespace Sys2Proof.Machine

theorem packBits_testBit (l : List Bool) (n : Nat) : (packBits l).testBit n = l.getD n false := by
  induction l generalizing n with
  | nil => simp [packBits]
  | cons b l ih =>
    cases n with
    | zero => cases b <;> simp [packBits, Nat.testBit_zero]
    | succ n =>
      rw [List.getD_cons_succ, ← ih, packBits, Nat.testBit_succ]
      congr 1
      split <;> omega

/-- A value packed from indications has each of them at its place, and 0 above them. -/
theorem getLsbD_packBits (w n : Nat) (l : List Bool) :
    (BitVec.ofNat w (packBits l)).getLsbD n = (decide (n < w) && l.getD n false) := by
  rw [BitVec.getLsbD_ofNat, packBits_testBit]

theorem halfOf_extract (h : Half) : halfOf (h.extractLsb' 8 8) (h.extractLsb' 0 8) = h := by
  rw [halfOf]
  refine BitVec.eq_of_getLsbD_eq fun n hn => ?_
  rw [BitVec.getLsbD_append]
  split
  · simp [*]
  · simp [show n - 8 < 8 by omega, show 8 + (n - 8) = n by omega]

theorem wordOf_extract (w : Word) :
    wordOf (w.extractLsb' 24 8) (w.extractLsb' 16 8) (w.extractLsb' 8 8) (w.extractLsb' 0 8) = w := by
  rw [wordOf]
  refine BitVec.eq_of_getLsbD_eq fun n hn => ?_
  simp only [BitVec.getLsbD_append, BitVec.getLsbD_extractLsb']
  split_ifs
  · simp [*]
  · simp [show n - 8 < 8 by omega, show 8 + (n - 8) = n by omega]
  · simp [show n - 16 < 8 by omega, show 16 + (n - 16) = n by omega]
  · simp [show n - 16 - 8 < 8 by omega, show 24 + (n - 16 - 8) = n by omega]

/-- A request frame decodes to the request of its fields: its length and its CRC are right. -/
theorem decode_requestFrame (code seq : Byte) (tag : Half) (index item : Byte) (a b c : Word) :
    decodeFrame (requestFrame code seq tag index item a b c) false = requestOf code seq tag index item a b c := by
  simp only [requestFrame, halfBytes, wordBytes, List.cons_append, List.nil_append, decodeFrame, halfOf_extract,
    wordOf_extract, if_true]

theorem requestOf_other {code : Byte} (h : code ∉ requestCodes) (seq : Byte) (tag : Half) (index item : Byte)
    (a b c : Word) : requestOf code seq tag index item a b c = .noOp code seq := by
  have ne (n : Nat) (hn : BitVec.ofNat 8 n ∈ requestCodes) : code.toNat ≠ n := by
    rintro rfl
    rw [BitVec.ofNat_toNat, BitVec.setWidth_eq] at hn
    exact h hn
  unfold requestOf
  split
  case h_27 => rfl
  all_goals
    rename_i eq
    exact absurd eq (ne _ (by decide))

end Sys2Proof.Machine

open Sys2Proof Sys2Proof.Machine

/-- Settles O12: the frame's length and CRC are right, and each field stands where `requestOf` reads it. -/
theorem requestFramesDecode : Obligations.RequestFramesDecode := by
  intro i frame wf encoded
  cases i
  case noOp code seq =>
    cases encoded
    rw [decode_requestFrame]
    simp only [Instr.wellFormed, Bool.or_eq_true, beq_iff_eq, Bool.not_eq_true', List.contains_eq_mem,
      decide_eq_false_iff_not] at wf
    obtain rfl | other := wf
    · rfl
    · exact requestOf_other other ..
  all_goals simp only [encodeFrame, Option.some.injEq, reduceCtorEq] at encoded
  all_goals
    subst encoded
    exact decode_requestFrame ..
end

