-- ==== Sys2Proof/Proofs/FramesAndResets.lean ====
section
/-! SUPPORT. The frames, the resets and the fall of chip select. -/

namespace Sys2Proof.Machine

/-! ### The commands that end a frame -/

/-- The whole bytes of the frame that a command stands for (R148). -/
def riseBytes : Instr → Nat
  | .frameDiscarded wholeBytes _ => wholeBytes
  | _ => 20

/-- A command that stands for a whole frame is a judgement of that frame at its rise. -/
theorem exec_endsFrame (c : Instr) (h : c.endsFrame = true) :
    ∃ f, ∀ s, exec c s = .next (s.frameRise f (riseBytes c)) := by
  cases c
  all_goals simp only [Instr.endsFrame, Instr.requestHead, Option.isSome, Bool.or_self, reduceCtorEq] at h
  all_goals exact ⟨_, fun _ => rfl⟩

/-- A request of the catalogue is dispatched; those of `codesRefusedInLoad` are refused during a load. -/
theorem exec_dispatches (c : Instr) {code seq : Byte} (head : c.requestHead = some (code, seq))
    (known : code ∈ requestCodes) (wf : c.wellFormed = true) : ∃ f, ∀ s, exec c s =
      .next (s.frameRise fun t => t.dispatch code seq (codesRefusedInLoad.contains code) f) := by
  cases c
  case noOp code' seq' =>
    cases head
    simp only [Instr.wellFormed, Bool.or_eq_true, beq_iff_eq, Bool.not_eq_true', List.contains_eq_mem,
      decide_eq_false_iff_not] at wf
    obtain rfl : code = 0x01 := wf.resolve_right (fun other => other known)
    exact ⟨_, fun _ => rfl⟩
  all_goals simp only [Instr.requestHead, Option.some.injEq, Prod.mk.injEq, reduceCtorEq] at head
  all_goals
    obtain ⟨rfl, rfl⟩ := head
    exact ⟨_, fun _ => rfl⟩

theorem exec_noOp_unknown (code seq : Byte) (s : State) (unknown : code ∉ requestCodes) :
    exec (.noOp code seq) s = .next (s.frameRise fun t => t.replyWith code seq .untouched { result := .range }) := by
  have other : code ≠ 0x01 := fun eq => unknown (eq ▸ by decide)
  simp only [exec, execNoOp, if_neg other]

/-! ### Reset -/

theorem resetPart_blocks (s : State) (held : Bool) (deaf : Nat) : s.BlocksReset (s.resetPart held deaf) := by
  refine ⟨rfl, rfl, rfl, rfl, rfl, rfl, rfl, rfl, rfl, rfl, rfl, rfl, rfl, rfl, rfl, fun c => ?_, rfl, rfl⟩
  simp [State.resetPart, Encoder.afterReset]

theorem profiles_get_set (v : Vector Profile 4) (p q : ProfileNo) (x : Profile) :
    (v.set p x)[q] = if q = p then x else v[q] := by
  simp only [Fin.getElem_fin, Vector.getElem_set, Fin.ext_iff, eq_comm]

theorem resetPart_store (s : State) (held : Bool) (deaf : Nat) :
    s.store.KeptByReset (s.resetPart held deaf).store := by
  have after : (s.resetPart held deaf).store.profiles =
      s.store.profilesAfterReset (Config.freeBits s.freeIndex) := rfl
  refine ⟨rfl, rfl, ?_, ?_, ?_, ?_, ?_⟩
  all_goals
    rw [after]
    unfold Store.profilesAfterReset
  · rintro (op | op) <;> rw [op]
  · intro p valid op
    rw [op]
  · intro p q op
    rw [op]
    dsimp only
    refine ⟨?_, fun ne => ?_⟩
    · rw [profiles_get_set, if_pos rfl, Profile.loosen]
    · rw [profiles_get_set, if_neg ne]
  · intro p q autoLoad copy op
    rw [op]
    dsimp only
    refine ⟨?_, fun ne => ?_⟩
    · rw [profiles_get_set, if_pos rfl, Profile.cutShort, Profile.loosen]
    · rw [profiles_get_set, if_neg ne]
  · intro p autoLoad op
    rw [op]

/-! ### What is shifted out -/

/-- The first byte of the status word (R151). -/
def State.statusBits (s : State) : Byte :=
  BitVec.ofNat 8 (packBits [false, s.store.op != .idle, s.edit.groupMode, s.stopLine, s.faults.summary .service,
    s.faults.summary .coupling, s.faults.summary .channel, s.startup == .ready])

theorem readyCount_le (s : State) : s.readyCount ≤ s.entryCount := by
  refine List.countP_mono_left fun o _ ready => ?_
  cases o with
  | none => exact absurd ready nofun
  | some e => rfl

theorem heardFall_of (s : State) (held : s.resetHeld = false) (deaf : s.port.deafFalls = 0) :
    s.csFall = s.heardFall := by
  rw [State.csFall, held, deaf]
  rfl

theorem csFall_of_deaf (s : State) {falls : Nat} (held : s.resetHeld = false) (deaf : s.port.deafFalls = falls + 1) :
    s.csFall = (s.setDeaf falls).unheardFall := by
  rw [State.csFall, held, deaf]
  rfl

theorem exec_chipSelectFall (s : State) (high : s.port.chipSelect = .high) :
    exec .chipSelectFall s = .next s.csFall :=
  congrArg Host.Outcome.next (if_pos high)

theorem frameRise_of_unheard (s : State) (f : State → State) (n : Nat) (h : s.port.chipSelect = .lowUnheard) :
    s.frameRise f n = s.unheardRise n := by
  rw [State.frameRise, fallen_of_ne_high s (by rw [h]; nofun), h]

theorem unheardRise_eq (s : State) (n : Nat) : s.unheardRise n = { s with port := { s.port with
    chipSelect := .high, deafFalls := if n < 13 then s.port.deafFalls else 0 } } := by
  unfold State.unheardRise
  split_ifs <;> first | rfl | omega

end Sys2Proof.Machine

open Sys2Proof Sys2Proof.Machine

/-- Settles O13: the port answers at the dispatch, before the owner of the request sees it. -/
theorem portAnswersBeforeDispatch : Obligations.PortAnswersBeforeDispatch := by
  refine ⟨fun c code seq s head known wf opened starting => ?_, fun c code seq s head refused wf listening load => ?_,
    fun seq s listening => ?_, fun code seq s opened unknown => ?_⟩
  · obtain ⟨f, eq⟩ := exec_dispatches c head known wf
    rw [eq, frameRise_of_open s _ opened, dispatch_of_starting s.raised _ _ _ _ starting, raised_replyWith]
  · have known : code ∈ requestCodes := by
      have all : ∀ code ∈ codesRefusedInLoad, code ∈ requestCodes := by decide
      exact all code refused
    obtain ⟨f, eq⟩ := exec_dispatches c head known wf
    have contained : codesRefusedInLoad.contains code = true := List.contains_iff_mem.mpr refused
    rw [eq, frameRise_of_open s _ listening.1, contained, dispatch_of_loading s.raised _ _ _ listening.2 load,
      raised_replyWith]
  · have eq : exec (.noOp 0x01 seq) s = .next (s.frameRise fun t => t.dispatch 0x01 seq false fun u =>
      u.replyWith 0x01 seq .untouched { result := .done }) := rfl
    rw [eq, frameRise_of_open s _ listening.1, dispatch_of_ready s.raised _ _ _ _ listening.2 rfl, raised_replyWith]
  · rw [exec_noOp_unknown code seq s unknown, frameRise_of_open s _ opened, raised_replyWith]

/-- Settles O14: all three forms are one reset of the part; they differ in RESET and in the falls left unheard. -/
theorem resetsReachEveryBlock : Obligations.ResetsReachEveryBlock := by
  refine ⟨fun s => ⟨_, rfl, resetPart_blocks s false 0, resetPart_store s false 0, rfl⟩,
    fun s => ⟨_, rfl, resetPart_blocks s true 0, resetPart_store s true 0, rfl⟩, fun seq s opened => ?_⟩
  refine ⟨s.raised.resetPart false (Config.deafFalls s.freeIndex), ?_, resetPart_blocks s.raised _ _,
    resetPart_store s.raised _ _, rfl, rfl⟩
  exact congrArg Host.Outcome.next (frameRise_of_open s _ opened)

/-- Settles O15: the rise of such a frame is a report of PORT_FRAME. -/
theorem faultyFramesReportPortFrame : Obligations.FaultyFramesReportPortFrame := by
  refine ⟨fun s overlapped => ?_, fun wholeBytes partByte s opened => ?_, fun code seq s opened => ?_⟩
  · refine ⟨_, report_reported s.faults .portFrame .mismatch, congrArg Host.Outcome.next (if_pos overlapped),
      fun c ends => ?_⟩
    obtain ⟨f, eq⟩ := exec_endsFrame c ends
    rw [eq, frameRise_of_overlapped s f overlapped (riseBytes c)]
    rfl
  · exact ⟨_, report_reported s.faults .portFrame .mismatch,
      congrArg Host.Outcome.next (frameRise_of_open s _ opened wholeBytes)⟩
  · exact ⟨_, report_reported s.faults .portFrame .mismatch, congrArg Host.Outcome.next (frameRise_of_open s _ opened)⟩

/-- Settles O16: by the levels of RESET and of the falls left unheard, and bit by bit for the status word. -/
theorem chipSelectFallShiftsOutReply : Obligations.ChipSelectFallShiftsOutReply := by
  refine ⟨fun s high held deaf => ?heard, fun s high held => ?held, fun s falls high held deaf => ?deaf,
    fun c s ends unheard => ?rise, outputLevel_high, fun s overlapped k n b low place bit => ?level⟩
  case heard =>
    refine ⟨s.statusBits, (BitVec.ofNat 4 s.readyCount).setWidth 8, (s.captureNumber.setWidth 16).extractLsb' 8 8,
      (s.captureNumber.setWidth 16).extractLsb' 0 8, s.port.reply.bytes, rfl, ?_, ?_, ?_, ?_, ?_, ?_, ?_, ?_, ?_,
      fun bounded => ?_, halfOf_extract _⟩
    · rw [exec_chipSelectFall s high, heardFall_of s held deaf]
      rfl
    case refine_10 =>
      have le := (readyCount_le s).trans bounded
      simp only [BitVec.toNat_setWidth, BitVec.toNat_ofNat]
      omega
    all_goals
      rw [State.statusBits, getLsbD_packBits]
      simp [beq_eq_decide, bne]
  case held =>
    rw [exec_chipSelectFall s high, State.csFall, if_pos held]
    rfl
  case deaf =>
    rw [exec_chipSelectFall s high, csFall_of_deaf s held deaf]
    rfl
  case rise =>
    obtain ⟨f, eq⟩ := exec_endsFrame c ends
    rw [eq, frameRise_of_unheard s f _ unheard, unheardRise_eq]
    cases c <;> rfl
  case level => exact outputLevel_low s overlapped _ _ low (outputBits_at s.port k n b place bit)

/-- Settles O17: a rise found with chip select high falls first. -/
theorem wholeFrameIsFallThenRise : Obligations.WholeFrameIsFallThenRise := by
  intro c s ends high
  obtain ⟨f, eq⟩ := exec_endsFrame c ends
  rw [eq, eq, frameRise_of_high s f high (riseBytes c)]
end

