-- ==== Sys2Proof/Proofs/ChannelReads.lean ====
section
/-! SUPPORT. Read Snapshot and Lookup Channel, and how a request at a table waits. -/

namespace Sys2Proof.Machine

/-! ### A request that waits for the table -/

theorem begin_table (s : State) (code seq : Byte) (r : TableRequest) :
    s.begin code seq (.table r) [] = State.raise
      { s with port := { s.port with service := some (judging code seq r .untouched) } } .request := rfl

theorem mustWait_request (s : State) (code seq : Byte) (r : TableRequest) (e : EditOutcome) :
    State.mustWait { s with port := { s.port with service := some (judging code seq r e) } } .request =
      if r.atChannels = true then s.channelsHeld else s.arbiter.inService.isSome := rfl

/-- A request that finds its table taken waits to be judged (R38). -/
theorem begin_table_waits (s : State) (code seq : Byte) (r : TableRequest)
    (h : (if r.atChannels = true then s.channelsHeld else s.arbiter.inService.isSome) = true) :
    s.begin code seq (.table r) [] =
      { s with
        port := { s.port with service := some (judging code seq r .untouched) }
        arbiter := s.arbiter.deferring .request } := by
  rw [begin_table, State.raise, if_pos ((mustWait_request s code seq r .untouched).trans h)]
  rfl

theorem askTable_waits (s : State) (code seq : Byte) (refused : Bool) (r : TableRequest) (h : s.Listening)
    (hb : (refused && s.store.op.isLoading) = false)
    (hw : (if r.atChannels = true then s.channelsHeld else s.arbiter.inService.isSome) = true) :
    s.askTable code seq refused r =
      { s.serving (judging code seq r .untouched) with arbiter := s.arbiter.deferring .request } := by
  rw [State.askTable, frameRise_of_open s _ h.1, dispatch_of_ready s.raised _ _ _ _ h.2 hb]
  exact begin_table_waits s.raised code seq r hw

/-! ### Index bytes -/

theorem channelOfIndex_eq {index : Byte} {c : ChannelNo} (h : index.toNat = c.val) : channelOfIndex index = some c := by
  have lt : index.toNat < 8 := by omega
  rw [channelOfIndex, dif_pos lt]
  exact congrArg some (Fin.ext h)

theorem channelOfIndex_none {index : Byte} (h : 8 ≤ index.toNat) : channelOfIndex index = none :=
  dif_neg (by omega)

/-! ### Read Snapshot -/

theorem extract_append (x : BitVec 64) : x.extractLsb' 32 32 ++ x.extractLsb' 0 32 = x := by
  refine BitVec.eq_of_getLsbD_eq fun n hn => ?_
  rw [BitVec.getLsbD_append]
  split
  · simp [*]
  · simp [show n - 32 < 32 by omega, show 32 + (n - 32) = n by omega]

theorem toInt_ofInt_of_range {v : Int} (low : -2 ^ 63 ≤ v) (high : v < 2 ^ 63) : (BitVec.ofInt 64 v).toInt = v := by
  rw [BitVec.toInt_ofInt]
  exact Int.bmod_eq_of_le (by omega) (by omega)

theorem readSnapshot_empty {s : State} (h : s.port.snapshot = .empty) (item : Byte) :
    s.readSnapshot item = { result := .state } := by
  rw [State.readSnapshot, h]
  rfl

theorem readSnapshot_of {s : State} {fields : List (Option Int)} {changed : Bool}
    (h : s.port.snapshot.contents = some (fields, changed)) (item : Byte) :
    s.readSnapshot item = if item = 0 then { result := .range }
      else match fields[item.toNat - 1]? with
        | some field => snapshotAnswer field changed
        | none => { result := .range } := by
  rw [State.readSnapshot, h] <;> rfl

theorem exec_readSnapshot (seq item : Byte) {s : State} (h : s.Listening) :
    exec (.readSnapshot seq item) s =
      .next (s.raised.replyWith 0x03 seq .untouched (s.raised.readSnapshot item)) :=
  congrArg Host.Outcome.next (ask_of_listening s 0x03 seq (fun t => (t, t.readSnapshot item)) h)

/-! ### Lookup Channel -/

theorem exec_lookupChannel (seq index : Byte) {s : State} (h : s.Listening) (free : s.channelsHeld = false) :
    exec (.lookupChannel seq index) s =
      .next (((s.serving (judging 0x04 seq (.lookupChannel index) .untouched)).lookupChannel index).1.replyWith 0x04 seq
        .untouched ((s.serving (judging 0x04 seq (.lookupChannel index) .untouched)).lookupChannel index).2) :=
  congrArg Host.Outcome.next (askChannels_of_free s 0x04 seq false _ h rfl rfl free)

theorem channelsHeld_iff (s : State) : s.channelsHeld = true ↔ ∃ a, s.arbiter.inService = some a ∧
    ((∃ n, a = .computation n ∨ a = .expiry n) ∨ a = .install ∨ a = .saveSnapshot ∨ a = .checkStep) := by
  unfold State.channelsHeld
  cases s.arbiter.inService with
  | none => simp
  | some a => cases a <;> simp [Access.touchesChannels]

theorem reported_channel (ch : Channel) (n : ExchangeCounts) : ch.reported n =
    [some ↑ch.cfg.enabled.toNat, some ↑ch.cfg.counts.toNat, some ↑ch.cfg.circumference.toNat,
      some ↑ch.cfg.direction.toNat, some ↑ch.cfg.ceiling.toNat, some ↑ch.cfg.standstill.toNat,
      some ↑ch.cfg.overspeed.toNat, some ch.travelPerCount, some ↑ch.state.code,
      ch.state.reason.map fun r => (r.code : Int), some (flagNat ch.seedPending), some ↑ch.latched.toNat,
      some ch.travel, some ch.speed, some ↑ch.suspectRun, some ↑ch.goodRun, some ↑ch.missRun, some ↑ch.standstillRun,
      some (flagNat ch.standstill), ch.lastDrive.map fun d => (d.code : Int), some (flagNat ch.coupled),
      some (flagNat ch.limited), some ch.posted, some ↑ch.check.toNat, some ↑ch.lastCapture.toNat,
      some ↑n.replies.toNat, some ↑n.misses.toNat, some ↑n.skips.toNat] := by
  have wide {w : Nat} (h : w ≤ 32) (x : BitVec w) : (x.setWidth 32).toNat = x.toNat :=
    BitVec.toNat_setWidth_of_le h
  simp [Channel.reported, ChannelField.all, ChannelConfig.field, wide]

end Sys2Proof.Machine

open Sys2Proof Sys2Proof.Machine

/-- Settles O18: the answer is formed from the buffer at the rise, and its two words are the field's 64 bits. -/
theorem readSnapshotGivesField : Obligations.ReadSnapshotGivesField := by
  intro seq item s listening
  rw [exec_readSnapshot seq item listening]
  refine ⟨fun empty => ?empty, fun fields changed contents => ?_⟩
  case empty =>
    rw [readSnapshot_empty (s := s.raised) empty]
    rfl
  rw [readSnapshot_of (s := s.raised) contents]
  refine ⟨?outside, fun ne absent => ?absent, fun v ne present low high => ?present⟩
  case outside =>
    rintro (rfl | above)
    · rfl
    · have none_there : fields[item.toNat - 1]? = none := List.getElem?_eq_none (by omega)
      rw [none_there]
      split_ifs <;> rfl
  case absent =>
    rw [if_neg ne, absent]
    cases changed <;> rfl
  case present =>
    refine ⟨_, _, (congrArg BitVec.toInt (extract_append (BitVec.ofInt 64 v))).trans (toInt_ofInt_of_range low high), ?_⟩
    rw [if_neg ne, present]
    cases changed <;> rfl

/-- Settles O19: with the Channel Table free the copy is taken at the rise; the fields are those of the entry, one by
one. -/
theorem lookupChannelCopiesEntry : Obligations.LookupChannelCopiesEntry := by
  refine ⟨fun seq index s c listening free at_c => ?copy, fun seq index s listening free above => ?range,
    fun seq index s listening held => ?waits, channelsHeld_iff, fun ch n => ?fields⟩
  case copy =>
    rw [exec_lookupChannel seq index listening free, State.lookupChannel, channelOfIndex_eq at_c]
    dsimp only
    rw [listening.1.2]
    rfl
  case range =>
    rw [exec_lookupChannel seq index listening free, State.lookupChannel, channelOfIndex_none above]
    rfl
  case waits =>
    exact congrArg Host.Outcome.next (askTable_waits s 0x04 seq false (.lookupChannel index) listening rfl held)
  case fields =>
    intro flag
    refine ⟨rfl, ?_⟩
    rw [reported_channel]
    have reason : ch.state.reason.map (fun r => (r.code : Int)) = match ch.state with
        | .lost .noReply => some 0
        | .lost .driveDown => some 1
        | .lost .capture => some 2
        | .lost .check => some 3
        | .off | .waiting | .running | .stale => none := by
      cases ch.state with
      | lost reason => cases reason <;> rfl
      | _ => rfl
    have state : (ch.state.code : Int) = match ch.state with
        | .off => 0
        | .waiting => 1
        | .running => 2
        | .stale => 3
        | .lost _ => 4 := by
      cases ch.state <;> rfl
    have drive : ch.lastDrive.map (fun d => (d.code : Int)) = match ch.lastDrive with
        | some .ready => some 1
        | some .torqueLimit => some 2
        | some .tripped => some 3
        | some .disabled => some 4
        | none => none := by
      cases ch.lastDrive with
      | none => rfl
      | some d => cases d <;> rfl
    rw [reason, state, drive]
    rfl
end

