-- ==== Sys2Proof/Proofs/RecordReads.lean ====
section
/-! SUPPORT. How a name finds a record, which records a group holds, and the port snapshot access. -/

namespace Sys2Proof.Machine

/-! ### The first of a numbered row that passes a test -/

theorem find_finRange_iff {n : Nat} {p : Fin n → Bool} {k : Fin n} :
    (List.finRange n).find? p = some k ↔ p k = true ∧ ∀ j < k, p j = false := by
  refine ⟨fun found => ?_, fun ⟨hk, before⟩ => find_finRange k hk before⟩
  obtain ⟨hk, before, after, split, fails⟩ := List.find?_eq_some_iff_append.mp found
  refine ⟨hk, fun j lt => ?_⟩
  have mem : j ∈ before ++ k :: after := split ▸ List.mem_finRange j
  have sorted : (before ++ k :: after).Pairwise (· < ·) := split ▸ List.pairwise_lt_finRange n
  obtain mem | rfl | mem := by simpa using mem
  · simpa using fails j mem
  · exact absurd lt (lt_irrefl _)
  · exact absurd lt ((List.pairwise_cons.mp (List.pairwise_append.mp sorted).2.1).1 j mem).asymm

theorem find_finRange_none {n : Nat} {p : Fin n → Bool} :
    (List.finRange n).find? p = none ↔ ∀ j, p j = false := by
  simp [List.find?_eq_none]

/-! ### Names -/

/-- The record in a slot has a tag. -/
def State.hasTag (s : State) (tag : Half) (i : SlotNo) : Bool := s.slots[i].any fun r => r.cfg.tag == tag

theorem hasTag_iff (s : State) (tag : Half) (i : SlotNo) :
    s.hasTag tag i = true ↔ ∃ r, s.slots[i] = some r ∧ r.cfg.tag = tag := by
  simp [State.hasTag, Option.any_eq_true]

theorem hasTag_false (s : State) (tag : Half) (i : SlotNo) :
    s.hasTag tag i = false ↔ ∀ r, s.slots[i] = some r → r.cfg.tag ≠ tag := by
  rw [Bool.eq_false_iff, ne_eq, hasTag_iff]
  exact ⟨fun h r hr e => h ⟨r, hr, e⟩, fun h ⟨r, hr, e⟩ => h r hr e⟩

theorem findTag_find (s : State) (tag : Half) : s.findTag tag = (List.finRange 16).find? (s.hasTag tag) := by
  have test (i : SlotNo) : (s.slots[i].map fun r => (r.cfg.tag, i)).any (fun p => p.1 == tag) = s.hasTag tag i :=
    Option.any_map
  rw [State.findTag, State.directory, List.find?_filterMap]
  simp only [test]
  cases found : (List.finRange 16).find? (s.hasTag tag) with
  | none => rfl
  | some i =>
    obtain ⟨r, hr, -⟩ := (hasTag_iff s tag i).mp (find_finRange_iff.mp found).1
    rw [Option.bind_some, hr]
    rfl

theorem findTag_iff (s : State) (tag : Half) (i : SlotNo) : s.findTag tag = some i ↔
    (∃ r, s.slots[i] = some r ∧ r.cfg.tag = tag) ∧
      ∀ (j : SlotNo) (r : Record), j < i → s.slots[j] = some r → r.cfg.tag ≠ tag := by
  rw [findTag_find, find_finRange_iff, hasTag_iff]
  refine and_congr_right fun _ => ?_
  simp only [hasTag_false]
  exact ⟨fun h j r lt => h j lt r, fun h j lt r => h j r lt⟩

theorem findTag_none (s : State) (tag : Half) :
    s.findTag tag = none ↔ ∀ (i : SlotNo) (r : Record), s.slots[i] = some r → r.cfg.tag ≠ tag := by
  rw [findTag_find, find_finRange_none]
  exact forall_congr' fun i => hasTag_false s tag i

theorem resolve_tag_found {s : State} {tag : Half} {i : SlotNo} {r : Record} (h : s.findTag tag = some i)
    (hr : s.slots[i] = some r) : s.resolve (.byTag tag) = .ok (i, r) := by
  simp only [State.resolve, h, hr]

theorem resolve_tag_none {s : State} {tag : Half} (h : s.findTag tag = none) :
    s.resolve (.byTag tag) = .error .unknown := by
  simp only [State.resolve, h]

theorem resolve_slot_above (s : State) {index : Byte} (h : 16 ≤ index.toNat) :
    s.resolve (.bySlot index) = .error .range :=
  dif_neg (by omega)

theorem slotOfIndex {index : Byte} {i : SlotNo} (h : index.toNat = i.val) :
    ∃ lt : index.toNat < 16, (⟨index.toNat, lt⟩ : SlotNo) = i :=
  ⟨by omega, Fin.ext h⟩

theorem resolve_slot_vacant {s : State} {index : Byte} {i : SlotNo} (h : index.toNat = i.val)
    (hi : s.slots[i] = none) : s.resolve (.bySlot index) = .error .unknown := by
  obtain ⟨lt, rfl⟩ := slotOfIndex h
  simp only [State.resolve, dif_pos lt, hi]

theorem resolve_slot_found {s : State} {index : Byte} {i : SlotNo} {r : Record} (h : index.toNat = i.val)
    (hi : s.slots[i] = some r) : s.resolve (.bySlot index) = .ok (i, r) := by
  obtain ⟨lt, rfl⟩ := slotOfIndex h
  simp only [State.resolve, dif_pos lt, hi]

theorem resolve_refusal {s : State} {name : RecordName} {refusal : ResultCode} (h : s.resolve name = .error refusal) :
    refusal = .unknown ∨ refusal = .range := by
  cases name with
  | byTag tag =>
    simp only [State.resolve] at h
    repeat' split at h
    all_goals cases h
    all_goals exact .inl rfl
  | bySlot index =>
    simp only [State.resolve] at h
    repeat' split at h
    all_goals cases h
    · exact .inl rfl
    · exact .inr rfl

/-- A name that closes no edit because its slot holds no record finds none. -/
theorem closedBy_refusal {s : State} {name : RecordName} {refusal : ResultCode}
    (h : s.closedBy name = .error refusal) : s.resolve name = .error refusal := by
  unfold State.closedBy at h
  split_ifs at h
  split at h
  · cases h
  · split at h
    · cases h
    · rename_i refused
      cases h
      exact refused

/-! ### A named request that closes no edit -/

theorem askNamed_refused {s : State} (code seq : Byte) (refused : Bool) {name : RecordName} (q : PortRequest)
    {refusal : ResultCode} (h : s.Listening) (hb : (refused && s.store.op.isLoading) = false)
    (hc : s.closedBy name = .error refusal) :
    s.askNamed code seq refused name q = s.replied (Reply.plain code seq refusal) := by
  have closed : s.raised.closedBy name = .error refusal := hc
  rw [State.askNamed, frameRise_of_open s _ h.1, dispatch_of_ready s.raised _ _ _ _ h.2 hb, State.beginNamed, closed]
  exact raised_replyWith s code seq refusal

/-- The service of a request that has just come and closes no edit. -/
def opening (code seq : Byte) (q : PortRequest) : Service where
  code := code
  seq := seq
  request := q
  phase := .closing []
  edit := .untouched

/-- The part with a request that has just come in service. -/
def State.opened (s : State) (code seq : Byte) (q : PortRequest) : State :=
  { s with port := { s.port with service := some (opening code seq q) } }

theorem begin_serve (s : State) (code seq : Byte) (q : PortRequest) :
    s.begin code seq q [] = (s.opened code seq q).serve (opening code seq q) := rfl

theorem resolve_opened (s : State) (code seq : Byte) (q : PortRequest) (name : RecordName) :
    (s.opened code seq q).resolve name = s.resolve name := by
  cases name <;> rfl

/-- An access that a request asks for itself, with no edit to close, is requested at the rise (R90). -/
theorem raised_access (s : State) (code seq : Byte) (q : PortRequest) (a : Access) :
    ((s.raised.opened code seq q).setPhase .access).request a = { s.serving
      { code := code, seq := seq, request := q, phase := .access, edit := .untouched } with
      arbiter := s.arbiter.asked a } := by
  rw [request_asked]
  rfl

theorem exec_lookupRecord (seq : Byte) (tag : Half) (index : Byte) (s : State) : exec (.lookupRecord seq tag index) s =
    .next (s.askNamed 0x02 seq false (RecordName.ofFrame tag index) (.lookupRecord (RecordName.ofFrame tag index))) :=
  rfl

theorem exec_lookupRecord_found (seq : Byte) {tag : Half} {index : Byte} {s : State} {found : SlotNo × Record}
    (h : s.Listening) (hc : s.closedBy (RecordName.ofFrame tag index) = .ok [])
    (hr : s.resolve (RecordName.ofFrame tag index) = .ok found) : exec (.lookupRecord seq tag index) s =
      .next { s.serving
        { code := 0x02, seq := seq, request := .lookupRecord (RecordName.ofFrame tag index), phase := .access,
          edit := .untouched } with
        arbiter := s.arbiter.asked .portSnapshot } := by
  rw [exec_lookupRecord, askNamed_of_free s 0x02 seq false _ _ h rfl hc, begin_serve, State.serve]
  simp only [opening, resolve_opened]
  have resolved : s.raised.resolve (RecordName.ofFrame tag index) = .ok found := hr
  rw [resolved]
  exact congrArg Host.Outcome.next (raised_access s 0x02 seq _ .portSnapshot)

theorem exec_lookupRecord_refused (seq : Byte) {tag : Half} {index : Byte} {s : State} {refusal : ResultCode}
    (h : s.Listening) (none_found : s.closedBy (RecordName.ofFrame tag index) = .error refusal ∨
      (s.closedBy (RecordName.ofFrame tag index) = .ok [] ∧
        s.resolve (RecordName.ofFrame tag index) = .error refusal)) :
    exec (.lookupRecord seq tag index) s = .next (s.replied (Reply.plain 0x02 seq refusal)) := by
  rw [exec_lookupRecord]
  obtain closed | ⟨closed, unresolved⟩ := none_found
  · rw [askNamed_refused 0x02 seq false _ h rfl closed]
  · rw [askNamed_of_free s 0x02 seq false _ _ h rfl closed, begin_serve, State.serve]
    simp only [opening, resolve_opened]
    have unresolved : s.raised.resolve (RecordName.ofFrame tag index) = .error refusal := unresolved
    rw [unresolved]
    rfl

/-! ### The port snapshot access -/

theorem endAccess_alone {s : State} {a : Access} (h : s.arbiter = { inService := some a, waiting := [], deferred := [] }) :
    s.endAccess = { s with arbiter := { inService := none, waiting := [], deferred := [] } } :=
  endAccess_of_quiet s (by rw [h]) (by rw [h])

theorem takePortSnapshot_arbiter (s : State) : s.takePortSnapshot.arbiter = s.arbiter := by
  have eq : s.takePortSnapshot = { s.takePortSnapshot with arbiter := s.arbiter } := takePortSnapshot_arb s s.arbiter
  rw [eq]

theorem exec_portSnapshot_alone {s : State}
    (h : s.arbiter = { inService := some .portSnapshot, waiting := [], deferred := [] }) : exec .portSnapshot s =
      .next { s.takePortSnapshot with arbiter := { inService := none, waiting := [], deferred := [] } } := by
  have own : s.arbiter.inService = some .portSnapshot := by rw [h]
  have quiet := endAccess_alone ((takePortSnapshot_arbiter s).trans h)
  exact congrArg Host.Outcome.next ((if_pos own).trans quiet)

theorem takePortSnapshot_lookup {s : State} {v : Service} {name : RecordName} (hv : s.port.service = some v)
    (hr : v.request = .lookupRecord name) : s.takePortSnapshot = s.takeLookup name := by
  simp only [State.takePortSnapshot, hv, hr]

theorem takePortSnapshot_group {s : State} {v : Service} {tag mask : Half} (hv : s.port.service = some v)
    (hr : v.request = .queryGroup tag mask) :
    s.takePortSnapshot = s.replyWith v.code v.seq v.edit (s.groupAnswer tag mask) := by
  simp only [State.takePortSnapshot, State.finish, hv, hr]

theorem finish_of {s : State} {v : Service} (hv : s.port.service = some v) (r : Answer) :
    s.finish r = s.replyWith v.code v.seq v.edit r := by
  rw [State.finish, hv]

/-! ### Groups -/

theorem tagMatches_iff (tag mask t : Half) :
    tagMatches tag mask t = true ↔ ∀ n < 16, mask.getLsbD n = true → t.getLsbD n = tag.getLsbD n := by
  rw [tagMatches, beq_iff_eq, BitVec.eq_of_getLsbD_eq_iff]
  refine forall₂_congr fun n _ => ?_
  rw [BitVec.getLsbD_and, BitVec.getLsbD_and]
  cases mask.getLsbD n <;> simp

theorem inGroup_vacant {s : State} {i : SlotNo} (h : s.slots[i] = none) (tag mask : Half) :
    s.inGroup tag mask i = false := by
  rw [State.inGroup, h]

theorem inGroup_occupied {s : State} {i : SlotNo} {r : Record} (h : s.slots[i] = some r) (tag mask : Half) :
    s.inGroup tag mask i = tagMatches tag mask r.cfg.tag := by
  rw [State.inGroup, h]

theorem activeAt_occupied {s : State} {i : SlotNo} {r : Record} (h : s.slots[i] = some r) :
    s.activeAt i = r.state.isActive := by
  rw [State.activeAt, h]

theorem isActive_iff (st : RecordState) : st.isActive = true ↔
    st = .forming ∨ st = .held ∨ st = .slipping ∨ ∃ ramp, st = .releasing ramp := by
  cases st <;> simp [RecordState.isActive]

theorem getLsbD_slotBits (l : List SlotNo) (i : SlotNo) : (slotBits l).getLsbD i = l.contains i := by
  rw [slotBits, getLsbD_packBits]
  simp [List.getD_eq_getElem?_getD]

theorem contains_filter_finRange (p : SlotNo → Bool) (i : SlotNo) :
    ((List.finRange 16).filter p).contains i = p i := by
  rw [Bool.eq_iff_iff, List.contains_iff_mem, List.mem_filter]
  exact and_iff_right (List.mem_finRange i)

/-- The bits of a group's answer: the members below, the active ones among them above. -/
theorem groupAnswer_bits (s : State) (tag mask : Half) (i : SlotNo) :
    (s.groupAnswer tag mask).b.getLsbD i.val = s.inGroup tag mask i ∧
      (s.groupAnswer tag mask).b.getLsbD (16 + i.val) = (s.inGroup tag mask i && s.activeAt i) := by
  have split (hi lo : Half) : (hi ++ lo).getLsbD i.val = lo.getLsbD i.val ∧
      (hi ++ lo).getLsbD (16 + i.val) = hi.getLsbD i.val := by
    rw [BitVec.getLsbD_append, BitVec.getLsbD_append, if_pos i.isLt, if_neg (by omega), Nat.add_sub_cancel_left]
    exact ⟨rfl, rfl⟩
  obtain ⟨low, high⟩ := split (slotBits ((s.groupMatch tag mask).filter s.activeAt)) (slotBits (s.groupMatch tag mask))
  refine ⟨low.trans ?_, high.trans ?_⟩
  · rw [getLsbD_slotBits, State.groupMatch, contains_filter_finRange]
  · rw [getLsbD_slotBits, State.groupMatch, List.filter_filter, contains_filter_finRange, Bool.and_comm]

theorem groupAnswer_count (s : State) (tag mask : Half) :
    (s.groupAnswer tag mask).c.toNat = (List.finRange 16).countP (fun i => s.inGroup tag mask i) := by
  have le : (List.finRange 16).countP (fun i => s.inGroup tag mask i) ≤ 16 :=
    List.countP_le_length.trans_eq List.length_finRange
  rw [List.countP_eq_length_filter] at le ⊢
  exact (BitVec.toNat_ofNat _ _).trans (Nat.mod_eq_of_lt (by exact lt_of_le_of_lt le (by decide)))

theorem exec_queryGroup (seq : Byte) (tag : Half) (a : Word) {s : State} (h : s.Listening)
    (hc : s.closedByGroup tag (a.setWidth 16) = []) : exec (.queryGroup seq tag a) s =
      .next (s.raised.begin 0x05 seq (.queryGroup tag (a.setWidth 16)) []) := by
  have eq : exec (.queryGroup seq tag a) s = .next (s.frameRise fun t => t.dispatch 0x05 seq false fun u =>
    u.begin 0x05 seq (.queryGroup tag (a.setWidth 16)) (u.closedByGroup tag (a.setWidth 16))) := rfl
  have closed : s.raised.closedByGroup tag (a.setWidth 16) = [] := hc
  rw [eq, frameRise_of_open s _ h.1, dispatch_of_ready s.raised _ _ _ _ h.2 rfl, closed]

/-! ### The fields of a record copy -/

theorem reported_record (p : CapturePeriod) (r : Record) : r.reported p =
    [some ↑r.cfg.tag.toNat, some ↑r.cfg.leader.toNat, some ↑r.cfg.follower.toNat, some r.cfg.ratio.toInt,
      some ↑r.cfg.stiffness.toNat, some ↑r.cfg.damping.toNat, some ↑r.cfg.filterShift.toNat, some ↑r.cfg.limit.toNat,
      some ↑r.cfg.share.toNat, some ↑r.cfg.slipWindow.toNat, some ↑r.cfg.breakWindow.toNat,
      some ↑r.cfg.slipCount.toNat, some ↑r.cfg.band.toNat, some ↑r.cfg.timeout.toNat, some ↑r.cfg.ramp.toNat,
      some ↑r.state.code, some (inMicrometres r.error), some (rateInMmPerS p r.rate), some ↑r.run, some ↑r.elapsed,
      some r.correction, some (flagNat r.limited), r.state.reason.map fun b => (b.code : Int),
      r.state.ramp.map Ramp.start, r.state.ramp.map fun m => (m.step : Int), r.pendingOffset, some ↑r.edition.toNat,
      some ↑r.check.toNat, some (flagNat r.checkFailed)] := by
  have wide {w : Nat} (h : w ≤ 32) (x : BitVec w) : (x.setWidth 32).toNat = x.toNat :=
    BitVec.toNat_setWidth_of_le h
  simp [Record.reported, RecordField.all, RecordConfig.fieldValue, RecordConfig.field, wide]

end Sys2Proof.Machine

open Sys2Proof Sys2Proof.Machine

/-- Settles O20: the name is resolved at the rise and again in the access; the copy has the record's fields one by
one. -/
theorem lookupRecordCopiesTheRecord : Obligations.LookupRecordCopiesTheRecord := by
  refine ⟨fun seq tag index s listening => ⟨fun refusal none_found => ⟨?refusals, ?refused⟩,
      fun i r closed found => exec_lookupRecord_found seq listening closed found⟩,
    fun s v name i r alone hv hr found => ?copy, fun seq tag index refusal s ⟨listening, _, none_found⟩ =>
      exec_lookupRecord_refused seq listening none_found,
    fun s v name refusal alone hv hr unresolved => ?gone, fun s tag => ⟨findTag_iff s tag, findTag_none s tag,
      fun i r => resolve_tag_found, resolve_tag_none⟩,
    fun s index => ⟨resolve_slot_above s, fun i at_i => ⟨resolve_slot_vacant at_i, fun r => resolve_slot_found at_i⟩⟩,
    fun p r => ?fields⟩
  case refusals =>
    obtain closed | ⟨-, unresolved⟩ := none_found
    · exact resolve_refusal (closedBy_refusal closed)
    · exact resolve_refusal unresolved
  case refused => exact exec_lookupRecord_refused seq listening none_found
  case copy =>
    have taken : s.takeLookup name = (s.copyRecord i r).replyWith v.code v.seq v.edit (s.lookupAnswer i r) := by
      rw [State.takeLookup, found]
      exact finish_of (s := s.copyRecord i r) hv _
    rw [exec_portSnapshot_alone alone, takePortSnapshot_lookup hv hr, taken]
    have open_edit : (if s.editHolds r.cfg.tag = true then (1 : Half) else 0) =
        if s.edit.groupMode = true ∧ (s.edit.bufferFor r.cfg.tag).isSome = true then 1 else 0 := by
      simp only [State.editHolds, Bool.and_eq_true]
    rw [← open_edit]
    rfl
  case gone =>
    have taken : s.takeLookup name = s.replyWith v.code v.seq v.edit { result := refusal } := by
      rw [State.takeLookup, unresolved]
      exact finish_of hv _
    rw [exec_portSnapshot_alone alone, takePortSnapshot_lookup hv hr, taken]
    rfl
  case fields =>
    intro flag
    refine ⟨rfl, ?_⟩
    rw [reported_record]
    cases h : r.state with
    | broken reason => cases reason <;> rfl
    | _ => rfl

/-- Settles O21: the members are the slots that pass the test of their tag, and each has its bit. -/
theorem queryGroupReportsMatch : Obligations.QueryGroupReportsMatch := by
  refine ⟨fun seq tag a s listening closed => ?request, fun s v tag mask alone hv hr => ⟨(s.groupAnswer tag mask).b,
      (s.groupAnswer tag mask).c, ?answer, groupAnswer_count s tag mask,
      fun i => (groupAnswer_bits s tag mask i).1, fun i => (groupAnswer_bits s tag mask i).2⟩,
    fun s tag mask i => ⟨fun vacant => ⟨inGroup_vacant vacant tag mask, ?_⟩, fun r hr => ⟨?_, ?_⟩⟩⟩
  case request =>
    rw [exec_queryGroup seq tag a listening closed, begin_serve]
    exact congrArg Host.Outcome.next (raised_access s 0x05 seq (.queryGroup tag (a.setWidth 16)) .portSnapshot)
  case answer =>
    rw [exec_portSnapshot_alone alone, takePortSnapshot_group hv hr]
    rfl
  · rw [State.activeAt, vacant]
  · rw [inGroup_occupied hr, tagMatches_iff]
  · rw [activeAt_occupied hr, isActive_iff]
end

