-- ==== Sys2Proof/Proofs/EditRequests.lean ====
section
/-! SUPPORT. The edit buffers: which one is open for a tag, which is free, and Write Field and Commit as the Edit Unit
judges them. -/

namespace Sys2Proof.Machine

/-! ### Buffers -/

/-- A buffer is open for a tag. -/
def EditUnit.holds (e : EditUnit) (tag : Half) (k : BufferNo) : Bool :=
  match e.buffers[k] with
  | some b => b.tag == tag
  | none => false

theorem holds_iff (e : EditUnit) (tag : Half) (k : BufferNo) :
    e.holds tag k = true ↔ ∃ b, e.buffers[k] = some b ∧ b.tag = tag := by
  unfold EditUnit.holds
  cases e.buffers[k] <;> simp

theorem holds_false (e : EditUnit) (tag : Half) (k : BufferNo) :
    e.holds tag k = false ↔ ∀ b, e.buffers[k] = some b → b.tag ≠ tag := by
  rw [Bool.eq_false_iff, ne_eq, holds_iff]
  exact ⟨fun h b hb e => h ⟨b, hb, e⟩, fun h ⟨b, hb, e⟩ => h b hb e⟩

theorem bufferFor_iff (e : EditUnit) (tag : Half) (k : BufferNo) : e.bufferFor tag = some k ↔
    (∃ b, e.buffers[k] = some b ∧ b.tag = tag) ∧
      ∀ (j : BufferNo) (b : EditBuffer), j < k → e.buffers[j] = some b → b.tag ≠ tag := by
  have find : e.bufferFor tag = (List.finRange 4).find? (e.holds tag) := rfl
  rw [find, find_finRange_iff, holds_iff]
  refine and_congr_right fun _ => ?_
  simp only [holds_false]
  exact ⟨fun h j b lt => h j lt b, fun h j lt b => h j b lt⟩

theorem bufferFor_none (e : EditUnit) (tag : Half) :
    e.bufferFor tag = none ↔ ∀ (k : BufferNo) (b : EditBuffer), e.buffers[k] = some b → b.tag ≠ tag := by
  have find : e.bufferFor tag = (List.finRange 4).find? (e.holds tag) := rfl
  rw [find, find_finRange_none]
  exact forall_congr' fun k => holds_false e tag k

theorem freeBuffer_of {e : EditUnit} {k : BufferNo} (free : e.buffers[k] = none)
    (below : ∀ j : BufferNo, j < k → e.buffers[j].isSome) : e.freeBuffer = some k :=
  find_finRange k (by rw [free]; rfl) fun j lt => by simpa using below j lt

theorem freeBuffer_full {e : EditUnit} (full : ∀ k : BufferNo, e.buffers[k].isSome) : e.freeBuffer = none :=
  find_finRange_none.mpr fun k => by simpa using full k

/-! ### Field ids and ranges -/

theorem recordField_ofId_iff (item : Byte) (f : RecordField) :
    RecordField.ofId item = some f ↔ item.toNat = f.place.val + 1 := by
  unfold RecordField.ofId
  constructor
  · intro h
    split at h
    all_goals cases h
    all_goals assumption
  · intro h
    cases f <;> rw [h] <;> rfl

theorem recordField_ofId_none {item : Byte} (h : item.toNat = 0 ∨ 15 < item.toNat) : RecordField.ofId item = none := by
  cases id : RecordField.ofId item with
  | none => rfl
  | some f =>
    have place := (recordField_ofId_iff item f).mp id
    have below := f.place.isLt
    omega

/-! ### Write Field and Commit -/

theorem exec_writeField (seq : Byte) (tag : Half) (item : Byte) (a : Word) {s : State} (h : s.Listening)
    (idle : s.store.op.isLoading = false) :
    exec (.writeField seq tag item a) s = .next (s.raised.writeField seq tag item a) := by
  have eq : exec (.writeField seq tag item a) s = .next (s.frameRise fun t => t.dispatch 0x10 seq true fun u =>
    u.writeField seq tag item a) := rfl
  rw [eq, frameRise_of_open s _ h.1, dispatch_of_ready s.raised 0x10 seq true _ h.2 idle]

theorem exec_commit (seq : Byte) (tag : Half) {s : State} (h : s.Listening) (idle : s.store.op.isLoading = false) :
    exec (.commit seq tag) s = .next (s.raised.commit seq tag) := by
  have eq : exec (.commit seq tag) s = .next (s.frameRise fun t => t.dispatch 0x11 seq true fun u =>
    u.commit seq tag) := rfl
  rw [eq, frameRise_of_open s _ h.1, dispatch_of_ready s.raised 0x11 seq true _ h.2 idle]

theorem writeField_range {s : State} (seq : Byte) {tag : Half} {item : Byte} {a : Word}
    (h : tag = 0 ∨ RecordField.ofId item = none ∨ ∃ f, RecordField.ofId item = some f ∧ f.inRange a = false) :
    s.writeField seq tag item a = s.replyWith 0x10 seq .untouched { result := .range } := by
  unfold State.writeField
  obtain zero | unknown | ⟨f, id, outside⟩ := h
  · rw [if_pos zero]
  · rw [unknown]
    exact ite_self _
  · rw [id]
    simp [outside]

theorem writeField_to {s : State} (seq : Byte) {tag : Half} {item : Byte} {a : Word} {f : RecordField} (ht : tag ≠ 0)
    (id : RecordField.ofId item = some f) (inside : f.inRange a = true) :
    s.writeField seq tag item a = s.writeFieldTo seq tag f a := by
  unfold State.writeField
  rw [if_neg ht, id]
  simp [inside]

theorem writeFieldTo_full {s : State} (seq : Byte) {tag : Half} (f : RecordField) (a : Word)
    (unopened : s.edit.bufferFor tag = none) (full : ∀ k : BufferNo, s.edit.buffers[k].isSome) :
    s.writeFieldTo seq tag f a = s.replyWith 0x10 seq .untouched { result := .noBuffer } := by
  simp only [State.writeFieldTo, unopened, freeBuffer_full full]

theorem writeFieldTo_opens {s : State} (seq : Byte) {tag : Half} (f : RecordField) (a : Word) {k : BufferNo}
    (unopened : s.edit.bufferFor tag = none) (free : s.edit.freeBuffer = some k) :
    s.writeFieldTo seq tag f a = State.answered 0x10 seq (s.openBuffer k tag f a, { result := .done }) := by
  simp only [State.writeFieldTo, unopened, free]

theorem writeFieldTo_writes {s : State} (seq : Byte) {tag : Half} (f : RecordField) (a : Word) {k : BufferNo}
    {b : EditBuffer} (opened : s.edit.bufferFor tag = some k) (hb : s.edit.buffers[k] = some b)
    (again : b.wrote f = false ∨ s.edit.groupMode = true) :
    s.writeFieldTo seq tag f a = State.answered 0x10 seq (s.writeInto k b f a, { result := .done }) := by
  have keeps : (b.wrote f && !s.edit.groupMode) = false := by
    obtain h | h := again <;> simp [h]
  simp only [State.writeFieldTo, opened, hb, keeps, Bool.false_eq_true, if_false]

theorem writeFieldTo_closes {s : State} (seq : Byte) {tag : Half} {f : RecordField} (a : Word) {k : BufferNo}
    {b : EditBuffer} (opened : s.edit.bufferFor tag = some k) (hb : s.edit.buffers[k] = some b)
    (wrote : b.wrote f = true) (single : s.edit.groupMode = false) :
    s.writeFieldTo seq tag f a = s.begin 0x10 seq (.writeField tag f a) [k] := by
  simp only [State.writeFieldTo, opened, hb, wrote, single, Bool.not_false, Bool.and_self, if_true]

theorem openBuffer_existing {s : State} (k : BufferNo) {tag : Half} (f : RecordField) (a : Word) {i : SlotNo}
    {r : Record} (found : s.findTag tag = some i) (hr : s.slots[i] = some r) :
    s.openBuffer k tag f a = s.setBuffer k (some
      { tag := tag, target := .existing i r.cfg, written := (Vector.replicate 15 none).set f.place (some a) }) := by
  simp only [State.openBuffer, found, hr]

theorem openBuffer_new {s : State} (k : BufferNo) {tag : Half} (f : RecordField) (a : Word)
    (unfound : s.findTag tag = none) :
    s.openBuffer k tag f a = s.setBuffer k (some
      { tag := tag, target := .new, written := (Vector.replicate 15 none).set f.place (some a) }) := by
  simp only [State.openBuffer, unfound]

end Sys2Proof.Machine

open Sys2Proof Sys2Proof.Machine

/-- Settles O22: the checks are taken in their order, and a field's id is its place and 1. -/
theorem writeFieldAndCommitRefusals : Obligations.WriteFieldAndCommitRefusals := by
  refine ⟨fun seq tag item a s listening idle => ⟨fun bad => ?range, fun f ht id inside unopened full => ?full⟩,
    fun seq tag s listening idle => ⟨fun zero => ?_, fun ht group => ?_, fun ht single unopened => ?_⟩, by decide,
    recordField_ofId_iff, fun a => ⟨?ratio, fun f least most row => ?rows⟩,
    fun e tag => ⟨bufferFor_iff e tag, bufferFor_none e tag⟩⟩
  case range =>
    have refused : tag = 0 ∨ RecordField.ofId item = none ∨
        ∃ f, RecordField.ofId item = some f ∧ f.inRange a = false := by
      obtain zero | low | high | outside := bad
      · exact .inl zero
      · exact .inr (.inl (recordField_ofId_none (.inl low)))
      · exact .inr (.inl (recordField_ofId_none (.inr high)))
      · exact .inr (.inr outside)
    rw [exec_writeField seq tag item a listening idle, writeField_range seq refused, raised_replyWith]
  case full =>
    rw [exec_writeField seq tag item a listening idle, writeField_to seq ht id inside,
      writeFieldTo_full (s := s.raised) seq f a unopened full, raised_replyWith]
  case ratio => simp [RecordField.inRange]
  case rows =>
    simp only [List.mem_cons, Prod.mk.injEq, List.not_mem_nil, or_false] at row
    obtain ⟨rfl, rfl, rfl⟩ | ⟨rfl, rfl, rfl⟩ | ⟨rfl, rfl, rfl⟩ | ⟨rfl, rfl, rfl⟩ | ⟨rfl, rfl, rfl⟩ | ⟨rfl, rfl, rfl⟩ |
      ⟨rfl, rfl, rfl⟩ | ⟨rfl, rfl, rfl⟩ | ⟨rfl, rfl, rfl⟩ | ⟨rfl, rfl, rfl⟩ | ⟨rfl, rfl, rfl⟩ | ⟨rfl, rfl, rfl⟩ |
      ⟨rfl, rfl, rfl⟩ | ⟨rfl, rfl, rfl⟩ := row
    all_goals simp [RecordField.inRange]
  all_goals rw [exec_commit seq tag listening idle, State.commit]
  · rw [if_pos zero, raised_replyWith]
  · rw [if_neg ht, if_pos (show s.raised.edit.groupMode = true from group), raised_replyWith]
  · have unopened : s.raised.edit.bufferFor tag = none := unopened
    have single : s.raised.edit.groupMode = false := single
    rw [if_neg ht, single, unopened]
    exact congrArg Host.Outcome.next (raised_replyWith s 0x11 seq .noEdit)

/-- Settles O23: the buffer the Edit Unit writes to is the one open for the tag, or the lowest FREE one. -/
theorem writeFieldStoresValue : Obligations.WriteFieldStoresValue := by
  intro seq tag item a s f listening idle ht id inside
  rw [exec_writeField seq tag item a listening idle, writeField_to seq ht id inside]
  refine ⟨fun k unopened free below => ?_, fun k b opened hb again => ?_⟩
  · have lowest : s.raised.edit.freeBuffer = some k := freeBuffer_of free below
    rw [writeFieldTo_opens (s := s.raised) seq f a unopened lowest]
    refine ⟨fun i r found hr => ?_, fun unfound => ?_⟩
    · rw [openBuffer_existing (s := s.raised) k f a found hr]
      rfl
    · rw [openBuffer_new (s := s.raised) k f a unfound]
      rfl
  · rw [writeFieldTo_writes (s := s.raised) seq f a opened hb again]
    rfl
end

