-- ==== Sys2Proof/Proofs/Closing.lean ====
section
/-! SUPPORT. Which edits a request closes, and how it waits for its table. -/

namespace Sys2Proof.Machine

/-! ### The buffers that match a group -/

theorem mem_matching (e : EditUnit) (tag mask : Half) (j : BufferNo) :
    j ∈ e.matching tag mask ↔ ∃ b, e.buffers[j] = some b ∧ tagMatches tag mask b.tag = true := by
  simp [EditUnit.matching, EditUnit.openBuffers]

theorem matching_ascending (e : EditUnit) (tag mask : Half) : (e.matching tag mask).Pairwise (· < ·) := by
  rw [EditUnit.matching, List.pairwise_map]
  refine List.Pairwise.filter _ ?_
  rw [EditUnit.openBuffers, List.pairwise_filterMap]
  refine (List.pairwise_lt_finRange 4).imp fun {j k} lt p hp q hq => ?_
  obtain ⟨b, -, rfl⟩ := Option.map_eq_some_iff.mp hp
  obtain ⟨d, -, rfl⟩ := Option.map_eq_some_iff.mp hq
  exact lt

/-- Two ascending rows of the same numbers are one. -/
theorem eq_of_ascending {l m : List BufferNo} (hl : l.Pairwise (· < ·)) (hm : m.Pairwise (· < ·))
    (h : ∀ j, j ∈ l ↔ j ∈ m) : l = m :=
  ((List.perm_ext_iff_of_nodup (hl.imp ne_of_lt) (hm.imp ne_of_lt)).mpr h).eq_of_pairwise
    (fun _ _ _ _ ab ba => absurd ba ab.asymm) hl hm

theorem tagMatches_low_iff (tag : Half) (a : Word) (t : Half) : tagMatches tag (a.setWidth 16) t = true ↔
    ∀ n < 16, a.getLsbD n = true → t.getLsbD n = tag.getLsbD n := by
  rw [tagMatches_iff]
  refine forall₂_congr fun n lt => ?_
  simp [lt]

/-! ### The edits that a name closes -/

theorem ofFrame_tag {tag : Half} (h : tag ≠ 0) (index : Byte) : RecordName.ofFrame tag index = .byTag tag :=
  if_neg h

theorem closedBy_group {s : State} (h : s.edit.groupMode = true) (name : RecordName) : s.closedBy name = .ok [] :=
  if_pos h

theorem closedByGroup_single {s : State} (h : s.edit.groupMode = false) (tag mask : Half) :
    s.closedByGroup tag mask = s.edit.matching tag mask := by
  rw [State.closedByGroup, h]
  rfl

theorem closedBy_tag {s : State} (h : s.edit.groupMode = false) (tag : Half) :
    s.closedBy (.byTag tag) = .ok (s.edit.bufferFor tag).toList := by
  rw [State.closedBy, h]
  rfl

theorem closedBy_slot {s : State} (h : s.edit.groupMode = false) {index : Byte} {i : SlotNo} {r : Record}
    (found : s.resolve (.bySlot index) = .ok (i, r)) :
    s.closedBy (.bySlot index) = .ok (s.edit.bufferFor r.cfg.tag).toList := by
  rw [State.closedBy, h]
  simp [found]

theorem closedBy_slot_refused {s : State} (h : s.edit.groupMode = false) {index : Byte} {refusal : ResultCode}
    (unfound : s.resolve (.bySlot index) = .error refusal) : s.closedBy (.bySlot index) = .error refusal := by
  rw [State.closedBy, h]
  simp [unfound]

/-- The requests that name a record, with a value for the one that carries it. -/
def namedRequests (seq : Byte) (tag : Half) (index : Byte) (a : Word) : List Instr :=
  [.lookupRecord seq tag index, .form seq tag index, .release seq tag index, .retire seq tag index,
    .offsetTest seq tag index a, .checkTest seq tag index]

theorem closes_named {c : Instr} {seq : Byte} {tag : Half} {index : Byte} {a : Word} {q : PortRequest} (s : State)
    (hc : c ∈ namedRequests seq tag index a) (asks : c.asksFor = some q) :
    s.closes q = s.closedBy (RecordName.ofFrame tag index) := by
  simp only [namedRequests, List.mem_cons, List.not_mem_nil, or_false] at hc
  obtain rfl | rfl | rfl | rfl | rfl | rfl := hc
  all_goals
    cases asks
    rfl

/-! ### Closing and waiting -/

/-- The application of the first edit to close is requested at the rise (R90). -/
theorem raised_begin_closing (s : State) (code seq : Byte) (q : PortRequest) (k : BufferNo) (rest : List BufferNo) :
    s.raised.begin code seq q (k :: rest) = { s.serving
      { code := code, seq := seq, request := q, phase := .closing rest, edit := .untouched } with
      arbiter := s.arbiter.asked (.edit k) } := by
  have eq : s.raised.begin code seq q (k :: rest) = State.request (s.serving
      { code := code, seq := seq, request := q, phase := .closing rest, edit := .untouched }) (.edit k) := rfl
  rw [eq, request_asked]
  rfl

theorem exec_closing {c : Instr} {code seq : Byte} {q : PortRequest} {s : State} {k : BufferNo}
    {rest : List BufferNo} (h : s.Listening) (idle : s.store.op.isLoading = false)
    (head : c.requestHead = some (code, seq)) (asks : c.asksFor = some q) (closes : s.closes q = .ok (k :: rest)) :
    exec c s = .next { s.serving
      { code := code, seq := seq, request := q, phase := .closing rest, edit := .untouched } with
      arbiter := s.arbiter.asked (.edit k) } := by
  rw [(exec_asks c code seq q s h idle head asks).1 _ closes, raised_begin_closing]

theorem exec_waits {c : Instr} {code seq : Byte} {r : TableRequest} {s : State} (h : s.Listening)
    (idle : s.store.op.isLoading = false) (head : c.requestHead = some (code, seq))
    (asks : c.asksFor = some (.table r)) (closes : s.closes (.table r) = .ok [])
    (taken : (if r.atChannels = true then s.channelsHeld else s.arbiter.inService.isSome) = true) :
    exec c s = .next { s.serving
      { code := code, seq := seq, request := .table r, phase := .judging, edit := .untouched } with
      arbiter := s.arbiter.deferring .request } := by
  rw [(exec_asks c code seq _ s h idle head asks).1 _ closes]
  exact congrArg Host.Outcome.next (begin_table_waits s.raised code seq r taken)

end Sys2Proof.Machine

open Sys2Proof Sys2Proof.Machine

/-- Settles O24: the edits a request closes are those of the buffers its name or its group gives, and the first of
them, or the request itself, waits behind what holds the table. -/
theorem closingRequestsApplyTheEditFirst : Obligations.ClosingRequestsApplyTheEditFirst := by
  refine ⟨fun seq tag s k b listening idle ht single opened hb => ⟨?commit, fun item a f id inside wrote => ?write,
      fun index a c code request row => ?named⟩,
    fun c code seq request s k rest listening idle single head asks => ?closing,
    fun s tag mask => ⟨fun group => ⟨if_pos group, closedBy_group group⟩, fun single => ⟨fun none_matches => ?noGroup,
      fun unopened => ?noTag, fun index => ⟨fun above => closedBy_slot_refused single (resolve_slot_above s above),
      fun i at_i => ⟨fun vacant => closedBy_slot_refused single (resolve_slot_vacant at_i vacant),
      fun r hr unopened => ?noSlot⟩⟩⟩⟩,
    fun c code seq r s listening idle head => ⟨fun tag index asks row closed taken => ?waitsNamed,
      fun tag a hc hr closed taken => ?waitsGroup, fun a b d hc hr taken => ?waitsEngine,
      fun index item a hc hr taken => ?waitsChannel⟩⟩
  case commit =>
    have single : s.raised.edit.groupMode = false := single
    have opened : s.raised.edit.bufferFor tag = some k := opened
    rw [exec_commit seq tag listening idle, State.commit, if_neg ht, single, opened]
    exact congrArg Host.Outcome.next (raised_begin_closing s 0x11 seq _ k [])
  case write =>
    rw [exec_writeField seq tag item a listening idle, writeField_to seq ht id inside,
      writeFieldTo_closes (s := s.raised) seq a opened hb wrote single, raised_begin_closing]
  case named =>
    have name : RecordName.ofFrame tag index = .byTag tag := ofFrame_tag ht index
    have closes : s.closedBy (.byTag tag) = .ok [k] := by
      rw [closedBy_tag single, opened]
      rfl
    simp only [List.mem_cons, Prod.mk.injEq, List.not_mem_nil, or_false] at row
    obtain ⟨rfl, rfl, rfl⟩ | ⟨rfl, rfl, rfl⟩ | ⟨rfl, rfl, rfl⟩ | ⟨rfl, rfl, rfl⟩ | ⟨rfl, rfl, rfl⟩ |
      ⟨rfl, rfl, rfl⟩ := row
    all_goals exact exec_closing listening idle rfl (by rw [Instr.asksFor, name]) closes
  case closing =>
    intro closing ascending
    refine ⟨fun index i r ⟨a, row⟩ at_i hr opened last => ?_, fun tag index ⟨a, row⟩ ht opened last => ?_,
      fun tag a hc sorted members => ?_⟩
    · refine exec_closing listening idle head asks ((closes_named s row asks).trans ?_)
      exact (closedBy_slot single (resolve_slot_found at_i hr)).trans (by rw [opened, last]; rfl)
    · refine exec_closing listening idle head asks ((closes_named s row asks).trans ?_)
      rw [ofFrame_tag ht, closedBy_tag single, opened, last]
      rfl
    · have group : s.closedByGroup tag (a.setWidth 16) = k :: rest := by
        rw [closedByGroup_single single]
        refine eq_of_ascending (matching_ascending s.edit tag (a.setWidth 16)) sorted fun j => ?_
        rw [mem_matching, members]
        simp only [tagMatches_low_iff]
      refine exec_closing listening idle head asks ?_
      obtain rfl | rfl := hc
      all_goals
        cases asks
        exact congrArg Except.ok group
  case noGroup =>
    rw [closedByGroup_single single]
    refine List.eq_nil_iff_forall_not_mem.mpr fun j mem => ?_
    obtain ⟨b, hb, hm⟩ := (mem_matching s.edit tag mask j).mp mem
    obtain ⟨n, lt, masked, differs⟩ := none_matches j b hb
    exact differs ((tagMatches_iff tag mask b.tag).mp hm n lt masked)
  case noTag =>
    rw [closedBy_tag single, unopened]
    rfl
  case noSlot =>
    rw [closedBy_slot single (resolve_slot_found at_i hr), unopened]
    rfl
  case waitsNamed =>
    obtain ⟨a, row⟩ := row
    have named : c ∈ namedRequests seq tag index a := List.mem_cons_of_mem _ row
    have coupling : r.atChannels = false := by
      simp only [List.mem_cons, List.not_mem_nil, or_false] at row
      obtain rfl | rfl | rfl | rfl | rfl := row
      all_goals
        cases asks
        rfl
    refine exec_waits listening idle head asks ((closes_named s named asks).trans closed) ?_
    rw [coupling]
    exact taken
  case waitsGroup =>
    subst hc hr
    exact exec_waits listening idle head rfl (congrArg Except.ok closed) taken
  case waitsEngine =>
    subst hc hr
    exact exec_waits listening idle head rfl rfl taken
  case waitsChannel =>
    subst hc hr
    exact exec_waits listening idle head rfl rfl taken
end

