-- ==== Sys2Proof/Proofs/EditApplication.lean ====
section
/-! SUPPORT. The checks of an edit in their order, and its application as the end of an access. -/

namespace Sys2Proof.Machine

/-! ### The checks of R94 -/

theorem wrote_false_iff (b : EditBuffer) (f : RecordField) : b.wrote f = false ↔ b.written[f.place] = none := by
  rw [EditBuffer.wrote, Option.isSome_eq_false_iff, Option.isNone_iff_eq_none]

theorem incomplete_iff (b : EditBuffer) :
    (decide (b.target = .new) && !(b.wrote .leader && b.wrote .follower)) = true ↔
      b.target = .new ∧ (b.written[(1 : Fin 15)] = none ∨ b.written[(2 : Fin 15)] = none) := by
  rw [Bool.and_eq_true, decide_eq_true_iff, Bool.not_eq_true', Bool.and_eq_false_iff, wrote_false_iff, wrote_false_iff]
  exact Iff.rfl

theorem edits_false_iff (b : EditBuffer) (i : SlotNo) : b.edits i = false ↔ ∀ base, b.target ≠ .existing i base := by
  unfold EditBuffer.edits
  cases b.target with
  | new => exact ⟨fun _ _ => nofun, fun _ => rfl⟩
  | existing j base =>
    show (i == j) = false ↔ _
    rw [beq_eq_false_iff_ne]
    refine ⟨fun ne other e => ne ?_, fun h e => h base ?_⟩
    · cases e
      rfl
    · rw [e]

theorem tagHeldElsewhere_iff (slots : Slots) (b : EditBuffer) (tag : Half) : tagHeldElsewhere slots b tag = true ↔
    ∃ (i : SlotNo) (r : Record), slots[i] = some r ∧ r.cfg.tag = tag ∧ ∀ base, b.target ≠ .existing i base := by
  rw [tagHeldElsewhere, finRange_any]
  refine exists_congr fun i => ?_
  cases slots[i] with
  | none => simp
  | some r => simp [edits_false_iff]

theorem lowestVacant_none_iff (slots : Slots) :
    (lowestVacant slots).isNone = true ↔ ∀ i : SlotNo, slots[i].isSome := by
  rw [Option.isNone_iff_eq_none, lowestVacant, find_finRange_none]
  exact forall_congr' fun i => by simp

theorem lowestVacant_of {slots : Slots} {i : SlotNo} (vacant : slots[i] = none)
    (below : ∀ j : SlotNo, j < i → slots[j].isSome) : lowestVacant slots = some i :=
  find_finRange i (by rw [vacant]; rfl) fun j lt => by simpa using below j lt

theorem movesActivePair_iff (slots : Slots) (b : EditBuffer) : movesActivePair slots b = true ↔
    ∃ (i : SlotNo) (base : RecordConfig) (r : Record), b.target = .existing i base ∧ slots[i] = some r ∧
      r.state.isActive ∧ (b.result.leader ≠ r.cfg.leader ∨ b.result.follower ≠ r.cfg.follower) := by
  unfold movesActivePair
  cases b.target with
  | new => simp
  | existing j base =>
    dsimp only
    cases hr : slots[j] with
    | none =>
      refine ⟨nofun, ?_⟩
      rintro ⟨_, _, r, ⟨⟩, found, -⟩
      exact absurd (hr.symm.trans found) nofun
    | some r =>
      simp only [Bool.and_eq_true, Bool.or_eq_true, bne_iff_ne]
      refine ⟨fun h => ⟨j, base, r, rfl, hr, h⟩, ?_⟩
      rintro ⟨_, _, q, ⟨⟩, found, h⟩
      cases hr.symm.trans found
      exact h

/-! ### The application as the end of an access -/

/-- The changed-since indication of a copy of the record in a slot (R153). -/
def Snapshot.afterRecord (i : SlotNo) : Snapshot → Snapshot
  | .record j capture fields changed => .record j capture fields (changed || decide (j = i))
  | .empty => .empty
  | .channel c fields changed => .channel c fields changed

theorem recordChanged_eq (s : State) (i : SlotNo) :
    s.recordChanged i = { s with port := { s.port with snapshot := s.port.snapshot.afterRecord i } } := by
  unfold State.recordChanged
  split
  case h_1 j capture fields changed h =>
    rw [h]
    split_ifs with same
    · simp [Snapshot.afterRecord, same]
    · simp [Snapshot.afterRecord, same, ← h]
  case h_2 h =>
    rw [h]
    simp [Snapshot.afterRecord, ← h]
  case h_3 h =>
    rw [h]
    simp [Snapshot.afterRecord, ← h]

theorem afterRecord_own (i : SlotNo) (capture : Word) (fields : List (Option Int)) (changed : Bool) :
    Snapshot.afterRecord i (.record i capture fields changed) = .record i capture fields true := by
  simp [Snapshot.afterRecord]

theorem afterRecord_cases (i : SlotNo) (s : Snapshot) : s.afterRecord i = s ∨
    ∃ capture fields changed, s = .record i capture fields changed ∧
      s.afterRecord i = .record i capture fields true := by
  cases s with
  | record j capture fields changed =>
    by_cases same : j = i
    · subst same
      exact .inr ⟨capture, fields, changed, rfl, afterRecord_own j capture fields changed⟩
    · exact .inl (by simp [Snapshot.afterRecord, same])
  | _ => exact .inl rfl

theorem also_rejected (old : EditOutcome) (reason : EditReason) : old.also (.rejected reason) =
    match old with
    | .rejected first => .rejected first
    | .untouched | .applied => .rejected reason := by
  cases old <;> rfl

theorem also_applied (old : EditOutcome) : old.also .applied =
    match old with
    | .rejected first => .rejected first
    | .untouched | .applied => .applied := by
  cases old <;> rfl

theorem not_dangling {b : EditBuffer} {slots : Slots} (h : ∀ i base, b.target = .existing i base → slots[i].isSome) :
    b.dangling slots = none := by
  unfold EditBuffer.dangling
  split
  · rfl
  · rename_i i base target
    have occupied := h i base target
    rw [Option.isSome_iff_ne_none] at occupied
    exact if_neg (by rw [Option.isNone_iff_eq_none]; exact occupied)

/-- The part at the end of an edit application that nothing waits for, before the service goes on. -/
def State.edited (s : State) (k : BufferNo) (b : EditBuffer) : State :=
  { (s.applyEdit k b).1.gatherEdit (s.applyEdit k b).2 with
    arbiter := { inService := none, waiting := [], deferred := [] } }

theorem exec_editApplication_alone {s : State} {k : BufferNo} {b : EditBuffer}
    (alone : s.arbiter = { inService := some (.edit k), waiting := [], deferred := [] })
    (hb : s.edit.buffers[k] = some b) (sound : b.dangling s.slots = none) :
    exec .editApplication s = .next (s.edited k b).proceed := by
  have own : s.arbiter.inService = some (.edit k) := by rw [alone]
  obtain ⟨-, -, arbiter⟩ := applyEdit_port s k b
  have quiet := endAccess_alone ((gatherEdit_arbiter _ (s.applyEdit k b).2).trans (arbiter.trans alone))
  simp only [exec, execEditApplication, own, hb, sound, endEdit, quiet, State.edited]

theorem gatherEdit_eq {s : State} {v : Service} (hv : s.port.service = some v) (o : EditOutcome) : s.gatherEdit o =
    { s with port := { s.port with service := some { v with edit := v.edit.also o } } } := by
  rw [State.gatherEdit, hv]
  rfl

theorem edited_goesOn {s : State} (k : BufferNo) (b : EditBuffer) {v : Service} (hv : s.port.service = some v) :
    (s.edited k b).GoesOn (s.edited k b).proceed { v with edit := v.edit.also (s.applyEdit k b).2 } :=
  goesOn_proceed _ _ (gatherEdit_service ((applyEdit_port s k b).1.trans hv) _)

/-- The commit of one edit is answered with the outcome of that edit. -/
theorem goesOn_commit {u t : State} {v : Service} {tag : Half} (goes : u.GoesOn t v) (last : v.phase = .closing [])
    (hr : v.request = .commit tag) : t = { u with
      port := { u.port with
        service := none
        reply :=
          { code := v.code, seq := v.seq, edit := v.edit, a := 0, b := 0, c := 0
            result := match v.edit with
              | .rejected reason => reason.result
              | .untouched | .applied => .done } } } :=
  (goes.2 last).1 tag hr

/-! ### A rejected and an applied edit -/

theorem applyEdit_rejected {s : State} {k : BufferNo} {b : EditBuffer} {reason : EditReason}
    (h : b.rejection s.slots = some reason) :
    s.applyEdit k b = ((s.setBuffer k none).rejectEdit reason b.tag, .rejected reason) := by
  rw [State.applyEdit, h]

theorem applyEdit_existing {s : State} {k : BufferNo} {b : EditBuffer} {i : SlotNo} {base : RecordConfig} {r : Record}
    (h : b.rejection s.slots = none) (target : b.target = .existing i base) (hr : s.slots[i] = some r) :
    s.applyEdit k b = ({ s with
      slots := s.slots.set i (some (b.applyTo r))
      edit := { s.edit with buffers := s.edit.buffers.set k none }
      port := { s.port with snapshot := s.port.snapshot.afterRecord i } }, .applied) := by
  have applied : b.applied s.slots = s.slots.set i (some (b.applyTo r)) := by
    simp only [EditBuffer.applied, target, hr]
  rw [State.applyEdit, h]
  dsimp only
  rw [applied, State.noteApplied, target]
  dsimp only
  rw [recordChanged_eq]
  rfl

theorem applyEdit_new {s : State} {k : BufferNo} {b : EditBuffer} {i : SlotNo}
    (h : b.rejection s.slots = none) (target : b.target = .new) (vacant : lowestVacant s.slots = some i) :
    s.applyEdit k b = ({ s with
      slots := s.slots.set i (some (Record.fresh b.result))
      edit := { s.edit with buffers := s.edit.buffers.set k none } }, .applied) := by
  have applied : b.applied s.slots = s.slots.set i (some (Record.fresh b.result)) := by
    simp only [EditBuffer.applied, target, vacant]
  rw [State.applyEdit, h]
  dsimp only
  rw [applied, State.noteApplied, target]
  rfl

/-- A rejection is a report of EDIT_REJECT and the last-reject record (R95, R143). -/
theorem reject_reported (f : FaultUnit) (l : Option LastReject) :
    f.Reported { { f.report .editReject .mismatch with lastReject := l } with lastReject := f.lastReject }
      .editReject := by
  have reported := report_reported f .editReject .mismatch
  obtain ⟨-, -, -, -, -, -, -, lastReject, -⟩ := id reported
  have same : { { f.report .editReject .mismatch with lastReject := l } with lastReject := f.lastReject } =
      f.report .editReject .mismatch := by
    rw [← lastReject]
  rw [same]
  exact reported

end Sys2Proof.Machine

open Sys2Proof Sys2Proof.Machine

/-- Settles O25: each test of the chain is one of the five conditions. -/
theorem editRejectionInOrder : Obligations.EditRejectionInOrder := by
  intro b slots misses clashes held noSlot moved
  have incomplete := incomplete_iff b
  have clash : (decide (b.result.follower = b.result.leader) ||
      decide (b.result.breakWindow.toNat < b.result.slipWindow.toNat)) = true ↔ clashes := by simp [clashes]
  have duplicate := tagHeldElsewhere_iff slots b b.result.tag
  have full : (decide (b.target = .new) && (lowestVacant slots).isNone) = true ↔ noSlot := by
    rw [Bool.and_eq_true, decide_eq_true_iff, lowestVacant_none_iff]
  have moves := movesActivePair_iff slots b
  unfold EditBuffer.rejection
  refine ⟨fun h => ?_, fun h h' => ?_, fun h h' h'' => ?_, fun h h' h'' g => ?_, fun h h' h'' g g' => ?_,
    fun h h' h'' g g' => ?_⟩
  · rw [if_pos (incomplete.mpr h)]
  · rw [if_neg (mt incomplete.mp h), if_pos (clash.mpr h')]
  all_goals rw [if_neg (mt incomplete.mp h), if_neg (mt clash.mp h')]
  · rw [if_pos (duplicate.mpr h'')]
  all_goals rw [if_neg (mt duplicate.mp h'')]
  · rw [if_pos (full.mpr g)]
  all_goals rw [if_neg (mt full.mp g)]
  · rw [if_pos (moves.mpr g')]
  · rw [if_neg (mt moves.mp g')]

/-- Settles O26: the application ends with the buffer FREE and the rejection reported, and the service goes on. -/
theorem rejectedEditLeavesTheTable : Obligations.RejectedEditLeavesTheTable := by
  refine ⟨fun s k b v tag reason alone hb sound rejected hv hr last untouched => ?commit,
    fun s k b v toClose reason alone hb sound rejected hv closing => ?goesOn⟩
  case commit =>
    refine ⟨_, reject_reported s.faults (some { reason := reason, tag := b.tag }), rfl, ?_⟩
    have goes := edited_goesOn k b hv
    rw [applyEdit_rejected rejected, untouched] at goes
    rw [exec_editApplication_alone alone hb (not_dangling sound), goesOn_commit goes last hr, State.edited,
      applyEdit_rejected rejected]
    rfl
  case goesOn =>
    intro gathered
    refine ⟨_, _, reject_reported s.faults (some { reason := reason, tag := b.tag }), rfl,
      exec_editApplication_alone alone hb (not_dangling sound), ?_⟩
    have goes := edited_goesOn k b hv
    rw [applyEdit_rejected rejected, also_rejected] at goes
    have before : s.edited k b = { s with
          edit := { s.edit with buffers := s.edit.buffers.set k none }
          faults := { s.faults.report .editReject .mismatch with
            lastReject := some { reason := reason, tag := b.tag } }
          arbiter := { inService := none, waiting := [], deferred := [] }
          port := { s.port with service := some gathered } } := by
      rw [State.edited, applyEdit_rejected rejected,
        gatherEdit_eq (s := (s.setBuffer k none).rejectEdit reason b.tag) hv, also_rejected]
      rfl
    exact before ▸ goes

/-- Settles O27: the written fields stand over the record's own, and the service goes on with APPLIED gathered. -/
theorem appliedEditWritesTheRecord : Obligations.AppliedEditWritesTheRecord := by
  intro s k b v tag i base r toClose alone hb target hr accepted hv closing
  have sound : b.dangling s.slots = none := not_dangling fun j base' target' => by
    cases target.symm.trans target'
    rw [hr]
    rfl
  have goes := edited_goesOn k b hv
  rw [applyEdit_existing accepted target hr] at goes
  refine ⟨b.over r.cfg, s.port.snapshot.afterRecord i, over_field b r.cfg, afterRecord_cases i s.port.snapshot,
    fun capture fields changed copy => copy ▸ afterRecord_own i capture fields changed, ?goesOn,
    fun hr' last untouched => ?commit⟩
  case goesOn =>
    intro gathered
    refine ⟨_, exec_editApplication_alone alone hb sound, ?_⟩
    rw [also_applied] at goes
    have before : s.edited k b = { s with
          slots := s.slots.set i (some (b.applyTo r))
          edit := { s.edit with buffers := s.edit.buffers.set k none }
          arbiter := { inService := none, waiting := [], deferred := [] }
          port := { s.port with service := some gathered, snapshot := s.port.snapshot.afterRecord i } } := by
      rw [State.edited, applyEdit_existing accepted target hr, gatherEdit_eq (v := v) (by exact hv), also_applied] <;> rfl
    exact before ▸ goes
  case commit =>
    subst last
    rw [untouched] at goes
    rw [exec_editApplication_alone alone hb sound, goesOn_commit goes closing hr', State.edited,
      applyEdit_existing accepted target hr]
    rfl

/-- Settles O28: the record placed is a fresh one with the result of the edit. -/
theorem newEditCreatesARecord : Obligations.NewEditCreatesARecord := by
  intro s k b v tag i toClose alone hb target accepted vacant below hv closing
  have sound : b.dangling s.slots = none := not_dangling fun j base target' => absurd (target.symm.trans target') nofun
  have goes := edited_goesOn k b hv
  have created := applyEdit_new (k := k) accepted target (lowestVacant_of vacant below)
  have result : b.result = b.over (RecordConfig.defaults b.tag) := by
    rw [EditBuffer.result, EditBuffer.base, target]
  rw [created] at goes
  refine ⟨b.result, fun f => result ▸ over_field b _ f, ?defaults, ?goesOn, fun hr last untouched => ?commit⟩
  case defaults =>
    rintro d rfl
    exact ⟨rfl, rfl, rfl, rfl, rfl, rfl, rfl, rfl, rfl, rfl, rfl, rfl, rfl⟩
  case goesOn =>
    intro gathered
    refine ⟨_, exec_editApplication_alone alone hb sound, ?_⟩
    rw [also_applied] at goes
    have before : s.edited k b = { s with
          slots := s.slots.set i (some (Record.fresh b.result))
          edit := { s.edit with buffers := s.edit.buffers.set k none }
          arbiter := { inService := none, waiting := [], deferred := [] }
          port := { s.port with service := some gathered } } := by
      rw [State.edited, created, gatherEdit_eq (v := v) (by exact hv), also_applied] <;> rfl
    exact before ▸ goes
  case commit =>
    subst last
    rw [untouched] at goes
    rw [exec_editApplication_alone alone hb sound, goesOn_commit goes closing hr, State.edited, created]
    rfl
end

