-- ==== Sys2Proof/Proofs/GroupApplication.lean ====
section
/-! SUPPORT. Commit Group and the group access. -/

namespace Sys2Proof.Machine

/-! ### Open buffers -/

theorem mem_openBuffers (e : EditUnit) (k : BufferNo) (b : EditBuffer) :
    (k, b) ∈ e.openBuffers ↔ e.buffers[k] = some b := by
  refine ⟨open_mem (p := (k, b)), fun hb => ?_⟩
  exact List.mem_filterMap.mpr ⟨k, List.mem_finRange k, by rw [hb]; rfl⟩

theorem openBuffers_empty_iff (e : EditUnit) : e.openBuffers.isEmpty = true ↔ ∀ k : BufferNo, e.buffers[k] = none := by
  rw [List.isEmpty_iff, List.eq_nil_iff_forall_not_mem]
  refine ⟨fun h k => ?_, fun h p mem => ?_⟩
  · cases hb : e.buffers[k] with
    | none => rfl
    | some b => exact absurd ((mem_openBuffers e k b).mpr hb) (h (k, b))
  · exact absurd ((h p.1).symm.trans (open_mem mem)) nofun

/-! ### The snapshot buffer after the edits of a group -/

/-- The snapshot buffer learns of the edits of a group, one after another (R102, R153). -/
def Snapshot.afterEdits (l : List (BufferNo × EditBuffer)) (x : Snapshot) : Snapshot :=
  l.foldl (fun x p => match p.2.target with
    | .new => x
    | .existing i _ => x.afterRecord i) x

theorem notes_eq (l : List (BufferNo × EditBuffer)) (s : State) : l.foldl (fun t p => t.noteApplied p.2) s =
    { s with port := { s.port with snapshot := s.port.snapshot.afterEdits l } } := by
  induction l generalizing s with
  | nil => rfl
  | cons p l ih =>
    rw [List.foldl_cons, ih]
    unfold State.noteApplied
    cases target : p.2.target with
    | new => simp only [Snapshot.afterEdits, List.foldl_cons, target]
    | existing i base => simp only [Snapshot.afterEdits, List.foldl_cons, target, recordChanged_eq]

theorem afterEdits_record (l : List (BufferNo × EditBuffer)) (i : SlotNo) (capture : Word) (fields : List (Option Int))
    (changed : Bool) : Snapshot.afterEdits l (.record i capture fields changed) =
      .record i capture fields (changed || l.any fun p => p.2.edits i) := by
  induction l generalizing changed with
  | nil => simp [Snapshot.afterEdits]
  | cons p l ih =>
    rw [Snapshot.afterEdits, List.foldl_cons, List.any_cons]
    cases target : p.2.target with
    | new =>
      have other : p.2.edits i = false := by rw [EditBuffer.edits, target]
      rw [other, Bool.false_or]
      exact ih changed
    | existing j base =>
      have own : p.2.edits i = decide (i = j) := by
        rw [EditBuffer.edits, target]
        rfl
      rw [own, ← Bool.or_assoc]
      exact ih _

theorem afterEdits_other (l : List (BufferNo × EditBuffer)) {x : Snapshot}
    (h : ∀ i capture fields changed, x ≠ .record i capture fields changed) : x.afterEdits l = x := by
  induction l with
  | nil => rfl
  | cons p l ih =>
    have same (i : SlotNo) : x.afterRecord i = x := by
      cases x with
      | record i capture fields changed => exact absurd rfl (h i capture fields changed)
      | _ => rfl
    rw [Snapshot.afterEdits, List.foldl_cons]
    cases p.2.target with
    | new => exact ih
    | existing i base =>
      dsimp only
      rw [same]
      exact ih

theorem edits_iff (b : EditBuffer) (i : SlotNo) : b.edits i = true ↔ ∃ base, b.target = .existing i base := by
  rw [← Bool.not_eq_false, edits_false_iff]
  simp

/-! ### Commit Group -/

theorem exec_commitGroup (seq : Byte) {s : State} (h : s.Listening) (idle : s.store.op.isLoading = false) :
    exec (.commitGroup seq) s = .next (s.raised.commitGroup seq) := by
  have eq : exec (.commitGroup seq) s = .next (s.frameRise fun t => t.dispatch 0x13 seq true fun u =>
    u.commitGroup seq) := rfl
  rw [eq, frameRise_of_open s _ h.1, dispatch_of_ready s.raised 0x13 seq true _ h.2 idle]

theorem danglingBuffer_none {s : State} (h : ∀ (k : BufferNo) (b : EditBuffer) (i : SlotNo) (base : RecordConfig),
    s.edit.buffers[k] = some b → b.target = .existing i base → s.slots[i].isSome) : s.danglingBuffer = none := by
  rw [State.danglingBuffer, List.findSome?_eq_none_iff]
  intro p mem
  exact not_dangling fun i base target => h p.1 p.2 i base (open_mem mem) target

theorem exec_groupApplication_alone {s : State} {v : Service}
    (alone : s.arbiter = { inService := some .group, waiting := [], deferred := [] })
    (hv : s.port.service = some v) (sound : s.danglingBuffer = none) : exec .groupApplication s =
      .next { s.applyGroup.1.replyWith v.code v.seq (v.edit.also s.applyGroup.2.1) s.applyGroup.2.2 with
        arbiter := { inService := none, waiting := [], deferred := [] } } := by
  have own : s.arbiter.inService = some .group := by rw [alone]
  obtain ⟨-, -, service, -, -, -, arbiter⟩ := applyGroup_rest s
  have answered : s.applyGroup.1.endGroupService s.applyGroup.2.1 s.applyGroup.2.2 =
      s.applyGroup.1.replyWith v.code v.seq (v.edit.also s.applyGroup.2.1) s.applyGroup.2.2 := by
    rw [State.endGroupService, gatherEdit_eq (service.trans hv)]
    rfl
  have quiet := endAccess_alone (s := s.applyGroup.1.replyWith v.code v.seq (v.edit.also s.applyGroup.2.1)
    s.applyGroup.2.2) (arbiter.trans alone)
  simp only [exec, execGroupApplication, own, sound, answered, quiet]

theorem applyGroup_applied {s : State} {slots : Slots} (h : judgeGroup s.edit.openBuffers s.slots = .ok slots) :
    s.applyGroup = ({ s with
        slots := slots
        edit := { buffers := Vector.replicate 4 none, groupMode := false }
        port := { s.port with snapshot := s.port.snapshot.afterEdits s.edit.openBuffers } }, .applied,
      { result := .done, a := BitVec.ofNat 32 s.edit.openBuffers.length }) := by
  rw [State.applyGroup, h]
  dsimp only
  rw [notes_eq]
  rfl

theorem applyGroup_rejected {s : State} {reason : EditReason} {tag : Half}
    (h : judgeGroup s.edit.openBuffers s.slots = .error (reason, tag)) :
    s.applyGroup = (s.endGroup.rejectEdit reason tag, .rejected reason,
      { result := reason.result, a := tag.setWidth 32 }) := by
  rw [State.applyGroup, h]

end Sys2Proof.Machine

open Sys2Proof Sys2Proof.Machine

/-- Settles O31: the access judges the open buffers in their order against the table as those before them leave it, and
writes that table or none. -/
theorem commitGroupAppliesAllOrNothing : Obligations.CommitGroupAppliesAllOrNothing := by
  refine ⟨fun seq s listening idle => ⟨fun single => ?noGroup, fun group free => ?empty, fun k group opened => ?access⟩,
    fun s v alone hv hr untouched occupied => ⟨fun slots judged => ?applied, fun reason tag judged => ?rejected,
      fun k b rest slots => ⟨fun reason rejected => ?_, fun accepted => ?_, rfl⟩⟩⟩
  case noGroup =>
    have single : s.raised.edit.groupMode = false := single
    rw [exec_commitGroup seq listening idle, State.commitGroup, single]
    exact congrArg Host.Outcome.next (raised_replyWith s 0x13 seq .noGroup)
  case empty =>
    have group : s.raised.edit.groupMode = true := group
    have free : s.raised.edit.openBuffers.isEmpty = true := (openBuffers_empty_iff s.edit).mpr free
    rw [exec_commitGroup seq listening idle, State.commitGroup, group, free]
    rfl
  case access =>
    have group : s.raised.edit.groupMode = true := group
    have some_open : s.raised.edit.openBuffers.isEmpty = false := by
      rw [Bool.eq_false_iff, ne_eq, openBuffers_empty_iff]
      intro free
      rw [show s.edit.buffers[k] = none from free k] at opened
      exact absurd opened nofun
    rw [exec_commitGroup seq listening idle, State.commitGroup, group, some_open]
    exact congrArg Host.Outcome.next (raised_access s 0x13 seq .commitGroup .group)
  case applied =>
    refine ⟨s.port.snapshot.afterEdits s.edit.openBuffers, ?_⟩
    intro copies
    refine ⟨fun k b i base capture fields changed hb target copy => ?_, fun uncopied => ?_, ?_⟩
    · have edited : (s.edit.openBuffers.any fun p => p.2.edits i) = true :=
        List.any_eq_true.mpr ⟨(k, b), (mem_openBuffers s.edit k b).mpr hb, (edits_iff b i).mpr ⟨base, target⟩⟩
      rw [copy, afterEdits_record, edited, Bool.or_true]
    · cases copy : s.port.snapshot with
      | record i capture fields changed =>
        have unedited : (s.edit.openBuffers.any fun p => p.2.edits i) = false := by
          refine List.any_eq_false.mpr fun p mem edits => ?_
          obtain ⟨base, target⟩ := (edits_iff p.2 i).mp edits
          exact uncopied capture fields changed ⟨p.1, p.2, i, base, open_mem mem, target, copy⟩
        rw [afterEdits_record, unedited, Bool.or_false]
      | _ => exact afterEdits_other _ nofun
    · rw [exec_groupApplication_alone alone hv (danglingBuffer_none occupied), applyGroup_applied judged, untouched,
        ← openBuffers_length]
      rfl
  case rejected =>
    refine ⟨_, reject_reported s.faults (some { reason := reason, tag := tag }), rfl, ?_⟩
    rw [exec_groupApplication_alone alone hv (danglingBuffer_none occupied), applyGroup_rejected judged, untouched]
    rfl
  · rw [judgeGroup, rejected]
  · rw [judgeGroup, accepted]
end

