-- ==== Sys2Proof/Proofs/RetireEngineTests.lean ====
section
/-! SUPPORT. A request judged at a free table, and Retire, Set Engine and the commissioning tests. -/

namespace Sys2Proof.Machine

/-! ### From the frame to the reply -/

/-- The reply that carries an answer, with no edit closed. -/
def Answer.reply (r : Answer) (code seq : Byte) : Reply where
  code := code
  seq := seq
  result := r.result
  edit := .untouched
  a := r.a
  b := r.b
  c := r.c

/-- A request judged at the rise is judged on the part as it stands. -/
theorem serving_perform (s : State) (code seq : Byte) (r : TableRequest) :
    ((s.serving (judging code seq r .untouched)).perform r).1.replyWith code seq .untouched
      ((s.serving (judging code seq r .untouched)).perform r).2 =
    (s.perform r).1.replied ((s.perform r).2.reply code seq) := by
  obtain ⟨arbiter, edit, -⟩ := perform_rest s r
  have dressed : s.serving (judging code seq r .untouched) = s.dress
      { arbiter := s.arbiter, edit := s.edit, chipSelect := .high, service := some (judging code seq r .untouched) } :=
    rfl
  rw [dressed, dress_perform s _ (agrees_refl s.edit) r, ← arbiter, ← edit]
  rfl

theorem askNamed_judged {s : State} (code seq : Byte) (refused : Bool) {name : RecordName} (r : TableRequest)
    (h : s.Listening) (hb : (refused && s.store.op.isLoading) = false) (hc : s.closedBy name = .ok [])
    (ht : s.TableFree) :
    s.askNamed code seq refused name (.table r) = (s.perform r).1.replied ((s.perform r).2.reply code seq) :=
  (askNamedTable_of_free s code seq refused name r h hb hc ht).trans (serving_perform s code seq r)

theorem askTable_judged {s : State} (code seq : Byte) (refused : Bool) (r : TableRequest)
    (h : s.Listening) (hb : (refused && s.store.op.isLoading) = false) (ht : s.TableFree) :
    s.askTable code seq refused r = (s.perform r).1.replied ((s.perform r).2.reply code seq) :=
  (askTable_of_free s code seq refused r h hb ht).trans (serving_perform s code seq r)

/-- A name that finds no record, with the table free, refuses the request with the reason. -/
theorem askNamed_findsNone {s : State} (code seq : Byte) (refused : Bool) {tag : Half} {index : Byte}
    {refusal : ResultCode} {r : TableRequest} (h : s.FindsNone tag index refusal)
    (hb : (refused && s.store.op.isLoading) = false)
    (hr : s.resolve (RecordName.ofFrame tag index) = .error refusal → s.perform r = (s, { result := refusal })) :
    s.askNamed code seq refused (RecordName.ofFrame tag index) (.table r) =
      s.replied (Reply.plain code seq refusal) := by
  obtain ⟨listening, free, closed | ⟨closed, unresolved⟩⟩ := h
  · exact askNamed_refused code seq refused _ listening hb closed
  · rw [askNamed_judged code seq refused r listening hb closed free, hr unresolved]
    rfl

/-- A request that finds its record, with the table free, is judged on it at the rise. -/
theorem askNamed_finds {s : State} (code seq : Byte) (refused : Bool) {tag : Half} {index : Byte} {i : SlotNo}
    {r : Record} {q : TableRequest} (h : s.Finds tag index i r) (hb : (refused && s.store.op.isLoading) = false)
    {found : State × Answer} (hr : s.resolve (RecordName.ofFrame tag index) = .ok (i, r) → s.perform q = found) :
    s.askNamed code seq refused (RecordName.ofFrame tag index) (.table q) =
      found.1.replied (found.2.reply code seq) := by
  obtain ⟨listening, free, closed, resolved⟩ := h
  rw [askNamed_judged code seq refused q listening hb closed free, hr resolved]

theorem editHolds_iff (s : State) (tag : Half) :
    s.editHolds tag = true ↔ s.edit.groupMode = true ∧ (s.edit.bufferFor tag).isSome = true := by
  rw [State.editHolds, Bool.and_eq_true]

/-! ### Retire -/

/-- A Retire of the record found (R78 checks 2 to 4). -/
def State.retireFound (s : State) (i : SlotNo) (r : Record) : State × Answer :=
  if s.editHolds r.cfg.tag then (s, { result := .editOpen })
  else if !r.state.retirable then (s, { result := .state })
  else if s.completions[i].isSome then (s, { result := .uncollected })
  else (s.vacate i, { result := .done })

theorem retire_found {s : State} {name : RecordName} {i : SlotNo} {r : Record} (h : s.resolve name = .ok (i, r)) :
    s.perform (.retire name) = s.retireFound i r := by
  rw [State.perform, State.retire, h]
  rfl

theorem retire_unfound {s : State} {name : RecordName} {refusal : ResultCode} (h : s.resolve name = .error refusal) :
    s.perform (.retire name) = (s, { result := refusal }) := by
  rw [State.perform, State.retire, h]

theorem retirable_iff (st : RecordState) : st.retirable = true ↔ st = .idle ∨ ∃ reason, st = .broken reason := by
  cases st <;> simp [RecordState.retirable]

/-! ### Set Engine -/

theorem ofMicros_iff (a : Word) (p : CapturePeriod) : CapturePeriod.ofMicros a = some p ↔ a.toNat = p.micros := by
  have at_value (n : Nat) (h : n < 2 ^ 32) : a = BitVec.ofNat 32 n ↔ a.toNat = n := by
    rw [← BitVec.toNat_inj, BitVec.toNat_ofNat, Nat.mod_eq_of_lt h]
  have h250 : a = 250 ↔ a.toNat = 250 := at_value 250 (by decide)
  have h500 : a = 500 ↔ a.toNat = 500 := at_value 500 (by decide)
  have h1000 : a = 1000 ↔ a.toNat = 1000 := at_value 1000 (by decide)
  have h2000 : a = 2000 ↔ a.toNat = 2000 := at_value 2000 (by decide)
  unfold CapturePeriod.ofMicros
  simp only [h250, h500, h1000, h2000]
  cases p
  all_goals
    simp only [CapturePeriod.micros]
    split_ifs
    all_goals simp only [reduceCtorEq, Option.some.injEq, false_iff, true_iff]
    all_goals omega

theorem setEngine_valid_iff (a b c : Word) :
    ((∃ p, CapturePeriod.ofMicros a = some p) ∧ (collectWindowInRange b && missLimitInRange c) = true) ↔
      (a = 250 ∨ a = 500 ∨ a = 1000 ∨ a = 2000) ∧ (b = 0 ∨ (64 ≤ b.toNat ∧ b.toNat ≤ 65535)) ∧
        1 ≤ c.toNat ∧ c.toNat ≤ 15 := by
  refine and_congr ?_ ?_
  · unfold CapturePeriod.ofMicros
    split_ifs with h250 h500 h1000 h2000
    · simp [h250]
    · simp [h500]
    · simp [h1000]
    · simp [h2000]
    · refine ⟨nofun, ?_⟩
      rintro (h | h | h | h)
      all_goals contradiction
  · simp [collectWindowInRange, missLimitInRange]

theorem exec_setEngine (seq : Byte) (a b c : Word) {s : State} (h : s.Listening) (ht : s.TableFree) :
    exec (.setEngine seq a b c) s = .next ((s.setEngine a b c).1.replied ((s.setEngine a b c).2.reply 0x31 seq)) :=
  congrArg Host.Outcome.next (askTable_judged 0x31 seq false (.setEngine a b c) h rfl ht)

/-! ### The commissioning tests -/

theorem offsetInRange_iff (a : Word) : offsetInRange a = true ↔ -500000 ≤ a.toInt ∧ a.toInt ≤ 500000 := by
  simp [offsetInRange]

/-- An Offset Test of the record found (R137). -/
def State.offsetFound (s : State) (i : SlotNo) (r : Record) (offset : Word) : State × Answer :=
  if !offsetInRange offset then (s, { result := .range })
  else if r.state ≠ .held then (s, { result := .state })
  else (s.setRecord i { r with pendingOffset := some offset.toInt }, { result := .done })

/-- A Check Test of the record found (R135). -/
def State.testFound (s : State) (i : SlotNo) (r : Record) : State × Answer :=
  if r.state ≠ .idle then (s, { result := .state })
  else ({ s with checker := { s.checker with pendingTest := some i } }, { result := .done })

theorem offsetTest_found {s : State} {name : RecordName} {i : SlotNo} {r : Record} (offset : Word)
    (h : s.resolve name = .ok (i, r)) : s.perform (.offsetTest name offset) = s.offsetFound i r offset := by
  rw [State.perform, State.offsetTest, h]
  rfl

theorem checkTest_found {s : State} {name : RecordName} {i : SlotNo} {r : Record}
    (h : s.resolve name = .ok (i, r)) : s.perform (.checkTest name) = s.testFound i r := by
  rw [State.perform, State.checkTest, h]
  rfl

theorem offsetTest_unfound {s : State} {name : RecordName} {refusal : ResultCode} (offset : Word)
    (h : s.resolve name = .error refusal) : s.perform (.offsetTest name offset) = (s, { result := refusal }) := by
  rw [State.perform, State.offsetTest, h]

theorem checkTest_unfound {s : State} {name : RecordName} {refusal : ResultCode}
    (h : s.resolve name = .error refusal) : s.perform (.checkTest name) = (s, { result := refusal }) := by
  rw [State.perform, State.checkTest, h]

end Sys2Proof.Machine

open Sys2Proof Sys2Proof.Machine

/-- Settles O37: the checks of a Retire are taken in their order on the record the name finds. -/
theorem retireVacatesSlot : Obligations.RetireVacatesSlot := by
  refine ⟨fun seq tag index s refusal unfound idle => ?_, fun seq tag index s i r found idle => ?_⟩
  · exact congrArg Host.Outcome.next (askNamed_findsNone 0x22 seq true unfound idle retire_unfound)
  · intro answer editOpen still
    have judged : exec (.retire seq tag index) s =
        .next ((s.retireFound i r).1.replied ((s.retireFound i r).2.reply 0x22 seq)) :=
      congrArg Host.Outcome.next (askNamed_finds 0x22 seq true found idle retire_found)
    have holds := editHolds_iff s r.cfg.tag
    have retirable := retirable_iff r.state
    refine ⟨fun opened => ?_, fun closed moving => ?_, fun closed rests owed => ?_, fun closed rests clear => ?_⟩
    · show exec (.retire seq tag index) s = _
      rw [judged, State.retireFound, if_pos (holds.mpr opened)]
      rfl
    · show exec (.retire seq tag index) s = _
      rw [judged, State.retireFound, if_neg (mt holds.mp closed), if_pos (by simpa [still] using mt retirable.mp moving)]
      rfl
    · have owes : s.completions[i].isSome = true := Option.isSome_iff_ne_none.mpr owed
      show exec (.retire seq tag index) s = _
      rw [judged, State.retireFound, if_neg (mt holds.mp closed), retirable.mpr rests, owes]
      rfl
    · refine ⟨s.port.snapshot.afterRecord i, afterRecord_cases i _,
        fun capture fields changed copy => copy ▸ afterRecord_own i capture fields changed, ?_⟩
      rw [judged, State.retireFound, if_neg (mt holds.mp closed), retirable.mpr rests, clear]
      simp only [State.vacate, recordChanged_eq]
      rfl

/-- Settles O38: the period, the window and the limit are tested before the active records are. -/
theorem setEngineWritesSettings : Obligations.SetEngineWritesSettings := by
  intro seq a b c s listening free valid active
  have checks := setEngine_valid_iff a b c
  have running := anyActive_iff s
  rw [exec_setEngine seq a b c listening free, State.setEngine]
  refine ⟨fun invalid => ?_, fun ok changes busy => ?_, fun p ok at_p allowed => ?_⟩
  · have invalid := mt checks.mp invalid
    cases period : CapturePeriod.ofMicros a with
    | none => rfl
    | some p =>
      have outside : (collectWindowInRange b && missLimitInRange c) = false := by
        rw [Bool.eq_false_iff]
        exact fun inside => invalid ⟨⟨p, period⟩, inside⟩
      rw [outside]
      rfl
  · obtain ⟨⟨p, period⟩, inside⟩ := checks.mpr ok
    have other : p ≠ s.engine.period := fun e => changes (e ▸ (ofMicros_iff a p).mp period)
    rw [period]
    simp only [inside, running.mpr busy, other, ne_eq, not_false_eq_true, decide_true, Bool.and_self, Bool.not_true,
      Bool.false_eq_true, if_false, if_true]
    rfl
  · obtain ⟨-, inside⟩ := checks.mpr ok
    have stays : (decide (p ≠ s.engine.period) && s.anyActive) = false := by
      obtain same | idle := allowed
      · simp [same]
      · rw [Bool.eq_false_iff.mpr (mt running.mp idle), Bool.and_false]
    rw [(ofMicros_iff a p).mpr at_p]
    simp only [inside, stays, Bool.not_true, Bool.false_eq_true, if_false]
    rfl

/-- Settles O39: each test looks at the record the name finds, the offset's range first. -/
theorem commissioningTestsSetTheirPendingValue : Obligations.CommissioningTestsSetTheirPendingValue := by
  refine ⟨fun seq tag index a s refusal unfound => ⟨fun idle => ?_, ?_⟩, fun seq tag index a s i r found => ⟨fun idle => ?_,
    ?_⟩⟩
  · exact congrArg Host.Outcome.next (askNamed_findsNone 0x40 seq true unfound idle (offsetTest_unfound a))
  · exact congrArg Host.Outcome.next (askNamed_findsNone 0x41 seq false unfound rfl checkTest_unfound)
  · intro inRange
    have range := offsetInRange_iff a
    have judged : exec (.offsetTest seq tag index a) s =
        .next ((s.offsetFound i r a).1.replied ((s.offsetFound i r a).2.reply 0x40 seq)) :=
      congrArg Host.Outcome.next (askNamed_finds 0x40 seq true found idle (offsetTest_found a))
    rw [judged, State.offsetFound]
    refine ⟨fun outside => ?_, fun inside other => ?_, fun inside held => ?_⟩
    · rw [Bool.eq_false_iff.mpr (mt range.mp outside)]
      rfl
    · rw [range.mpr inside, if_pos other]
      rfl
    · rw [range.mpr inside, if_neg (not_not.mpr held)]
      rfl
  · have judged : exec (.checkTest seq tag index) s =
        .next ((s.testFound i r).1.replied ((s.testFound i r).2.reply 0x41 seq)) :=
      congrArg Host.Outcome.next (askNamed_finds 0x41 seq false found rfl checkTest_found)
    rw [judged, State.testFound]
    refine ⟨fun other => ?_, fun idle => ?_⟩
    · rw [if_pos other]
      rfl
    · rw [if_neg (not_not.mpr idle)]
      rfl
end

