-- ==== Sys2Proof/Proofs/FormRequests.lean ====
section
/-! SUPPORT. Form: its checks, its answers, and what an accepted one leaves. -/

namespace Sys2Proof.Machine

theorem form_found {s : State} {name : RecordName} {i : SlotNo} {r : Record} (h : s.resolve name = .ok (i, r)) :
    s.perform (.form name) = s.formFound i r := by
  rw [State.perform, State.form, h]

theorem form_unfound {s : State} {name : RecordName} {refusal : ResultCode} (h : s.resolve name = .error refusal) :
    s.perform (.form name) = (s, { result := refusal }) := by
  rw [State.perform, State.form, h]

theorem exec_form_found {seq : Byte} {tag : Half} {index : Byte} {s : State} {i : SlotNo} {r : Record}
    (found : s.Finds tag index i r) (idle : s.store.op.isLoading = false) : exec (.form seq tag index) s =
      .next ((s.formFound i r).1.replied ((s.formFound i r).2.reply 0x20 seq)) :=
  congrArg Host.Outcome.next (askNamed_finds 0x20 seq true found idle form_found)

/-! ### The checks -/

theorem mapFull_iff (s : State) : s.mapFull = true ↔ 8 ≤ s.entryCount := decide_eq_true_iff

/-- The forest rule refuses no pair that clashes with no active coupling (R66). -/
theorem conflicts_false {s : State} {leader follower : ChannelNo} (free : ∀ l, ¬ s.Follows follower l)
    (ne : leader ≠ follower) (apart : ¬ Relation.TransGen s.Follows leader follower) :
    s.conflicts leader follower = false := by
  rw [State.conflicts, Bool.or_eq_false_iff]
  constructor
  · cases h : s.leaderOf follower with
    | none => rfl
    | some l => exact absurd (follows_of_leaderOf h) (free l)
  · rw [Bool.eq_false_iff]
    intro reached
    obtain e | chain := chain_of_walk 8 follower leader reached
    · exact ne e
    · exact apart chain

/-- The checks 4 to 9 of R65 in their order. -/
theorem formRefusal_cases (s : State) (r : Record) :
    (r.state ≠ .idle → s.formRefusal r = some .state) ∧
    (r.state = .idle → r.checkFailed = true → s.formRefusal r = some .check) ∧
    (r.state = .idle → r.checkFailed = false → s.engine.stopTaken = true → s.formRefusal r = some .stopped) ∧
    (r.state = .idle → r.checkFailed = false → s.engine.stopTaken = false →
      (¬ (s.channels[r.cfg.leaderNo].state.isUp = true ∧ s.channels[r.cfg.followerNo].state.isUp = true) →
        s.formRefusal r = some .channel) ∧
      (s.channels[r.cfg.leaderNo].state.isUp = true ∧ s.channels[r.cfg.followerNo].state.isUp = true →
        (s.conflicts r.cfg.leaderNo r.cfg.followerNo = true → s.formRefusal r = some .conflict) ∧
        (s.conflicts r.cfg.leaderNo r.cfg.followerNo = false →
          (8 ≤ s.entryCount → s.formRefusal r = some .queueFull) ∧
          (s.entryCount < 8 → s.formRefusal r = none)))) := by
  unfold State.formRefusal
  refine ⟨fun active => if_pos active, fun idle failed => ?_, fun idle sound taken => ?_, fun idle sound released => ?_⟩
  all_goals rw [if_neg (not_not.mpr idle)]
  · rw [if_pos failed]
  · rw [sound, taken]
    rfl
  · rw [sound, released]
    refine ⟨fun down => ?_, fun up => ⟨fun clash => ?_, fun free => ⟨fun full => ?_, fun room => ?_⟩⟩⟩
    · rw [← Bool.and_eq_true, Bool.not_eq_true] at down
      rw [down]
      rfl
    all_goals rw [up.1, up.2]
    · rw [clash]
      rfl
    · rw [free, (mapFull_iff s).mpr full]
      rfl
    · rw [free, Bool.eq_false_iff.mpr (mt (mapFull_iff s).mp (by omega))]
      rfl

/-! ### The answers -/

theorem formFound_held {s : State} {i : SlotNo} {r : Record} (h : s.editHolds r.cfg.tag = true) :
    s.formFound i r = (s, { result := .editOpen }) := if_pos h

theorem formFound_judged {s : State} {i : SlotNo} {r : Record} (h : s.editHolds r.cfg.tag = false)
    (open_entry : s.completions[i] = none ∨ s.completions[i] = some .waitingRelease) : s.formFound i r =
      match s.formRefusal r with
      | some refusal => (s, { result := refusal })
      | none => (s.acceptForm i r, { result := .pending }) := by
  rw [State.formFound, h]
  obtain e | e := open_entry
  all_goals
    rw [e]
    rfl

theorem formFound_refused {s : State} {i : SlotNo} {r : Record} {refusal : ResultCode}
    (h : s.editHolds r.cfg.tag = false)
    (open_entry : s.completions[i] = none ∨ s.completions[i] = some .waitingRelease)
    (refused : s.formRefusal r = some refusal) : s.formFound i r = (s, { result := refusal }) := by
  rw [formFound_judged h open_entry, refused]

/-! ### An accepted Form -/

/-- An accepted Form couples its two channels and no other (R63). -/
theorem coupledNow_form {s t : State} {i : SlotNo} {r q : Record} (agree : s.CoupledAgree) (idle : r.state = .idle)
    (hr : s.slots[i] = some r) (active : q.state.isActive = true) (cfg : q.cfg = r.cfg)
    (ht : t.slots = s.slots.set i (some q)) (c : ChannelNo) :
    t.coupledNow c = (s.channels[c].coupled || decide (c = r.cfg.leaderNo ∨ c = r.cfg.followerNo)) := by
  rw [agree c, Bool.eq_iff_iff, Bool.or_eq_true, decide_eq_true_iff, coupledNow_iff, coupledNow_iff]
  constructor
  · rintro ⟨j, p, hp, up, names⟩
    rw [ht, slots_get_set] at hp
    split_ifs at hp with same
    · cases hp
      rw [names_iff, cfg] at names
      exact .inr (names.imp Eq.symm Eq.symm)
    · exact .inl ⟨j, p, hp, up, names⟩
  · rintro (⟨j, p, hp, up, names⟩ | own)
    · have other : j ≠ i := by
        rintro rfl
        cases hr.symm.trans hp
        rw [idle] at up
        exact absurd up nofun
      exact ⟨j, p, by rw [ht, slots_get_set, if_neg other, hp], up, names⟩
    · refine ⟨i, q, by rw [ht, slots_get_set, if_pos rfl], active, ?_⟩
      rw [names_iff, cfg]
      exact own.imp Eq.symm Eq.symm

theorem acceptForm_eq {s : State} {i : SlotNo} {r : Record} (agree : s.CoupledAgree) (idle : r.state = .idle)
    (hr : s.slots[i] = some r) : s.acceptForm i r = { s with
      slots := s.slots.set i (some { r with state := .forming, error := 0, run := 0, elapsed := 0 })
      completions := s.completions.set i (some .waitingForm)
      channels := Vector.ofFn fun c =>
        { s.channels[c] with
          coupled := s.channels[c].coupled || decide (c = r.cfg.leaderNo ∨ c = r.cfg.followerNo) } } := by
  rw [State.acceptForm, State.recouple]
  have coupled (c : ChannelNo) := coupledNow_form (t := (s.setRecord i
    { r with state := .forming, error := 0, run := 0, elapsed := 0 }).setEntry i (some .waitingForm))
    (q := { r with state := .forming, error := 0, run := 0, elapsed := 0 }) agree idle hr rfl rfl rfl c
  simp only [coupled]
  rfl

end Sys2Proof.Machine

open Sys2Proof Sys2Proof.Machine

/-- Settles O33: no check of R65 fails, and the coupled indications stand for one active record more. -/
theorem formPutsRecordIntoForming : Obligations.FormPutsRecordIntoForming := by
  intro seq tag index s i r found idle agree closed no_entry state sound released leader follower free ne apart room
  have hr : s.slots[i] = some r := resolve_found found.2.2.2
  have unheld : s.editHolds r.cfg.tag = false := by
    rw [Bool.eq_false_iff, ne_eq, editHolds_iff]
    rintro ⟨group, opened⟩
    rw [closed group] at opened
    exact absurd opened nofun
  have accepted : s.formRefusal r = none :=
    (((formRefusal_cases s r).2.2.2 state sound released).2 ⟨leader, follower⟩).2 (conflicts_false free ne apart) |>.2 room
  rw [exec_form_found found idle, formFound_judged unheld (.inl no_entry), accepted]
  dsimp only
  rw [acceptForm_eq agree state hr]
  rfl

/-- Settles O34: the checks of a Form are taken in their order on the record the name finds. -/
theorem formAnswersInOrder : Obligations.FormAnswersInOrder := by
  intro seq tag index s idle
  refine ⟨fun refusal listening free none_found =>
    congrArg Host.Outcome.next (askNamed_findsNone 0x20 seq true ⟨listening, free, none_found⟩ idle form_unfound),
    fun i r found => ?_⟩
  intro answer editOpen up clash
  have holds := editHolds_iff s r.cfg.tag
  have unheld (h : ¬ editOpen) : s.editHolds r.cfg.tag = false := Bool.eq_false_iff.mpr (mt holds.mp h)
  have refused {refusal : ResultCode} (h : ¬ editOpen)
      (entry : s.completions[i] = none ∨ s.completions[i] = some .waitingRelease)
      (why : s.formRefusal r = some refusal) : answer refusal := by
    show exec (.form seq tag index) s = _
    rw [exec_form_found found idle, formFound_refused (unheld h) entry why]
    rfl
  obtain ⟨active, failed, taken, rest⟩ := formRefusal_cases s r
  refine ⟨fun opened => ?_, fun closed waits => ?_, fun o k closed ready => ?_, fun o k closed owed => ?_,
    fun closed entry => ⟨fun h => refused closed entry (active h), fun h f => refused closed entry (failed h f),
      fun h f t => refused closed entry (taken h f t), fun h f t down => refused closed entry ((rest h f t).1 down),
      fun h f t ups forest clashes => refused closed entry (((rest h f t).2 ups).1 ?_),
      fun h f t ups forest apart full => refused closed entry ((((rest h f t).2 ups).2 ?_).1 full)⟩⟩
  · show exec (.form seq tag index) s = _
    rw [exec_form_found found idle, formFound_held (holds.mpr opened)]
    rfl
  · show exec (.form seq tag index) s = _
    rw [exec_form_found found idle, State.formFound, unheld closed, waits]
    rfl
  · rw [exec_form_found found idle, State.formFound, unheld closed, ready]
    cases o with
    | broken reason => cases reason <;> rfl
    | _ => rfl
  · show exec (.form seq tag index) s = _
    rw [exec_form_found found idle, State.formFound, unheld closed, owed]
    rfl
  · exact (conflicts_iff forest _ _).mpr clashes
  · exact Bool.eq_false_iff.mpr (mt (conflicts_iff forest _ _).mp apart)
end

