-- ==== Sys2Proof/Proofs/ReleaseRequests.lean ====
section
/-! SUPPORT. Release and Release Group: what a released record becomes, and the answers. -/

namespace Sys2Proof.Machine

/-! ### One record released -/

/-- What a Release makes of a record, by its state (R74). -/
def Record.released (r : Record) : Record :=
  match r.state with
  | .idle | .releasing _ => r
  | .forming => r.leave .idle
  | .held | .slipping => r.leave (.releasing { start := r.correction, step := 0 })
  | .broken _ => { r.leave .idle with error := 0, rate := 0 }

/-- The entry that a Release of the record in a slot leaves there (R109). -/
def State.releasedEntry (s : State) (i : SlotNo) (r : Record) : Option Completion :=
  if r.state = .forming ∧ s.completions[i] = some .waitingForm then
    some (.readyForm .cancelled (s.collectAt s.lastCapture))
  else s.completions[i]

theorem released_isActive {r : Record} (h : r.state ≠ .forming) : r.released.state.isActive = r.state.isActive := by
  unfold Record.released
  split
  case h_3 found => exact absurd found h
  all_goals simp_all [RecordState.isActive, Record.leave]

theorem releaseAt_set {s : State} {i : SlotNo} {r : Record} (hr : s.slots[i] = some r) :
    (s.releaseAt i r).slots = s.slots.set i (some r.released) := by
  have same : s.slots = s.slots.set i (some r) := slots_ext fun j => by
    rw [slots_get_set]
    split_ifs with e
    · rw [e, hr]
    · rfl
  unfold State.releaseAt Record.released
  cases r.state with
  | idle | releasing _ => exact same
  | forming =>
    dsimp only
    rw [recouple_slots, giveForm_eq]
    rfl
  | held | slipping | broken _ => rfl

theorem releaseAt_entry (s : State) (i j : SlotNo) (r : Record) :
    (s.releaseAt i r).completions[j] = if j = i then s.releasedEntry i r else s.completions[j] := by
  have kept : s.completions[j] = if j = i then s.completions[i] else s.completions[j] := by
    split_ifs with e
    · rw [e]
    · rfl
  unfold State.releaseAt State.releasedEntry
  split
  case h_3 found =>
    rw [recouple_completions, giveForm_get, setRecord_completions]
    by_cases e : j = i
    · rw [if_pos e]
      simp only [e, true_and, found]
      rfl
    · rw [if_neg e, if_neg fun h => e h.1]
  all_goals
    rename_i found
    have other : ¬ (r.state = .forming ∧ s.completions[i] = some .waitingForm) := fun h => by simp [h.1] at found
    rw [if_neg other]
    exact kept

theorem releaseAt_eq (s : State) (i : SlotNo) (r : Record) : s.releaseAt i r = { s with
    channels := (s.releaseAt i r).channels
    slots := (s.releaseAt i r).slots
    completions := (s.releaseAt i r).completions } := by
  unfold State.releaseAt
  split
  case h_3 => rw [giveForm_eq]; rfl
  all_goals rfl

theorem releaseAt_agrees {s : State} {i : SlotNo} {r : Record} (hr : s.slots[i] = some r) (h : s.CoupledAgree) :
    (s.releaseAt i r).CoupledAgree := by
  by_cases forming : r.state = .forming
  · rw [State.releaseAt, forming]
    exact recouple_agrees _
  · obtain ⟨n, n'⟩ := pairs_set (t := s.releaseAt i r) hr (releaseAt_set hr) (released_isActive forming)
      (fun _ => by unfold Record.released; split <;> rfl) fun _ => by unfold Record.released; split <;> rfl
    have channels : (s.releaseAt i r).channels = s.channels := by
      unfold State.releaseAt
      split
      case h_3 found => exact absurd found forming
      all_goals rfl
    intro c
    rw [channels, h c, coupledNow_eq_of_narrows n n']

/-! ### Release -/

theorem release_found {s : State} {name : RecordName} {i : SlotNo} {r : Record} (h : s.resolve name = .ok (i, r)) :
    s.perform (.release name) = s.releaseFound i r := by
  rw [State.perform, State.release, h]

theorem release_unfound {s : State} {name : RecordName} {refusal : ResultCode} (h : s.resolve name = .error refusal) :
    s.perform (.release name) = (s, { result := refusal }) := by
  rw [State.perform, State.release, h]

theorem exec_release_found {seq : Byte} {tag : Half} {index : Byte} {s : State} {i : SlotNo} {r : Record}
    (found : s.Finds tag index i r) (idle : s.store.op.isLoading = false) : exec (.release seq tag index) s =
      .next ((s.releaseFound i r).1.replied ((s.releaseFound i r).2.reply 0x21 seq)) :=
  congrArg Host.Outcome.next (askNamed_finds 0x21 seq true found idle release_found)

/-- With no outcome to collect and no buffer open in group mode, a Release acts on the record (R74). -/
theorem releaseFound_acts {s : State} {i : SlotNo} {r : Record} (h : s.editHolds r.cfg.tag = false)
    (uncollected : ∀ o k, s.completions[i] ≠ some (.readyRelease o k)) :
    s.releaseFound i r = (s.releaseAt i r).releaseAnswer i r.state := by
  rw [State.releaseFound, h]
  cases e : s.completions[i] with
  | none => rfl
  | some entry =>
    cases entry with
    | readyRelease o k => exact absurd e (uncollected o k)
    | _ => rfl

/-- A Release that starts a ramp waits for it when the completion map has a place for its entry (R108). -/
theorem releaseAnswer_ramp {s : State} {i : SlotNo} {st : RecordState} (h : st = .held ∨ st = .slipping) :
    s.releaseAnswer i st = if s.mapFull || s.completions[i].isSome then (s, { result := .accepted })
      else (s.setEntry i (some .waitingRelease), { result := .pending }) := by
  obtain rfl | rfl := h
  all_goals rfl

/-- A Release of a FORMING record cancels the Form that waits for it (R74, R109). -/
theorem releaseAt_forming_entries {s : State} {i : SlotNo} {r : Record} (forming : r.state = .forming) :
    (s.completions[i] = some .waitingForm → (s.releaseAt i r).completions =
      s.completions.set i (some (.readyForm .cancelled (s.collectAt s.lastCapture)))) ∧
    (s.completions[i] ≠ some .waitingForm → (s.releaseAt i r).completions = s.completions) := by
  rw [State.releaseAt, forming]
  dsimp only
  rw [recouple_completions, State.giveForm, setRecord_completions]
  refine ⟨fun waits => ?_, fun none_waits => ?_⟩
  · rw [waits]
    rfl
  · split
    case h_1 waits => exact absurd waits none_waits
    all_goals rfl

/-! ### Release Group -/

/-- What releasing the records of some slots leaves of a slot (R77). -/
def State.ReleasedAt (s t : State) (i : SlotNo) : Prop :=
  t.slots[i] = s.slots[i].map Record.released ∧
    t.completions[i] = match s.slots[i] with
      | some r => s.releasedEntry i r
      | none => s.completions[i]

/-- Two states that a release of records may lead from and to: all but slots, entries and coupled indications is the
same. -/
def State.ReleasedFrom (s t : State) : Prop :=
  s.OnlyCoupled t ∧ t = { s with channels := t.channels, slots := t.slots, completions := t.completions }

theorem releaseMember_vacant {s : State} {i : SlotNo} (h : s.slots[i] = none) : s.releaseMember i = s := by
  rw [State.releaseMember, h]

theorem releaseMember_occupied {s : State} {i : SlotNo} {r : Record} (h : s.slots[i] = some r) :
    s.releaseMember i = s.releaseAt i r := by
  rw [State.releaseMember, h]

theorem releaseMember_own (s : State) (i : SlotNo) : s.ReleasedAt (s.releaseMember i) i := by
  unfold State.ReleasedAt
  cases hr : s.slots[i] with
  | none => rw [releaseMember_vacant hr]; exact ⟨hr, rfl⟩
  | some r =>
    rw [releaseMember_occupied hr, releaseAt_set hr, slots_get_set, if_pos rfl, releaseAt_entry, if_pos rfl]
    exact ⟨rfl, rfl⟩

theorem releaseMember_other (s : State) {i j : SlotNo} (h : j ≠ i) :
    (s.releaseMember i).slots[j] = s.slots[j] ∧ (s.releaseMember i).completions[j] = s.completions[j] := by
  cases hr : s.slots[i] with
  | none => rw [releaseMember_vacant hr]; exact ⟨rfl, rfl⟩
  | some r =>
    rw [releaseMember_occupied hr, releaseAt_set hr, slots_get_set, if_neg h, releaseAt_entry, if_neg h]
    exact ⟨rfl, rfl⟩

theorem releaseMember_from (s : State) (i : SlotNo) : s.ReleasedFrom (s.releaseMember i) := by
  cases hr : s.slots[i] with
  | none => rw [releaseMember_vacant hr]; exact ⟨fun _ => rfl, rfl⟩
  | some r => rw [releaseMember_occupied hr]; exact ⟨onlyCoupled_release s i r, releaseAt_eq s i r⟩

theorem releaseMember_agrees {s : State} (i : SlotNo) (h : s.CoupledAgree) : (s.releaseMember i).CoupledAgree := by
  cases hr : s.slots[i] with
  | none => rwa [releaseMember_vacant hr]
  | some r => rw [releaseMember_occupied hr]; exact releaseAt_agrees hr h

theorem ReleasedFrom.trans {s t u : State} (h : s.ReleasedFrom t) (g : t.ReleasedFrom u) : s.ReleasedFrom u := by
  obtain ⟨only, rest⟩ := h
  obtain ⟨only', rest'⟩ := g
  refine ⟨fun c => ?_, rest'.trans ?_⟩
  · rw [only' c, only c]
  · rw [rest]

/-- What a release leaves of a slot depends on the slot, its entry and the engine. -/
theorem ReleasedAt.congr {s w t u : State} {i : SlotNo} (h : w.ReleasedAt t i) (slots : w.slots[i] = s.slots[i])
    (entries : w.completions[i] = s.completions[i]) (engine : w.engine = s.engine) (slots' : u.slots[i] = t.slots[i])
    (entries' : u.completions[i] = t.completions[i]) : s.ReleasedAt u i := by
  unfold State.ReleasedAt State.releasedEntry State.collectAt State.lastCapture at *
  rw [slots, entries, engine, ← slots', ← entries'] at h
  exact h

/-- Releasing each of some slots in turn releases those and no other (R77). -/
theorem releaseMembers (l : List SlotNo) (nodup : l.Nodup) (s : State) (agree : s.CoupledAgree) :
    (l.foldl State.releaseMember s).CoupledAgree ∧ s.ReleasedFrom (l.foldl State.releaseMember s) ∧
      ∀ i : SlotNo,
        (i ∉ l → (l.foldl State.releaseMember s).slots[i] = s.slots[i] ∧
          (l.foldl State.releaseMember s).completions[i] = s.completions[i]) ∧
        (i ∈ l → s.ReleasedAt (l.foldl State.releaseMember s) i) := by
  induction l generalizing s with
  | nil => exact ⟨agree, ⟨fun _ => rfl, rfl⟩, fun i => ⟨fun _ => ⟨rfl, rfl⟩, nofun⟩⟩
  | cons j l ih =>
    obtain ⟨fresh, nodup⟩ := List.nodup_cons.mp nodup
    obtain ⟨agree', from', slot⟩ := ih nodup (s.releaseMember j) (releaseMember_agrees j agree)
    have engine : (s.releaseMember j).engine = s.engine := by rw [(releaseMember_from s j).2]
    rw [List.foldl_cons]
    refine ⟨agree', ReleasedFrom.trans (releaseMember_from s j) from', fun i => ⟨fun out => ?_, fun mem => ?_⟩⟩
    · obtain ⟨ne, out⟩ := List.ne_and_not_mem_of_not_mem_cons out
      obtain ⟨hs, hc⟩ := (slot i).1 out
      obtain ⟨hs', hc'⟩ := releaseMember_other s ne
      exact ⟨hs.trans hs', hc.trans hc'⟩
    · obtain rfl | mem := List.mem_cons.mp mem
      · obtain ⟨hs, hc⟩ := (slot i).1 fresh
        exact ReleasedAt.congr (releaseMember_own s i) rfl rfl rfl hs hc
      · have ne : i ≠ j := fun e => fresh (e ▸ mem)
        obtain ⟨hs', hc'⟩ := releaseMember_other s ne
        exact ReleasedAt.congr ((slot i).2 mem) hs' hc' engine rfl rfl

theorem exec_releaseGroup {seq : Byte} {tag : Half} {a : Word} {s : State} (h : s.Listening) (ht : s.TableFree)
    (idle : s.store.op.isLoading = false) (hc : s.closedByGroup tag (a.setWidth 16) = []) :
    exec (.releaseGroup seq tag a) s =
      .next ((s.releaseGroup tag (a.setWidth 16)).1.replied
        ((s.releaseGroup tag (a.setWidth 16)).2.reply 0x23 seq)) := by
  have closes : s.closes (.table (.releaseGroup tag (a.setWidth 16))) = .ok [] := congrArg Except.ok hc
  rw [(exec_asks (.releaseGroup seq tag a) 0x23 seq _ s h idle rfl rfl).1 _ closes,
    begin_table_of_free s.raised 0x23 seq _ ht]
  exact congrArg Host.Outcome.next (serving_perform s 0x23 seq (.releaseGroup tag (a.setWidth 16)))

theorem memberEditOpen_iff (s : State) (i : SlotNo) : s.memberEditOpen i = true ↔
    ∃ r, s.slots[i] = some r ∧ s.edit.groupMode = true ∧ (s.edit.bufferFor r.cfg.tag).isSome = true := by
  unfold State.memberEditOpen
  cases s.slots[i] with
  | none => simp
  | some r => simp [editHolds_iff]

theorem mem_groupMatch (s : State) (tag mask : Half) (i : SlotNo) :
    i ∈ s.groupMatch tag mask ↔ s.inGroup tag mask i = true := by
  rw [State.groupMatch, List.mem_filter]
  exact and_iff_right (List.mem_finRange i)

theorem nodup_groupMatch (s : State) (tag mask : Half) : (s.groupMatch tag mask).Nodup :=
  (List.nodup_finRange 16).filter _

end Sys2Proof.Machine

open Sys2Proof Sys2Proof.Machine

/-- Settles O35: a Release by the state it finds, once no buffer and no outcome stands before it. -/
theorem releaseActsByState : Obligations.ReleaseActsByState := by
  refine ⟨fun seq tag index s refusal none_found idle =>
    congrArg Host.Outcome.next (askNamed_findsNone 0x21 seq true none_found idle release_unfound),
    fun seq tag index s i r found idle => ?_⟩
  intro editOpen taken ramped
  have hr : s.slots[i] = some r := resolve_found found.2.2.2
  have exec_eq := exec_release_found (seq := seq) found idle
  have holds := editHolds_iff s r.cfg.tag
  have unheld (h : ¬ editOpen) : s.editHolds r.cfg.tag = false := Bool.eq_false_iff.mpr (mt holds.mp h)
  have acts (h : taken) : s.releaseFound i r = (s.releaseAt i r).releaseAnswer i r.state :=
    releaseFound_acts (unheld h.1) h.2
  refine ⟨fun opened => ?_, fun o k closed ready => ?_, fun take idle_found => ?_, fun ramp take found => ?_,
    fun reason take found => ?_, fun take found => ?_, fun take found => ?_⟩
  · rw [exec_eq, State.releaseFound, if_pos (holds.mpr opened)]
    rfl
  · rw [exec_eq, State.releaseFound, unheld closed, ready]
    cases o <;> rfl
  · rw [exec_eq, acts take, State.releaseAt, idle_found]
    rfl
  · rw [exec_eq, acts take, State.releaseAt, found]
    rfl
  · rw [exec_eq, acts take, State.releaseAt, found]
    rfl
  · have ramps : s.releaseAt i r = ramped := by
      rw [State.releaseAt]
      obtain e | e := found
      all_goals
        rw [e]
        rfl
    rw [exec_eq, acts take, ramps, releaseAnswer_ramp found]
    refine ⟨fun room vacant => ?_, fun full => ?_⟩
    · have open_place : (ramped.mapFull || ramped.completions[i].isSome) = false := by
        rw [Bool.or_eq_false_iff, Bool.eq_false_iff]
        exact ⟨mt (mapFull_iff s).mp (by omega), by
          show s.completions[i].isSome = false
          rw [vacant]
          rfl⟩
      rw [open_place]
      rfl
    · have no_place : (ramped.mapFull || ramped.completions[i].isSome) = true := by
        rw [Bool.or_eq_true]
        exact full.imp (mapFull_iff s).mpr Option.isSome_iff_ne_none.mpr
      rw [no_place]
      rfl
  · obtain ⟨waiting, unwaited⟩ := releaseAt_forming_entries (s := s) (i := i) found
    refine ⟨s.releaseAt i r, ?_, onlyCoupled_release s i r, ?_, ?_, fun waits => ?_, unwaited⟩
    · rw [State.releaseAt, found]
      exact recouple_agrees _
    · rw [exec_eq, acts take, found]
      dsimp only [State.releaseAnswer]
      conv_lhs => rw [releaseAt_eq]
      rfl
    · rw [releaseAt_set hr, Record.released, found]
      rfl
    · obtain ⟨capture, unlimited, limited⟩ := collectAt_carries s s.lastCapture
      exact ⟨_, capture, unlimited, limited, waiting waits⟩

/-- Settles O36: by induction over the members, each of which is released in its own slot alone. -/
theorem releaseGroupReleasesEveryMember : Obligations.ReleaseGroupReleasesEveryMember := by
  intro seq tag a s listening free idle closed agree member held
  have exec_eq := exec_releaseGroup (seq := seq) listening free idle closed
  have held_iff : ((s.groupMatch tag (a.setWidth 16)).any s.memberEditOpen) = true ↔ held := by
    simp only [List.any_eq_true, mem_groupMatch, memberEditOpen_iff]
    constructor
    · rintro ⟨i, mem, r, hr, open_⟩
      exact ⟨i, r, mem, hr, open_⟩
    · rintro ⟨i, r, mem, hr, open_⟩
      exact ⟨i, mem, r, hr, open_⟩
  refine ⟨fun h => ?_, fun h => ?_⟩
  · rw [exec_eq, State.releaseGroup, if_pos (held_iff.mpr h)]
    rfl
  · obtain ⟨agree', ⟨only, rest⟩, slot⟩ :=
      releaseMembers (s.groupMatch tag (a.setWidth 16)) (nodup_groupMatch s _ _) s agree
    refine ⟨(s.groupMatch tag (a.setWidth 16)).foldl State.releaseMember s, agree', only, ?_, fun i => ⟨?_, ?_⟩⟩
    · rw [exec_eq, State.releaseGroup, if_neg (mt held_iff.mp h)]
      dsimp only
      conv_lhs => rw [rest]
      rfl
    · exact fun out => (slot i).1 (mt (mem_groupMatch s _ _ i).mp out)
    · intro r mem hr
      obtain ⟨hs, hc⟩ := (slot i).2 ((mem_groupMatch s _ _ i).mpr mem)
      rw [hr] at hs hc
      rw [hs, hc]
      dsimp only [Option.map_some]
      unfold Record.released State.releasedEntry
      refine ⟨?_, ?_, fun reason found => ?_, fun found => ?_⟩
      · rintro ramp (found | found)
        all_goals
          rw [found]
          exact ⟨rfl, if_neg (by simp)⟩
      · rintro (found | found)
        all_goals
          rw [found]
          exact ⟨rfl, if_neg (by simp)⟩
      · rw [found]
        exact ⟨rfl, if_neg (by simp)⟩
      · rw [found]
        refine ⟨rfl, fun unwaited => if_neg fun h => unwaited h.2, fun waits => ?_⟩
        exact ⟨_, collectAt_carries s _, if_pos ⟨rfl, waits⟩⟩
end

