-- ==== Sys2Proof/Proofs/WriteChannel.lean ====
section
/-! SUPPORT. Write Channel: its checks, the value stored, and the changed-since indication. -/

namespace Sys2Proof.Machine

/-! ### The fields of a channel -/

theorem channelField_ofId_none {item : Byte} (h : item.toNat = 0 ∨ 7 < item.toNat) : ChannelField.ofId item = none := by
  unfold ChannelField.ofId
  split
  all_goals first | rfl | omega

theorem isGeometry_iff (f : ChannelField) : f.isGeometry = true ↔ f = .counts ∨ f = .circumference := by
  cases f <;> simp [ChannelField.isGeometry]

theorem field_setField_other (cfg : ChannelConfig) {f g : ChannelField} (w : Word) (h : g ≠ f) :
    (cfg.setField f w).field g = cfg.field g := by
  cases f <;> cases g <;> first | rfl | exact absurd rfl h

/-- A value that fits the width a field is stored in is read back as it was written. -/
theorem setWidth_setWidth_of_lt {w : Word} {n : Nat} (h : w.toNat < 2 ^ n) : (w.setWidth n).setWidth 32 = w := by
  apply BitVec.eq_of_toNat_eq
  rw [BitVec.toNat_setWidth, BitVec.toNat_setWidth, Nat.mod_eq_of_lt h, Nat.mod_eq_of_lt w.isLt]

theorem field_setField_same (cfg : ChannelConfig) {f : ChannelField} {w : Word} (h : f.inRange w = true) :
    (cfg.setField f w).field f = w := by
  cases f with
  | counts | circumference | overspeed => rfl
  | enabled | direction | ceiling | standstill =>
    have bound := of_decide_eq_true h
    exact setWidth_setWidth_of_lt (by omega)

/-! ### The value written -/

theorem written_off {ch : Channel} (f : ChannelField) (w : Word) (h : ch.state = .off) :
    ch.written f w = if f = .enabled ∧ w = 1 then (ch.store f w).restart .waiting else ch.store f w := by
  rw [Channel.written, h]

theorem written_lostCheck {ch : Channel} (f : ChannelField) (w : Word) (h : ch.state = .lost .check) :
    ch.written f w = if f = .enabled ∧ w = 0 then (ch.store f w).restart .off
      else { ch.store f w with state := .waiting, goodRun := 0, missRun := 0 } := by
  rw [Channel.written, h]

theorem written_on {ch : Channel} (f : ChannelField) (w : Word) (h : ch.state ≠ .off) (sound : ch.state ≠ .lost .check) :
    ch.written f w = if f = .enabled ∧ w = 0 then (ch.store f w).restart .off else ch.store f w := by
  unfold Channel.written
  split
  case h_1 off => exact absurd off h
  case h_2 lost => exact absurd lost sound
  all_goals rfl

theorem written_cfg (ch : Channel) (f : ChannelField) (w : Word) : (ch.written f w).cfg = ch.cfg.setField f w := by
  unfold Channel.written
  split
  all_goals
    split_ifs
    all_goals rfl

theorem store_eq (ch : Channel) (f : ChannelField) (w : Word) : ch.store f w = { ch with
    cfg := ch.cfg.setField f w
    check := crc16 (ch.cfg.setField f w).bytes
    travelPerCount :=
      if f = .counts ∨ f = .circumference then (ch.cfg.setField f w).travelPerCount else ch.travelPerCount } := by
  unfold Channel.store
  simp only [isGeometry_iff]
  rfl

/-! ### The checks, and the changed-since indication -/

/-- The checks 2 to 4 of R4 in their order. -/
theorem writeRefusal_cases (ch : Channel) (f : ChannelField) (w : Word) :
    let moving : Prop := (f = .counts ∨ f = .circumference) ∧ ch.state ≠ .off ∧ ch.standstill = false
    (ch.coupled = true → ch.writeRefusal f w = some .state) ∧
    (ch.coupled = false → moving → ch.writeRefusal f w = some .moving) ∧
    (ch.coupled = false → ¬ moving → f.inRange w = false → ch.writeRefusal f w = some .range) ∧
    (ch.coupled = false → ¬ moving → f.inRange w = true → ch.writeRefusal f w = none) := by
  intro moving
  have moving_iff : (f.isGeometry && !(ch.state == .off || ch.standstill)) = true ↔ moving := by
    rw [Bool.and_eq_true, isGeometry_iff]
    simp [moving]
  unfold Channel.writeRefusal
  refine ⟨fun coupled => if_pos coupled, fun free moves => ?_, fun free rests outside => ?_, fun free rests inside => ?_⟩
  · rw [free, if_neg Bool.false_ne_true, if_pos (moving_iff.mpr moves)]
  · rw [free, if_neg Bool.false_ne_true, if_neg (mt moving_iff.mp rests), outside]
    rfl
  · rw [free, if_neg Bool.false_ne_true, if_neg (mt moving_iff.mp rests), inside]
    rfl

/-- The snapshot buffer once a channel's entry has changed (R153). -/
def Snapshot.afterChannel (c : ChannelNo) : Snapshot → Snapshot
  | .channel d fields changed => .channel d fields (changed || decide (d = c))
  | .empty => .empty
  | .record j capture fields changed => .record j capture fields changed

theorem channelChanged_eq (s : State) (c : ChannelNo) :
    s.channelChanged c = { s with port := { s.port with snapshot := s.port.snapshot.afterChannel c } } := by
  unfold State.channelChanged
  split
  case h_1 d fields changed h =>
    rw [h]
    split_ifs with same
    · simp [Snapshot.afterChannel, same]
    · simp [Snapshot.afterChannel, same, ← h]
  case h_2 h =>
    rw [h]
    simp [Snapshot.afterChannel, ← h]
  case h_3 h =>
    rw [h]
    simp [Snapshot.afterChannel, ← h]

theorem afterChannel_own (c : ChannelNo) (fields : List (Option Int)) (changed : Bool) :
    Snapshot.afterChannel c (.channel c fields changed) = .channel c fields true := by
  simp [Snapshot.afterChannel]

theorem afterChannel_other {c : ChannelNo} {s : Snapshot} (h : ∀ fields changed, s ≠ .channel c fields changed) :
    s.afterChannel c = s := by
  cases s with
  | empty | record => rfl
  | channel d fields changed =>
    have other : d ≠ c := by
      rintro rfl
      exact h fields changed rfl
    simp [Snapshot.afterChannel, other]

/-! ### From the frame to the reply -/

theorem exec_writeChannel (seq index item : Byte) (a : Word) {s : State} (h : s.Listening)
    (free : s.channelsHeld = false) (idle : s.store.op.isLoading = false) : exec (.writeChannel seq index item a) s =
      .next ((s.writeChannel index item a).1.replied ((s.writeChannel index item a).2.reply 0x30 seq)) := by
  have unrefused : ∀ refused, (refused && s.store.op.isLoading) = false := fun refused => by rw [idle, Bool.and_false]
  exact congrArg Host.Outcome.next ((askChannels_of_free s 0x30 seq true (.writeChannel index item a) h
    (unrefused true) rfl free).trans (serving_perform s 0x30 seq _))

theorem writeChannel_range (s : State) {index item : Byte} (a : Word)
    (h : 7 < index.toNat ∨ item.toNat = 0 ∨ 7 < item.toNat) :
    s.writeChannel index item a = (s, { result := .range }) := by
  unfold State.writeChannel
  obtain h | h := h
  · rw [channelOfIndex_none h]
  · rw [channelField_ofId_none h]
    cases channelOfIndex index <;> rfl

theorem writeChannel_to (s : State) {index item : Byte} (a : Word) {c : ChannelNo} {f : ChannelField}
    (hi : index.toNat = c.val) (hf : ChannelField.ofId item = some f) : s.writeChannel index item a =
      match s.channels[c].writeRefusal f a with
      | some refusal => (s, { result := refusal })
      | none => ((s.setChannel c (s.channels[c].written f a)).channelChanged c, { result := .done }) := by
  unfold State.writeChannel
  rw [channelOfIndex_eq hi, hf] <;> rfl

end Sys2Proof.Machine

open Sys2Proof Sys2Proof.Machine

/-- Settles O40: the checks of R4 in their order, then the value stored with what R7 recomputes. -/
theorem writeChannelIsJudgedAndStored : Obligations.WriteChannelIsJudgedAndStored := by
  refine ⟨fun seq index item a s listening free idle => ⟨fun outside => ?_, fun c f hi hf => ?_⟩,
    fun seq index item a s c f listening free idle hi hf uncoupled rests inside => ?_, by decide, fun item h =>
      channelField_ofId_none (.inr h), fun a f least most mem => ?_, fun cfg counted => if_neg counted,
    fun ch f a => ?_⟩
  · rw [exec_writeChannel seq index item a listening free idle, writeChannel_range s a outside]
    rfl
  · have refused {refusal : ResultCode} (why : s.channels[c].writeRefusal f a = some refusal) :
        exec (.writeChannel seq index item a) s = .next (s.replied (Reply.plain 0x30 seq refusal)) := by
      rw [exec_writeChannel seq index item a listening free idle, writeChannel_to s a hi hf, why]
      rfl
    obtain ⟨state, moving, range, -⟩ := writeRefusal_cases s.channels[c] f a
    exact ⟨fun coupled => refused (state coupled), fun uncoupled moves => refused (moving uncoupled moves),
      fun uncoupled still outside => refused (range uncoupled still outside)⟩
  · have still : ¬ ((f = .counts ∨ f = .circumference) ∧ s.channels[c].state ≠ .off ∧
        s.channels[c].standstill = false) := by
      rintro ⟨geometry, on, moves⟩
      obtain off | stands := rests geometry
      · exact on off
      · rw [moves] at stands
        exact absurd stands nofun
    refine ⟨s.port.snapshot.afterChannel c, fun fields changed own => ?_, afterChannel_other, ?_⟩
    · rw [own, afterChannel_own]
    · rw [exec_writeChannel seq index item a listening free idle, writeChannel_to s a hi hf,
        (writeRefusal_cases s.channels[c] f a).2.2.2 uncoupled still inside]
      dsimp only
      rw [channelChanged_eq]
      rfl
  · simp only [List.mem_cons, Prod.mk.injEq, List.not_mem_nil, or_false] at mem
    obtain ⟨rfl, rfl, rfl⟩ | ⟨rfl, rfl, rfl⟩ | ⟨rfl, rfl, rfl⟩ | ⟨rfl, rfl, rfl⟩ | ⟨rfl, rfl, rfl⟩ | ⟨rfl, rfl, rfl⟩ |
      ⟨rfl, rfl, rfl⟩ := mem
    all_goals simp [ChannelField.inRange]
  · intro kept cleared
    have stored : ch.store f a = kept := store_eq ch f a
    refine ⟨fun g other => ?_, fun inside => ?_, fun off enabling one => ?_, fun off other_value => ?_,
      fun on enabling zero => ?_, fun lost other_value => ?_, fun on sound other_value => ?_⟩
    · rw [written_cfg, field_setField_other _ _ other]
    · rw [written_cfg, field_setField_same _ inside]
    · rw [written_off f a off, if_pos ⟨enabling, one⟩, stored]
      rfl
    · rw [written_off f a off, if_neg other_value, stored]
    · by_cases lost : ch.state = .lost .check
      · rw [written_lostCheck f a lost, if_pos ⟨enabling, zero⟩, stored]
        rfl
      · rw [written_on f a on lost, if_pos ⟨enabling, zero⟩, stored]
        rfl
    · rw [written_lostCheck f a lost, if_neg other_value, stored]
    · rw [written_on f a on sound, if_neg other_value, stored]
end

