-- ==== Sys2Proof/Proofs/ReadFaults.lean ====
section
/-! SUPPORT. Read Faults and Clear Faults: what the packed values hold, and the flags a clearing leaves. -/

namespace Sys2Proof.Machine

/-! ### Places in a packed value -/

theorem getD_low {l m : List Bool} {k n : Nat} (length : l.length = k) (h : n < k) :
    (l ++ m).getD n false = l.getD n false :=
  List.getD_append _ _ _ _ (length ▸ h)

theorem getD_next {l m : List Bool} {k n : Nat} (length : l.length = k) :
    (l ++ m).getD (k + n) false = m.getD n false := by
  subst length
  rw [List.getD_append_right _ _ _ _ (by omega), Nat.add_sub_cancel_left]

theorem getD_high {l m : List Bool} {k n : Nat} (length : l.length = k) (h : k ≤ n) :
    (l ++ m).getD n false = m.getD (n - k) false := by
  have next := getD_next (m := m) (n := n - k) length
  rwa [Nat.add_sub_cancel' h] at next

theorem getD_vector {m : Nat} (v : Vector Bool m) (k : Fin m) : v.toList.getD k false = v[k] := by
  simp

theorem getD_vector_map {α : Type} {m : Nat} (v : Vector α m) (f : α → Bool) (k : Fin m) :
    (v.toList.map f).getD k false = f v[k] := by
  simp

theorem padBits_length {w : Nat} {l : List Bool} (h : l.length ≤ w) : (padBits w l).length = w := by
  rw [padBits, List.length_append, List.length_replicate]
  omega

theorem getD_padBits (w n : Nat) (l : List Bool) : (padBits w l).getD n false = l.getD n false := by
  rw [padBits]
  by_cases h : n < l.length
  · exact getD_low rfl h
  · rw [getD_high rfl (by omega), List.getD_eq_default _ _ (by omega : l.length ≤ n)]
    by_cases inside : n - l.length < w - l.length
    · simp [inside]
    · exact List.getD_eq_default _ _ (by simpa using inside)

theorem getD_kindMasksFrom (f : FaultUnit) (first count n : Nat) :
    (f.kindMasksFrom first count).getD n false = (decide (n < count) && f.kindMasks.getLsbD (first + n)) := by
  rw [FaultUnit.kindMasksFrom]
  by_cases h : n < count
  · simp [h]
  · rw [List.getD_eq_default _ _ (by simpa using h)]
    simp [h]

theorem kindMasksFrom_length (f : FaultUnit) (first count : Nat) : (f.kindMasksFrom first count).length = count := by
  simp [FaultUnit.kindMasksFrom]

/-! ### Read Faults -/

theorem exec_readFaults (seq index : Byte) {s : State} (h : s.Listening) : exec (.readFaults seq index) s =
    .next (s.replied ((s.readFaults index).2.reply 0x50 seq)) := by
  have kept : (s.raised.readFaults index).1 = s.raised ∧ (s.raised.readFaults index).2 = (s.readFaults index).2 := by
    unfold State.readFaults
    split
    all_goals exact ⟨rfl, rfl⟩
  have asked := ask_of_listening s 0x50 seq (fun t => t.readFaults index) h
  refine (congrArg Host.Outcome.next asked).trans ?_
  rw [State.answered, kept.1, kept.2]
  rfl

/-! ### Values of the groups -/

theorem readChannel_a (f : FaultUnit) (c : ChannelNo) :
    f.readChannel.a.getLsbD c = f.isSet (.capture c) ∧ f.readChannel.a.getLsbD (8 + c) = f.isSet (.overspeed c) ∧
      f.readChannel.a.getLsbD (16 + c) = f.isSet (.lost c) ∧
      f.readChannel.a.getLsbD (24 + c) = f.isSet (.driveLimit c) := by
  have hc := c.isLt
  simp only [FaultUnit.readChannel, getLsbD_packBits]
  refine ⟨?_, ?_, ?_, ?_⟩
  · rw [getD_low (k := 24) (by simp) (by omega), getD_low (k := 16) (by simp) (by omega),
      getD_low (k := 8) (by simp) (by omega), getD_vector]
    simp [show c.val < 32 by omega, FaultUnit.isSet]
  · rw [getD_low (k := 24) (by simp) (by omega), getD_low (k := 16) (by simp) (by omega),
      getD_next (k := 8) (by simp), getD_vector]
    simp [show 8 + c.val < 32 by omega, FaultUnit.isSet]
  · rw [getD_low (k := 24) (by simp) (by omega), getD_next (k := 16) (by simp), getD_vector]
    simp [show 16 + c.val < 32 by omega, FaultUnit.isSet]
  · rw [getD_next (k := 24) (by simp), getD_vector]
    simp [show 24 + c.val < 32 by omega, FaultUnit.isSet]

/-- The parts of value B of CHANNEL, at their places. -/
theorem readChannel_b (f : FaultUnit) (n : Nat) :
    (n < 8 → f.readChannel.b.getLsbD n = (f.channelCheck.toList.map Option.isSome).getD n false) ∧
    (n < 8 → f.readChannel.b.getLsbD (8 + n) = (f.channelCheck.toList.map causeIsTest).getD n false) ∧
    (n < 8 → f.readChannel.b.getLsbD (16 + n) = (decide (n < 5) && f.kindMasks.getLsbD n)) ∧
    f.readChannel.b.getLsbD (24 + n) =
      (decide (24 + n < 32) && [f.summary .channel, f.lineMask .channel].getD n false) := by
  have length : (padBits 8 (f.kindMasksFrom 0 5)).length = 8 := padBits_length (by simp [kindMasksFrom_length])
  simp only [FaultUnit.readChannel, getLsbD_packBits]
  refine ⟨fun h => ?_, fun h => ?_, fun h => ?_, ?_⟩
  · rw [getD_low (k := 24) (by simp [length]) (by omega), getD_low (k := 16) (by simp) (by omega),
      getD_low (k := 8) (by simp) (by omega), decide_eq_true (by omega : n < 32), Bool.true_and]
  · rw [getD_low (k := 24) (by simp [length]) (by omega), getD_low (k := 16) (by simp) (by omega),
      getD_next (k := 8) (by simp), decide_eq_true (by omega : 8 + n < 32), Bool.true_and]
  · rw [getD_low (k := 24) (by simp [length]) (by omega), getD_next (k := 16) (by simp), getD_padBits,
      getD_kindMasksFrom, decide_eq_true (by omega : 16 + n < 32), Bool.true_and, Nat.zero_add]
  · rw [getD_next (k := 24) (by simp [length])]

theorem readCoupling_a (f : FaultUnit) (i : SlotNo) : f.readCoupling.a.getLsbD i = f.isSet (.slip i) ∧
    f.readCoupling.a.getLsbD (16 + i) = f.isSet (.broke i) := by
  have hi := i.isLt
  simp only [FaultUnit.readCoupling, getLsbD_packBits]
  constructor
  · rw [getD_low (k := 16) (by simp) (by omega), getD_vector]
    simp [show i.val < 32 by omega, FaultUnit.isSet]
  · rw [getD_next (k := 16) (by simp), getD_vector]
    simp [show 16 + i.val < 32 by omega, FaultUnit.isSet]

theorem readCoupling_b (f : FaultUnit) (i : SlotNo) : f.readCoupling.b.getLsbD i = f.isSet (.couplingCheck i) ∧
    f.readCoupling.b.getLsbD (16 + i) = causeIsTest f.couplingCheck[i] := by
  have hi := i.isLt
  simp only [FaultUnit.readCoupling, getLsbD_packBits]
  constructor
  · rw [getD_low (k := 16) (by simp) (by omega), getD_vector_map, decide_eq_true (by omega : i.val < 32), Bool.true_and]
    rfl
  · rw [getD_next (k := 16) (by simp), getD_vector_map, decide_eq_true (by omega : 16 + i.val < 32), Bool.true_and]

/-- Value C of COUPLING: the kind masks at its low byte, then the summary and the line mask. -/
theorem readCoupling_c (f : FaultUnit) (n : Nat) :
    (n < 8 → f.readCoupling.c.getLsbD n = (decide (n < 3) && f.kindMasks.getLsbD (5 + n))) ∧
    f.readCoupling.c.getLsbD (8 + n) =
      (decide (8 + n < 16) && [f.summary .coupling, f.lineMask .coupling].getD n false) := by
  have length : (padBits 8 (f.kindMasksFrom 5 3)).length = 8 := padBits_length (by simp [kindMasksFrom_length])
  simp only [FaultUnit.readCoupling, getLsbD_packBits]
  refine ⟨fun h => ?_, ?_⟩
  · rw [getD_low (k := 8) length h, getD_padBits, getD_kindMasksFrom, decide_eq_true (by omega : n < 16),
      Bool.true_and]
  · rw [getD_next (k := 8) length]

/-- Value A of SERVICE: the flags, the kind masks, then the summary and the line mask. -/
theorem readService_a (f : FaultUnit) (n : Nat) :
    (n < 8 → f.readService.a.getLsbD n = (FlagGroup.service.flags.map f.isSet).getD n false) ∧
    (n < 8 → f.readService.a.getLsbD (8 + n) = (decide (n < 6) && f.kindMasks.getLsbD (8 + n))) ∧
    f.readService.a.getLsbD (16 + n) =
      (decide (16 + n < 32) && [f.summary .service, f.lineMask .service].getD n false) := by
  have flags : (padBits 8 (FlagGroup.service.flags.map f.isSet)).length = 8 :=
    padBits_length (by simp [FlagGroup.flags])
  have masks : (padBits 8 (f.kindMasksFrom 8 6)).length = 8 := padBits_length (by simp [kindMasksFrom_length])
  simp only [FaultUnit.readService, getLsbD_packBits]
  refine ⟨fun h => ?_, fun h => ?_, ?_⟩
  · rw [getD_low (k := 16) (by simp [flags, masks]) (by omega), getD_low (k := 8) flags h, getD_padBits,
      decide_eq_true (by omega : n < 32), Bool.true_and]
  · rw [getD_low (k := 16) (by simp [flags, masks]) (by omega), getD_next (k := 8) flags, getD_padBits,
      getD_kindMasksFrom, decide_eq_true (by omega : 8 + n < 32), Bool.true_and]
  · rw [getD_next (k := 16) (by simp [flags, masks])]

theorem causeIsTest_iff (o : Option CheckCause) : causeIsTest o = decide (o = some .test) := by
  cases o with
  | none => rfl
  | some k => cases k <;> rfl

theorem readFaults_range {s : State} {index : Byte} (h : FlagGroup.ofByte index = none) :
    (s.readFaults index).2 = { result := .range } := by
  rw [State.readFaults, h]

end Sys2Proof.Machine

open Sys2Proof Sys2Proof.Machine


/-- Settles O41: each group's values read part by part, a part at its place. -/
theorem readFaultsReportsAGroup : Obligations.ReadFaultsReportsAGroup := by
  intro seq s listening
  refine ⟨fun index above => ?_, ⟨s.faults.readChannel.a, s.faults.readChannel.b, ?_, fun c => ?_, fun k => ?_, ?_, ?_,
      fun n hn => ?_⟩,
    ⟨s.faults.readCoupling.a, s.faults.readCoupling.b, s.faults.readCoupling.c, ?_, fun i => ?_, fun k => ?_, ?_, ?_,
      fun n hn => ?_⟩,
    ⟨s.faults.readService.a, s.faults.readService.b, ?_, ?_, ?_, ?_, ?_, ?_, ?_, fun k => ?_, ?_, ?_, fun n hn => ?_,
      fun absent => ?_, fun l present => ?_⟩⟩
  · rw [exec_readFaults seq index listening, readFaults_range (ofByte_of_above above)]
    rfl
  · exact exec_readFaults seq 0 listening
  · obtain ⟨capture, overspeed, lost, limit⟩ := readChannel_a s.faults c
    obtain ⟨check, cause, -⟩ := readChannel_b s.faults c
    refine ⟨capture, overspeed, lost, limit, ?_, ?_⟩
    · rw [check c.isLt, getD_vector_map]
      rfl
    · rw [cause c.isLt, getD_vector_map, causeIsTest_iff]
  · rw [(readChannel_b s.faults k).2.2.1 (by omega), decide_eq_true k.isLt, Bool.true_and]
  · exact (readChannel_b s.faults 0).2.2.2
  · exact (readChannel_b s.faults 1).2.2.2
  · obtain ⟨low, high⟩ | above := hn
    · obtain ⟨m, rfl⟩ := Nat.exists_eq_add_of_le (show 16 ≤ n by omega)
      rw [(readChannel_b s.faults m).2.2.1 (by omega), decide_eq_false (by omega), Bool.false_and]
    · obtain ⟨m, rfl⟩ := Nat.exists_eq_add_of_le (show 24 ≤ n by omega)
      rw [(readChannel_b s.faults m).2.2.2, List.getD_eq_default _ _ (by simp; omega), Bool.and_false]
  · exact exec_readFaults seq 1 listening
  · obtain ⟨slip, broke⟩ := readCoupling_a s.faults i
    obtain ⟨check, cause⟩ := readCoupling_b s.faults i
    exact ⟨slip, broke, check, cause.trans (causeIsTest_iff _)⟩
  · rw [(readCoupling_c s.faults k).1 (by omega), decide_eq_true k.isLt, Bool.true_and]
  · exact (readCoupling_c s.faults 0).2
  · exact (readCoupling_c s.faults 1).2
  · obtain ⟨low, high⟩ | above := hn
    · rw [(readCoupling_c s.faults n).1 high, decide_eq_false (by omega), Bool.false_and]
    · obtain ⟨m, rfl⟩ := Nat.exists_eq_add_of_le (show 8 ≤ n by omega)
      rw [(readCoupling_c s.faults m).2, List.getD_eq_default _ _ (by simp; omega), Bool.and_false]
  · exact exec_readFaults seq 2 listening
  · exact (readService_a s.faults 0).1 (by decide)
  · exact (readService_a s.faults 1).1 (by decide)
  · exact (readService_a s.faults 2).1 (by decide)
  · exact (readService_a s.faults 3).1 (by decide)
  · exact (readService_a s.faults 4).1 (by decide)
  · exact (readService_a s.faults 5).1 (by decide)
  · rw [(readService_a s.faults k).2.1 (by omega), decide_eq_true k.isLt, Bool.true_and]
  · exact (readService_a s.faults 0).2.2
  · exact (readService_a s.faults 1).2.2
  · obtain flag | mask | above : (6 ≤ n ∧ n < 8) ∨ (14 ≤ n ∧ n < 16) ∨ 18 ≤ n := by omega
    · rw [(readService_a s.faults n).1 flag.2, List.getD_eq_default _ _ (by simpa [FlagGroup.flags] using flag.1)]
    · obtain ⟨m, rfl⟩ := Nat.exists_eq_add_of_le (show 8 ≤ n by omega)
      rw [(readService_a s.faults m).2.1 (by omega), decide_eq_false (by omega), Bool.false_and]
    · obtain ⟨m, rfl⟩ := Nat.exists_eq_add_of_le (show 16 ≤ n by omega)
      rw [(readService_a s.faults m).2.2, List.getD_eq_default _ _ (by simp; omega), Bool.and_false]
  · exact congrArg packLastReject absent
  · exact congrArg packLastReject present
end

