-- ==== Sys2Proof/Proofs/ClearFaults.lean ====
section
/-! SUPPORT. Clear Faults: the named flags, and what clearing them in turn leaves. -/

namespace Sys2Proof.Machine

/-! ### Groups, kinds, instances -/

/-- The flags of a group by kind, in the order of R139. -/
def FlagGroup.kinds : FlagGroup → List (List Flag)
  | .channel => [Flag.capture, .overspeed, .lost, .driveLimit, .channelCheck].map (List.finRange 8).map
  | .coupling => [Flag.slip, .broke, .couplingCheck].map (List.finRange 16).map
  | .service => [[.portFrame], [.linkOverrun], [.discard], [.editReject], [.store], [.stop]]

/-- The place of a group's first kind in the table of R139. -/
def FlagGroup.firstKind : FlagGroup → Nat
  | .channel => 0
  | .coupling => 5
  | .service => 8

theorem instances_eq (g : FlagGroup) (kind : Byte) : g.instances kind = g.kinds[kind.toNat]? := by
  by_cases below : kind.toNat < g.kinds.length
  · unfold FlagGroup.instances
    generalize kind.toNat = n at below
    cases g with
    | channel =>
      replace below : n < 5 := below
      interval_cases n
      all_goals rfl
    | coupling =>
      replace below : n < 3 := below
      interval_cases n
      all_goals rfl
    | service =>
      replace below : n < 6 := below
      interval_cases n
      all_goals rfl
  · rw [List.getElem?_eq_none (not_lt.mp below)]
    unfold FlagGroup.instances
    split
    case h_15 => rfl
    all_goals
      rename_i at_place
      rw [at_place] at below
      exact absurd (by decide) below

/-- A kind's flags belong to its group and have its kind, each at one place. -/
theorem instances_flags {g : FlagGroup} {kind : Byte} {flags : List Flag} (h : g.instances kind = some flags) :
    (∀ fl ∈ flags, fl.group = g ∧ fl.kind.val = g.firstKind + kind.toNat) ∧ flags.Nodup ∧ flags.length ≤ 16 := by
  have eight {f : ChannelNo → Flag} (inj : f.Injective) : ((List.finRange 8).map f).Nodup ∧
      ((List.finRange 8).map f).length ≤ 16 := ⟨(List.nodup_finRange 8).map inj, by simp⟩
  have sixteen {f : SlotNo → Flag} (inj : f.Injective) : ((List.finRange 16).map f).Nodup ∧
      ((List.finRange 16).map f).length ≤ 16 := ⟨(List.nodup_finRange 16).map inj, by simp⟩
  unfold FlagGroup.instances at h
  split at h
  case h_1 | h_2 | h_3 | h_4 | h_5 =>
    rename_i at_place
    cases h
    refine ⟨fun fl mem => ?_, eight fun c d e => by cases e; rfl⟩
    obtain ⟨c, -, rfl⟩ := List.mem_map.mp mem
    rw [at_place]
    exact ⟨rfl, rfl⟩
  case h_6 | h_7 | h_8 =>
    rename_i at_place
    cases h
    refine ⟨fun fl mem => ?_, sixteen fun c d e => by cases e; rfl⟩
    obtain ⟨c, -, rfl⟩ := List.mem_map.mp mem
    rw [at_place]
    exact ⟨rfl, rfl⟩
  case h_15 => cases h
  all_goals
    rename_i at_place
    cases h
    refine ⟨fun fl mem => ?_, List.nodup_singleton _, by simp⟩
    rw [List.mem_singleton.mp mem, at_place]
    exact ⟨rfl, rfl⟩

theorem ofByte_iff (b : Byte) :
    (FlagGroup.ofByte b = some .channel ↔ b = 0) ∧ (FlagGroup.ofByte b = some .coupling ↔ b = 1) ∧
      (FlagGroup.ofByte b = some .service ↔ b = 2) ∧ (FlagGroup.ofByte b = none ↔ 2 < b.toNat) := by
  have zero : b = 0 ↔ b.toNat = 0 := BitVec.toNat_inj.symm
  have one : b = 1 ↔ b.toNat = 1 := BitVec.toNat_inj.symm
  have two : b = 2 ↔ b.toNat = 2 := BitVec.toNat_inj.symm
  rw [zero, one, two]
  unfold FlagGroup.ofByte
  split
  all_goals simp_all
  all_goals omega

/-! ### Clearing the named flags -/

/-- A record in this state keeps its BROKE flag from being cleared (R140). -/
def RecordState.isBroken : RecordState → Bool
  | .broken _ => true
  | _ => false

theorem isBroken_iff (st : RecordState) : st.isBroken = true ↔ ∃ reason, st = .broken reason := by
  cases st <;> simp [RecordState.isBroken]

theorem conditionHolds_slip (s : State) (i : SlotNo) :
    s.conditionHolds (.slip i) = s.slots[i].any fun r => r.state == .slipping := by
  dsimp only [State.conditionHolds]
  cases s.slots[i] <;> rfl

theorem conditionHolds_broke (s : State) (i : SlotNo) :
    s.conditionHolds (.broke i) = s.slots[i].any fun r => r.state.isBroken := by
  dsimp only [State.conditionHolds]
  cases s.slots[i] with
  | none => rfl
  | some r =>
    dsimp only [Option.any_some]
    cases r.state <;> rfl

theorem conditionHolds_couplingCheck (s : State) (i : SlotNo) :
    s.conditionHolds (.couplingCheck i) = s.slots[i].any fun r => r.checkFailed := by
  dsimp only [State.conditionHolds]
  cases s.slots[i] <;> rfl

theorem clearNamed_eq (s : State) (o : Option Flag) :
    s.clearNamed o = { s with faults := (s.clearNamed o).faults } := by
  unfold State.clearNamed
  split
  · split <;> rfl
  · rfl

theorem clearNamed_conditionHolds (s : State) (o : Option Flag) (fl : Flag) :
    (s.clearNamed o).conditionHolds fl = s.conditionHolds fl := by
  rw [clearNamed_eq]
  cases fl <;> rfl

theorem clearNamed_isSet (s : State) (o : Option Flag) (fl : Flag) :
    (s.clearNamed o).faults.isSet fl = (s.faults.isSet fl && (decide (o ≠ some fl) || s.conditionHolds fl)) := by
  cases o with
  | none => simp [State.clearNamed]
  | some other =>
    rw [State.clearNamed]
    by_cases own : other = fl
    · subst own
      by_cases holds : s.conditionHolds other = true
      · simp [holds]
      · simp [holds, isSet_clearFlag]
    · by_cases holds : s.conditionHolds other = true
      · simp [holds, own]
      · simp [holds, isSet_clearFlag, own, Ne.symm own]

/-- What no clearing changes (R144). -/
def FaultUnit.Cleared (f g : FaultUnit) : Prop :=
  (g.kindMasks = f.kindMasks ∧ g.summaries = f.summaries ∧ g.lineMasks = f.lineMasks ∧ g.line = f.line ∧
    g.lastReject = f.lastReject) ∧
  (∀ c : ChannelNo, g.isSet (.channelCheck c) = true → g.channelCheck[c] = f.channelCheck[c]) ∧
  ∀ i : SlotNo, g.isSet (.couplingCheck i) = true → g.couplingCheck[i] = f.couplingCheck[i]

theorem FaultUnit.Cleared.refl (f : FaultUnit) : f.Cleared f :=
  ⟨⟨rfl, rfl, rfl, rfl, rfl⟩, fun _ _ => rfl, fun _ _ => rfl⟩

theorem FaultUnit.Cleared.trans {f g h : FaultUnit} (x : f.Cleared g) (y : g.Cleared h) : f.Cleared h := by
  obtain ⟨⟨k, s, m, l, r⟩, channels, slots⟩ := x
  obtain ⟨⟨k', s', m', l', r'⟩, channels', slots'⟩ := y
  refine ⟨⟨k'.trans k, s'.trans s, m'.trans m, l'.trans l, r'.trans r⟩, fun c set => ?_, fun i set => ?_⟩
  · have same := channels' c set
    refine same.trans (channels c ?_)
    rw [FaultUnit.isSet, ← same]
    exact set
  · have same := slots' i set
    refine same.trans (slots i ?_)
    rw [FaultUnit.isSet, ← same]
    exact set

theorem clearFlag_cleared (f : FaultUnit) (fl : Flag) : f.Cleared (f.clearFlag fl) := by
  refine ⟨clearFlag_rest f fl, fun c set => ?_, fun i set => ?_⟩
  · rw [isSet_clearFlag, Bool.and_eq_true, Bool.not_eq_true', decide_eq_false_iff_not] at set
    cases fl with
    | channelCheck d =>
      have other : d.val ≠ c.val := fun e => set.1 (congrArg Flag.channelCheck (Fin.ext e.symm))
      simp [FaultUnit.clearFlag, other]
    | _ => rfl
  · rw [isSet_clearFlag, Bool.and_eq_true, Bool.not_eq_true', decide_eq_false_iff_not] at set
    cases fl with
    | couplingCheck j =>
      have other : j.val ≠ i.val := fun e => set.1 (congrArg Flag.couplingCheck (Fin.ext e.symm))
      simp [FaultUnit.clearFlag, other]
    | _ => rfl

theorem clearNamed_cleared (s : State) (o : Option Flag) : s.faults.Cleared (s.clearNamed o).faults := by
  unfold State.clearNamed
  split
  · split
    · exact FaultUnit.Cleared.refl _
    · exact clearFlag_cleared s.faults _
  · exact FaultUnit.Cleared.refl _

/-- Clearing named flags in turn clears each of them whose condition does not hold (R144). -/
theorem clearAll (l : List (Option Flag)) (s : State) :
    l.foldl State.clearNamed s = { s with faults := (l.foldl State.clearNamed s).faults } ∧
      s.faults.Cleared (l.foldl State.clearNamed s).faults ∧
      ∀ fl, (l.foldl State.clearNamed s).faults.isSet fl =
        (s.faults.isSet fl && (decide (some fl ∉ l) || s.conditionHolds fl)) := by
  induction l generalizing s with
  | nil => exact ⟨rfl, FaultUnit.Cleared.refl _, fun fl => by simp⟩
  | cons o l ih =>
    obtain ⟨only, cleared, set⟩ := ih (s.clearNamed o)
    rw [List.foldl_cons]
    refine ⟨?_, FaultUnit.Cleared.trans (clearNamed_cleared s o) cleared, fun fl => ?_⟩
    · rw [only, clearNamed_eq s o]
    · rw [set fl, clearNamed_isSet, clearNamed_conditionHolds]
      have named_iff : o = some fl ↔ some fl = o := eq_comm
      cases s.faults.isSet fl <;> cases s.conditionHolds fl <;> simp [named_iff, List.mem_cons]

/-! ### The named flags -/

theorem namedFlags_getElem? (g : FlagGroup) (a : Word) (flags : List Flag) (n : Nat) :
    (g.namedFlags a flags)[n]? = flags[n]?.map fun fl => if g.named a n then some fl else none := by
  rw [FlagGroup.namedFlags, List.getElem?_map, List.getElem?_zipIdx, Option.map_map]
  simp only [Nat.zero_add]
  rfl

theorem mem_namedFlags {g : FlagGroup} {a : Word} {flags : List Flag} {fl : Flag} :
    some fl ∈ g.namedFlags a flags ↔ ∃ n, flags[n]? = some fl ∧ g.named a n = true := by
  rw [List.mem_iff_getElem?]
  refine exists_congr fun n => ?_
  rw [namedFlags_getElem?]
  cases flags[n]? with
  | none => simp
  | some other => simp [ite_eq_iff, and_comm]

/-- A flag is named by its own place. -/
theorem mem_namedFlags_at {g : FlagGroup} {a : Word} {flags : List Flag} {fl : Flag} {n : Nat} (nodup : flags.Nodup)
    (h : flags[n]? = some fl) : some fl ∈ g.namedFlags a flags ↔ g.named a n = true := by
  rw [mem_namedFlags]
  refine ⟨fun ⟨m, at_m, named⟩ => ?_, fun named => ⟨n, h, named⟩⟩
  obtain ⟨hn, at_n⟩ := List.getElem?_eq_some_iff.mp h
  obtain ⟨hm, at_m⟩ := List.getElem?_eq_some_iff.mp at_m
  rwa [nodup.getElem_inj_iff.mp (at_n.trans at_m.symm)]

theorem named_iff (g : FlagGroup) (a : Word) (n : Nat) : g.named a n = true ↔ g = .service ∨ a.getLsbD n = true := by
  cases g <;> simp [FlagGroup.named]

theorem instanceSetInRange_iff (g : FlagGroup) (a : Word) : g.instanceSetInRange a = true ↔
    (g = .channel → a.toNat < 256) ∧ (g = .coupling → a.toNat < 65536) := by
  cases g <;> simp [FlagGroup.instanceSetInRange]

/-! ### Clear Faults -/

theorem exec_clearFaults (seq index item : Byte) (a : Word) {s : State} (h : s.Listening) :
    exec (.clearFaults seq index item a) s = .next (State.answered 0x51 seq (s.raised.clearFaults index item a)) :=
  congrArg Host.Outcome.next (ask_of_listening s 0x51 seq (fun t => t.clearFaults index item a) h)

theorem clearFaults_range (s : State) {index item : Byte} {a : Word} (h : FlagGroup.ofByte index = none ∨
      (∃ g, FlagGroup.ofByte index = some g ∧ g.instances item = none) ∨ (index = 0 ∧ 256 ≤ a.toNat) ∨
        (index = 1 ∧ 65536 ≤ a.toNat)) : s.clearFaults index item a = (s, { result := .range }) := by
  have outside {g : FlagGroup} (hg : FlagGroup.ofByte index = some g) (ha : g.instanceSetInRange a = false) :
      s.clearFaults index item a = (s, { result := .range }) := by
    unfold State.clearFaults
    rw [hg]
    dsimp only
    rw [ha]
    cases g.instances item <;> rfl
  obtain none_found | ⟨g, hg, none_found⟩ | ⟨rfl, ha⟩ | ⟨rfl, ha⟩ := h
  · unfold State.clearFaults
    rw [none_found]
  · unfold State.clearFaults
    rw [hg]
    dsimp only
    rw [none_found]
  · exact outside (g := .channel) rfl (decide_eq_false (by omega))
  · exact outside (g := .coupling) rfl (decide_eq_false (by omega))

theorem clearFaults_of (s : State) {index item : Byte} {a : Word} {g : FlagGroup} {flags : List Flag}
    (hg : FlagGroup.ofByte index = some g) (hf : g.instances item = some flags) (ha : g.instanceSetInRange a = true) :
    s.clearFaults index item a = ((g.namedFlags a flags).foldl State.clearNamed s,
      { result := .done
        a := BitVec.ofNat 32 (packBits ((g.namedFlags a flags).map
          ((g.namedFlags a flags).foldl State.clearNamed s).staysSet)) }) := by
  unfold State.clearFaults
  rw [hg]
  dsimp only
  rw [hf, ha]
  rfl

end Sys2Proof.Machine

open Sys2Proof Sys2Proof.Machine

/-- Settles O42: the named flags are cleared in turn, and a flag is named by its own place in its kind. -/
theorem clearFaultsClearsNamedFlags : Obligations.ClearFaultsClearsNamedFlags := by
  refine ⟨fun s => ⟨fun c => ⟨Iff.rfl, ?_, ?_, rfl, rfl⟩, fun i => ⟨?_, ?_, ?_⟩, Iff.rfl, fun fl mem => ?_⟩,
    ofByte_iff, fun g kind => ⟨instances_eq g kind, fun flags fl hf mem => (instances_flags hf).1 fl mem⟩, rfl,
    fun seq index item a s listening => ⟨fun outside => ?_, fun g flags hg hf ha ha' => ?_⟩⟩
  · simp [State.conditionHolds]
  · simp [State.conditionHolds]
  · rw [conditionHolds_slip]
    cases s.slots[i] <;> simp
  · rw [conditionHolds_broke]
    cases s.slots[i] <;> simp [isBroken_iff]
  · rw [conditionHolds_couplingCheck]
    cases s.slots[i] <;> simp
  · simp only [List.mem_cons, List.not_mem_nil, or_false] at mem
    obtain rfl | rfl | rfl | rfl | rfl := mem
    all_goals rfl
  · rw [exec_clearFaults seq index item a listening, clearFaults_range s.raised outside]
    rfl
  · obtain ⟨-, nodup, few⟩ := instances_flags hf
    obtain ⟨only, ⟨⟨kinds, summaries, lines, line, reject⟩, channels, slots⟩, set⟩ :=
      clearAll (g.namedFlags a flags) s.raised
    refine ⟨((g.namedFlags a flags).foldl State.clearNamed s.raised).faults,
      BitVec.ofNat 32 (packBits ((g.namedFlags a flags).map
        ((g.namedFlags a flags).foldl State.clearNamed s.raised).staysSet)), ?_, summaries, kinds, lines, line,
      reject, fun fl out => ?_, channels, slots, fun n fl hn => ?_⟩
    · rw [exec_clearFaults seq index item a listening,
        clearFaults_of s.raised hg hf ((instanceSetInRange_iff g a).mpr ⟨ha, ha'⟩), State.answered]
      dsimp only
      conv_lhs => rw [only]
      rfl
    · have unnamed : some fl ∉ g.namedFlags a flags := by
        rw [mem_namedFlags]
        rintro ⟨n, hn, -⟩
        exact out (List.mem_of_getElem? hn)
      rw [set fl, decide_eq_true unnamed, Bool.true_or, Bool.and_true]
      rfl
    · have at_place := mem_namedFlags_at (g := g) (a := a) nodup hn
      have inside : n < 32 := by
        obtain ⟨hn, -⟩ := List.getElem?_eq_some_iff.mp hn
        omega
      have stays : (BitVec.ofNat 32 (packBits ((g.namedFlags a flags).map
          ((g.namedFlags a flags).foldl State.clearNamed s.raised).staysSet))).getLsbD n =
            (g.named a n && ((g.namedFlags a flags).foldl State.clearNamed s.raised).faults.isSet fl) := by
        rw [getLsbD_packBits, decide_eq_true inside, Bool.true_and, List.getD_eq_getElem?_getD, List.getElem?_map,
          namedFlags_getElem?, hn]
        cases g.named a n <;> rfl
      intro named
      rw [stays, set fl]
      refine ⟨fun un => ?_, fun is => ?_⟩
      · have un' : g.named a n = false := Bool.eq_false_iff.mpr (mt (named_iff g a n).mp un)
        rw [decide_eq_true (mt at_place.mp (by rw [un']; exact nofun)), un']
        simp [State.raised]
      · have is' := (named_iff g a n).mpr is
        rw [decide_eq_false (not_not.mpr (at_place.mpr is')), is']
        have condition : s.raised.conditionHolds fl = s.conditionHolds fl := by cases fl <;> rfl
        rw [Bool.false_or, Bool.true_and, condition]
        exact ⟨rfl, rfl⟩
end

