-- ==== Sys2Proof/Proofs/StoreRequests.lean ====
section
/-! SUPPORT. The store requests: their checks, what an accepted one begins, and when a profile is valid. -/

namespace Sys2Proof.Machine

/-! ### Operands -/

theorem profileOfIndex_eq {index : Byte} {p : ProfileNo} (h : index.toNat = p.val) : profileOfIndex index = some p := by
  rw [profileOfIndex, dif_pos (by omega)]
  exact congrArg some (Fin.ext h)

theorem profileOfIndex_none {index : Byte} (h : 4 ≤ index.toNat) : profileOfIndex index = none :=
  dif_neg (by omega)

/-- A Save names no profile outside its range, and asks for the automatic load of profile 0 alone (R157). -/
theorem saveOutside_iff (item : Byte) (p : ProfileNo) :
    (decide (1 < item.toNat) || (item == 1 && p != 0)) = true ↔ ¬ (item.toNat ≤ 1 ∧ (item = 1 → p = 0)) := by
  rw [Bool.or_eq_true, decide_eq_true_iff, Bool.and_eq_true, beq_iff_eq, bne_iff_ne, not_and_or, not_le,
    Classical.not_imp]

theorem loadBarred_iff (s : State) : s.loadBarred = true ↔
    (∃ (i : SlotNo) (r : Record), s.slots[i] = some r ∧ r.state.isActive = true) ∨
      ∃ k : BufferNo, s.edit.buffers[k].isSome = true := by
  rw [State.loadBarred, Bool.or_eq_true, anyActive_iff, Bool.not_eq_true', Bool.eq_false_iff, ne_eq,
    openBuffers_empty_iff, not_forall]
  refine or_congr_right (exists_congr fun k => ?_)
  exact (Option.isSome_iff_ne_none).symm

/-! ### The end of an operation -/

theorem endStore_ok (s : State) :
    s.endStore .ok = { s with store := { s.store with op := .idle, journal := false, lastResult := .ok } } := rfl

theorem endStore_failed (s : State) {r : StoreResult} (h : r ≠ .ok) : s.endStore r = { s with
    store := { s.store with op := .idle, journal := false, lastResult := r }
    faults := s.faults.report .store .mismatch } := by
  rw [State.endStore, State.reportIf, if_pos (bne_iff_ne.mpr h)]
  rfl

/-! ### The requests -/

theorem exec_saveProfile (seq index item : Byte) {s : State} (h : s.Listening) :
    exec (.saveProfile seq index item) s = .next (State.answered 0x60 seq (s.raised.saveProfile index item)) :=
  congrArg Host.Outcome.next (ask_of_listening s 0x60 seq (fun t => t.saveProfile index item) h)

theorem exec_eraseProfile (seq index : Byte) {s : State} (h : s.Listening) :
    exec (.eraseProfile seq index) s = .next (State.answered 0x61 seq (s.raised.eraseProfile index)) :=
  congrArg Host.Outcome.next (ask_of_listening s 0x61 seq (fun t => t.eraseProfile index) h)

theorem exec_loadProfile (seq index : Byte) {s : State} (h : s.Listening) :
    exec (.loadProfile seq index) s = .next (State.answered 0x62 seq (s.raised.loadProfile index)) :=
  congrArg Host.Outcome.next (ask_of_listening s 0x62 seq (fun t => t.loadProfile index) h)

theorem exec_storeStatus (seq : Byte) {s : State} (h : s.Listening) :
    exec (.storeStatus seq) s = .next (State.answered 0x63 seq (s.raised, s.raised.storeStatus)) :=
  congrArg Host.Outcome.next (ask_of_listening s 0x63 seq (fun t => (t, t.storeStatus)) h)

/-- A Save of a profile in range, by its checks (R157, R159). -/
theorem saveProfile_of (s : State) {index item : Byte} {p : ProfileNo} (hp : index.toNat = p.val) :
    s.saveProfile index item =
      if 1 < item.toNat || (item == 1 && p != 0) then (s, { result := .range })
      else if s.store.op ≠ .idle then (s, { result := .busy })
      else if s.store.profiles[p] ≠ Profile.blank then (s.endStore .notBlank, { result := .accepted })
      else ((s.beginStore (.saving p (item == 1) none)).request .saveSnapshot, { result := .accepted }) := by
  rw [State.saveProfile, profileOfIndex_eq hp]

theorem eraseProfile_of (s : State) {index : Byte} {p : ProfileNo} (hp : index.toNat = p.val) :
    s.eraseProfile index =
      if s.store.op ≠ .idle then (s, { result := .busy })
      else ((s.beginStore (.erasing p)).setProfile p { s.store.profiles[p] with validMark := false },
        { result := .accepted }) := by
  rw [State.eraseProfile, profileOfIndex_eq hp]

theorem loadProfile_of (s : State) {index : Byte} {p : ProfileNo} (hp : index.toNat = p.val) :
    s.loadProfile index =
      if s.store.op ≠ .idle then (s, { result := .busy })
      else if s.loadBarred then (s, { result := .state })
      else if s.store.profiles[p].isValid then
        ((s.beginStore (.loading p true)).request .install, { result := .accepted })
      else (s.beginStore (.loading p false), { result := .accepted }) := by
  rw [State.loadProfile, profileOfIndex_eq hp]

/-! ### Valid profiles -/

theorem mem_channelFields (f : ChannelField) : f ∈ ChannelField.all := by cases f <;> decide

theorem mem_recordFields (f : RecordField) : f ∈ RecordField.all := by cases f <;> decide

theorem channelConfig_inRange_iff (cfg : ChannelConfig) :
    cfg.inRange = true ↔ ∀ f : ChannelField, f.inRange (cfg.field f) = true := by
  rw [ChannelConfig.inRange, List.all_eq_true]
  exact forall_congr' fun f => ⟨fun h => h (mem_channelFields f), fun h _ => h⟩

theorem recordConfig_inRange_iff (cfg : RecordConfig) : cfg.inRange = true ↔
    (∀ f : RecordField, f.inRange (cfg.field f) = true) ∧ cfg.follower ≠ cfg.leader ∧
      cfg.slipWindow.toNat ≤ cfg.breakWindow.toNat := by
  rw [RecordConfig.inRange, Bool.and_eq_true, Bool.and_eq_true, List.all_eq_true, bne_iff_ne, decide_eq_true_iff,
    and_assoc]
  refine and_congr_left fun _ => ?_
  exact forall_congr' fun f => ⟨fun h => h (mem_recordFields f), fun h _ => h⟩

theorem isValid_iff (p : Profile) : p.isValid = true ↔ p.validMark = true ∧ p.crc = crc16 p.bytes ∧
    p.recordCount.toNat ≤ 16 ∧ (∀ (c : ChannelNo) (f : ChannelField), f.inRange (p.channels[c].field f) = true) ∧
      (∀ cfg ∈ p.savedRecords, (∀ f : RecordField, f.inRange (cfg.field f) = true) ∧ cfg.follower ≠ cfg.leader ∧
        cfg.slipWindow.toNat ≤ cfg.breakWindow.toNat) ∧
      (p.savedRecords.map RecordConfig.tag).Nodup := by
  have channels : p.channels.toList.all ChannelConfig.inRange = true ↔
      ∀ (c : ChannelNo) (f : ChannelField), f.inRange (p.channels[c].field f) = true := by
    simp only [← channelConfig_inRange_iff]
    rw [List.all_eq_true, Fin.forall_iff]
    simp [Vector.forall_mem_iff_forall_getElem]
  have records : p.savedRecords.all RecordConfig.inRange = true ↔ ∀ cfg ∈ p.savedRecords,
      (∀ f : RecordField, f.inRange (cfg.field f) = true) ∧ cfg.follower ≠ cfg.leader ∧
        cfg.slipWindow.toNat ≤ cfg.breakWindow.toNat := by
    simp only [← recordConfig_inRange_iff]
    exact List.all_eq_true
  unfold Profile.isValid Profile.tagsDistinct
  simp only [Bool.and_eq_true, beq_iff_eq, decide_eq_true_iff, channels, records, and_assoc]
  rfl

end Sys2Proof.Machine

open Sys2Proof Sys2Proof.Machine

/-- Settles O45: RANGE, BUSY and STATE in their order, and what an accepted request begins. -/
theorem storeRequestsBeginOperations : Obligations.StoreRequestsBeginOperations := by
  refine ⟨fun seq index item s listening => ⟨?_, fun outside => ?_, fun above => ⟨?_, ?_⟩, fun p hp => ?_⟩,
    fun p => isValid_iff p⟩
  · rw [exec_storeStatus seq listening]
    rfl
  · rw [exec_saveProfile seq index item listening]
    by_cases above : 4 ≤ index.toNat
    · rw [State.saveProfile, profileOfIndex_none above]
      rfl
    · have hp : index.toNat = (⟨index.toNat, by omega⟩ : ProfileNo).val := rfl
      rw [saveProfile_of s.raised hp, if_pos ?_]
      · rfl
      · rw [saveOutside_iff]
        rintro ⟨low, first⟩
        obtain h | h | ⟨one, other⟩ := outside
        · exact above h
        · omega
        · have zero : index.toNat = 0 := congrArg Fin.val (first one)
          exact other (BitVec.eq_of_toNat_eq zero)
  · rw [exec_eraseProfile seq index listening, State.eraseProfile, profileOfIndex_none above]
    rfl
  · rw [exec_loadProfile seq index listening, State.loadProfile, profileOfIndex_none above]
    rfl
  · intro saved barred
    rw [exec_saveProfile seq index item listening, exec_eraseProfile seq index listening,
      exec_loadProfile seq index listening, saveProfile_of s.raised hp, eraseProfile_of s.raised hp,
      loadProfile_of s.raised hp]
    have inside (h : saved) : ¬ (decide (1 < item.toNat) || (item == 1 && p != 0)) = true := by
      rw [saveOutside_iff, not_not]
      exact h
    have free {α : Type} (idle : s.store.op = .idle) (x y : α) : (if s.raised.store.op ≠ .idle then x else y) = y :=
      if_neg (not_not.mpr idle)
    have barred_iff : s.raised.loadBarred = true ↔ barred := loadBarred_iff s
    refine ⟨fun busy => ⟨fun h => ?_, ?_, ?_⟩, fun idle h written => ?_, fun idle h blank => ?_, fun idle => ?_,
      fun idle bars => ?_, fun idle unbarred valid => ?_, fun idle unbarred invalid => ?_⟩
    · rw [if_neg (inside h), if_pos (show s.raised.store.op ≠ .idle from busy)]
      rfl
    · rw [if_pos (show s.raised.store.op ≠ .idle from busy)]
      rfl
    · rw [if_pos (show s.raised.store.op ≠ .idle from busy)]
      rfl
    · refine ⟨s.faults.report .store .mismatch, report_reported _ _ _, ?_⟩
      rw [if_neg (inside h), free idle, if_pos (show s.raised.store.profiles[p] ≠ Profile.blank from written),
        endStore_failed _ (by decide)]
      exact congrArg (fun op => Host.Outcome.next { s.replied (Reply.plain 0x60 seq .accepted) with
        store := { s.store with op := op, journal := false, lastResult := .notBlank }
        faults := s.faults.report .store .mismatch }) idle.symm
    · rw [if_neg (inside h), free idle, if_neg (not_not.mpr (show s.raised.store.profiles[p] = Profile.blank from blank)),
        request_asked]
      rfl
    · rw [free idle]
      rfl
    · rw [free idle, if_pos (barred_iff.mpr bars)]
      rfl
    · rw [free idle, if_neg (mt barred_iff.mp unbarred), if_pos (show s.raised.store.profiles[p].isValid = true from valid),
        request_asked]
      rfl
    · rw [free idle, if_neg (mt barred_iff.mp unbarred),
        if_neg (show ¬ s.raised.store.profiles[p].isValid = true by
          show ¬ s.store.profiles[p].isValid = true
          rw [invalid]
          exact nofun)]
      rfl
end

