-- ==== Sys2Proof/Proofs/StoreAndStartup.lean ====
section
/-! SUPPORT. The ends of the store's operations, the install, and start-up. -/

namespace Sys2Proof.Machine

/-! ### Saves -/

theorem exec_saveSnapshot_alone {s : State} (h : s.arbiter = { inService := some .saveSnapshot, waiting := [], deferred := [] }) :
    exec .saveSnapshot s =
      .next { s.takeSaveSnapshot with arbiter := { inService := none, waiting := [], deferred := [] } } := by
  have own : s.arbiter.inService = some .saveSnapshot := by rw [h]
  have kept : s.takeSaveSnapshot.arbiter = s.arbiter := by
    unfold State.takeSaveSnapshot
    split <;> rfl
  exact congrArg Host.Outcome.next ((if_pos own).trans (endAccess_alone (kept.trans h)))

theorem takeSaveSnapshot_of {s : State} {p : ProfileNo} {autoLoad : Bool} {old : Option Profile}
    (h : s.store.op = .saving p autoLoad old) : s.takeSaveSnapshot =
      { s with store := { s.store with op := .saving p autoLoad (some (s.profileCopy autoLoad)) } } := by
  rw [State.takeSaveSnapshot, h]

theorem savedConfigs_length (s : State) : s.savedConfigs.length ≤ 16 :=
  (List.length_filterMap_le _ _).trans (by simp)

/-- What a save will program counts the records it holds, and has them from its first place on (R159). -/
theorem profileCopy_records (s : State) (autoLoad : Bool) :
    (s.profileCopy autoLoad).recordCount.toNat = s.savedConfigs.length ∧
      (s.profileCopy autoLoad).savedRecords = s.savedConfigs ∧
        ∀ i : SlotNo, s.savedConfigs.length ≤ i.val → (s.profileCopy autoLoad).records[i] = RecordConfig.erased := by
  have few := savedConfigs_length s
  have count : (s.profileCopy autoLoad).recordCount.toNat = s.savedConfigs.length := by
    show (BitVec.ofNat 8 s.savedConfigs.length).toNat = _
    rw [BitVec.toNat_ofNat, Nat.mod_eq_of_lt (by omega)]
  have place (i : SlotNo) : (s.profileCopy autoLoad).records[i] = s.savedConfigs[i.val]?.getD RecordConfig.erased := by
    show (Vector.ofFn fun i : SlotNo => s.savedConfigs[i.val]?.getD RecordConfig.erased)[i] = _
    simp
  refine ⟨count, ?_, fun i past => ?_⟩
  · refine List.ext_getElem ?_ fun n hn hn' => ?_
    · rw [Profile.savedRecords, count, List.length_take, Vector.length_toList]
      omega
    · have at_place := place ⟨n, by omega⟩
      rw [List.getElem?_eq_getElem (show n < s.savedConfigs.length from hn'), Option.getD_some] at at_place
      rw [← at_place]
      simp [Profile.savedRecords]
  · rw [place, List.getElem?_eq_none past, Option.getD_none]

/-- The profile CRC covers everything but itself. -/
theorem contentCrc_withCrc (p : Profile) (crc : Half) : ({ p with crc := crc } : Profile).contentCrc = p.contentCrc := by
  unfold Profile.contentCrc Profile.bytes Profile.savedRecords
  rfl

/-- What a save will program, with its CRC still to be taken. -/
def State.uncheckedCopy (s : State) (autoLoad : Bool) : Profile where
  validMark := true
  autoLoad := autoLoad
  recordCount := BitVec.ofNat 8 s.savedConfigs.length
  channels := Vector.ofFn fun c => s.channels[c].cfg
  records := Vector.ofFn fun i => s.savedConfigs[i.val]?.getD RecordConfig.erased
  crc := 0

theorem profileCopy_eq (s : State) (autoLoad : Bool) : s.profileCopy autoLoad =
    { s.uncheckedCopy autoLoad with crc := (s.uncheckedCopy autoLoad).contentCrc } := rfl

theorem profileCopy_crc (s : State) (autoLoad : Bool) :
    (s.profileCopy autoLoad).crc = (s.profileCopy autoLoad).contentCrc := by
  rw [profileCopy_eq]
  dsimp only
  exact (contentCrc_withCrc (s.uncheckedCopy autoLoad) (s.uncheckedCopy autoLoad).contentCrc).symm

theorem endSave_of {s : State} {p : ProfileNo} {autoLoad : Bool} {copy : Profile} (agrees : Bool)
    (h : s.store.op = .saving p autoLoad (some copy)) : s.endSave agrees =
      if agrees then (s.setProfile p copy).endStore .ok
      else ((s.setProfile p (copy.unverified (Config.freeBits s.freeIndex))).nextOccasion).endStore .verifyFail := by
  rw [State.endSave, h]

/-! ### Installs -/

theorem exec_profileInstall_alone {s : State}
    (h : s.arbiter = { inService := some .install, waiting := [], deferred := [] }) : exec .profileInstall s =
      .next { s.takeInstall with arbiter := { inService := none, waiting := [], deferred := [] } } := by
  have own : s.arbiter.inService = some .install := by rw [h]
  have kept : s.takeInstall.arbiter = s.arbiter := by
    unfold State.takeInstall
    split <;> rfl
  exact congrArg Host.Outcome.next ((if_pos own).trans (endAccess_alone (kept.trans h)))

/-! ### Start-up -/

theorem exec_startupLoad_begun {s : State} (h : s.startup = .begun) (released : s.resetHeld = false) :
    exec .startupLoad s = .next s.takeStartupLoad := congrArg Host.Outcome.next (if_pos ⟨h, released⟩)

theorem startupLoad_noLoad {p : Profile} (h : p = Profile.blank ∨ p.autoLoad = false) : p.startupLoad = .noLoad :=
  if_pos h

theorem startupLoad_marked {p : Profile} (written : p ≠ Profile.blank) (marked : p.autoLoad = true) :
    p.startupLoad = if p.isValid then .done else .invalid := by
  refine if_neg ?_
  rintro (blank | unmarked)
  · exact written blank
  · rw [marked] at unmarked
    exact absurd unmarked nofun

theorem startupFault_iff (st : Store) :
    st.startupFault = true ↔ st.lastResult = .interrupted ∨ st.startupLoad = .invalid := by
  rw [Store.startupFault, Bool.or_eq_true, beq_iff_eq, beq_iff_eq]

theorem exec_ready_settled {s : State} (h : s.startup = .settled) :
    exec .ready s = .next (s.becomeReady.readStop.reportIf s.store.startupFault .store) :=
  congrArg Host.Outcome.next (if_pos h)

end Sys2Proof.Machine

open Sys2Proof Sys2Proof.Machine

/-- Settles O46: the copy a save takes, and what the end of each operation leaves of the profile and the result. -/
theorem storeOperationsEnd : Obligations.StoreOperationsEnd := by
  intro s p
  refine ⟨fun autoLoad old saving alone => ?_, fun autoLoad copy saving => ⟨?_, ?_⟩, fun erasing => ?_, fun loading => ?_⟩
  · obtain ⟨count, records, erased⟩ := profileCopy_records s autoLoad
    rw [exec_saveSnapshot_alone alone, takeSaveSnapshot_of saving]
    refine ⟨s.profileCopy autoLoad, rfl, rfl, rfl, profileCopy_crc s autoLoad, fun c => ?_, records, records ▸ count, ?_⟩
    · show (Vector.ofFn fun c : ChannelNo => s.channels[c].cfg)[c] = _
      simp
    · rw [records]
      exact erased
  · exact congrArg Host.Outcome.next (endSave_of true saving)
  · obtain ⟨mark, crc, auto, channels, records⟩ := unverified_items copy (Config.freeBits s.freeIndex)
    refine ⟨copy.unverified (Config.freeBits s.freeIndex), s.faults.report .store .mismatch, mark, crc,
      unverified_disagrees _ _, fun unmarked => ?_, fun n few => unverified_count _ _ few n, fun c field n one => ?_,
      fun i field n one => ?_, report_reported _ _ _, ?_⟩
    · rw [auto, unmarked, Bool.false_and]
    · rw [channels]
      have loose : (copy.loosen (Config.freeBits s.freeIndex)).channels[c] =
          copy.channels[c].loosen fun n => Config.freeBits s.freeIndex (16 * (c.val + 1) + n) := by
        simp [Profile.loosen]
      rw [loose]
      exact channel_loosen_ones _ _ field n one
    · rw [records]
      have loose : (copy.loosen (Config.freeBits s.freeIndex)).records[i] =
          copy.records[i].loosen fun n => Config.freeBits s.freeIndex (16 * (i.val + 9) + n) := by
        simp [Profile.loosen]
      rw [loose]
      exact record_loosen_ones _ _ field n one
    · show Host.Outcome.next (s.endSave false) = _
      rw [endSave_of false saving, if_neg Bool.false_ne_true, endStore_failed _ (by decide)]
      rfl
  · show Host.Outcome.next s.endErase = _
    rw [State.endErase, erasing]
    rfl
  · refine ⟨s.faults.report .store .mismatch, report_reported _ _ _, ?_⟩
    show Host.Outcome.next s.endInvalidLoad = _
    rw [State.endInvalidLoad, loading]
    dsimp only
    rw [endStore_failed _ (by decide)]

/-- Settles O47: the install writes the tables whole, and ends the load it belongs to. -/
theorem profileInstallWritesTheTables : Obligations.ProfileInstallWritesTheTables := by
  intro s p alone source installed
  rw [exec_profileInstall_alone alone]
  have tables : ({ s.install source with arbiter := { inService := none, waiting := [], deferred := [] } } : State) =
      installed := by
    have snapshot : s.port.snapshot.afterInstall = installed.port.snapshot := by
      cases h : s.port.snapshot <;> simp [Snapshot.afterInstall, installed, h]
    rw [State.install, snapshot]
    rfl
  refine ⟨fun valid loading => ?_, fun loading first => ?_⟩
  · rw [State.takeInstall, loading]
    dsimp only
    rw [endStore_ok, ← tables]
    rfl
  · subst first
    rw [State.takeInstall, loading, ← tables]
    rfl

/-- Settles O48: start-up settles the last result and reads profile 0, then the timers start and STOP is read. -/
theorem startUpGoesToReady : Obligations.StartUpGoesToReady := by
  refine ⟨fun s begun released => ?_, fun s settled low => ?_, fun s settled high => ?_, fun s other => congrArg Host.Outcome.next (if_neg other),
    fun s other => ?_, fun s => rfl⟩
  · intro read first
    rw [exec_startupLoad_begun begun released]
    refine ⟨fun h => ?_, fun written marked invalid => ?_, fun written marked valid => ?_⟩
    · rw [State.takeStartupLoad, startupLoad_noLoad h]
      rfl
    · rw [State.takeStartupLoad, startupLoad_marked written marked, invalid]
      rfl
    · rw [State.takeStartupLoad, startupLoad_marked written marked, valid]
      dsimp only
      rw [if_pos rfl, if_pos rfl, request_asked]
      rfl
  · intro started due
    rw [exec_ready_settled settled]
    have line : s.becomeReady.readStop = started := if_neg (by
      show ¬ s.stopLine = true
      rw [low]
      exact nofun)
    rw [line]
    refine ⟨fun h => ?_, fun h => ⟨s.faults.report .store .mismatch, report_reported _ _ _, ?_⟩⟩
    · rw [State.reportIf, if_neg (mt (startupFault_iff s.store).mp h)]
    · rw [State.reportIf, if_pos ((startupFault_iff s.store).mpr h)]
      rfl
  · have line : s.becomeReady.readStop = s.becomeReady.takeStop := if_pos high
    obtain ⟨only, raised, inactive, cut⟩ := takeStop_spec s.becomeReady
    rw [exec_ready_settled settled, line]
    have reported := reportIf_raised s.becomeReady.takeStop s.store.startupFault .store
    have report := reportIf_eq s.becomeReady.takeStop s.store.startupFault .store
    generalize s.becomeReady.takeStop = w at only raised inactive cut reported report
    generalize w.reportIf s.store.startupFault .store = t at reported report
    have slots : t.slots = w.slots := by rw [report]
    have entries : t.completions = w.completions := by rw [report]
    refine ⟨t, ?_, ?_, fun i => ?_, ?_⟩
    · rw [slots, entries]
      refine congrArg Host.Outcome.next (report.trans ?_)
      rw [only]
      rfl
    · rw [report]
      exact inactive
    · exact CutAt.weaken (cut i) rfl rfl rfl (by rw [slots]) (by rw [entries]) fun fl set => (reported.1 fl).mpr (.inl set)
    · refine Raised.congr (Raised.trans raised reported) fun fl => ?_
      rw [startupFault_iff, or_assoc]
      exact or_congr_right or_comm
  · refine congrArg Host.Outcome.next (if_neg ?_)
    rintro ⟨begun, released⟩
    obtain h | h := other
    · exact h begun
    · rw [released] at h
      exact absurd h nofun
end

