-- ==== Sys2Proof/Proofs/SamplesAndCaptures.lean ====
section
/-! SUPPORT. A sample of an encoder, and one capture of one channel. -/

namespace Sys2Proof.Machine

/-! ### Samples -/

theorem forwardOf_iff : ∀ a b oldA oldB : Bool, (a, b) = forwardOf (oldA, oldB) ↔
    (a ≠ oldA ∧ b = oldB ∧ a ≠ b) ∨ (a = oldA ∧ b ≠ oldB ∧ a = b) := by decide

theorem backward_iff : ∀ a b oldA oldB : Bool, (oldA, oldB) = forwardOf (a, b) ↔
    (a ≠ oldA ∧ b = oldB ∧ a = b) ∨ (a = oldA ∧ b ≠ oldB ∧ a ≠ b) := by decide

theorem sample_eq (e : Encoder) (a b : Bool) : e.sample a b =
    if (a, b) = (e.phaseA, e.phaseB) then { e with phaseA := a, phaseB := b }
    else if (a, b) = forwardOf (e.phaseA, e.phaseB) then { e with phaseA := a, phaseB := b, count := e.count + 1 }
    else if (e.phaseA, e.phaseB) = forwardOf (a, b) then { e with phaseA := a, phaseB := b, count := e.count - 1 }
    else { e with phaseA := a, phaseB := b, illegal := true } := rfl

theorem sample_phases (e : Encoder) (a b : Bool) : (e.sample a b).phaseA = a ∧ (e.sample a b).phaseB = b := by
  rw [sample_eq]
  split_ifs
  all_goals exact ⟨rfl, rfl⟩

theorem sample_still {e : Encoder} {a b : Bool} (hA : a = e.phaseA) (hB : b = e.phaseB) :
    e.sample a b = { e with phaseA := a, phaseB := b } := by
  rw [sample_eq, if_pos (Prod.ext hA hB)]

theorem sample_illegal {e : Encoder} {a b : Bool} (hA : a ≠ e.phaseA) (hB : b ≠ e.phaseB) :
    e.sample a b = { e with phaseA := a, phaseB := b, illegal := true } := by
  rw [sample_eq, if_neg (fun h => hA (congrArg Prod.fst h)), if_neg, if_neg]
  · rw [backward_iff]
    rintro (⟨-, hB', -⟩ | ⟨hA', -⟩)
    · exact hB hB'
    · exact hA hA'
  · rw [forwardOf_iff]
    rintro (⟨-, hB', -⟩ | ⟨hA', -⟩)
    · exact hB hB'
    · exact hA hA'

/-- A sample with one phase changed counts by the order in which the phases lead (R8). -/
theorem sample_moved {e : Encoder} {a b : Bool} {forward : Prop} [Decidable forward]
    (changed : (a, b) ≠ (e.phaseA, e.phaseB)) (up : (a, b) = forwardOf (e.phaseA, e.phaseB) ↔ forward)
    (down : (e.phaseA, e.phaseB) = forwardOf (a, b) ↔ ¬ forward) : e.sample a b =
      { e with phaseA := a, phaseB := b, count := if forward then e.count + 1 else e.count - 1 } := by
  rw [sample_eq, if_neg changed]
  by_cases h : forward
  · rw [if_pos (up.mpr h), if_pos h]
  · rw [if_neg (mt up.mp h), if_pos (down.mpr h), if_neg h]

theorem sample_movedA {e : Encoder} {a b : Bool} (hA : a ≠ e.phaseA) (hB : b = e.phaseB) : e.sample a b =
    { e with phaseA := a, phaseB := b, count := if a ≠ b then e.count + 1 else e.count - 1 } := by
  refine sample_moved (fun h => hA (congrArg Prod.fst h)) ?_ ?_
  · rw [forwardOf_iff]
    simp [hA, hB]
  · rw [backward_iff]
    simp [hA, hB]

theorem sample_movedB {e : Encoder} {a b : Bool} (hA : a = e.phaseA) (hB : b ≠ e.phaseB) : e.sample a b =
    { e with phaseA := a, phaseB := b, count := if a = b then e.count + 1 else e.count - 1 } := by
  refine sample_moved (fun h => hB (congrArg Prod.snd h)) ?_ ?_
  · rw [forwardOf_iff]
    simp [hA, hB]
  · rw [backward_iff]
    simp [hA, hB]

/-! ### One capture -/

theorem reverse_of_encoding {cfg : ChannelConfig} (h : cfg.direction.toNat ≤ 1) :
    cfg.reverse = decide (cfg.direction = 1) := by
  unfold ChannelConfig.reverse
  split_ifs with zero one
  · rw [zero]
    rfl
  · rw [one]
    rfl
  · have zero' : cfg.direction.toNat ≠ 0 := fun e => zero (BitVec.eq_of_toNat_eq e)
    have one' : cfg.direction.toNat ≠ 1 := fun e => one (BitVec.eq_of_toNat_eq e)
    omega

theorem delta_of_encoding {ch : Channel} (raw : Word) (h : ch.cfg.direction.toNat ≤ 1) : ch.delta raw =
    if ch.cfg.direction = 1 then -(raw - ch.latched).toInt else (raw - ch.latched).toInt := by
  unfold Channel.delta
  simp only [reverse_of_encoding h, decide_eq_true_eq]

theorem takeCapture_off {p : CapturePeriod} {ch : Channel} (number raw : Word) (illegal : Bool) (h : ch.state = .off) :
    ch.takeCapture p number raw illegal = { entry := ch } := if_pos h

theorem takeCapture_seed {p : CapturePeriod} {ch : Channel} (number raw : Word) (illegal : Bool) (h : ch.state ≠ .off)
    (seed : ch.seedPending = true) : ch.takeCapture p number raw illegal =
      { entry := { ch with latched := raw, seedPending := false, lastCapture := number } } := by
  rw [Channel.takeCapture, if_neg h, if_pos seed]

theorem takeCapture_suspect {p : CapturePeriod} {ch : Channel} (number : Word) {raw : Word} {illegal : Bool}
    (h : ch.state ≠ .off) (seeded : ch.seedPending = false)
    (suspect : 32767 < (ch.delta raw).natAbs ∨ illegal = true) :
    ch.takeCapture p number raw illegal = ch.takeSuspect number raw := by
  rw [Channel.takeCapture, if_neg h, if_neg (by rw [seeded]; exact nofun), if_pos (by simpa using suspect)]

theorem takeCapture_good {p : CapturePeriod} {ch : Channel} (number : Word) {raw : Word} {illegal : Bool}
    (h : ch.state ≠ .off) (seeded : ch.seedPending = false)
    (good : ¬ (32767 < (ch.delta raw).natAbs ∨ illegal = true)) :
    ch.takeCapture p number raw illegal = ch.takeGood p number raw (ch.delta raw) := by
  rw [Channel.takeCapture, if_neg h, if_neg (by rw [seeded]; exact nofun), if_neg (by simpa using good)]

end Sys2Proof.Machine

open Sys2Proof Sys2Proof.Machine

/-- Settles O49: an encoder held in reset follows its phases, and otherwise samples by which of them changed. -/
theorem quadratureEdgesCount : Obligations.QuadratureEdgesCount := by
  intro c a b s
  refine ⟨if s.resetHeld then s.encoders[c].follow a b else s.encoders[c].sample a b, rfl, ?_⟩
  cases s.resetHeld with
  | true => exact ⟨rfl, rfl, fun _ => ⟨rfl, rfl⟩, nofun⟩
  | false =>
    obtain ⟨phaseA, phaseB⟩ := sample_phases s.encoders[c] a b
    refine ⟨phaseA, phaseB, nofun, fun _ => ⟨fun hA hB => ?_, fun hA hB => ?_, fun hA hB => ?_, fun hA hB => ?_⟩⟩
    · rw [if_neg Bool.false_ne_true, sample_still hA hB]
      exact ⟨rfl, rfl⟩
    · rw [if_neg Bool.false_ne_true, sample_illegal hA hB]
      exact ⟨rfl, rfl⟩
    · rw [if_neg Bool.false_ne_true, sample_movedA hA hB]
      exact ⟨rfl, rfl⟩
    · rw [if_neg Bool.false_ne_true, sample_movedB hA hB]
      exact ⟨rfl, rfl⟩

/-- Settles O51: the four ways of a capture, by the state, the seed and the count delta of the channel. -/
theorem capturesAreSeedSuspectOrGood : Obligations.CapturesAreSeedSuspectOrGood := by
  intro p ch number raw illegal st d suspect
  have delta (h : ch.cfg.direction.toNat ≤ 1) : ch.delta raw = d := delta_of_encoding raw h
  refine ⟨takeCapture_off number raw illegal, takeCapture_seed number raw illegal, fun on seeded sense found => ?_,
    fun on seeded sense good => ?_⟩
  · intro run
    have taken : st = ch.takeSuspect number raw :=
      takeCapture_suspect number on seeded (by rw [delta sense]; exact found)
    have count : min (ch.suspectRun + 1) 4 = run := by
      simp only [run]
      split_ifs <;> omega
    rw [taken, Channel.takeSuspect, count]
    refine ⟨rfl, rfl, ?_, fun found => ?_, ?_, ?_⟩
    · cases ch.state <;> rfl
    · show ch.goodRunAfterSuspect (ch.state.afterSuspect run) = 0
      cases h : ch.state with
      | waiting =>
        rw [ChannelState.afterSuspect]
        split_ifs
        all_goals rfl
      | lost reason => rfl
      | off => exact absurd h on
      | running | stale =>
        rw [h] at found
        exact absurd found (by decide)
    · intro stale
      show ch.goodRunAfterSuspect (ch.state.afterSuspect run) = ch.goodRun
      rw [show ch.state.afterSuspect run = .stale from stale]
      rfl
    · show ((ch.state.afterSuspect run).isLost && !ch.state.isLost) = true ↔ _
      cases h : ch.state with
      | off => exact absurd h on
      | lost reason => simp [ChannelState.isLost]
      | running | stale | waiting =>
        rw [ChannelState.afterSuspect]
        split_ifs with full
        · simp [ChannelState.isLost, full]
        · simp [ChannelState.isLost, full]
  · intro u v still
    have taken : st = ch.takeGood p number raw d := by
      rw [← delta sense]
      exact takeCapture_good number on seeded (by rw [delta sense]; exact good)
    rw [taken]
    refine ⟨rfl, rfl, decide_eq_true_iff, ?_, fun moves => ?_, fun stands short => ?_, fun stands long => ?_⟩
    · rw [Channel.takeGood]
      cases ch.state <;> rfl
    · exact ⟨if_neg moves, if_neg moves⟩
    · have run : (ch.takeGood p number raw d).entry.standstillRun = ch.standstillRun + 1 :=
        (if_pos stands).trans (by omega)
      refine ⟨run, (if_pos stands).trans ?_⟩
      have below : ((ch.takeGood p number raw d).entry.standstillRun == 16) = false := by
        rw [run]
        exact beq_false_of_ne (by omega)
      exact (congrArg (ch.standstill || ·) below).trans (Bool.or_false _)
    · have run : (ch.takeGood p number raw d).entry.standstillRun = 16 := (if_pos stands).trans (by omega)
      refine ⟨run, (if_pos stands).trans ?_⟩
      have full : ((ch.takeGood p number raw d).entry.standstillRun == 16) = true := by rw [run]; rfl
      exact (congrArg (ch.standstill || ·) full).trans (Bool.or_true _)
end

