-- ==== Sys2Proof/Proofs/CaptureSets.lean ====
section
/-! SUPPORT. A capture set applied to the channels, of which it may take several to LOST, and STOP. -/

namespace Sys2Proof.Machine

/-! ### The steps of a set -/

/-- A capture finds and leaves the coupled indication and the post as they are, and disregards them. -/
theorem takeCapture_withPost (p : CapturePeriod) (ch : Channel) (number raw : Word) (illegal coupled : Bool)
    (posted : Int) : ({ ch with coupled := coupled, posted := posted } : Channel).takeCapture p number raw illegal =
      { ch.takeCapture p number raw illegal with
        entry := { (ch.takeCapture p number raw illegal).entry with coupled := coupled, posted := posted } } := by
  by_cases off : ch.state = .off
  · rw [takeCapture_off _ _ _ off, takeCapture_off _ _ _ (by exact off)]
  by_cases seed : ch.seedPending = true
  · rw [takeCapture_seed _ _ _ off seed, takeCapture_seed _ _ _ (by exact off) (by exact seed)]
  have seeded := Bool.eq_false_iff.mpr seed
  by_cases suspect : 32767 < (ch.delta raw).natAbs ∨ illegal = true
  · rw [takeCapture_suspect number off seeded suspect,
      takeCapture_suspect number (by exact off) (by exact seeded) (by exact suspect)]
    rfl
  · rw [takeCapture_good number off seeded suspect,
      takeCapture_good number (by exact off) (by exact seeded) (by exact suspect)]
    rfl

theorem takeCapture_kept (p : CapturePeriod) (ch : Channel) (number raw : Word) (illegal : Bool) :
    (ch.takeCapture p number raw illegal).entry.coupled = ch.coupled ∧
      (ch.takeCapture p number raw illegal).entry.posted = ch.posted ∧
        (ch.takeCapture p number raw illegal).driveLimit = false := by
  unfold Channel.takeCapture
  split_ifs
  all_goals exact ⟨rfl, rfl, rfl⟩

/-- A capture reports no DRIVE_LIMIT. -/
theorem takeCapture_reports (p : CapturePeriod) (ch : Channel) (number raw : Word) (illegal : Bool) (c : ChannelNo)
    (fl : Flag) : (ch.takeCapture p number raw illegal).Reports c fl ↔
      (fl = .capture c ∧ (ch.takeCapture p number raw illegal).suspect = true) ∨
        (fl = .overspeed c ∧ (ch.takeCapture p number raw illegal).overspeed = true) := by
  obtain ⟨-, -, limit⟩ := takeCapture_kept p ch number raw illegal
  rw [ChannelStep.Reports, limit]
  simp

/-! ### A set that takes channels to LOST -/

/-- A record cut by a lost channel is no longer active, and names what it named. -/
theorem CutAt.inactive {s t : State} {i : SlotNo} {r : Record} (h : s.CutAt t i .channelLost .idle)
    (hr : s.slots[i] = some r) : ∃ q, t.slots[i] = some q ∧ q.state.isActive = false ∧ q.cfg = r.cfg := by
  obtain ⟨q, hq⟩ : ∃ q, t.slots[i] = some q := by
    obtain ⟨rests, breaks, ramps, -⟩ := h.2 r hr
    cases state : r.state with
    | idle | broken _ => exact ⟨_, (rests (by rw [state]; rfl)).1⟩
    | forming | held | slipping => exact ⟨_, (breaks (by simp [state])).1⟩
    | releasing ramp => exact ⟨_, (ramps ramp state).1⟩
  obtain ⟨inactive, r', hr', cfg, -⟩ := CutAt.record h rfl hq
  rw [hr] at hr'
  cases hr'
  exact ⟨q, hq, inactive, cfg⟩

theorem breaks_isActive {st : RecordState} {reason : BreakReason} (h : st.Breaks reason) : st.isActive = true := by
  obtain rfl | rfl | rfl | ⟨-, ramp, rfl⟩ := h
  all_goals rfl

/-- What a channel event that lost its channel did to a record that was active no longer, or did not name it: nothing. -/
theorem lostAt_slot_same {s t : State} {c : ChannelNo} {entry : Channel} {also : Flag → Prop} {i : SlotNo}
    (h : s.LostAt t c entry also) (safe : ∀ r, s.slots[i] = some r → r.names c = true → r.state.isActive = false) :
    t.slots[i] = s.slots[i] ∧ t.completions[i] = s.completions[i] := by
  obtain ⟨-, -, -, -, -, cut, rest⟩ := h
  by_cases named : ∃ r, s.slots[i] = some r ∧ r.names c = true
  · obtain ⟨r, hr, names⟩ := named
    rw [hr]
    exact ((cut i r hr names).2 r hr).1 (safe r hr names)
  · exact rest i (by simpa using named)

/-- The channel is among those of a list that the set takes to LOST. -/
def State.Loses (s : State) (set : CaptureSet) (l : List ChannelNo) (c : ChannelNo) : Prop :=
  c ∈ l ∧ (s.captureStep set c).lost = true

/-- What applying a set to the channels of a list leaves (R10 to R21, R79). -/
structure State.Captured (s t : State) (set : CaptureSet) (l : List ChannelNo) : Prop where
  agree : t.CoupledAgree
  frame : t = { s with
    channels := t.channels, slots := t.slots, completions := t.completions, faults := t.faults
    link := { s.link with slots := t.link.slots } }
  taken : ∀ c ∈ l, t.channels[c] = { (s.captureStep set c).entry with
    coupled := t.channels[c].coupled
    posted := if (s.captureStep set c).lost = true then 0 else s.channels[c].posted }
  untaken : ∀ c ∉ l, t.channels[c] = { s.channels[c] with coupled := t.channels[c].coupled }
  posts : ∀ c ∈ l, t.link.slots[c] = if (s.captureStep set c).lost = true then 0 else s.link.slots[c]
  unposted : ∀ c ∉ l, t.link.slots[c] = s.link.slots[c]
  cut : ∀ (i : SlotNo) (r : Record) (c : ChannelNo), s.slots[i] = some r → r.names c = true → s.Loses set l c →
    s.CutAt t i .channelLost .idle
  uncut : ∀ i : SlotNo, (∀ r c, s.slots[i] = some r → r.names c = true → ¬ s.Loses set l c) →
    t.slots[i] = s.slots[i] ∧ t.completions[i] = s.completions[i]
  raised : s.faults.Raised t.faults fun fl =>
    (∃ c ∈ l, (s.captureStep set c).Reports c fl ∨ (fl = .lost c ∧ (s.captureStep set c).lost = true)) ∨
    ∃ (i : SlotNo) (r : Record) (c : ChannelNo), fl = .broke i ∧ s.slots[i] = some r ∧ r.names c = true ∧
      s.Loses set l c ∧ r.state.Breaks .channelLost

theorem captured_nil {s : State} (set : CaptureSet) (agree : s.CoupledAgree) : s.Captured s set [] where
  agree := agree
  frame := rfl
  taken := nofun
  untaken := fun _ _ => rfl
  posts := nofun
  unposted := fun _ _ => rfl
  cut := fun _ _ _ _ _ loses => absurd loses.1 List.not_mem_nil
  uncut := fun _ _ => ⟨rfl, rfl⟩
  raised := Raised.congr (Raised.refl s.faults) fun fl => by simp [State.Loses]

theorem loses_append (s : State) (set : CaptureSet) (l : List ChannelNo) (c d : ChannelNo) :
    s.Loses set (l ++ [c]) d ↔ s.Loses set l d ∨ (d = c ∧ (s.captureStep set c).lost = true) := by
  unfold State.Loses
  rw [List.mem_append, List.mem_singleton, or_and_right]
  refine or_congr_right (and_congr_right ?_)
  rintro rfl
  rfl

/-- The step of a channel whose turn is still to come is as in the beginning, but for the coupled indication. -/
theorem State.Captured.step {s t : State} {set : CaptureSet} {l : List ChannelNo} (h : s.Captured t set l) {c : ChannelNo}
    (fresh : c ∉ l) : t.captureStep set c = { s.captureStep set c with
      entry := { (s.captureStep set c).entry with
        coupled := t.channels[c].coupled, posted := s.channels[c].posted } } := by
  unfold State.captureStep
  rw [h.untaken c fresh, show t.engine = s.engine by rw [h.frame]]
  exact takeCapture_withPost s.engine.period s.channels[c] set.number set.counts[c] set.illegal[c]
    t.channels[c].coupled s.channels[c].posted

/-- A record that the set has cut is not active. -/
theorem State.Captured.cut_inactive {s t : State} {set : CaptureSet} {l : List ChannelNo} (h : s.Captured t set l)
    {i : SlotNo} {r q : Record} {c : ChannelNo} (hr : s.slots[i] = some r) (names : r.names c = true)
    (loses : s.Loses set l c) (hq : t.slots[i] = some q) : q.state.isActive = false := by
  obtain ⟨q', hq', inactive, -⟩ := CutAt.inactive (h.cut i r c hr names loses) hr
  rw [hq] at hq'
  cases hq'
  exact inactive

/-- A step that loses no channel changes its own entry and flags. -/
theorem State.Captured.quiet {s t u : State} {set : CaptureSet} {l : List ChannelNo} (h : s.Captured t set l) {c : ChannelNo}
    (fresh : c ∉ l) (keeps : (s.captureStep set c).lost = false)
    (eq : u = { t with channels := t.channels.set c (t.captureStep set c).entry, faults := u.faults })
    (raised : t.faults.Raised u.faults ((t.captureStep set c).Reports c)) : s.Captured u set (l ++ [c]) := by
  have step := h.step fresh
  have slots : u.slots = t.slots := by rw [eq]
  have entries : u.completions = t.completions := by rw [eq]
  have posts : u.link = t.link := by rw [eq]
  have own : u.channels[c] = { (s.captureStep set c).entry with
      coupled := t.channels[c].coupled, posted := s.channels[c].posted } := by
    rw [eq, channels_get_set, if_pos rfl, step]
  have other (d : ChannelNo) (ne : d ≠ c) : u.channels[d] = t.channels[d] := by
    rw [eq, channels_get_set, if_neg ne]
  have loses_iff (d : ChannelNo) : s.Loses set (l ++ [c]) d ↔ s.Loses set l d := by
    rw [loses_append, keeps]
    simp
  refine ⟨fun d => ?_, ?_, fun d mem => ?_, fun d out => ?_, fun d mem => ?_, fun d out => ?_,
    fun i r d hr names loses => ?_, fun i safe => ?_, Raised.congr (Raised.trans h.raised raised) fun fl => ?_⟩
  · rw [coupledNow_congr slots, ← h.agree d]
    by_cases e : d = c
    · rw [e, own]
    · rw [other d e]
  · rw [eq, h.frame]
  · obtain mem | mem := List.mem_append.mp mem
    · have ne : d ≠ c := fun e => fresh (e ▸ mem)
      rw [other d ne]
      exact h.taken d mem
    · rw [List.mem_singleton.mp mem, own, keeps]
      rfl
  · rw [List.mem_append, List.mem_singleton, not_or] at out
    rw [other d out.2]
    exact h.untaken d out.1
  · rw [posts]
    obtain mem | mem := List.mem_append.mp mem
    · exact h.posts d mem
    · rw [List.mem_singleton.mp mem, keeps]
      exact h.unposted c fresh
  · rw [posts]
    exact h.unposted d fun mem => out (List.mem_append_left _ mem)
  · exact CutAt.weaken (h.cut i r d hr names ((loses_iff d).mp loses)) rfl rfl rfl (by rw [slots]) (by rw [entries])
      fun fl set => (raised.1 fl).mpr (.inl set)
  · rw [slots, entries]
    exact h.uncut i fun r d hr names loses => safe r d hr names ((loses_iff d).mpr loses)
  · have reports : (t.captureStep set c).Reports c fl ↔ (s.captureStep set c).Reports c fl := by
      rw [step]
      exact Iff.rfl
    simp only [loses_iff, List.mem_append, List.mem_singleton, or_and_right, exists_or, exists_eq_left, keeps, reports,
      Bool.false_eq_true, and_false, or_false]
    exact or_right_comm

/-- A step that loses its channel cuts the records that name it and are active still. -/
theorem State.Captured.loses {s t u : State} {set : CaptureSet} {l : List ChannelNo} (h : s.Captured t set l) {c : ChannelNo}
    (fresh : c ∉ l) (falls : (s.captureStep set c).lost = true)
    (lost : t.LostAt u c (t.captureStep set c).entry ((t.captureStep set c).Reports c))
    (eq : u = { t with
      channels := u.channels, slots := u.slots, completions := u.completions, faults := u.faults
      link := { t.link with slots := u.link.slots } }) : s.Captured u set (l ++ [c]) := by
  have step := h.step fresh
  have slot_same {i : SlotNo} (safe : ∀ r, t.slots[i] = some r → r.names c = true → r.state.isActive = false) :=
    lostAt_slot_same lost safe
  obtain ⟨agree, posts, raised, own, other, cut, -⟩ := lost
  have kept {fl : Flag} (set : t.faults.isSet fl = true) : u.faults.isSet fl = true := (raised.1 fl).mpr (.inl set)
  rw [step] at own
  -- a slot that an earlier channel of the set has cut stays as that left it
  have cut_before {i : SlotNo} {r : Record} {d : ChannelNo} (hr : s.slots[i] = some r) (names : r.names d = true)
      (loses : s.Loses set l d) : u.slots[i] = t.slots[i] ∧ u.completions[i] = t.completions[i] :=
    slot_same fun q hq _ => h.cut_inactive hr names loses hq
  refine ⟨agree, ?_, fun d mem => ?_, fun d out => ?_, fun d mem => ?_, fun d out => ?_,
    fun i r d hr names loses => ?_, fun i safe => ?_, Raised.congr (Raised.trans h.raised raised) fun fl => ?_⟩
  · rw [eq, h.frame]
  · obtain mem | mem := List.mem_append.mp mem
    · have ne : d ≠ c := fun e => fresh (e ▸ mem)
      rw [other d ne, h.taken d mem]
    · rw [List.mem_singleton.mp mem, own, falls]
      rfl
  · rw [List.mem_append, List.mem_singleton, not_or] at out
    rw [other d out.2, h.untaken d out.1]
  · rw [posts, posts_get_set]
    obtain mem | mem := List.mem_append.mp mem
    · have ne : d ≠ c := fun e => fresh (e ▸ mem)
      rw [if_neg ne]
      exact h.posts d mem
    · rw [if_pos (List.mem_singleton.mp mem), List.mem_singleton.mp mem, falls]
      rfl
  · rw [List.mem_append, List.mem_singleton, not_or] at out
    rw [posts, posts_get_set, if_neg out.2]
    exact h.unposted d out.1
  · by_cases before : ∃ e, r.names e = true ∧ s.Loses set l e
    · obtain ⟨e, names', loses'⟩ := before
      obtain ⟨slots, entries⟩ := cut_before hr names' loses'
      exact CutAt.weaken (h.cut i r e hr names' loses') rfl rfl rfl slots entries fun fl => kept
    · have untouched := h.uncut i fun r' e hr' names' loses' => by
        rw [hr] at hr'
        cases hr'
        exact before ⟨e, names', loses'⟩
      obtain rfl : d = c := by
        obtain loses | ⟨e, -⟩ := (loses_append s set l c d).mp loses
        · exact absurd ⟨d, names, loses⟩ before
        · exact e
      exact CutAt.weaken (cut i r (untouched.1.trans hr) names) untouched.1.symm untouched.2.symm
        (by rw [h.frame]) rfl rfl fun _ set => set
  · obtain ⟨slots, entries⟩ := h.uncut i fun r d hr names loses =>
      safe r d hr names ((loses_append s set l c d).mpr (.inl loses))
    obtain ⟨slots', entries'⟩ := slot_same (i := i) fun r hr names =>
      absurd ((loses_append s set l c c).mpr (.inr ⟨rfl, falls⟩)) (safe r c (slots ▸ hr) names)
    exact ⟨slots'.trans slots, entries'.trans entries⟩
  · have reports : (t.captureStep set c).Reports c fl ↔ (s.captureStep set c).Reports c fl := by
      rw [step]
      exact Iff.rfl
    constructor
    · rintro ((⟨d, mem, flag⟩ | ⟨i, r, d, rfl, hr, names, loses, breaks⟩) | flag | rfl | ⟨i, q, rfl, hq, names, breaks⟩)
      · exact .inl ⟨d, List.mem_append_left _ mem, flag⟩
      · exact .inr ⟨i, r, d, rfl, hr, names, (loses_append s set l c d).mpr (.inl loses), breaks⟩
      · exact .inl ⟨c, List.mem_append_right _ (List.mem_singleton_self c), .inl (reports.mp flag)⟩
      · exact .inl ⟨c, List.mem_append_right _ (List.mem_singleton_self c), .inr ⟨rfl, falls⟩⟩
      · have hr := (h.uncut i fun r d hr names loses => by
          have rests := h.cut_inactive hr names loses hq
          rw [breaks_isActive breaks] at rests
          cases rests).1
        exact .inr ⟨i, q, c, rfl, hr ▸ hq, names, (loses_append s set l c c).mpr (.inr ⟨rfl, falls⟩), breaks⟩
    · rintro (⟨d, mem, flag⟩ | ⟨i, r, d, rfl, hr, names, loses, breaks⟩)
      · obtain mem | mem := List.mem_append.mp mem
        · exact .inl (.inl ⟨d, mem, flag⟩)
        · rw [List.mem_singleton.mp mem] at flag
          exact .inr (flag.elim (fun flag => .inl (reports.mpr flag)) fun flag => .inr (.inl flag.1))
      · by_cases before : ∃ e, r.names e = true ∧ s.Loses set l e
        · obtain ⟨e, names', loses'⟩ := before
          exact .inl (.inr ⟨i, r, e, rfl, hr, names', loses', breaks⟩)
        · have untouched := h.uncut i fun r' e hr' names' loses' => by
            rw [hr] at hr'
            cases hr'
            exact before ⟨e, names', loses'⟩
          obtain loses | ⟨rfl, -⟩ := (loses_append s set l c d).mp loses
          · exact absurd ⟨d, names, loses⟩ before
          · exact .inr (.inr (.inr ⟨i, r, rfl, untouched.1.trans hr, names, breaks⟩))

/-- A set applied to channels of which none comes twice. -/
theorem captured_steps (s : State) (set : CaptureSet) (agree : s.CoupledAgree) (l : List ChannelNo) (nodup : l.Nodup) :
    s.Captured (l.foldl (fun t c => t.takeChannelStep c (t.captureStep set c)) s) set l := by
  induction l using List.reverseRecOn with
  | nil => exact captured_nil set agree
  | append_singleton l c ih =>
    rw [← List.concat_eq_append, List.nodup_concat] at nodup
    have before := ih nodup.2
    rw [List.foldl_append, List.foldl_cons, List.foldl_nil]
    generalize l.foldl (fun t c => t.takeChannelStep c (t.captureStep set c)) s = t at before ⊢
    obtain ⟨quiet, loses⟩ := takeChannelStep_spec t c (t.captureStep set c)
    have same : (t.captureStep set c).lost = (s.captureStep set c).lost := by rw [before.step nodup.1]
    cases falls : (s.captureStep set c).lost with
    | false =>
      obtain ⟨eq, raised⟩ := quiet (same.trans falls)
      exact before.quiet nodup.1 falls eq raised
    | true =>
      obtain ⟨lost, eq⟩ := loses (same.trans falls)
      exact before.loses nodup.1 falls lost eq

/-! ### The expiry of the capture timer -/

/-- The state in which a set is applied: the counters latched, and the port receiving (R9, R10, R155). -/
def State.atCapture (s : State) : State := s.recovered.latched

theorem exec_capture_running {s : State} {p : CapturePeriod} (h : s.captureTimer = .running p) :
    exec .capture s = .next (s.atCapture.raise (.captureSet s.latchSet)) := by
  refine congrArg Host.Outcome.next (if_neg ?_)
  rw [h]
  exact nofun

/-- What the set of an expiry does to a channel. -/
def State.capturing (s : State) (c : ChannelNo) : ChannelStep :=
  s.channels[c].takeCapture s.engine.period (s.captureNumber + 1) s.encoders[c].count s.encoders[c].illegal

theorem atCapture_step (s : State) (c : ChannelNo) : s.atCapture.captureStep s.latchSet c = s.capturing c := by
  unfold State.captureStep State.capturing
  have count : s.latchSet.counts[c] = s.encoders[c].count := by simp [State.latchSet]
  have illegal : s.latchSet.illegal[c] = s.encoders[c].illegal := by simp [State.latchSet]
  rw [count, illegal]
  rfl

theorem captureSetLoses_iff (s : State) (set : CaptureSet) :
    s.captureSetLoses set = true ↔ ∃ c, (s.captureStep set c).lost = true := by
  rw [State.captureSetLoses, finRange_any]

theorem behindCaptureSet_iff (s : State) (set : CaptureSet) :
    s.behindCaptureSet (.captureSet set) = true ↔ ∃ waiting, TableEvent.captureSet waiting ∈ s.arbiter.deferred := by
  rw [State.behindCaptureSet, List.any_eq_true]
  constructor
  · rintro ⟨e, mem, is⟩
    cases e with
    | captureSet waiting => exact ⟨waiting, mem⟩
    | _ => cases is
  · rintro ⟨waiting, mem⟩
    exact ⟨_, mem, rfl⟩

theorem channelsHeld_inService {s : State} (h : s.channelsHeld = true) : s.arbiter.inService.isSome = true := by
  obtain ⟨a, ha, -⟩ := (channelsHeld_iff s).mp h
  rw [ha]
  rfl

theorem raise_taken {s : State} {e : TableEvent} (h : s.mustWait e = false) : s.raise e = s.takeEvent e := by
  rw [State.raise, if_neg (by rw [h]; exact nofun)]

theorem raise_waits {s : State} {e : TableEvent} (h : s.mustWait e = true) :
    s.raise e = { s with arbiter := s.arbiter.deferring e } := if_pos h

theorem mustWait_captureSet (s : State) (set : CaptureSet) : s.mustWait (.captureSet set) =
    (s.behindCaptureSet (.captureSet set) ||
      if !s.captureSetLoses set then s.channelsHeld else s.arbiter.inService.isSome) := rfl

/-- The set applied, and its computation requested. -/
theorem takeEvent_captureSet (s : State) (set : CaptureSet) : s.takeEvent (.captureSet set) =
    { s.stepsOf set with arbiter := (s.stepsOf set).arbiter.asked (.computation set.number) } := by
  rw [State.takeEvent, takeCaptureSet_eq, request_asked]

/-- A set that takes no channel to LOST changes the entries and the flags. -/
theorem stepsOf_quiet {s : State} {set : CaptureSet} (h : ∀ c, (s.captureStep set c).lost = false) :
    s.stepsOf set = { s with channels := (s.stepsOf set).channels, faults := (s.stepsOf set).faults } ∧
      (s.stepsOf set).channels = (Vector.ofFn fun c => (s.captureStep set c).entry) ∧
      s.faults.Raised (s.stepsOf set).faults fun fl => ∃ c, (s.captureStep set c).Reports c fl := by
  obtain ⟨eq, own, -, raised⟩ := captureSteps_quiet set (List.finRange 8) (List.nodup_finRange 8) s fun c _ => h c
  refine ⟨eq, Vector.ext fun n hn => ?_, Raised.congr raised fun fl => by simp⟩
  rw [Vector.getElem_ofFn]
  exact own ⟨n, hn⟩ (List.mem_finRange _)

end Sys2Proof.Machine

open Sys2Proof Sys2Proof.Machine

/-- Settles O50: the set is applied channel by channel, which is followed by induction over the channels, or waits. -/
theorem captureAppliesItsSet : Obligations.CaptureAppliesItsSet := by
  intro s
  refine ⟨fun stopped => congrArg Host.Outcome.next (if_pos stopped), ?_⟩
  intro taken latched waits behind p running
  have behind_iff := behindCaptureSet_iff s.atCapture s.latchSet
  have unbehind (h : ¬ behind) : s.atCapture.behindCaptureSet (.captureSet s.latchSet) = false :=
    Bool.eq_false_iff.mpr (mt behind_iff.mp h)
  have loses_iff : s.atCapture.captureSetLoses s.latchSet = true ↔ ∃ c, (taken c).lost = true := by
    rw [captureSetLoses_iff]
    exact exists_congr fun c => by rw [atCapture_step]; rfl
  refine ⟨fun first free keeps => ?_, fun first free agree => ?_, fun held => ?_⟩
  · have now : s.atCapture.mustWait (.captureSet s.latchSet) = false := by
      have quiet : s.atCapture.captureSetLoses s.latchSet = false := by
        rw [Bool.eq_false_iff, ne_eq, loses_iff]
        rintro ⟨c, falls⟩
        rw [keeps c] at falls
        cases falls
      rw [mustWait_captureSet, unbehind first, quiet]
      exact free
    obtain ⟨eq, own, raised⟩ := stepsOf_quiet (s := s.atCapture) (set := s.latchSet)
      fun c => by rw [atCapture_step]; exact keeps c
    simp only [atCapture_step] at own raised
    rw [exec_capture_running running, raise_taken now, takeEvent_captureSet]
    generalize s.atCapture.stepsOf s.latchSet = t at eq own raised ⊢
    have raised' : s.faults.Raised t.faults fun fl => ∃ c : ChannelNo,
        (fl = .capture c ∧ (taken c).suspect = true) ∨ (fl = .overspeed c ∧ (taken c).overspeed = true) :=
      Raised.congr raised fun fl => exists_congr fun c => takeCapture_reports _ _ _ _ _ c fl
    have flag (fl : Flag) := raised'.1 fl
    refine ⟨t.faults, ?_, fun c => ?_, fun c => ?_, fun fl capture overspeed => ?_, raised'⟩
    · rw [eq, own]
      rfl
    · rw [Bool.eq_iff_iff, Bool.or_eq_true]
      refine (flag (.capture c)).trans (or_congr_right ⟨?_, fun suspect => ⟨c, .inl ⟨rfl, suspect⟩⟩⟩)
      rintro ⟨d, ⟨e, suspect⟩ | ⟨e, -⟩⟩
      · cases e
        exact suspect
      · cases e
    · rw [Bool.eq_iff_iff, Bool.or_eq_true]
      refine (flag (.overspeed c)).trans (or_congr_right ⟨?_, fun fast => ⟨c, .inr ⟨rfl, fast⟩⟩⟩)
      rintro ⟨d, ⟨e, -⟩ | ⟨e, fast⟩⟩
      · cases e
      · cases e
        exact fast
    · rw [Bool.eq_iff_iff]
      refine (flag fl).trans (or_iff_left ?_)
      rintro ⟨d, ⟨e, -⟩ | ⟨e, -⟩⟩
      · exact capture d e
      · exact overspeed d e
  · have now : s.atCapture.mustWait (.captureSet s.latchSet) = false := by
      have idle : s.atCapture.arbiter.inService = none := free
      rw [mustWait_captureSet, unbehind first, idle, State.channelsHeld, idle]
      cases s.atCapture.captureSetLoses s.latchSet <;> rfl
    have captured : s.atCapture.Captured (s.atCapture.stepsOf s.latchSet) s.latchSet (List.finRange 8) :=
      captured_steps s.atCapture s.latchSet agree (List.finRange 8) (List.nodup_finRange 8)
    rw [exec_capture_running running, raise_taken now, takeEvent_captureSet]
    generalize s.atCapture.stepsOf s.latchSet = t at captured
    have loses (c : ChannelNo) : s.atCapture.Loses s.latchSet (List.finRange 8) c ↔ (taken c).lost = true := by
      rw [State.Loses, atCapture_step]
      exact and_iff_right (List.mem_finRange c)
    refine ⟨t, ?_, captured.agree, fun c => ⟨?_, ?_⟩, fun i r c hr names falls =>
      captured.cut i r c hr names ((loses c).mpr falls), fun i safe => captured.uncut i fun r c hr names falls => ?_,
      Raised.congr captured.raised fun fl => ?_⟩
    · conv_lhs => rw [captured.frame]
      rfl
    · have own := captured.taken c (List.mem_finRange c)
      rwa [atCapture_step] at own
    · have own := captured.posts c (List.mem_finRange c)
      rwa [atCapture_step] at own
    · have falls' := (loses c).mp falls
      rw [safe r c hr names] at falls'
      cases falls'
    · simp only [List.mem_finRange, true_and, loses, atCapture_step]
      refine or_congr_left (exists_congr fun c => ?_)
      exact (or_congr_left (takeCapture_reports _ _ _ _ _ c fl)).trans or_assoc
  · have later : s.atCapture.mustWait (.captureSet s.latchSet) = true := by
      rw [mustWait_captureSet, Bool.or_eq_true]
      obtain h | h | ⟨h, falls⟩ := held
      · exact .inl (behind_iff.mpr h)
      · right
        split_ifs
        · exact h
        · exact channelsHeld_inService h
      · right
        rw [loses_iff.mpr falls]
        exact h
    show exec .capture s = _
    rw [exec_capture_running running, raise_waits later]
    rfl

/-- Settles O52: the line follows the input, and the engine takes its change when the Coupling Table is free. -/
theorem stopEmptiesTheActiveStates : Obligations.StopEmptiesTheActiveStates := by
  intro s
  have asserted (low : s.stopLine = false) : exec .stopAsserted s =
      .next (if s.startup = .ready then ({ s with stopLine := true } : State).raise .stopAsserted
        else { s with stopLine := true }) :=
    congrArg Host.Outcome.next (if_neg (by rw [low]; exact nofun))
  have deasserted (high : s.stopLine = true) : exec .stopDeasserted s =
      .next (if s.startup = .ready then ({ s with stopLine := false } : State).raise .stopDeasserted
        else { s with stopLine := false }) :=
    congrArg Host.Outcome.next (if_pos high)
  refine ⟨fun low early => ?_, fun high early => ?_, fun high ready free => ?_, fun low ready free => ?_,
    fun ready busy => ⟨fun low => ?_, fun high => ?_⟩⟩
  · rw [asserted low, if_neg early]
  · rw [deasserted high, if_neg early]
  · rw [deasserted high, if_pos ready, raise_of_free _ _ (by exact free)]
    rfl
  · rw [asserted low, if_pos ready, raise_of_free _ _ (by exact free)]
    obtain ⟨only, raised, inactive, cut⟩ := takeStop_spec ({ s with stopLine := true } : State)
    refine ⟨({ s with stopLine := true } : State).takeStop, congrArg Host.Outcome.next only,
      (raised.1 .stop).mpr (.inr (.inl rfl)), inactive, cut, raised⟩
  · rw [asserted low, if_pos ready, raise_waits (by exact busy)]
  · rw [deasserted high, if_pos ready, raise_waits (by exact busy)]
end

