-- ==== Sys2Proof/Proofs/CheckScan.lean ====
section
/-! SUPPORT. The check scan: the item of a step, the test it consumes, and the mismatches it finds. -/

namespace Sys2Proof.Machine

/-! ### The step and its item -/

theorem exec_checkStep_alone {s : State} (h : s.arbiter = { inService := some .checkStep, waiting := [], deferred := [] }) :
    exec .checkStep s =
      .next { s.takeCheckStep with arbiter := { inService := none, waiting := [], deferred := [] } } := by
  have own : s.arbiter.inService = some .checkStep := by rw [h]
  have kept : s.takeCheckStep.arbiter = s.arbiter := (rest_of_dress dress_takeCheckStep s).1
  exact congrArg Host.Outcome.next ((if_pos own).trans (endAccess_alone (kept.trans h)))

theorem firstOccupied_iff (s : State) (i j : SlotNo) : s.firstOccupied i = some j ↔
    (i ≤ j ∧ s.slots[j].isSome = true) ∧ ∀ k : SlotNo, k < j → i ≤ k → s.slots[k] = none := by
  rw [State.firstOccupied, find_finRange_iff, Bool.and_eq_true, decide_eq_true_iff]
  refine and_congr_right fun _ => forall_congr' fun k => imp_congr_right fun _ => ?_
  by_cases h : i ≤ k
  · simp [h]
  · simp [h]

theorem firstOccupied_none (s : State) (i : SlotNo) :
    s.firstOccupied i = none ↔ ∀ j : SlotNo, i ≤ j → s.slots[j] = none := by
  rw [State.firstOccupied, find_finRange_none]
  refine forall_congr' fun j => ?_
  by_cases h : i ≤ j
  · simp [h]
  · simp [h]

theorem checkItem_channel {s : State} {c : ChannelNo} (h : s.checker.scan = .channel c ∨
    (c = 0 ∧ ∃ i : SlotNo, s.checker.scan = .slot i ∧ ∀ j : SlotNo, i ≤ j → s.slots[j] = none)) :
    s.checkItem = .channel c := by
  unfold State.checkItem
  obtain scan | ⟨rfl, i, scan, vacant⟩ := h
  · rw [scan]
  · rw [scan]
    dsimp only
    rw [(firstOccupied_none s i).mpr vacant]

theorem checkItem_slot {s : State} {i j : SlotNo} {r : Record} (scan : s.checker.scan = .slot i) (le : i ≤ j)
    (hr : s.slots[j] = some r) (first : ∀ k : SlotNo, i ≤ k → k < j → s.slots[k] = none) : s.checkItem = .slot j := by
  unfold State.checkItem
  rw [scan]
  dsimp only
  rw [(firstOccupied_iff s i j).mpr ⟨⟨le, by rw [hr]; rfl⟩, fun k lt le => first k le lt⟩]

theorem takeCheckStep_channel {s : State} {c : ChannelNo} (h : s.checkItem = .channel c) :
    s.takeCheckStep = (s.setScan (ScanPosition.channel c).after).checkChannel c := by
  rw [State.takeCheckStep, h]

theorem takeCheckStep_slot {s : State} {j : SlotNo} {r : Record} (h : s.checkItem = .slot j)
    (hr : s.slots[j] = some r) : s.takeCheckStep = (s.setScan (ScanPosition.slot j).after).checkRecord j r := by
  rw [State.takeCheckStep, h]
  dsimp only
  rw [hr]

/-! ### The causes of the CHECK flags -/

theorem report_channelCheck (f : FaultUnit) (c : ChannelNo) :
    (f.report (.channelCheck c) .mismatch).channelCheck[c] = some .mismatch := by
  have cause : causeAfter f.channelCheck[c] .mismatch = .mismatch := by
    unfold causeAfter
    split <;> rfl
  unfold FaultUnit.report
  split
  all_goals
    show (f.channelCheck.set c (some (causeAfter f.channelCheck[c] .mismatch)))[c] = _
    rw [cause]
    simp

theorem report_couplingCheck (f : FaultUnit) (i : SlotNo) (k : CheckCause) :
    (f.report (.couplingCheck i) k).couplingCheck[i] = some (causeAfter f.couplingCheck[i] k) := by
  unfold FaultUnit.report
  split
  all_goals
    show (f.couplingCheck.set i (some (causeAfter f.couplingCheck[i] k)))[i] = _
    simp

theorem causeAfter_mismatch (old : Option CheckCause) : causeAfter old .mismatch = .mismatch := by
  unfold causeAfter
  split <;> rfl

theorem causeAfter_test (old : Option CheckCause) :
    causeAfter old .test = if old = some .mismatch then .mismatch else .test := by
  cases old with
  | none => rfl
  | some k => cases k <;> rfl

/-! ### A mismatch on a channel -/

theorem takeMismatch_reports (ch : Channel) (c : ChannelNo) (fl : Flag) : ¬ ch.takeMismatch.Reports c fl := by
  rintro (⟨-, h⟩ | ⟨-, h⟩ | ⟨-, h⟩)
  all_goals cases h

theorem takeMismatch_kept {s : State} {c : ChannelNo} (h : s.channels[c].state.canFall = false) :
    s.takeChannelStep c s.channels[c].takeMismatch = s.setChannel c s.channels[c].takeMismatch.entry :=
  if_neg (by rw [Channel.takeMismatch, h]; exact nofun)

/-- A mismatch takes a channel that is not OFF to LOST (R132). -/
theorem takeMismatch_entry (ch : Channel) : ch.takeMismatch.entry =
    { ch with state := if ch.state = .off then .off else .lost .check } := by
  rw [Channel.takeMismatch]
  cases ch.state <;> rfl

theorem canFall_iff (st : ChannelState) : st.canFall = true ↔ st = .waiting ∨ st.isUp = true := by
  cases st <;> simp [ChannelState.canFall, ChannelState.isUp]

/-- What a channel event lost, with a report after it. -/
theorem lostAt_report {s w t : State} {c : ChannelNo} {entry : Channel} {also : Flag → Prop} {fl : Flag}
    {k : CheckCause} (h : w.LostAt t c entry also) (none_else : ∀ other, ¬ also other)
    (channels : w.channels = s.channels) (slots : w.slots = s.slots) (entries : w.completions = s.completions)
    (engine : w.engine = s.engine) (link : w.link = s.link) (faults : w.faults = s.faults) :
    s.LostAt (t.report fl k) c entry (· = fl) := by
  obtain ⟨agree, posts, raised, own, other, cut, rest⟩ := h
  have reported := report_raised t.faults fl k
  simp only [channels, slots, entries, link, faults] at posts raised other cut rest
  refine ⟨agree, posts, Raised.congr (Raised.trans raised reported) fun o => ?_, own, other, fun i r hr names => ?_,
    rest⟩
  · have none_here := none_else o
    exact (or_congr_left (or_iff_right none_here)).trans or_comm
  · exact CutAt.weaken (cut i r hr names) (by rw [slots]) (by rw [entries]) engine.symm rfl rfl
      fun o set => (reported.1 o).mpr (.inl set)

/-! ### A mismatch on a record -/

theorem recordMismatch_frame (s : State) (i : SlotNo) : s.recordMismatch i = { s with
    channels := (s.recordMismatch i).channels
    slots := (s.recordMismatch i).slots
    completions := (s.recordMismatch i).completions
    faults := (s.recordMismatch i).faults } := by
  unfold State.recordMismatch
  rw [markFailed_eq, cutAt_eq]
  rfl

/-- A mismatch on a record cuts it, marks it, and reports. -/
theorem recordMismatch_entries (s : State) (i : SlotNo) :
    (s.recordMismatch i).completions = (s.cutAt i .check).completions ∧
      (s.recordMismatch i).faults = (s.cutAt i .check).faults.report (.couplingCheck i) .mismatch := by
  unfold State.recordMismatch
  rw [markFailed_eq]
  exact ⟨rfl, rfl⟩

end Sys2Proof.Machine

open Sys2Proof Sys2Proof.Machine

/-- Settles O53: the timer asks for a step, and a step that finds agreement moves the scan on and consumes a test. -/
theorem checkScanStepsAndTests : Obligations.CheckScanStepsAndTests := by
  intro s
  have outstanding_iff : s.arbiter.checkStepOutstanding = true ↔
      s.arbiter.inService = some .checkStep ∨ Access.checkStep ∈ s.arbiter.waiting := by
    rw [Arbiter.checkStepOutstanding, Bool.or_eq_true, beq_iff_eq, List.contains_iff_mem]
  refine ⟨fun none_due => congrArg Host.Outcome.next (if_neg ?_), fun runs free unasked => ?_, fun alone => ?_⟩
  · rw [Bool.and_eq_true, Bool.not_eq_true']
    rintro ⟨runs, free⟩
    obtain stopped | asked := none_due
    · rw [runs] at stopped
      cases stopped
    · rw [outstanding_iff.mpr asked] at free
      cases free
  · have due : (s.checker.timerRunning && !s.arbiter.checkStepOutstanding) = true := by
      rw [runs, Bool.true_and, Bool.not_eq_true', Bool.eq_false_iff, ne_eq, outstanding_iff]
      rintro (h | h)
      · exact free h
      · exact unasked h
    refine congrArg Host.Outcome.next ((if_pos due).trans ?_)
    rw [request_asked]
  · intro free
    rw [exec_checkStep_alone alone]
    refine ⟨fun c item agrees => ?_, fun i j r scan le hr first agrees => ⟨fun untested => ?_, fun tested => ?_⟩⟩
    · rw [takeCheckStep_channel (checkItem_channel item), State.checkChannel, if_pos (by exact agrees)]
      rfl
    · rw [takeCheckStep_slot (checkItem_slot scan le hr first) hr, State.checkRecord, if_pos (by exact agrees),
        if_neg (by exact untested)]
      rfl
    · refine ⟨s.faults.report (.couplingCheck j) .test, report_reported _ _ _, ?_, ?_⟩
      · rw [report_couplingCheck, causeAfter_test]
        split_ifs <;> rfl
      · rw [takeCheckStep_slot (checkItem_slot scan le hr first) hr, State.checkRecord, if_pos (by exact agrees),
          if_pos (by exact tested), State.consumeTest, if_pos (by exact tested)]
        rfl

/-- Settles O54: the CHECK flag with cause MISMATCH, and what a channel lost or a record broken by it takes along. -/
theorem checkMismatchTakesOutOfService : Obligations.CheckMismatchTakesOutOfService := by
  intro s alone agree
  rw [exec_checkStep_alone alone]
  refine ⟨fun c item differs => ?_, fun i j r scan le hr first differs => ?_⟩
  · intro after
    have step : s.takeCheckStep = ((s.setScan after).takeChannelStep c s.channels[c].takeMismatch).report
        (.channelCheck c) := by
      rw [takeCheckStep_channel (checkItem_channel item), State.checkChannel, if_neg (by exact differs)]
      rfl
    rw [step]
    refine ⟨fun down => ⟨s.faults.report (.channelCheck c) .mismatch, report_reported _ _ _, report_channelCheck _ _, ?_⟩,
      fun alive => ?_⟩
    · have stays : (s.setScan after).channels[c].state.canFall = false := by
        obtain off | lost := down
        · exact (congrArg ChannelState.canFall off).trans rfl
        · show s.channels[c].state.canFall = false
          cases h : s.channels[c].state with
          | lost reason => rfl
          | off => rfl
          | waiting | running | stale =>
            rw [h] at lost
            cases lost
      rw [show s.channels[c].takeMismatch = (s.setScan after).channels[c].takeMismatch from rfl, takeMismatch_kept stays,
        takeMismatch_entry]
      rfl
    · have falls : s.channels[c].takeMismatch.lost = true := (canFall_iff _).mpr alive
      obtain ⟨lost, eq⟩ := (takeChannelStep_spec (s.setScan after) c s.channels[c].takeMismatch).2 falls
      generalize (s.setScan after).takeChannelStep c s.channels[c].takeMismatch = t at lost eq ⊢
      refine ⟨t.report (.channelCheck c), ?_, ?_, report_channelCheck _ _⟩
      · conv_lhs => rw [eq]
        rfl
      · have left := lostAt_report (s := s) (fl := .channelCheck c) (k := .mismatch) lost
          (takeMismatch_reports s.channels[c] c) rfl rfl rfl rfl rfl rfl
        have on : s.channels[c].state ≠ .off := by
          intro off
          rw [off] at alive
          exact absurd alive (by decide)
        rwa [takeMismatch_entry, if_neg on] at left
  · intro after
    have step : s.takeCheckStep = ((s.setScan after).consumeTest j).recordMismatch j := by
      rw [takeCheckStep_slot (checkItem_slot scan le hr first) hr, State.checkRecord, if_neg (by exact differs)]
      rfl
    rw [step]
    have only := onlyCoupled_recordMismatch ((s.setScan after).consumeTest j) j
    have frame := recordMismatch_frame ((s.setScan after).consumeTest j) j
    have slot := recordMismatch_slot ((s.setScan after).consumeTest j) j
    obtain ⟨entries, faults⟩ := recordMismatch_entries ((s.setScan after).consumeTest j) j
    have recoupled : (((s.setScan after).consumeTest j).recordMismatch j).CoupledAgree := recouple_agrees _
    have cut := cutAt_own ((s.setScan after).consumeTest j) j .check
    have others (i : SlotNo) := cutAt_other ((s.setScan after).consumeTest j) j i .check
    have broke := cutAt_raised ((s.setScan after).consumeTest j) j .check
    generalize ((s.setScan after).consumeTest j).recordMismatch j = t at only frame slot entries faults recoupled ⊢
    generalize ((s.setScan after).consumeTest j).cutAt j .check = q at slot entries faults cut others broke
    have reported := report_raised q.faults (.couplingCheck j) .mismatch
    rw [← faults] at reported
    refine ⟨t, q, ?_, recoupled, ?_, Raised.congr (Raised.trans broke reported) fun fl => ?_, only, fun i ne => ⟨?_, ?_⟩,
      CutAt.weaken cut rfl rfl rfl rfl rfl fun _ set => set, by rw [entries], ?_, (slot j).trans (if_pos rfl)⟩
    · conv_lhs => rw [frame]
      rfl
    · rw [faults, report_couplingCheck, causeAfter_mismatch]
    · have here : (∃ p, s.slots[j] = some p ∧ p.state.Breaks .check) ↔ r.state.Breaks .check := by
        rw [hr]
        simp
      exact (or_congr_left (and_congr_right fun _ => here)).trans or_comm
    · rw [slot i, if_neg ne]
      rfl
    · rw [entries]
      exact (others i ne).2
    · have other := (report_reported q.faults (.couplingCheck j) .mismatch).2.1 (.broke j) nofun
      rwa [← faults] at other
end

