-- ==== Sys2Proof/Proofs/LawAndStates.lean ====
section
/-! SUPPORT. The roundings and clamps of the law, and the state handling of a computation. -/

namespace Sys2Proof.Machine

/-! ### Rounding and clamping -/

theorem roundDiv_neg {b : Nat} (a : Int) (hb : 0 < b) : roundDiv (-a) b = -roundDiv a b := by
  unfold roundDiv
  obtain neg | rfl | pos := lt_trichotomy a 0
  · rw [if_pos (by omega), if_neg (by omega), Int.neg_neg]
  · have zero : (2 * (0 : Int) + b) / (2 * b) = 0 := Int.ediv_eq_zero_of_lt (by omega) (by omega)
    simp only [Int.neg_zero, le_refl, if_true, zero]
  · rw [if_neg (by omega), if_pos (by omega), Int.neg_neg]

/-- The quotient rounded, between the halves; the upper half rounds up. -/
theorem roundDiv_bounds {a : Int} {b : Nat} (ha : 0 ≤ a) (hb : 0 < b) :
    2 * (roundDiv a b * b) ≤ 2 * a + b ∧ 2 * a + b < 2 * (roundDiv a b * b) + 2 * b := by
  have value : roundDiv a b = (2 * a + b) / (2 * b) := if_pos ha
  have low := Int.mul_ediv_self_le (x := 2 * a + b) (k := 2 * b) (by omega)
  have high := Int.lt_mul_ediv_self_add (x := 2 * a + b) (k := 2 * b) (by omega)
  rw [← value, show 2 * (b : Int) * roundDiv a b = 2 * (roundDiv a b * b) by ring] at low high
  exact ⟨low, high⟩

theorem roundDiv_error (a : Int) {b : Nat} (hb : 0 < b) : 2 * (roundDiv a b * b - a).natAbs ≤ b ∧
    (2 * (roundDiv a b * b - a).natAbs = b → a.natAbs ≤ (roundDiv a b * b).natAbs) := by
  obtain ha | ha := le_total 0 a
  · obtain ⟨low, high⟩ := roundDiv_bounds ha hb
    generalize roundDiv a b * b = m at low high
    omega
  · obtain ⟨low, high⟩ := roundDiv_bounds (a := -a) (by omega) hb
    rw [roundDiv_neg a hb, Int.neg_mul] at low high
    generalize roundDiv a b * b = m at low high
    omega

theorem clampTo_below {limit x : Int} (h : x < -limit) : clampTo limit x = -limit := if_pos h

theorem clampTo_above {limit x : Int} (positive : 0 ≤ limit) (h : limit < x) : clampTo limit x = limit := by
  rw [clampTo, if_neg (by omega), if_pos h]

theorem clampTo_within {limit x : Int} (low : -limit ≤ x) (high : x ≤ limit) : clampTo limit x = x := by
  rw [clampTo, if_neg (by omega), if_neg (by omega)]

/-! ### The law -/

theorem unclamped_law {r : Record} (p : CapturePeriod) (h : r.state = .held ∨ r.state = .slipping) :
    r.unclamped p = some (-roundDiv
      (r.cfg.stiffness.toNat * r.error * p.micros + r.cfg.damping.toNat * r.rate * 1000000)
      (1048576000 * p.micros)) := by
  have other : r.state ≠ .forming := by
    obtain e | e := h
    all_goals
      rw [e]
      exact nofun
  have numerator : r.numerator p =
      r.cfg.stiffness.toNat * r.error * p.micros + r.cfg.damping.toNat * r.rate * 1000000 := if_neg other
  rw [← numerator, Record.unclamped]
  obtain e | e := h
  all_goals
    rw [e]
    rfl

theorem unclamped_forming {r : Record} (p : CapturePeriod) (h : r.state = .forming) : r.unclamped p =
    some (-roundDiv (r.cfg.damping.toNat * r.rate * 1000000) (1048576000 * p.micros)) := by
  have numerator : r.numerator p = r.cfg.damping.toNat * r.rate * 1000000 := if_pos h
  rw [← numerator, Record.unclamped, h]
  rfl

theorem unclamped_inactive {r : Record} (p : CapturePeriod) (h : r.state.isActive = false) : r.unclamped p = none := by
  rw [Record.unclamped]
  cases e : r.state with
  | idle | broken _ => rfl
  | forming | held | slipping | releasing _ =>
    rw [e] at h
    cases h

/-- A share of half at most splits a correction into two terms no larger than it (R56). -/
theorem terms_bounded {r : Record} (half : r.cfg.share.toNat ≤ 8) :
    r.leaderTerm.natAbs ≤ r.correction.natAbs ∧ r.followerTerm.natAbs ≤ r.correction.natAbs := by
  obtain ⟨near, -⟩ := roundDiv_error (r.correction * r.cfg.share.toNat) (b := 16) (by decide)
  rw [Record.followerTerm, Record.leaderTerm]
  generalize roundDiv (r.correction * r.cfg.share.toNat) 16 = q at near
  obtain positive | negative := le_total 0 r.correction
  · have low : 0 ≤ r.correction * r.cfg.share.toNat := mul_nonneg positive (by omega)
    have high : r.correction * r.cfg.share.toNat ≤ r.correction * 8 :=
      mul_le_mul_of_nonneg_left (by omega) positive
    omega
  · have high : r.correction * r.cfg.share.toNat ≤ 0 := mul_nonpos_of_nonpos_of_nonneg negative (by omega)
    have low : r.correction * 8 ≤ r.correction * r.cfg.share.toNat :=
      mul_le_mul_of_nonpos_left (by omega) negative
    omega

/-! ### The state handling -/

theorem accumulated_held {r : Record} (delta : Int) (h : r.state = .held) :
    r.accumulated delta = clampTo 65536000000 (r.error + delta + (r.pendingOffset.getD 0) * 65536) := by
  rw [Record.accumulated, h]
  cases r.pendingOffset <;> rfl

theorem accumulated_slipping {r : Record} (delta : Int) (h : r.state = .slipping) :
    r.accumulated delta = clampTo 65536000000 (r.error + delta + 0) := by
  rw [Record.accumulated, h]
  rfl

theorem advance_idle {p : CapturePeriod} {uL uF : Int} {up : Bool} {r : Record} (h : r.state = .idle) :
    r.advance p uL uF up =
      if up then { record := { r with rate := r.filtered (r.cfg.increment uL uF) } } else { record := r } := by
  rw [Record.advance, h]

theorem advance_forming {p : CapturePeriod} {uL uF : Int} {up : Bool} {r : Record} (h : r.state = .forming) :
    r.advance p uL uF up = r.advanceForming p (r.cfg.increment uL uF) := by
  rw [Record.advance, h]

theorem advance_held {p : CapturePeriod} {uL uF : Int} {up : Bool} {r : Record} (h : r.state = .held) :
    r.advance p uL uF up = r.advanceHeld (r.cfg.increment uL uF) := by
  rw [Record.advance, h]

theorem advance_slipping {p : CapturePeriod} {uL uF : Int} {up : Bool} {r : Record} (h : r.state = .slipping) :
    r.advance p uL uF up = r.advanceSlipping (r.cfg.increment uL uF) := by
  rw [Record.advance, h]

theorem advance_releasing {p : CapturePeriod} {uL uF : Int} {up : Bool} {r : Record} {ramp : Ramp}
    (h : r.state = .releasing ramp) : r.advance p uL uF up = r.advanceReleasing ramp (r.cfg.increment uL uF) := by
  rw [Record.advance, h]

end Sys2Proof.Machine

open Sys2Proof Sys2Proof.Machine

/-- Settles O55: the rounding by its bounds, and each term of the law by the state of the record. -/
theorem arithmeticOfTheLaw : Obligations.ArithmeticOfTheLaw := by
  refine ⟨fun a b hb => ⟨(roundDiv_error a hb).1, (roundDiv_error a hb).2, roundDiv_neg a hb⟩,
    fun limit x positive => ⟨clampTo_below, clampTo_above positive, clampTo_within⟩,
    fun p r uL uF => ⟨rfl, fun _ => rfl, rfl, fun ramp releasing => ?_, unclamped_law p, unclamped_forming p,
      unclamped_inactive p, fun x formed => ?_, fun none_formed => ?_, rfl, rfl, terms_bounded, fun c =>
        ⟨fun active => if_pos active, fun inactive => if_neg (by rw [inactive]; exact nofun)⟩⟩⟩
  · rw [Record.unclamped, releasing]
    rfl
  · rw [Record.corrected, formed]
  · rw [Record.corrected, none_formed]

/-- Settles O56: each state by its own rule, whose tests are taken in their order. -/
theorem stateHandlingByStateFound : Obligations.StateHandlingByStateFound := by
  intro p uL uF up r delta rate moved after error
  refine ⟨fun idle => ?_, fun reason broken => ?_, fun forming => ?_, fun held => ?_, fun slipping => ?_,
    fun ramp releasing => ?_⟩
  · refine (advance_idle idle).trans ?_
    cases up <;> rfl
  · show r.advance p uL uF up = _
    rw [Record.advance, broken]
  · intro elapsed run
    have found : after = r.advanceForming p delta := advance_forming forming
    refine ⟨fun long => found.trans (if_pos long), fun short late => found.trans ?_, fun short early => found.trans ?_⟩
    · exact (if_neg (not_le.mpr short)).trans (if_pos late)
    · exact (if_neg (not_le.mpr short)).trans (if_neg (not_le.mpr early))
  · intro e run
    have found : after = r.advanceHeld delta := advance_held held
    have own : r.accumulated delta = e := accumulated_held delta held
    rw [Record.advanceHeld, own] at found
    exact ⟨fun long => found.trans (if_pos long), fun short => found.trans (if_neg (not_le.mpr short))⟩
  · intro e half
    have found : after = r.advanceSlipping delta := advance_slipping slipping
    have own : r.accumulated delta = e := accumulated_slipping delta slipping
    rw [Record.advanceSlipping, own] at found
    refine ⟨fun wide => found.trans (if_pos wide), fun inside near long => found.trans ?_,
      fun inside near short => found.trans ?_, fun inside far => found.trans ?_⟩
    · exact (if_neg (not_lt.mpr inside)).trans ((if_pos near).trans (if_pos long))
    · exact (if_neg (not_lt.mpr inside)).trans ((if_pos near).trans (if_neg (not_le.mpr short)))
    · exact (if_neg (not_lt.mpr inside)).trans (if_neg (not_le.mpr far))
  · have found : after = r.advanceReleasing ramp delta := advance_releasing releasing
    exact ⟨fun last => found.trans (if_pos last), fun more => found.trans (if_neg (not_le.mpr more))⟩
end

