-- ==== Sys2Proof/Proofs/Computation.lean ====
section
/-! SUPPORT. The computation access and the expiry that closes it. -/

namespace Sys2Proof.Machine

/-! ### What a computation leaves in a slot -/

/-- The advance of a record of the tables. -/
def State.advanceOf (s : State) (r : Record) : Advance :=
  r.advance s.engine.period s.channels[r.cfg.leaderNo].travel s.channels[r.cfg.followerNo].travel
    (s.channels[r.cfg.leaderNo].state.isUp && s.channels[r.cfg.followerNo].state.isUp)

theorem advanceAt_of {s : State} {i : SlotNo} {r : Record} (h : s.slots[i] = some r) :
    s.advanceAt i = some (s.advanceOf r) := by
  rw [State.advanceAt, h]
  rfl

theorem advanceAt_vacant {s : State} {i : SlotNo} (h : s.slots[i] = none) : s.advanceAt i = none := by
  rw [State.advanceAt, h]
  rfl

/-- The record a computation leaves: the advanced one corrected, and limited by the clamps that it came under. -/
def State.leaves (s : State) (r : Record) : Record :=
  { (s.advanceOf r).record.corrected s.engine.period with
    limited := ((s.advanceOf r).record.corrected s.engine.period).limited ||
      s.ceilingMarks ((s.advanceOf r).record.corrected s.engine.period) }

theorem computedAt_of {s : State} {i : SlotNo} {r : Record} (h : s.slots[i] = some r) :
    s.computedAt i = some (s.leaves r) := by
  rw [State.computedAt, State.correctedAt, advanceAt_of h]
  rfl

theorem computedAt_vacant {s : State} {i : SlotNo} (h : s.slots[i] = none) : s.computedAt i = none := by
  rw [State.computedAt, State.correctedAt, advanceAt_vacant h]
  rfl

/-- The sum of a channel may be taken over the records a computation leaves (R57). -/
theorem channelSum_eq (s : State) (c : ChannelNo) : s.channelSum c =
    ((List.finRange 16).map fun i => match s.computedAt i with
      | some r => r.term c
      | none => 0).sum := by
  rw [State.channelSum]
  refine congrArg List.sum (List.map_congr_left fun i _ => ?_)
  rw [State.computedAt]
  cases s.correctedAt i <;> rfl

theorem ceilingMarks_iff (s : State) (r : Record) : s.ceilingMarks r = true ↔
    ∃ c : ChannelNo, s.channels[c].cfg.ceiling.toNat < (s.channelSum c).natAbs ∧ r.term c ≠ 0 := by
  rw [State.ceilingMarks, finRange_any]
  refine exists_congr fun c => ?_
  rw [Bool.and_eq_true, bne_iff_ne, State.ceilingActs, decide_eq_true_iff]

/-- A record is limited by its own clamp or by that of a channel it put a term into (R53, R58). -/
theorem leaves_limited (s : State) (r : Record) : (s.leaves r).limited = true ↔
    ((s.advanceOf r).record.corrected s.engine.period).limited = true ∨
      ∃ c : ChannelNo, s.channels[c].cfg.ceiling.toNat < (s.channelSum c).natAbs ∧ (s.leaves r).term c ≠ 0 := by
  have marks := ceilingMarks_iff s ((s.advanceOf r).record.corrected s.engine.period)
  exact Bool.or_eq_true _ _ ▸ or_congr_right marks

/-! ### The outcomes -/

/-- An outcome reaches the entry that waits for it, and no other (R109). -/
theorem giveEnding_entry (s : State) (i : SlotNo) (n : Word) :
    (s.giveEnding i none n).completions[i] = s.completions[i] ∧
    (s.giveEnding i (some .formed) n).completions[i] =
      (if s.completions[i] = some .waitingForm then some (.readyForm .formed (s.collectAt n)) else s.completions[i]) ∧
    (s.giveEnding i (some .formTimeout) n).completions[i] =
      (if s.completions[i] = some .waitingForm then some (.readyForm .formTimeout (s.collectAt n))
        else s.completions[i]) ∧
    (s.giveEnding i (some .released) n).completions[i] =
      (if s.completions[i] = some .waitingRelease then some (.readyRelease .released (s.collectAt n))
        else s.completions[i]) := by
  refine ⟨rfl, ?_, ?_, ?_⟩
  · exact (giveForm_get s i i .formed n).trans (by simp)
  · exact (giveForm_get s i i .formTimeout n).trans (by simp)
  · exact (giveRelease_get s i i .released n).trans (by simp)

/-! ### The access -/

theorem exec_computation_alone {s : State} {n : Word}
    (h : s.arbiter = { inService := some (.computation n), waiting := [], deferred := [] }) :
    exec .computation s = .next { s.compute n with
      arbiter := { inService := if (s.compute n).anyDue n then some (.expiry n) else none, waiting := [], deferred := [] } } := by
  have kept : (s.compute n).arbiter = s.arbiter := by
    obtain ⟨_, _, _, eq, -⟩ := compute_spec s n
    rw [eq]
  have taken : exec .computation s = .next ((s.compute n).closeComputation n) := by
    show execComputation s = _
    rw [execComputation, h]
  rw [taken, State.closeComputation]
  split_ifs with due
  · rw [kept, h]
  · rw [endAccess_alone (kept.trans h)]

theorem enabledChannels_eq (s : State) :
    s.enabledChannels = (List.finRange 8).filter fun c => decide (s.channels[c].state ≠ .off) := by
  unfold State.enabledChannels
  congr 1
  funext c
  rw [Bool.eq_iff_iff, bne_iff_ne, decide_eq_true_iff]

theorem countUp_eq (w : Word) : countUp w = if w = 0xFFFFFFFF then 0xFFFFFFFF else w + 1 := by
  unfold countUp
  split_ifs with h
  · exact h
  · rfl

theorem countSkips_get (l : Link) (c : ChannelNo) {rd : Round} (h : l.round = some rd) : l.countSkips.counts[c] =
    if c ∈ rd.earlier ∨ c = rd.message.channel then
      { l.counts[c] with
        skips := if l.counts[c].skips = 0xFFFFFFFF then 0xFFFFFFFF else l.counts[c].skips + 1 }
    else l.counts[c] := by
  have served : l.servedSet.contains c = true ↔ c ∈ rd.earlier ∨ c = rd.message.channel := by
    rw [List.contains_iff_mem, Link.servedSet, h]
    simp
  rw [← countUp_eq]
  simp only [← served]
  simp [Link.countSkips]

end Sys2Proof.Machine

open Sys2Proof Sys2Proof.Machine

/-- Settles O57: the tables as the computation writes them, the outcomes and flags of the advances, and the post. -/
theorem computationUpdatesAndPosts : Obligations.ComputationUpdatesAndPosts := by
  intro s n alone
  obtain ⟨entries, f, l, eq, entry, raised, slots, capture, overrun, started⟩ := compute_spec s n
  have slot (i : SlotNo) : (s.compute n).slots[i] = s.computedAt i := by
    rw [eq]
    simp
  have sum_eq (c : ChannelNo) : s.channelSum c = ((List.finRange 16).map fun i => match (s.compute n).slots[i] with
      | some r => r.term c
      | none => 0).sum := by
    rw [channelSum_eq]
    simp only [slot] <;> rfl
  have flag (fl : Flag) := raised.1 fl
  have recoupled (c : ChannelNo) : (s.computed n).coupledNow c = (s.compute n).coupledNow c :=
    coupledNow_congr (compute_slots s n).symm c
  have channel (c : ChannelNo) := compute_channel s n c
  have entry' (i : SlotNo) : (s.compute n).completions[i] = entries[i] := by rw [eq]
  have faults : (s.compute n).faults = f := by rw [eq]
  have link : (s.compute n).link = l := by rw [eq]
  rw [exec_computation_alone alone]
  generalize s.compute n = u at eq slot sum_eq recoupled channel entry' faults link ⊢
  refine ⟨{ u with
    arbiter := { inService := if u.anyDue n then some (.expiry n) else none, waiting := [], deferred := [] } }, ?_,
    fun c => ?_, ?_⟩
  · subst eq
    rfl
  · show u.channels[c].coupled = u.coupledNow c
    rw [channel c, recoupled c]
  intro sum after
  have sum_is (c : ChannelNo) : s.channelSum c = sum c := sum_eq c
  refine ⟨?_, fun none_due => ?_, fun some_due => ?_, fun i vacant => ⟨?_, ?_⟩, fun i r hr => ?_, fun c => ?_, ?_,
    fun rd round => ?_, fun idle => ?_⟩
  · refine Raised.congr (faults ▸ raised) fun fl => or_comm.trans (or_congr_right (exists_congr fun i => ?_))
    constructor
    · rintro ⟨a, ha, reports⟩
      cases hr : s.slots[i] with
      | none => rw [advanceAt_vacant hr] at ha; cases ha
      | some r =>
        rw [advanceAt_of hr] at ha
        cases ha
        exact ⟨r, rfl, reports⟩
    · rintro ⟨r, hr, reports⟩
      exact ⟨_, advanceAt_of hr, reports⟩
  · have quiet : u.anyDue n = false := none_due
    show ({ inService := if u.anyDue n then some (.expiry n) else none, waiting := [], deferred := [] } : Arbiter) = _
    rw [quiet]
    rfl
  · have busy : u.anyDue n = true := some_due
    show ({ inService := if u.anyDue n then some (.expiry n) else none, waiting := [], deferred := [] } : Arbiter) = _
    rw [busy]
    rfl
  · exact (slot i).trans (computedAt_vacant vacant)
  · show u.completions[i] = s.completions[i]
    rw [entry' i, entry i, advanceAt_vacant vacant]
  · intro formed
    have own := entry i
    rw [advanceAt_of hr] at own
    dsimp only at own
    obtain ⟨kept, form, timeout, release⟩ := giveEnding_entry (s.computed n).recouple i n
    have ends : u.completions[i] = ((s.computed n).recouple.giveEnding i (after r).ending n).completions[i] :=
      (entry' i).trans own
    have carries : s.Carries n ((s.computed n).recouple.collectAt n) := collectAt_carries s n
    refine ⟨s.leaves r, (slot i).trans (computedAt_of hr), rfl, ?_, fun slips => ?_, fun breaks => ?_, fun ending => ?_,
      fun ending waits => ⟨_, carries, ?_⟩, fun ending waits => ⟨_, carries, ?_⟩, fun ending waits => ⟨_, carries, ?_⟩,
      fun ending unwaited => ?_, fun ending unwaited => ?_⟩
    · simp only [← sum_is]
      exact leaves_limited s r
    · exact faults ▸ (flag (.slip i)).mpr (.inr (.inl ⟨i, _, advanceAt_of hr, .inl ⟨rfl, slips⟩⟩))
    · exact faults ▸ (flag (.broke i)).mpr (.inr (.inl ⟨i, _, advanceAt_of hr, .inr ⟨rfl, breaks⟩⟩))
    · exact ends.trans (ending ▸ kept)
    · exact ends.trans (ending ▸ form.trans (if_pos waits))
    · exact ends.trans (ending ▸ timeout.trans (if_pos waits))
    · exact ends.trans (ending ▸ release.trans (if_pos waits))
    · obtain ending | ending := ending
      · exact ends.trans (ending ▸ form.trans (if_neg unwaited))
      · exact ends.trans (ending ▸ timeout.trans (if_neg unwaited))
    · exact ends.trans (ending ▸ release.trans (if_neg unwaited))
  · intro post
    have posted : s.postFor c = post := by
      rw [State.postFor, State.clampedSum, sum_is c]
    have acts : s.ceilingActs c = decide (s.channels[c].cfg.ceiling.toNat < (sum c).natAbs) := by
      rw [State.ceilingActs, sum_is c]
    refine ⟨?_, ?_, fun high i q hq term => ?_⟩
    · show u.link.slots[c] = post
      rw [link, slots, ← posted]
      simp
    · show u.channels[c] = { s.channels[c] with
        posted := post, coupled := u.channels[c].coupled
        limited := decide (s.channels[c].cfg.ceiling.toNat < (sum c).natAbs) }
      rw [channel c, posted, acts]
    · have hq' : s.computedAt i = some q := (slot i).symm.trans hq
      cases hr : s.slots[i] with
      | none => rw [computedAt_vacant hr] at hq'; cases hq'
      | some r =>
        rw [computedAt_of hr] at hq'
        cases hq'
        exact (leaves_limited s r).mpr (.inr ⟨c, sum_is c ▸ high, term⟩)
  · exact link ▸ capture
  · have counted := overrun rd round
    refine ⟨?_, faults ▸ (flag .linkOverrun).mpr (.inr (.inr ⟨rfl, by rw [round]; rfl⟩)), fun c => ?_⟩
    · show u.link.round = some rd
      rw [link, counted]
      exact round
    · show u.link.counts[c] = _
      rw [link, counted]
      exact countSkips_get _ c round
  · obtain ⟨counts, resting, begins⟩ := started idle
    have enabled := enabledChannels_eq s
    refine ⟨?_, fun off => ?_, fun ⟨c, on⟩ => ?_⟩
    · show u.link.counts = s.link.counts
      rw [link, counts]
    · show u.link.round = none
      rw [link]
      refine resting ?_
      rw [enabled]
      exact List.filter_eq_nil_iff.mpr fun c _ => by
        rw [decide_eq_true_iff, not_not]
        exact off c
    · cases he : s.enabledChannels with
      | nil =>
        rw [enabled] at he
        exact absurd (decide_eq_true on) (List.filter_eq_nil_iff.mp he c (List.mem_finRange c))
      | cons d rest =>
        refine ⟨_, (congrArg Link.round link).trans (begins d rest he), rfl, rfl, ?_, ?_⟩
        · rw [← enabled, he]
        · show ({ channel := d, capture := n.setWidth 8, torque := s.postFor d
                  coupled := (s.computed n).coupledNow d } : Correction) =
            { channel := d, capture := n.setWidth 8, torque := u.link.slots[d], coupled := u.channels[d].coupled }
          rw [channel d, link, slots]
          simp

/-- Settles O58: an entry is due when it is READY with the number for its deadline, and the expiry removes those. -/
theorem dueEntriesExpire : Obligations.DueEntriesExpire := by
  intro s n alone due
  have due_iff (i : SlotNo) : s.dueAt n i = true ↔ due i := by
    unfold State.dueAt
    simp only [due]
    cases h : s.completions[i] with
    | none => simp
    | some e => cases e <;> simp [Completion.due]
  have any_iff : s.anyDue n = true ↔ ∃ i, due i := by
    rw [State.anyDue, finRange_any]
    exact exists_congr due_iff
  have frame : s.expire n = { s with completions := (s.expire n).completions, faults := (s.expire n).faults } := by
    unfold State.expire
    rw [reportIf_eq]
  have quiet : (s.expire n).arbiter = s.arbiter := by rw [frame]
  refine ⟨s.expire n, ?_, fun i => ⟨fun h => ?_, fun h => ?_⟩, fun h => ?_, fun h => ?_⟩
  · show execCollectDeadlineExpiry s = _
    rw [execCollectDeadlineExpiry, alone]
    dsimp only
    rw [endAccess_alone (quiet.trans alone)]
    conv_lhs => rw [frame]
  · rw [expire_entry, if_pos ((due_iff i).mpr h)]
  · rw [expire_entry, if_neg (mt (due_iff i).mp h)]
  · unfold State.expire
    rw [any_iff.mpr h]
    exact report_reported s.faults .discard .mismatch
  · unfold State.expire
    rw [Bool.eq_false_iff.mpr (mt any_iff.mp fun ⟨i, hi⟩ => h i hi)]
    rfl
end

