-- ==== Sys2Proof/Proofs/DriveLinkBits.lean ====
section
/-! SUPPORT. The bits of a message on the drive link, and the phases of an exchange. -/

namespace Sys2Proof.Machine

/-! ### Levels -/

theorem byteLevels_length (b : Byte) : (byteLevels b).length = 10 := by simp [byteLevels]

/-- A byte's ten bit times: its start bit, its bits, its stop bit (R119). -/
theorem byteLevels_at (b : Byte) : (byteLevels b)[0]? = some false ∧ (byteLevels b)[9]? = some true ∧
    ∀ k < 8, (byteLevels b)[1 + k]? = some (b.getLsbD k) := by
  refine ⟨rfl, rfl, fun k hk => ?_⟩
  rw [byteLevels, List.cons_append, Nat.add_comm, List.getElem?_cons_succ, List.getElem?_append_left (by simpa using hk),
    List.getElem?_map, List.getElem?_range hk]
  rfl

theorem messageLevels_cons (b : Byte) (bytes : List Byte) :
    messageLevels (b :: bytes) = byteLevels b ++ messageLevels bytes := rfl

/-- A message has its bytes one after another. -/
theorem messageLevels_at {bytes : List Byte} {n k : Nat} {b : Byte} (h : bytes[n]? = some b) (hk : k < 10) :
    (messageLevels bytes)[10 * n + k]? = (byteLevels b)[k]? := by
  induction bytes generalizing n with
  | nil => cases h
  | cons a bytes ih =>
    rw [messageLevels_cons]
    cases n with
    | zero =>
      cases h
      rw [Nat.mul_zero, Nat.zero_add]
      exact List.getElem?_append_left (by rw [byteLevels_length]; exact hk)
    | succ n =>
      rw [List.getElem?_append_right (by rw [byteLevels_length]; omega), byteLevels_length,
        show 10 * (n + 1) + k - 10 = 10 * n + k by omega]
      exact ih h

theorem messageLevels_length (bytes : List Byte) : (messageLevels bytes).length = 10 * bytes.length := by
  induction bytes with
  | nil => rfl
  | cons b bytes ih =>
    rw [messageLevels_cons, List.length_append, byteLevels_length, ih, List.length_cons]
    omega

theorem correction_levels_length (m : Correction) : m.levels.length = 60 := messageLevels_length m.bytes

theorem byteOfLevels_byteLevels (b : Byte) : byteOfLevels (byteLevels b) = some b := by
  refine congrArg some (BitVec.eq_of_getLsbD_eq fun n hn => ?_)
  rw [getLsbD_packBits, decide_eq_true hn, Bool.true_and]
  interval_cases n
  all_goals rfl

theorem byteOfLevels_some {levels : List Bool} {b : Byte} (h : byteOfLevels levels = some b) :
    levels[0]? = some false ∧ levels[9]? = some true := by
  unfold byteOfLevels at h
  split at h
  · exact ⟨rfl, rfl⟩
  · cases h

/-! ### Replies -/

theorem replyCommand_message (b0 b1 b2 b3 : Byte) :
    replyCommand (messageLevels [b0, b1, b2, b3]) = .driveStatus b0 b1 b2 b3 := by
  have bytes : replyBytes (messageLevels [b0, b1, b2, b3]) =
      [byteOfLevels (byteLevels b0), byteOfLevels (byteLevels b1), byteOfLevels (byteLevels b2),
        byteOfLevels (byteLevels b3)] := rfl
  rw [replyCommand, bytes]
  simp only [byteOfLevels_byteLevels]

/-- A reply one of whose bytes does not stand between a start and a stop bit is broken (R120). -/
theorem replyCommand_broken {levels : List Bool} {n : Nat} (hn : n < 4)
    (h : levels[10 * n]? = some true ∨ levels[10 * n + 9]? = some false) : replyCommand levels = .brokenReply := by
  have missing : byteOfLevels ((levels.drop (10 * n)).take 10) = none := by
    cases found : byteOfLevels ((levels.drop (10 * n)).take 10) with
    | none => rfl
    | some b =>
      obtain ⟨start, stop⟩ := byteOfLevels_some found
      rw [List.getElem?_take_of_lt (by decide), List.getElem?_drop] at start stop
      rw [Nat.add_zero] at start
      obtain h | h := h
      · rw [start] at h
        cases h
      · rw [stop] at h
        cases h
  have mem : none ∈ replyBytes levels := List.mem_map.mpr ⟨n, List.mem_range.mpr hn, missing⟩
  unfold replyCommand
  split
  · rename_i four
    rw [four] at mem
    simp at mem
  · rfl

/-! ### Phases -/

/-- An exchange passes on from the phase it stands in (R120). -/
theorem passPhase_of {s : State} {rd : Round} {old : ExchangePhase} (new : ExchangePhase) (h : s.link.round = some rd)
    (phase : rd.phase = old) : s.passPhase old new =
      { s with link := { s.link with round := some { rd with phase := new } } } := by
  have now : s.link.phase = some old := by rw [Link.phase, h, ← phase]; rfl
  rw [State.passPhase, if_pos now, State.setExchange, h]
  rfl

/-- A whole reply's judgement (R121). -/
theorem judge_of {m : Correction} {b0 b1 b2 b3 : Byte}
    (h : b0 = 0x50#8 + BitVec.ofNat 8 m.channel.val ∧ b1 = m.capture ∧ b3 = crc8 [b0, b1, b2]) :
    m.judge b0 b1 b2 b3 = match DriveState.ofByte b2 with
      | some d => .good d
      | none => .miss := if_pos h

theorem ofByte_none {b : Byte} (h : b = 0 ∨ 4 < b.toNat) : DriveState.ofByte b = none := by
  unfold DriveState.ofByte
  obtain rfl | h := h
  · rfl
  · split
    case h_5 => rfl
    all_goals omega

theorem judge_miss {m : Correction} {b0 b1 b2 b3 : Byte}
    (h : ¬ (b0 = 0x50#8 + BitVec.ofNat 8 m.channel.val ∧ b1 = m.capture ∧ b3 = crc8 [b0, b1, b2]) ∨ b2 = 0 ∨
      4 < b2.toNat) : m.judge b0 b1 b2 b3 = .miss := by
  unfold Correction.judge
  obtain h | h := h
  · exact if_neg h
  · rw [ofByte_none h, ite_self]

theorem exec_driveStatus_of {s : State} {rd : Round} (b0 b1 b2 b3 : Byte) (h : s.link.round = some rd)
    (phase : rd.phase = .receiving) : exec (.driveStatus b0 b1 b2 b3) s = .next { s with
      link := { s.link with round := some { rd with phase := .judged (rd.message.judge b0 b1 b2 b3) } } } := by
  refine congrArg Host.Outcome.next ?_
  have judged : s.link.judge b0 b1 b2 b3 = rd.message.judge b0 b1 b2 b3 := by rw [Link.judge, h]
  rw [judged]
  exact passPhase_of _ h phase

theorem exec_gapEnd_of {s : State} {rd : Round} {micros : Nat} (h : s.link.round = some rd)
    (phase : rd.phase = .gap micros) : exec .gapEnd s =
      .next (s.nextExchange (rd.earlier ++ [rd.message.channel]) rd.remaining) := by
  show execGapEnd s = _
  rw [execGapEnd, h]
  dsimp only
  rw [phase]

end Sys2Proof.Machine

open Sys2Proof Sys2Proof.Machine

/-- Settles O59: the bits of a message, the judgement of a reply, and the phases an exchange passes through. -/
theorem exchangesPassThroughTheirPhases : Obligations.ExchangesPassThroughTheirPhases := by
  refine ⟨fun m => ?_, fun bytes b => ⟨rfl, List.foldl_append⟩, fun r b => ⟨rfl, rfl⟩,
    fun l rd n round => ⟨fun sending early => ?_, fun other => ?_⟩, fun l n idle => ?_, replyCommand_message,
    fun levels n hn => replyCommand_broken hn, fun s rd round => ?_⟩
  · refine ⟨_, _, _, _, _, _, rfl, rfl, rfl, halfOf_extract _, rfl, rfl, correction_levels_length m, fun n b hb => ?_⟩
    obtain ⟨start, stop, data⟩ := byteLevels_at b
    refine ⟨(messageLevels_at hb (k := 0) (by decide)).trans start, (messageLevels_at hb (k := 9) (by decide)).trans stop,
      fun k hk => ?_⟩
    rw [Nat.add_assoc]
    exact (messageLevels_at hb (by omega)).trans (data k hk)
  · have inside : n < rd.message.levels.length := by
      rw [correction_levels_length]
      exact early
    rw [Link.level, round]
    dsimp only
    rw [sending, List.getElem?_eq_getElem inside]
    rfl
  · rw [Link.level, round]
    dsimp only
    split
    · rename_i sending
      have late := other.resolve_left (not_not.mpr sending)
      rw [List.getElem?_eq_none (by rw [correction_levels_length]; exact late)]
      rfl
    all_goals rfl
  · rw [Link.level, idle]
    rfl
  · intro now
    refine ⟨fun phase => congrArg Host.Outcome.next (passPhase_of _ round phase),
      fun phase => ⟨congrArg Host.Outcome.next (passPhase_of _ round phase),
        congrArg Host.Outcome.next (passPhase_of _ round phase)⟩,
      fun phase => ⟨congrArg Host.Outcome.next (passPhase_of _ round phase), fun b0 b1 b2 b3 => ?_⟩,
      fun micros phase => ⟨fun last => ?_, fun c rest more => ?_⟩⟩
    · intro answers
      rw [exec_driveStatus_of b0 b1 b2 b3 round phase]
      refine ⟨fun good value => ?_, fun good value => ?_, fun good value => ?_, fun good value => ?_, fun bad => ?_⟩
      · rw [judge_of good, value]
        rfl
      · rw [judge_of good, value]
        rfl
      · rw [judge_of good, value]
        rfl
      · rw [judge_of good, value]
        rfl
      · rw [judge_miss bad]
    · rw [exec_gapEnd_of round phase, last]
      rfl
    · rw [exec_gapEnd_of round phase, more]
      rfl
end

