-- ==== Sys2Proof/Proofs/DriveStatus.lean ====
section
/-! SUPPORT. The drive status event: what a judged result does to its channel, and when the event waits. -/

namespace Sys2Proof.Machine

/-! ### What a result does to a channel -/

theorem takeDrive_off {ch : Channel} (limit : Nat) (r : DriveResult) (h : ch.state = .off) :
    ch.takeDrive limit r = { entry := ch } := if_pos h

theorem takeDrive_ready {ch : Channel} (limit : Nat) (h : ch.state ≠ .off) :
    ch.takeDrive limit (.good .ready) = ch.takeFit .ready := if_neg h

theorem takeDrive_limit {ch : Channel} (limit : Nat) (h : ch.state ≠ .off) :
    ch.takeDrive limit (.good .torqueLimit) = ch.takeFit .torqueLimit := if_neg h

theorem takeDrive_down {ch : Channel} {d : DriveState} (limit : Nat) (h : ch.state ≠ .off)
    (down : d = .tripped ∨ d = .disabled) : ch.takeDrive limit (.good d) = ch.takeDown d := by
  obtain rfl | rfl := down
  all_goals exact if_neg h

theorem takeDrive_miss {ch : Channel} (limit : Nat) (h : ch.state ≠ .off) :
    ch.takeDrive limit .miss = ch.takeMiss limit := if_neg h

theorem takeFit_eq (ch : Channel) (d : DriveState) :
    let goodRun := if ch.goodRun < 8 then ch.goodRun + 1 else 8
    ch.takeFit d =
      { entry := { ch with
          missRun := 0, lastDrive := some d, goodRun := goodRun
          state := if goodRun = 8 then
              match ch.state with
              | .waiting | .running => .running
              | .stale => .stale
              | .off => .off
              | .lost .check => .lost .check
              | .lost .noReply | .lost .driveDown | .lost .capture => .running
            else ch.state }
        driveLimit := d == .torqueLimit } := by
  intro goodRun
  have count : min (ch.goodRun + 1) 8 = goodRun := by
    simp only [goodRun]
    split_ifs <;> omega
  rw [Channel.takeFit, count]
  cases ch.state with
  | lost reason => cases reason <;> rfl
  | off | waiting | running | stale => rfl

theorem takeDown_eq {ch : Channel} (d : DriveState) (h : ch.state ≠ .off) : ch.takeDown d =
    { entry := { ch with
        goodRun := 0, missRun := 0, lastDrive := some d
        state := if ch.state = .lost .check then .lost .check else .lost .driveDown }
      lost := ch.state.canFall } := by
  rw [Channel.takeDown]
  cases state : ch.state with
  | off => exact absurd state h
  | lost reason => cases reason <;> rfl
  | waiting | running | stale => rfl

theorem takeMiss_eq (limit : Nat) (ch : Channel) :
    let missRun := if ch.missRun < 15 then ch.missRun + 1 else 15
    ch.takeMiss limit =
      { entry := { ch with
          goodRun := 0, missRun := missRun
          state := if decide (limit ≤ missRun) && ch.state.canFall then .lost .noReply else ch.state }
        lost := decide (limit ≤ missRun) && ch.state.canFall } := by
  intro missRun
  have count : min (ch.missRun + 1) 15 = missRun := by
    simp only [missRun]
    split_ifs <;> omega
  rw [Channel.takeMiss, count]

theorem canFall_of (st : ChannelState) : st.canFall = true ↔ st = .waiting ∨ st = .running ∨ st = .stale := by
  cases st <;> simp [ChannelState.canFall]

/-! ### The event -/

theorem takeChannelStep_silent (s : State) (c : ChannelNo) (entry : Channel) :
    s.takeChannelStep c { entry := entry } = s.setChannel c entry := rfl

theorem takeChannelStep_limit (s : State) (c : ChannelNo) (entry : Channel) :
    s.takeChannelStep c { entry := entry, driveLimit := true } = (s.setChannel c entry).report (.driveLimit c) := rfl

/-- The link once a result has been taken: the counts and the gap (R120, R125). -/
def Link.taken (l : Link) (rd : Round) (r : DriveResult) : Link :=
  { l with
    counts := l.counts.set rd.message.channel (l.counts[rd.message.channel].afterJudgement r)
    round := some { rd with phase := .gap r.gap } }

theorem takeDriveStatus_of {s : State} {rd : Round} {r : DriveResult} (h : s.link.round = some rd)
    (judged : rd.phase = .judged r) : s.takeDriveStatus =
      ({ s with link := s.link.taken rd r } : State).takeChannelStep rd.message.channel
        (s.channels[rd.message.channel].takeDrive s.engine.missLimit r) := by
  rw [State.takeDriveStatus, h]
  dsimp only
  rw [judged]
  rfl

theorem driveStatusLoses_of {s : State} {rd : Round} {r : DriveResult} (h : s.link.round = some rd)
    (judged : rd.phase = .judged r) :
    s.driveStatusLoses = (s.channels[rd.message.channel].takeDrive s.engine.missLimit r).lost := by
  rw [State.driveStatusLoses, h]
  dsimp only
  rw [judged]

theorem mustWait_driveStatus (s : State) : s.mustWait .driveStatus =
    if !s.driveStatusLoses then s.channelsHeld else s.arbiter.inService.isSome := rfl

theorem exec_driveStatusEvent_of {s : State} {rd : Round} {r : DriveResult} (h : s.link.round = some rd)
    (judged : rd.phase = .judged r) (first : TableEvent.driveStatus ∉ s.arbiter.deferred) :
    exec .driveStatusEvent s = .next (s.raise .driveStatus) := by
  have is : s.link.isJudged = true := by
    rw [Link.isJudged, Link.phase, h]
    dsimp only [Option.map_some]
    rw [judged]
  have fresh : s.arbiter.deferred.contains .driveStatus = false := by
    rw [Bool.eq_false_iff, ne_eq, List.contains_iff_mem]
    exact first
  refine congrArg Host.Outcome.next (if_pos ?_)
  rw [is, fresh]
  rfl

/-- A channel lost, seen from a state that differs in the drive link's counts and round alone. -/
theorem lostAt_withLink {s t : State} {l : Link} {c : ChannelNo} {entry : Channel} {also : Flag → Prop}
    (h : ({ s with link := l } : State).LostAt t c entry also) (slots : l.slots = s.link.slots)
    (none_else : ∀ fl, ¬ also fl) : s.LostAt t c entry fun _ => False := by
  obtain ⟨agree, posts, raised, own, other, cut, rest⟩ := h
  refine ⟨agree, posts.trans (by rw [slots]), Raised.congr raised fun fl => or_congr_left (iff_false_intro (none_else fl)),
    own, other, fun i r hr names => ?_, rest⟩
  exact CutAt.weaken (cut i r hr names) rfl rfl rfl rfl rfl fun _ set => set

end Sys2Proof.Machine

open Sys2Proof Sys2Proof.Machine

/-- Settles O60: the result by its kind and by the state of its channel, and the table that the event waits for. -/
theorem driveStatusActsOnTheChannel : Obligations.DriveStatusActsOnTheChannel := by
  intro s rd result round judged first c ch n up link goodRun missRun risen fit falls down loses waits
  have exec_eq := exec_driveStatusEvent_of round judged first
  have taken_link : s.link.taken rd result = link := by
    have counts : n.afterJudgement result =
        if result = .miss then { n with misses := up n.misses } else { n with replies := up n.replies } := by
      have counted (w : Word) : countUp w = up w := by
        show (if w = 0xFFFFFFFF then w else w + 1) = if w = 0xFFFFFFFF then w else w + 1
        rfl
      cases result with
      | miss => exact congrArg (fun w => { n with misses := w }) (counted n.misses)
      | good d => exact congrArg (fun w => { n with replies := w }) (counted n.replies)
    have gap : result.gap = if result = .miss then 6 else 2 := by cases result <;> rfl
    rw [Link.taken, gap]
    exact congrArg (fun x => { link with counts := s.link.counts.set c x }) counts
  have falls_iff : ch.state.canFall = true ↔ falls := canFall_of ch.state
  have on_of_falls (h : falls) : ch.state ≠ .off := by
    obtain e | e | e := h
    all_goals
      rw [e]
      exact nofun
  have loses_eq := driveStatusLoses_of round judged
  have takes (now : s.mustWait .driveStatus = false) {st : ChannelStep}
      (step : ch.takeDrive s.engine.missLimit result = st) :
      exec .driveStatusEvent s = .next (({ s with link := link } : State).takeChannelStep c st) := by
    rw [exec_eq, raise_taken now, State.takeEvent, takeDriveStatus_of round judged, taken_link]
    exact congrArg (fun st => Host.Outcome.next (({ s with link := link } : State).takeChannelStep c st)) step
  have lost_iff : (ch.takeDrive s.engine.missLimit result).lost = true ↔ loses := by
    by_cases off : ch.state = .off
    · rw [takeDrive_off _ _ off]
      exact ⟨nofun, fun h => absurd off (on_of_falls h.1)⟩
    cases result with
    | good d =>
      cases d with
      | ready =>
        rw [takeDrive_ready _ off]
        exact ⟨nofun, fun h => by simp [loses] at h⟩
      | torqueLimit =>
        rw [takeDrive_limit _ off]
        exact ⟨nofun, fun h => by simp [loses] at h⟩
      | tripped =>
        rw [takeDrive_down _ off (.inl rfl)]
        exact falls_iff.trans (by simp [loses])
      | disabled =>
        rw [takeDrive_down _ off (.inr rfl)]
        exact falls_iff.trans (by simp [loses])
    | miss =>
      rw [takeDrive_miss _ off, takeMiss_eq]
      dsimp only
      rw [Bool.and_eq_true, decide_eq_true_iff, falls_iff, and_comm]
      simp [loses, missRun]
  have quiet (free : s.channelsHeld = false) {st : ChannelStep}
      (step : ch.takeDrive s.engine.missLimit result = st) (silent : st.lost = false) :
      exec .driveStatusEvent s = .next (({ s with link := link } : State).takeChannelStep c st) := by
    refine takes ?_ step
    rw [mustWait_driveStatus, loses_eq, show s.channels[rd.message.channel].takeDrive s.engine.missLimit result = st from
      step, silent]
    exact free
  have losing (free : s.arbiter.inService = none) {st : ChannelStep}
      (step : ch.takeDrive s.engine.missLimit result = st) (lost : st.lost = true)
      (none_else : ∀ fl, ¬ st.Reports c fl) : ∃ t : State,
        exec .driveStatusEvent s = .next { s with
          link := { link with slots := t.link.slots }
          channels := t.channels, slots := t.slots, completions := t.completions, faults := t.faults } ∧
        s.LostAt t c st.entry fun _ => False := by
    have now : s.mustWait .driveStatus = false := by
      rw [mustWait_driveStatus, State.channelsHeld, free]
      cases s.driveStatusLoses <;> rfl
    obtain ⟨left, eq⟩ := (takeChannelStep_spec ({ s with link := link } : State) c st).2 lost
    refine ⟨_, (takes now step).trans (congrArg Host.Outcome.next eq), lostAt_withLink left rfl none_else⟩
  refine ⟨fun held => ?_, fun free => ⟨fun off => ?_, fun on ready => ?_, fun on limited => ?_, fun d lost kind good => ?_,
    fun on stays miss => ?_⟩, fun free => ⟨fun d falling kind good => ?_, fun falling long miss => ?_⟩⟩
  · have later : s.mustWait .driveStatus = true := by
      rw [mustWait_driveStatus]
      obtain h | ⟨h, busy⟩ := held
      · split_ifs
        · exact h
        · exact channelsHeld_inService h
      · rw [loses_eq, show (s.channels[rd.message.channel].takeDrive s.engine.missLimit result).lost = true from
          lost_iff.mpr h]
        exact busy
    show exec .driveStatusEvent s = _
    rw [exec_eq, raise_waits later]
  · have same : s.channels.set c ch = s.channels := Vector.set_getElem_self _
    rw [quiet free (takeDrive_off _ _ off) rfl, takeChannelStep_silent, State.setChannel, same]
  · subst ready
    rw [quiet free ((takeDrive_ready _ on).trans (takeFit_eq ch .ready)) rfl]
    exact congrArg Host.Outcome.next (takeChannelStep_silent _ c (fit .ready))
  · subst limited
    refine ⟨s.faults.report (.driveLimit c) .mismatch, report_reported _ _ _, ?_⟩
    rw [quiet free ((takeDrive_limit _ on).trans (takeFit_eq ch .torqueLimit)) rfl]
    exact congrArg Host.Outcome.next (takeChannelStep_limit _ c (fit .torqueLimit))
  · subst good
    have on : ch.state ≠ .off := by
      intro off
      rw [off] at lost
      cases lost
    have stays : ch.state.canFall = false := by
      cases state : ch.state with
      | lost reason => rfl
      | off => rfl
      | waiting | running | stale =>
        rw [state] at lost
        cases lost
    have step := (takeDrive_down s.engine.missLimit on kind).trans (takeDown_eq d on)
    rw [stays] at step
    rw [quiet free step rfl]
    exact congrArg Host.Outcome.next (takeChannelStep_silent _ c (down d))
  · subst miss
    have low : (decide (s.engine.missLimit ≤ missRun) && ch.state.canFall) = false := by
      rw [Bool.eq_false_iff, ne_eq, Bool.and_eq_true, decide_eq_true_iff, falls_iff, and_comm]
      exact stays
    have step := (takeDrive_miss s.engine.missLimit on).trans (takeMiss_eq s.engine.missLimit ch)
    rw [show (if ch.missRun < 15 then ch.missRun + 1 else 15) = missRun from rfl, low] at step
    rw [quiet free step rfl]
    exact congrArg Host.Outcome.next (takeChannelStep_silent _ c { ch with goodRun := 0, missRun := missRun })
  · subst good
    have on := on_of_falls falling
    have step := (takeDrive_down s.engine.missLimit on kind).trans (takeDown_eq d on)
    refine losing free step (falls_iff.mpr falling) fun fl => ?_
    rintro (⟨-, h⟩ | ⟨-, h⟩ | ⟨-, h⟩)
    all_goals cases h
  · subst miss
    have step := (takeDrive_miss s.engine.missLimit (on_of_falls falling)).trans (takeMiss_eq s.engine.missLimit ch)
    have high : (decide (s.engine.missLimit ≤ missRun) && ch.state.canFall) = true := by
      rw [Bool.and_eq_true, decide_eq_true_iff]
      exact ⟨long, falls_iff.mpr falling⟩
    rw [show (if ch.missRun < 15 then ch.missRun + 1 else 15) = missRun from rfl, high] at step
    refine losing free step rfl fun fl => ?_
    rintro (⟨-, h⟩ | ⟨-, h⟩ | ⟨-, h⟩)
    all_goals cases h
end

