-- ==== Sys2Proof/Proofs/WaitingAccesses.lean ====
section
/-! SUPPORT. What stands while an access is in service. -/

namespace Sys2Proof.Machine

/-! ### An event at the Channel Table alone -/

theorem perform_atChannels_slots (s : State) {r : TableRequest} (h : r.atChannels = true) :
    (s.perform r).1.slots = s.slots := by
  cases r with
  | writeChannel index item w =>
    simp only [State.perform, State.writeChannel]
    repeat' split
    · rfl
    · rw [channelChanged_eq]
      rfl
    · rfl
  | lookupChannel index =>
    simp only [State.perform, State.lookupChannel]
    split
    all_goals rfl
  | _ => cases h

theorem takeRequest_atChannels {s : State} (h : s.requestAtChannels = true) :
    s.takeRequest.slots = s.slots ∧ s.takeRequest.startup = s.startup := by
  unfold State.requestAtChannels at h
  cases hv : s.port.service with
  | none =>
    rw [hv] at h
    cases h
  | some v =>
    rw [hv] at h
    dsimp only at h
    cases hr : v.request with
    | table r =>
      rw [hr] at h
      dsimp only at h
      rw [takeRequest_judging s v r hv hr]
      exact ⟨perform_atChannels_slots s h,
        (like_perform (s := s) r fun name e => by rw [e] at h; cases h).startup⟩
    | _ =>
      rw [hr] at h
      cases h

theorem takeDriveStatus_quiet {s : State} (h : s.driveStatusLoses = false) : s.takeDriveStatus.slots = s.slots := by
  cases round : s.link.round with
  | none =>
    rw [State.takeDriveStatus, round]
  | some rd =>
    cases phase : rd.phase with
    | judged r =>
      rw [driveStatusLoses_of round phase] at h
      rw [takeDriveStatus_of round phase, ((takeChannelStep_spec _ _ _).1 h).1]
    | _ =>
      rw [State.takeDriveStatus, round]
      dsimp only
      rw [phase]

/-- An event at the Channel Table alone changes no record (R38). -/
theorem takeEvent_atChannelsOnly {s : State} {e : TableEvent} (h : s.atChannelsOnly e = true) :
    (s.takeEvent e).slots = s.slots ∧ (s.takeEvent e).startup = s.startup := by
  cases e with
  | request => exact takeRequest_atChannels h
  | captureSet set =>
    have keeps : ∀ c, (s.captureStep set c).lost = false := by
      simpa [State.atChannelsOnly, State.captureSetLoses] using h
    obtain ⟨eq, -, -⟩ := stepsOf_quiet keeps
    rw [takeEvent_captureSet, eq]
    exact ⟨rfl, rfl⟩
  | driveStatus =>
    exact ⟨takeDriveStatus_quiet (by simpa [State.atChannelsOnly] using h), (like_takeDriveStatus s).startup⟩
  | stopAsserted | stopDeasserted => cases h

/-! ### Between the ends of accesses -/

/-- What stands while the access is in service. -/
structure State.Meanwhile (s : State) (a : Access) (t : State) : Prop where
  startup : t.startup = .ready
  inService : t.arbiter.inService = some a
  slots : t.slots = s.slots
  channels : a.touchesChannels = true → t.channels = s.channels
  waiting : s.arbiter.waiting <+: t.arbiter.waiting
  deferred : s.arbiter.deferred <+: t.arbiter.deferred

/-- Accesses requested go behind those that wait. -/
theorem State.Meanwhile.asked {s t u : State} {a : Access} (h : s.Meanwhile a t) {asked : List Access}
    (arbiter : u.arbiter = asked.foldl Arbiter.asked t.arbiter) (startup : u.startup = t.startup)
    (slots : u.slots = t.slots) (channels : a.touchesChannels = true → u.channels = t.channels) : s.Meanwhile a u := by
  have busy : t.arbiter = { inService := some a, waiting := t.arbiter.waiting, deferred := t.arbiter.deferred } := by
    rw [← h.inService]
  rw [busy, asked_busy] at arbiter
  exact
    { startup := startup.trans h.startup
      inService := by rw [arbiter]
      slots := slots.trans h.slots
      channels := fun touches => (channels touches).trans (h.channels touches)
      waiting := by
        rw [arbiter]
        exact h.waiting.trans (List.prefix_append _ _)
      deferred := by
        rw [arbiter]
        exact h.deferred }

/-- An event that need not wait while an access is in service is at the Channel Table alone, and the access is not. -/
theorem not_mustWait {s : State} {a : Access} (own : s.arbiter.inService = some a) {e : TableEvent}
    (h : s.mustWait e = false) : s.atChannelsOnly e = true ∧ a.touchesChannels = false := by
  rw [State.mustWait, Bool.or_eq_false_iff] at h
  obtain ⟨-, free⟩ := h
  split_ifs at free with only
  · refine ⟨only, ?_⟩
    rwa [State.channelsHeld, own] at free
  · rw [own] at free
    cases free

theorem State.Meanwhile.raise {s t : State} {a : Access} (h : s.Meanwhile a t) (e : TableEvent) :
    s.Meanwhile a (t.raise e) := by
  cases waits : t.mustWait e with
  | true =>
    rw [raise_waits waits]
    exact { h with deferred := h.deferred.trans (List.prefix_append _ _) }
  | false =>
    obtain ⟨only, free⟩ := not_mustWait h.inService waits
    obtain ⟨slots, startup⟩ := takeEvent_atChannelsOnly only
    obtain ⟨asked, arbiter⟩ := takeEvent_asked t e
    rw [raise_taken waits]
    exact h.asked arbiter startup slots fun touches => absurd (free.symm.trans touches) nofun

theorem meanwhile_kept (s : State) (a : Access) : KeptMeanwhile (s.Meanwhile a) where
  same t u arbiter slots channels startup h :=
    h.asked (asked := []) arbiter startup slots fun _ => channels
  raise t e h := h.raise e
  request t b h := by
    rw [request_asked]
    exact h.asked (asked := [b]) rfl rfl rfl fun _ => rfl

/-- After READY the end of another access, and start-up, have no occasion. -/
theorem exec_no_occasion {s : State} {a : Access} {c : Instr} (ready : s.startup = .ready)
    (own : s.arbiter.inService = some a) (other : c ≠ a.row) (reset : c.isReset = false)
    (h : isMeanwhile c = false) : exec c s = .next s := by
  cases c <;> try cases h
  case reset | resetLine | powerOn => cases reset
  case startupLoad | ready => simp [exec, execStartupLoad, execReady, ready]
  case computation | collectDeadlineExpiry | editApplication | groupApplication =>
    simp only [exec, execComputation, execCollectDeadlineExpiry, execEditApplication, execGroupApplication]
    split
    case h_1 named =>
      cases own.symm.trans named
      exact absurd rfl other
    all_goals rfl
  case portSnapshot | saveSnapshot | profileInstall | checkStep =>
    refine congrArg Host.Outcome.next (if_neg fun named => ?_)
    cases own.symm.trans named
    exact other rfl

theorem step_meanwhile {s t : State} {c : Instr} {rest : List Instr} {a : Access} (queue : s.pending = c :: rest)
    (ready : s.startup = .ready) (own : s.arbiter.inService = some a) (other : c ≠ a.row) (reset : c.isReset = false)
    (h : step s = .next t) : s.Meanwhile a t := by
  have start : s.Meanwhile a (s.withPending rest) := ⟨ready, own, rfl, fun _ => rfl, List.prefix_refl _, List.prefix_refl _⟩
  rw [step, queue] at h
  dsimp only at h
  cases meanwhile : isMeanwhile c with
  | true => exact (meanwhile_kept s a).exec c meanwhile start h
  | false =>
    rw [exec_no_occasion (s := s.withPending rest) ready own other reset meanwhile] at h
    cases h
    exact start

end Sys2Proof.Machine
end

