-- ==== Sys2Proof/Proofs/AccessEnds.lean ====
section
/-! SUPPORT. What the end of an access leaves of what waited for it, and the request that goes on or is judged then. -/

namespace Sys2Proof.Machine

/-! ### The work of an access that is not an edit application -/

/-- What an access writes at its end. -/
def State.work (s : State) : Access → State
  | .computation n => s.compute n
  | .expiry n => s.expire n
  | .edit _ => s
  | .group => s.applyGroup.1.endGroupService s.applyGroup.2.1 s.applyGroup.2.2
  | .install => s.takeInstall
  | .saveSnapshot => s.takeSaveSnapshot
  | .portSnapshot => s.takePortSnapshot
  | .checkStep => s.takeCheckStep

/-- The capture number at which a computation's entries fall due, when some do. -/
def State.dueAfter (s : State) : Access → Option Word
  | .computation n => if (s.compute n).anyDue n then some n else none
  | .expiry _ | .edit _ | .group | .install | .saveSnapshot | .portSnapshot | .checkStep => none

/-- A group finds a buffer whose target slot is VACANT. -/
def State.stuckAt (s : State) : Access → Bool
  | .group => s.danglingBuffer.isSome
  | .computation _ | .expiry _ | .edit _ | .install | .saveSnapshot | .portSnapshot | .checkStep => false

/-- The access in service passes its place to an expiry, or ends. -/
def State.passOn (s : State) : Option Word → State
  | some n => { s with arbiter := { s.arbiter with inService := some (.expiry n) } }
  | none => s.endAccess

theorem work_arb (s : State) (a : Access) (x : Arbiter) :
    ({ s with arbiter := x } : State).work a = { s.work a with arbiter := x } := by
  cases a with
  | computation n => exact of_dress (f := fun s => s.compute n) (fun s d => dress_compute s d n) s x
  | expiry n => exact of_dress (f := fun s => s.expire n) (fun s d => dress_expire s d n) s x
  | edit k => rfl
  | group =>
    show State.endGroupService ({ s with arbiter := x } : State).applyGroup.1
      ({ s with arbiter := x } : State).applyGroup.2.1 ({ s with arbiter := x } : State).applyGroup.2.2 = _
    rw [applyGroup_arb]
    exact endGroupService_arb s.applyGroup.1 x s.applyGroup.2.1 s.applyGroup.2.2
  | install => exact of_dress dress_takeInstall s x
  | saveSnapshot => exact of_dress dress_takeSaveSnapshot s x
  | portSnapshot => exact takePortSnapshot_arb s x
  | checkStep => exact of_dress dress_takeCheckStep s x

theorem work_arbiter (s : State) (a : Access) : (s.work a).arbiter = s.arbiter := by
  have same : s.work a = { s.work a with arbiter := s.arbiter } := work_arb s a s.arbiter
  rw [same]

theorem dueAfter_arb (s : State) (a : Access) (x : Arbiter) :
    ({ s with arbiter := x } : State).dueAfter a = s.dueAfter a := by
  cases a with
  | computation n =>
    have same : ({ s with arbiter := x } : State).compute n = { s.compute n with arbiter := x } :=
      work_arb s (.computation n) x
    rw [State.dueAfter, same]
    rfl
  | _ => rfl

theorem stuckAt_arb (s : State) (a : Access) (x : Arbiter) :
    ({ s with arbiter := x } : State).stuckAt a = s.stuckAt a := by
  cases a <;> rfl

/-- The row of an access in service: its work, and its end. -/
theorem exec_row {s : State} {a : Access} (own : s.arbiter.inService = some a) (other : ∀ k, a ≠ .edit k)
    (free : s.stuckAt a = false) : exec a.row s = .next ((s.work a).passOn (s.dueAfter a)) := by
  cases a with
  | computation n =>
    simp only [Access.row, exec, execComputation, own, State.closeComputation, State.work, State.dueAfter]
    split_ifs
    all_goals rfl
  | expiry n =>
    simp only [Access.row, exec, execCollectDeadlineExpiry, own, State.work, State.dueAfter, State.passOn]
  | edit k => exact absurd rfl (other k)
  | group =>
    have sound : s.danglingBuffer = none := by simpa [State.stuckAt] using free
    simp only [Access.row, exec, execGroupApplication, own, sound, State.work, State.dueAfter, State.passOn]
  | install | saveSnapshot | portSnapshot | checkStep => exact congrArg Host.Outcome.next (if_pos own)

theorem not_stuck_of_next {s u : State} {a : Access} (own : s.arbiter.inService = some a)
    (h : exec a.row s = .next u) : s.stuckAt a = false := by
  cases a with
  | group =>
    simp only [Access.row, exec, execGroupApplication, own] at h
    cases stuck : s.danglingBuffer with
    | none => rw [State.stuckAt, stuck]; rfl
    | some i =>
      rw [stuck] at h
      cases h
  | _ => rfl

theorem row_endsTo {s u : State} {a : Access} {events : List TableEvent} {waiting : List Access}
    (other : ∀ k, a ≠ .edit k) (busy : s.arbiter = { inService := some a, waiting := waiting, deferred := events })
    (alone : exec a.row { s with arbiter := { inService := some a, waiting := [], deferred := [] } } = .next u) :
    (u.arbiter = { inService := none, waiting := [], deferred := [] } →
      ∃ t, exec a.row s = .next t ∧ u.EndsTo t events waiting) ∧
    ∀ n, u.arbiter = { inService := some (.expiry n), waiting := [], deferred := [] } →
      exec a.row s =
        .next { u with arbiter := { inService := some (.expiry n), waiting := waiting, deferred := events } } := by
  have free := not_stuck_of_next (by rfl) alone
  rw [exec_row (by rfl) other free, work_arb, dueAfter_arb] at alone
  rw [stuckAt_arb] at free
  rw [exec_row (by rw [busy]) other free]
  have kept := (work_arbiter s a).trans busy
  generalize s.work a = y at alone kept ⊢
  cases alone
  cases s.dueAfter a with
  | none =>
    obtain ⟨left, ends⟩ := ends_of_quiet y a waiting events kept
    simp only [State.passOn, left]
    exact ⟨fun _ => ⟨_, rfl, ends⟩, nofun⟩
  | some m =>
    simp only [State.passOn, kept]
    refine ⟨nofun, fun n same => ?_⟩
    cases same
    rfl

/-! ### The end of an edit application -/

theorem also_outcome (s : State) (k : BufferNo) (b : EditBuffer) (old : EditOutcome) :
    old.also (s.applyEdit k b).2 = match old, b.rejection s.slots with
      | .rejected first, _ => .rejected first
      | .untouched, some reason | .applied, some reason => .rejected reason
      | .untouched, none | .applied, none => .applied := by
  rw [applyEdit_outcome]
  cases b.rejection s.slots <;> cases old <;> rfl

/-- The application of an edit with nothing waiting, closed by a commit, leaves what the application with another
request in service leaves of everything but the port's request and reply. -/
theorem exec_editApplication_commit {s w : State} {k : BufferNo} {b : EditBuffer} {committed : Service} {tag : Half}
    (hb : s.edit.buffers[k] = some b) (commit : committed.request = .commit tag) (last : committed.phase = .closing [])
    (alone : exec .editApplication { s with
      arbiter := { inService := some (.edit k), waiting := [], deferred := [] }
      port := { s.port with service := some committed } } = .next w) (service : Option Service) :
    b.dangling s.slots = none ∧
    ({ w with port := { w.port with service := service, reply := s.port.reply } } : State) =
      { (s.applyEdit k b).1 with
        arbiter := { inService := none, waiting := [], deferred := [] }
        port := { (s.applyEdit k b).1.port with service := service } } := by
  set c : State := { s with
    arbiter := { inService := some (.edit k), waiting := [], deferred := [] }
    port := { s.port with service := some committed } } with hc
  have sound : b.dangling s.slots = none := by
    cases dangling : b.dangling s.slots with
    | none => rfl
    | some i =>
      have fault : exec .editApplication c = .fault (.danglingEdit i) := by
        simp only [exec, execEditApplication, hc, hb, dangling]
      rw [fault] at alone
      cases alone
  refine ⟨sound, ?_⟩
  rw [exec_editApplication_alone (s := c) rfl hb sound] at alone
  cases alone
  rw [goesOn_commit (edited_goesOn k b (s := c) rfl) last commit]
  have applied : c.applyEdit k b = ({ (s.applyEdit k b).1 with
      arbiter := { inService := some (.edit k), waiting := [], deferred := [] }
      port := { (s.applyEdit k b).1.port with service := some committed } }, (s.applyEdit k b).2) := by
    rw [hc, applyEdit_arb { s with port := { s.port with service := some committed } }, applyEdit_service]
  obtain ⟨-, reply, -⟩ := applyEdit_port s k b
  simp only [State.edited, applied, State.gatherEdit, ← reply]

theorem editApplication_endsTo {s w : State} {k : BufferNo} {b : EditBuffer} {v committed : Service} {tag : Half}
    {events : List TableEvent} {waiting : List Access}
    (busy : s.arbiter = { inService := some (.edit k), waiting := waiting, deferred := events })
    (hb : s.edit.buffers[k] = some b) (hv : s.port.service = some v) (quiet : .request ∉ events)
    (commit : committed.request = .commit tag) (last : committed.phase = .closing [])
    (alone : exec .editApplication { s with
      arbiter := { inService := some (.edit k), waiting := [], deferred := [] }
      port := { s.port with service := some committed } } = .next w) :
    let gathered : Service := { v with edit := v.edit.also (s.applyEdit k b).2 }
    ∃ t u : State, exec .editApplication s = .next t ∧
      State.EndsTo { w with port := { w.port with service := some gathered, reply := s.port.reply } } u events waiting ∧
      u.GoesOn t gathered := by
  intro gathered
  obtain ⟨sound, left⟩ := exec_editApplication_commit hb commit last alone (some gathered)
  obtain ⟨service, -, arbiter⟩ := applyEdit_port s k b
  have gather := gatherEdit_eq (service.trans hv) (s.applyEdit k b).2
  have own : s.arbiter.inService = some (.edit k) := by rw [busy]
  have waits : ((s.applyEdit k b).1.gatherEdit (s.applyEdit k b).2).arbiter =
      { inService := some (.edit k), waiting := waiting, deferred := events } :=
    (gatherEdit_arbiter _ _).trans (arbiter.trans busy)
  have ends := endAccess_endsTo _ _ _ _ waits
  have serves : ((s.applyEdit k b).1.gatherEdit (s.applyEdit k b).2).endAccess.port.service = some gathered := by
    rw [endAccess_service _ (by rw [waits]; exact quiet), gather]
  refine ⟨_, _, ?_, ?_, goesOn_proceed _ _ serves⟩
  · simp only [exec, execEditApplication, own, hb, sound, endEdit]
  · rw [left]
    rw [gather] at ends ⊢
    exact ends

/-! ### A request that waited to be judged -/

/-- A request judged on a free table leaves what it would leave if it came now, with no edit to close. -/
theorem takeRequest_asAsked {u w : State} {v : Service} {i : Instr} {r : TableRequest} {e : EditUnit} (free : u.TableFree)
    (ready : u.startup = .ready) (load : u.store.op.isLoading = false) (hv : u.port.service = some v)
    (hr : v.request = .table r) (head : i.requestHead = some (v.code, v.seq)) (asks : i.asksFor = some (.table r))
    (agrees : e.Agrees u.edit) (quiet : e.groupMode = true ∨ e.buffers = Vector.replicate 4 none)
    (asked : exec i { u with port := { u.port with chipSelect := .low false, service := none }, edit := e } = .next w) :
    u.takeRequest = w.asServed u v.edit := by
  set x : State := { u with port := { u.port with chipSelect := .low false, service := none }, edit := e } with hx
  obtain ⟨begins, refuses⟩ := exec_asks i v.code v.seq (.table r) x ⟨⟨rfl, rfl⟩, ready⟩ load head asks
  obtain none_closed | ⟨index, refusal, named, -, refused, unresolved⟩ := closes_quiet x quiet (.table r)
  · rw [begins _ none_closed] at asked
    cases asked
    have judged : x.raised.begin v.code v.seq (.table r) [] = (u.dress
        { arbiter := u.arbiter, edit := e, chipSelect := .high
          service := some (judging v.code v.seq r .untouched) }).takeRequest := by
      rw [← State.takeEvent, ← raise_of_free _ _ (by exact free)]
      rfl
    rw [judged]
    exact takeRequest_asServed u v r e .high u.arbiter hv hr agrees rfl
  · rw [refuses _ refused] at asked
    cases asked
    rw [takeRequest_judging u v r hv hr, perform_unresolved u r index refusal named unresolved]
    simp only [hx, State.replyWith, State.asServed, State.replied, Reply.plain]
    simp

end Sys2Proof.Machine

open Sys2Proof Sys2Proof.Machine

/-- Settles O9: what stands while an access is in service, its end, and the requests and events on a free table. -/
theorem nothingWaitsOnAFreeTable : Obligations.NothingWaitsOnAFreeTable := by
  refine ⟨fun _ _ => tableQuiet_step, fun s t c rest a queue ready own other reset h => ?_, fun s e => ?_,
    fun s u a events waiting other busy alone => row_endsTo other busy alone,
    fun s w k b v committed toClose tag events waiting busy hb hv _ quiet commit last alone => ?_,
    fun u w v i r free ready load hv hr head asks => ⟨fun single asked => ?_, fun group asked => ?_⟩,
    fun _ _ => ⟨rfl, rfl, rfl⟩, fun s free ready => ⟨fun low => ?_, fun high => ?_, fun judged => ?_, fun p running => ?_,
      fun i code seq r listens load head asks direct => ?_⟩⟩
  · obtain ⟨-, inService, slots, channels, waits, deferred⟩ := step_meanwhile queue ready own other reset h
    exact ⟨inService, slots, channels, waits, deferred⟩
  · obtain ⟨t, asked, -, taken⟩ := takeEvent_requests s e
    exact ⟨t, asked, taken⟩
  · have ends := editApplication_endsTo busy hb hv quiet commit last alone
    rw [also_outcome] at ends
    exact ends
  · exact takeRequest_asAsked free ready load hv hr head asks (fun tag => by simp [single]) (.inr rfl) asked
  · exact takeRequest_asAsked free ready load hv hr head asks (agrees_refl u.edit) (.inl group) asked
  · rw [← raise_of_free _ _ (by exact free)]
    exact congrArg Host.Outcome.next ((if_neg (by rw [low]; exact nofun)).trans (if_pos ready))
  · rw [← raise_of_free _ _ (by exact free)]
    exact congrArg Host.Outcome.next ((if_pos high).trans (if_pos ready))
  · rw [← raise_of_free s _ free]
    have none_deferred : s.arbiter.deferred = [] := by rw [show s.arbiter = _ from free]
    exact congrArg Host.Outcome.next (if_pos (by rw [judged, none_deferred]; rfl))
  · rw [exec_capture_running running, raise_of_free _ _ (by exact free)]
    rfl
  · have closes : s.closes (.table r) = .ok [] := by
      obtain group | channels | ⟨a, b, d, rfl⟩ := direct
      · obtain closed | ⟨_, _, -, single, -⟩ := closes_quiet s (.inl group) (.table r)
        · exact closed
        · exact absurd (group.symm.trans single) nofun
      · cases r with
        | writeChannel _ _ _ | lookupChannel _ => rfl
        | _ => cases channels
      · rfl
    rw [(exec_asks i code seq (.table r) s listens load head asks).1 [] closes, ← raise_of_free _ _ (by exact free)]
    rfl
end
